-- ==== Sys2Proof/Word.lean ====
section
/-! DEFINITION. The word types of the host bus, the banks and the buffer (rules R9, R60), and the number of a bank
(rule R83). -/

namespace Sys2Proof

/-- A byte of BYTEBUF, of the RNG port and of the host address space (rule R9). -/
abbrev Byte := BitVec 8

/-- One entry of a Z bank (rule R42). -/
abbrev Half := BitVec 16

/-- A word of the host bus, a CSR, a command word (rules R23, R62, R80). -/
abbrev Word := BitVec 32

/-- A binary64 by its bit pattern (rule R11). -/
abbrev B64 := BitVec 64

/-- A byte address of the host address space (rule R60). -/
abbrev Addr := BitVec 20

/-- A bank number, 0 to 3 (rule R83). -/
abbrev Bank := Fin 4

end Sys2Proof
end

