-- ==== Sys2Proof/Syntax.lean ====
section
/-! DEFINITION. The commands: one constructor per row of the opcode map (rule R87). A constructor holds the fields its
operation uses and no other (rule R86: fields an operation does not use are ignored). `len` is the LEN field, the ring
length; a LEN outside the operation's length class is still a command, one that completes with BAD_LEN (rule R84). -/

namespace Sys2Proof

/-- The 33 operations of rule R87, with the operands of rule R86's table. -/
inductive Instr where
  | nop
  | fsplit  (rd re ra : Bank) (len : Nat)
  | fmerge  (rd ra rb : Bank) (len : Nat)
  | zsplit  (rd re ra : Bank) (len : Nat)
  | zmerge  (rd ra rb : Bank) (len : Nat)
  | fft     (rd ra : Bank) (len : Nat)
  | ifft    (rd ra : Bank) (len : Nat)
  | fsplitt (rd re ra : Bank) (len : Nat)
  | fmerget (rd ra rb : Bank) (len : Nat)
  | fadd    (rd ra rb : Bank) (len : Nat)
  | fsub    (rd ra rb : Bank) (len : Nat)
  | fmulf   (rd ra rb : Bank) (len : Nat)
  | fdivf   (rd ra rb : Bank) (len : Nat)
  | fadjf   (rd ra : Bank) (len : Nat)
  | fmul    (rd ra rb : Bank) (len : Nat)
  | fdiv    (rd ra rb : Bank) (len : Nat)
  | fadj    (rd ra : Bank) (len : Nat)
  | ntt     (rd ra : Bank) (len : Nat)
  | intt    (rd ra : Bank) (len : Nat)
  | zsplitt (rd re ra : Bank) (len : Nat)
  | zmerget (rd ra rb : Bank) (len : Nat)
  | zadd    (rd ra rb : Bank) (len : Nat)
  | zsub    (rd ra rb : Bank) (len : Nat)
  | zmuln   (rd ra rb : Bank) (len : Nat)
  | zdivn   (rd ra rb : Bank) (len : Nat)
  | zmul    (rd ra rb : Bank) (len : Nat)
  | zdiv    (rd ra rb : Bank) (len : Nat)
  | gbase
  | gexp
  | gber
  | gsamp
  | cmpr    (ra : Bank) (len : Nat)
  | dcmp    (rd : Bank) (len : Nat)
  deriving DecidableEq, Repr

end Sys2Proof
end

