-- ==== Sys2Proof/WellFormed.lean ====
section
/-! DEFINITION. Which commands a command word can hold: LEN is an 11-bit field (rule R81). Bank numbers are two bits by
their type. Whether LEN is legal for the operation is NOT asked here: an illegal LEN is a command that completes with
BAD_LEN (rule R84). -/

namespace Sys2Proof

/-- The LEN field of a command; 0 where the operation has none (class X of rule R84, and rule R91: unused fields
assemble as 0). -/
def Instr.lenField : Instr → Nat
  | .nop | .gbase | .gexp | .gber | .gsamp => 0
  | .fsplit _ _ _ n | .fmerge _ _ _ n | .zsplit _ _ _ n | .zmerge _ _ _ n => n
  | .fft _ _ n | .ifft _ _ n | .fadjf _ _ n | .fadj _ _ n | .ntt _ _ n | .intt _ _ n => n
  | .fsplitt _ _ _ n | .fmerget _ _ _ n | .zsplitt _ _ _ n | .zmerget _ _ _ n => n
  | .fadd _ _ _ n | .fsub _ _ _ n | .fmulf _ _ _ n | .fdivf _ _ _ n | .fmul _ _ _ n | .fdiv _ _ _ n => n
  | .zadd _ _ _ n | .zsub _ _ _ n | .zmuln _ _ _ n | .zdivn _ _ _ n | .zmul _ _ _ n | .zdiv _ _ _ n => n
  | .cmpr _ n | .dcmp _ n => n

/-- The command fits its word: LEN is 0 to 2047 (rule R81). -/
def Instr.wf (i : Instr) : Bool := decide (i.lenField < 2048)

end Sys2Proof
end

