-- ==== Sys2Proof/Decode.lean ====
section
/-! DEFINITION. The command word (rules R80 to R90): its fields, the decoder, total on every 32-bit word and rejecting
by name, and the encoder. -/

namespace Sys2Proof

/-- Why a command word names no command. Both complete with ILLEGAL_OP (rules R85, R88, R263). -/
inductive DecodeError where
  /-- A reserved bit [15:14] or [31:27] is set (rule R85). -/
  | reservedBits
  /-- OP is one of the 31 reserved values (rule R88). -/
  | reservedOpcode
  deriving DecidableEq, Repr

/-- Field OP, bits [5:0] (rule R81). -/
def fieldOp (w : Word) : Nat := w.toNat % 64

/-- The two-bit bank field whose low bit is `lo` (rule R81). -/
def fieldBank (lo : Nat) (w : Word) : Bank := ⟨w.toNat / 2 ^ lo % 4, Nat.mod_lt _ (by decide)⟩

/-- Field RD, bits [7:6]. -/
def fieldRd (w : Word) : Bank := fieldBank 6 w
/-- Field RA, bits [9:8]. -/
def fieldRa (w : Word) : Bank := fieldBank 8 w
/-- Field RB, bits [11:10]. -/
def fieldRb (w : Word) : Bank := fieldBank 10 w
/-- Field RE, bits [13:12]. -/
def fieldRe (w : Word) : Bank := fieldBank 12 w
/-- Field LEN, bits [26:16]. -/
def fieldLen (w : Word) : Nat := w.toNat / 2 ^ 16 % 2048

/-- Bits [15:14] and [31:27] are 0 (rule R85). -/
def reservedClear (w : Word) : Bool := w.toNat / 2 ^ 14 % 4 == 0 && w.toNat / 2 ^ 27 == 0

/-- The opcode map (rule R87), with the fields each operation uses (rule R86). -/
def decodeOp (w : Word) : Option Instr :=
  let rd := fieldRd w
  let ra := fieldRa w
  let rb := fieldRb w
  let re := fieldRe w
  let n := fieldLen w
  match fieldOp w with
  | 0x00 => some .nop
  | 0x01 => some (.fsplit rd re ra n)
  | 0x02 => some (.fmerge rd ra rb n)
  | 0x03 => some (.zsplit rd re ra n)
  | 0x04 => some (.zmerge rd ra rb n)
  | 0x08 => some (.fft rd ra n)
  | 0x09 => some (.ifft rd ra n)
  | 0x0A => some (.fsplitt rd re ra n)
  | 0x0B => some (.fmerget rd ra rb n)
  | 0x0C => some (.fadd rd ra rb n)
  | 0x0D => some (.fsub rd ra rb n)
  | 0x0E => some (.fmulf rd ra rb n)
  | 0x0F => some (.fdivf rd ra rb n)
  | 0x10 => some (.fadjf rd ra n)
  | 0x11 => some (.fmul rd ra rb n)
  | 0x12 => some (.fdiv rd ra rb n)
  | 0x13 => some (.fadj rd ra n)
  | 0x18 => some (.ntt rd ra n)
  | 0x19 => some (.intt rd ra n)
  | 0x1A => some (.zsplitt rd re ra n)
  | 0x1B => some (.zmerget rd ra rb n)
  | 0x1C => some (.zadd rd ra rb n)
  | 0x1D => some (.zsub rd ra rb n)
  | 0x1E => some (.zmuln rd ra rb n)
  | 0x1F => some (.zdivn rd ra rb n)
  | 0x20 => some (.zmul rd ra rb n)
  | 0x21 => some (.zdiv rd ra rb n)
  | 0x28 => some .gbase
  | 0x29 => some .gexp
  | 0x2A => some .gber
  | 0x2B => some .gsamp
  | 0x30 => some (.cmpr ra n)
  | 0x31 => some (.dcmp rd n)
  | _ => none

/-- The command a word names, or why it names none, reserved bits first (rule R263). -/
def decode (w : Word) : Except DecodeError Instr :=
  if reservedClear w then
    match decodeOp w with
    | some i => .ok i
    | none => .error .reservedOpcode
  else .error .reservedBits

/-- The word `OP | RD << 6 | RA << 8 | RB << 10 | RE << 12 | LEN << 16` (rule R81). The fields do not overlap, so the
sum is their union. -/
def packFields (op : Nat) (rd ra rb re : Bank) (len : Nat) : Word :=
  BitVec.ofNat 32 (op + rd.val * 2 ^ 6 + ra.val * 2 ^ 8 + rb.val * 2 ^ 10 + re.val * 2 ^ 12 + len * 2 ^ 16)

/-- The word a command assembles to (rules R81, R87, R91); fields the operation does not use are 0. -/
def encode : Instr → Word
  | .nop => packFields 0x00 0 0 0 0 0
  | .fsplit rd re ra n => packFields 0x01 rd ra 0 re n
  | .fmerge rd ra rb n => packFields 0x02 rd ra rb 0 n
  | .zsplit rd re ra n => packFields 0x03 rd ra 0 re n
  | .zmerge rd ra rb n => packFields 0x04 rd ra rb 0 n
  | .fft rd ra n => packFields 0x08 rd ra 0 0 n
  | .ifft rd ra n => packFields 0x09 rd ra 0 0 n
  | .fsplitt rd re ra n => packFields 0x0A rd ra 0 re n
  | .fmerget rd ra rb n => packFields 0x0B rd ra rb 0 n
  | .fadd rd ra rb n => packFields 0x0C rd ra rb 0 n
  | .fsub rd ra rb n => packFields 0x0D rd ra rb 0 n
  | .fmulf rd ra rb n => packFields 0x0E rd ra rb 0 n
  | .fdivf rd ra rb n => packFields 0x0F rd ra rb 0 n
  | .fadjf rd ra n => packFields 0x10 rd ra 0 0 n
  | .fmul rd ra rb n => packFields 0x11 rd ra rb 0 n
  | .fdiv rd ra rb n => packFields 0x12 rd ra rb 0 n
  | .fadj rd ra n => packFields 0x13 rd ra 0 0 n
  | .ntt rd ra n => packFields 0x18 rd ra 0 0 n
  | .intt rd ra n => packFields 0x19 rd ra 0 0 n
  | .zsplitt rd re ra n => packFields 0x1A rd ra 0 re n
  | .zmerget rd ra rb n => packFields 0x1B rd ra rb 0 n
  | .zadd rd ra rb n => packFields 0x1C rd ra rb 0 n
  | .zsub rd ra rb n => packFields 0x1D rd ra rb 0 n
  | .zmuln rd ra rb n => packFields 0x1E rd ra rb 0 n
  | .zdivn rd ra rb n => packFields 0x1F rd ra rb 0 n
  | .zmul rd ra rb n => packFields 0x20 rd ra rb 0 n
  | .zdiv rd ra rb n => packFields 0x21 rd ra rb 0 n
  | .gbase => packFields 0x28 0 0 0 0 0
  | .gexp => packFields 0x29 0 0 0 0 0
  | .gber => packFields 0x2A 0 0 0 0 0
  | .gsamp => packFields 0x2B 0 0 0 0 0
  | .cmpr ra n => packFields 0x30 0 ra 0 0 n
  | .dcmp rd n => packFields 0x31 rd 0 0 0 n

/-- The command word the host's table numbering gives: bit 0 of `w` is bit 0 of the one 32-bit command word (rule R80),
and the bits at or above `nbits` are 0. -/
def tableWord (nbits w : Nat) : Word := BitVec.ofNat 32 (w % 2 ^ nbits)

/-- What the decoder reads from the word of an opcode-table row; none where it refuses. -/
def decodeTableWord (nbits w : Nat) : Option Instr :=
  match decode (tableWord nbits w) with
  | .ok i => some i
  | .error _ => none

end Sys2Proof
end

