-- ==== Sys2Proof/Config.lean ====
section
/-! DEFINITION. What is fixed when the block is built (rule R6) and the free values: what the spec leaves open after which
the machine goes on. A free value is an opaque constant with no body, so no proof can see it. The two OPEN ROM contents
(CDT_ROM and EXP_ROM, 92_eei_decisions D29 and D30) are fields of State instead, so that a statement about every state
holds for every contents. -/

namespace Sys2Proof

/-- The modulus Q (rules R6, R160). -/
def Config.q : Nat := 12289

/-- The largest ring length NMAX, also the depth of a bank (rules R6, R41, R42). -/
def Config.nMax : Nat := 1024

/-- The size of BYTEBUF in bytes (rules R6, R43). -/
def Config.byteBufSize : Nat := 2048

/-- FREE VALUE (log entry 5). What a byte of F, Z or BYTEBUF holds that nothing has written since the last reset:
unspecified (rule R294). It depends on how many resets there were and on the byte's address, so that a second read of
the location gives the same byte (rule R70: every read is idempotent). -/
opaque Config.ramPowerOn (resets addr : Nat) : Byte

/-- FREE VALUE (log entry 10). The data of the `k`-th bus read made while rst_n = 0: undefined (rule R290). -/
opaque Config.resetReadData (k : Nat) : Word

/-- FREE VALUE (log entry 10). The pslverr of the `k`-th bus access made while rst_n = 0: undefined (rule R290). -/
opaque Config.resetSlverr (k : Nat) : Bool

/-- FREE VALUE (log entry 10). How many more bytes a command took from the source before the `k`-th reset abandoned it,
cut to what the command could take: any value (rule R291). -/
opaque Config.rngLostAtReset (k : Nat) : Nat

end Sys2Proof
end

