-- ==== Sys2Proof/Machine/NttRom.lean ====
section
/-! DEFINITION. ZROM, the root ROM of the NTT engine, as rule R164 lists it, and INVROM, the modular inverses
(rules R163 to R165). -/

namespace Sys2Proof.Machine

/-- Rows Z_2 to Z_128, addresses 0 to 255, sixteen a row; addresses 0 and 1 do not exist and stand as 0 (rules R163, R164). -/
def zromRows0 : List (List Nat) :=
  [ [0, 0, 1479, 10810, 4043, 8246, 5146, 7143, 5736, 6553, 4134, 8155, 722, 11567, 1305, 10984]
  , [1646, 10643, 1212, 11077, 5860, 6429, 3195, 9094, 2545, 9744, 3621, 8668, 3504, 8785, 3542, 8747]
  , [4591, 7698, 5728, 6561, 5023, 7266, 5828, 6461, 4978, 7311, 1351, 10938, 3328, 8961, 5777, 6512]
  , [2975, 9314, 563, 11726, 3006, 9283, 2744, 9545, 949, 11340, 2625, 9664, 4821, 7468, 2639, 9650]
  , [1000, 11289, 4320, 7969, 3091, 9198, 81, 12208, 2963, 9326, 4896, 7393, 3051, 9238, 2366, 9923]
  , [1853, 10436, 140, 12149, 4611, 7678, 726, 11563, 4255, 8034, 1177, 11112, 2768, 9521, 1635, 10654]
  , [3712, 8577, 3135, 9154, 2747, 9542, 4846, 7443, 3553, 8736, 4805, 7484, 2294, 9995, 1062, 11227]
  , [1326, 10963, 5086, 7203, 3014, 9275, 3201, 9088, 1170, 11119, 2319, 9970, 955, 11334, 790, 11499]
  , [544, 11745, 5791, 6498, 339, 11950, 2468, 9821, 2842, 9447, 480, 11809, 9, 12280, 1022, 11267]
  , [4278, 8011, 1673, 10616, 4989, 7300, 5331, 6958, 3584, 8705, 4177, 8112, 1381, 10908, 2525, 9764]
  , [2396, 9893, 4452, 7837, 3296, 8993, 3949, 8340, 130, 12159, 4354, 7935, 5374, 6915, 2837, 9452]
  , [5767, 6522, 827, 11462, 3748, 8541, 953, 11336, 5067, 7222, 2197, 10092, 118, 12171, 2476, 9813]
  , [2548, 9741, 4231, 8058, 355, 11934, 3382, 8907, 3707, 8582, 1759, 10530, 3694, 8595, 5179, 7110]
  , [5542, 6747, 145, 12144, 3637, 8652, 3459, 8830, 5911, 6378, 4890, 7399, 3932, 8357, 2731, 9558]
  , [2089, 10200, 5092, 7197, 2881, 9408, 3284, 9005, 729, 11560, 3241, 9048, 3289, 9000, 2013, 10276]
  , [5755, 6534, 4632, 7657, 1260, 11029, 4388, 7901, 334, 11955, 2426, 9863, 1696, 10593, 1428, 10861] ]

/-- Row Z_256, addresses 256 to 511 (rule R164). -/
def zromRows1 : List (List Nat) :=
  [ [1663, 10626, 1777, 10512, 1426, 10863, 4654, 7635, 5291, 6998, 2704, 9585, 4938, 7351, 3636, 8653]
  , [3915, 8374, 2166, 10123, 113, 12176, 4919, 7370, 3, 12286, 4437, 7852, 160, 12129, 3149, 9140]
  , [4057, 8232, 3271, 9018, 1689, 10600, 3364, 8925, 4372, 7917, 2174, 10115, 4414, 7875, 2847, 9442]
  , [2645, 9644, 4053, 8236, 2305, 9984, 5042, 7247, 5195, 7094, 2780, 9509, 1484, 10805, 4895, 7394]
  , [3016, 9273, 243, 12046, 3000, 9289, 671, 11618, 3136, 9153, 5191, 7098, 2399, 9890, 3400, 8889]
  , [2178, 10111, 1544, 10745, 420, 11869, 5559, 6730, 476, 11813, 3531, 8758, 3985, 8304, 4905, 7384]
  , [5332, 6957, 3510, 8779, 2370, 9919, 2865, 9424, 2969, 9320, 3978, 8311, 2686, 9603, 3247, 9042]
  , [4048, 8241, 2249, 10040, 1153, 11136, 2884, 9405, 5407, 6882, 3186, 9103, 1630, 10659, 2126, 10163]
  , [2187, 10102, 2566, 9723, 2422, 9867, 6039, 6250, 2987, 9302, 6022, 6267, 2437, 9852, 3646, 8643]
  , [875, 11414, 3780, 8509, 1607, 10682, 4976, 7313, 5011, 7278, 1002, 11287, 4284, 8005, 5088, 7201]
  , [3248, 9041, 1207, 11082, 1168, 11121, 5277, 7012, 1065, 11224, 2143, 10146, 404, 11885, 4645, 7644]
  , [1912, 10377, 1378, 10911, 435, 11854, 4337, 7952, 2381, 9908, 5444, 6845, 4096, 8193, 493, 11796]
  , [545, 11744, 5019, 7270, 3704, 8585, 2678, 9611, 1537, 10752, 242, 12047, 4714, 7575, 4143, 8146]
  , [27, 12262, 3066, 9223, 3763, 8526, 1440, 10849, 5084, 7205, 1632, 10657, 1017, 11272, 4885, 7404]
  , [3778, 8511, 3833, 8456, 390, 11899, 773, 11516, 2401, 9888, 442, 11847, 5101, 7188, 1067, 11222]
  , [2912, 9377, 5698, 6591, 354, 11935, 4861, 7428, 2859, 9430, 1045, 11244, 5012, 7277, 2481, 9808] ]

/-- Row Z_512, first half, addresses 512 to 767 (rule R164). -/
def zromRows2 : List (List Nat) :=
  [ [3957, 8332, 2839, 9450, 2127, 10162, 151, 12138, 431, 11858, 1579, 10710, 5906, 6383, 2505, 9784]
  , [1323, 10966, 2766, 9523, 52, 12237, 3174, 9115, 6055, 6234, 3336, 8953, 677, 11612, 5874, 6415]
  , [4169, 8120, 3127, 9162, 5241, 7048, 2920, 9369, 1010, 11279, 5468, 6821, 787, 11502, 3482, 8807]
  , [1321, 10968, 192, 12097, 4912, 7377, 2049, 10240, 4698, 7591, 5057, 7232, 4780, 7509, 3445, 8844]
  , [1956, 10333, 5009, 7280, 6008, 6281, 885, 11404, 3532, 8757, 1003, 11286, 58, 12231, 241, 12048]
  , [975, 11314, 4212, 8077, 2844, 9445, 3438, 8851, 1105, 11184, 142, 12147, 5681, 6608, 3477, 8812]
  , [2302, 9987, 605, 11684, 4213, 8076, 504, 11785, 5886, 6403, 4782, 7507, 5594, 6695, 3029, 9260]
  , [421, 11868, 4080, 8209, 6068, 6221, 3602, 8687, 6077, 6212, 4624, 7665, 3263, 9026, 3600, 8689]
  , [4948, 7341, 6137, 6152, 400, 11889, 1728, 10561, 5862, 6427, 6136, 6153, 5415, 6874, 3643, 8646]
  , [56, 12233, 3199, 9090, 5206, 7083, 5529, 6760, 3565, 8724, 654, 11635, 1987, 10302, 1702, 10587]
  , [3988, 8301, 468, 11821, 316, 11973, 382, 11907, 3710, 8579, 6093, 6196, 5446, 6843, 5339, 6950]
  , [973, 11316, 1254, 11035, 1359, 10930, 5435, 6854, 2033, 10256, 3998, 8291, 3879, 8410, 1922, 10367]
  , [3860, 8429, 5445, 6844, 4536, 7753, 1050, 11239, 3818, 8471, 6118, 6171, 1190, 11099, 2683, 9606]
  , [3789, 8500, 147, 12142, 5456, 6833, 4449, 7840, 4749, 7540, 5537, 6752, 4789, 7500, 4467, 7822]
  , [1018, 11271, 5925, 6364, 1041, 11248, 3514, 8775, 2344, 9945, 1278, 11011, 5574, 6715, 1973, 10316]
  , [4324, 7965, 4916, 7373, 4075, 8214, 5315, 6974, 5079, 7210, 3262, 9027, 522, 11767, 2169, 10120] ]

/-- Row Z_512, second half, addresses 768 to 1023 (rule R164). -/
def zromRows3 : List (List Nat) :=
  [ [1200, 11089, 5184, 7105, 2555, 9734, 6122, 6167, 5297, 6992, 6119, 6170, 3956, 8333, 1360, 10929]
  , [1962, 10327, 1594, 10695, 5961, 6328, 5106, 7183, 4298, 7991, 3329, 8960, 168, 12121, 2692, 9597]
  , [4049, 8240, 3728, 8561, 1159, 11130, 5990, 6299, 948, 11341, 1146, 11143, 1404, 10885, 325, 11964]
  , [5766, 6523, 652, 11637, 295, 11994, 6099, 6190, 2919, 9370, 3762, 8527, 4016, 8273, 4077, 8212]
  , [6065, 6224, 835, 11454, 3570, 8719, 4240, 8049, 4046, 8243, 709, 11580, 3150, 9139, 1319, 10970]
  , [1058, 11231, 4079, 8210, 922, 11367, 441, 11848, 4322, 7967, 1958, 10331, 2078, 10211, 1112, 11177]
  , [3834, 8455, 5257, 7032, 4433, 7856, 5919, 6370, 5486, 6803, 3054, 9235, 1747, 10542, 3123, 9166]
  , [2948, 9341, 2503, 9786, 5782, 6507, 1566, 10723, 64, 12225, 3656, 8633, 2459, 9830, 683, 11606]
  , [1293, 10996, 4737, 7552, 5429, 6860, 4774, 7515, 5908, 6381, 453, 11836, 418, 11871, 3772, 8517]
  , [3991, 8298, 3969, 8320, 2767, 9522, 156, 12133, 2281, 10008, 5876, 6413, 5333, 6956, 2031, 10258]
  , [3963, 8326, 576, 11713, 2447, 9842, 6142, 6147, 2051, 10238, 1954, 10335, 1805, 10484, 2882, 9407]
  , [3529, 8760, 3434, 8855, 2908, 9381, 218, 12071, 3030, 9259, 4115, 8174, 1843, 10446, 2361, 9928]
  , [3202, 9087, 4493, 7796, 2057, 10232, 5369, 6920, 1512, 10777, 350, 11939, 1815, 10474, 5383, 6906]
  , [49, 12240, 1263, 11026, 5915, 6374, 1483, 10806, 1489, 10800, 2500, 9789, 5942, 6347, 1583, 10706]
  , [1693, 10596, 3009, 9280, 174, 12115, 723, 11566, 2738, 9551, 5868, 6421, 5735, 6554, 2655, 9634]
  , [3315, 8974, 426, 11863, 4754, 7535, 1858, 10431, 1975, 10314, 3757, 8532, 2925, 9364, 347, 11942] ]

/-- Row Z_1024, quarter 1, addresses 1024 to 1279 (rule R164). -/
def zromRows4 : List (List Nat) :=
  [ [1826, 10463, 2926, 9363, 3171, 9118, 4489, 7800, 3238, 9051, 3708, 8581, 1136, 11153, 3449, 8840]
  , [1092, 11197, 5209, 7080, 3359, 8930, 3205, 9084, 1928, 10361, 464, 11825, 4265, 8024, 3678, 8611]
  , [3163, 9126, 4032, 8257, 4840, 7449, 6127, 6162, 2068, 10221, 1389, 10900, 4404, 7885, 346, 11943]
  , [1526, 10763, 4222, 8067, 125, 12164, 540, 11749, 3368, 8921, 4227, 8062, 612, 11677, 4238, 8051]
  , [1866, 10423, 5211, 7078, 4727, 7562, 1208, 11081, 3448, 8841, 343, 11946, 1908, 10381, 4538, 7751]
  , [416, 11873, 814, 11475, 2450, 9839, 1705, 10584, 2164, 10125, 5416, 6873, 2110, 10179, 716, 11573]
  , [2429, 9860, 4103, 8186, 1721, 10568, 1536, 10753, 1373, 10916, 2982, 9307, 3589, 8700, 717, 11572]
  , [3278, 9011, 5993, 6296, 5412, 6877, 4209, 8080, 3515, 8774, 438, 11851, 5061, 7228, 1218, 11071]
  , [2275, 10014, 2461, 9828, 5653, 6636, 4267, 8022, 3765, 8524, 1518, 10771, 4176, 8113, 5063, 7226]
  , [3534, 8755, 3961, 8328, 4145, 8144, 1756, 10533, 5826, 6463, 2065, 10224, 4564, 7725, 3495, 8794]
  , [3114, 9175, 2769, 9520, 5966, 6323, 212, 12077, 5596, 6693, 5987, 6302, 579, 11710, 3889, 8400]
  , [1131, 11158, 1445, 10844, 4860, 7429, 1125, 11164, 5734, 6555, 1176, 11113, 1275, 11014, 5508, 6781]
  , [5102, 7187, 412, 11877, 5845, 6444, 5588, 6701, 4963, 7326, 3744, 8545, 2528, 9761, 3056, 9233]
  , [4505, 7784, 2257, 10032, 1417, 10872, 5676, 6613, 3087, 9202, 5835, 6454, 4883, 7406, 3975, 8314]
  , [4781, 7508, 4924, 7365, 448, 11841, 1014, 11275, 3942, 8347, 5232, 7057, 1327, 10962, 3607, 8682]
  , [5836, 6453, 4566, 7723, 68, 12221, 2260, 10029, 3200, 9089, 1535, 10754, 60, 12229, 2717, 9572] ]

/-- Row Z_1024, quarter 2, addresses 1280 to 1535 (rule R164). -/
def zromRows5 : List (List Nat) :=
  [ [3343, 8946, 4119, 8170, 2151, 10138, 1522, 10767, 20, 12269, 5002, 7287, 5163, 7126, 4608, 7681]
  , [3654, 8635, 2894, 9395, 1314, 10975, 1744, 10545, 2455, 9834, 5690, 6599, 338, 11951, 3947, 8342]
  , [4939, 7350, 5115, 7174, 2442, 9847, 1248, 11041, 3959, 8330, 5797, 6492, 2148, 10141, 5959, 6330]
  , [1892, 10397, 3624, 8665, 5598, 6691, 3344, 8945, 1029, 11260, 1945, 10344, 5724, 6565, 1325, 10964]
  , [923, 11366, 1038, 11251, 6085, 6204, 4167, 8122, 2231, 10058, 6092, 6197, 193, 12096, 2800, 9489]
  , [1836, 10453, 425, 11864, 2185, 10104, 392, 11897, 375, 11914, 1620, 10669, 4578, 7711, 377, 11912]
  , [2776, 9513, 1178, 11111, 3511, 8778, 5478, 6811, 3408, 8881, 1942, 10347, 1165, 11124, 2575, 9714]
  , [1255, 11034, 506, 11783, 5784, 6505, 1392, 10897, 3276, 9013, 3338, 8951, 2212, 10077, 2674, 9615]
  , [1236, 11053, 3017, 9272, 5246, 7043, 4475, 7814, 4705, 7584, 3121, 9168, 2600, 9689, 1057, 11232]
  , [1226, 11063, 5518, 6771, 4739, 7550, 4251, 8038, 3028, 9261, 5216, 7073, 2360, 9929, 364, 11925]
  , [2054, 10235, 2483, 9806, 3042, 9247, 1344, 10945, 463, 11826, 3407, 8882, 1468, 10821, 3981, 8308]
  , [204, 12085, 5509, 6780, 5219, 7070, 1409, 10880, 2689, 9600, 4605, 7684, 4138, 8151, 180, 12109]
  , [4499, 7790, 5672, 6617, 622, 11667, 1737, 10552, 5609, 6680, 636, 11653, 3982, 8307, 2947, 9342]
  , [4335, 7954, 3393, 8896, 2291, 9998, 3375, 8914, 4235, 8054, 3825, 8464, 4913, 7376, 3528, 8761]
  , [2900, 9389, 239, 12050, 994, 11295, 4554, 7735, 512, 11777, 4670, 7619, 5464, 6825, 4906, 7383]
  , [406, 11883, 1687, 10602, 5268, 7021, 146, 12143, 5189, 7100, 6094, 6195, 1403, 10886, 1804, 10485] ]

/-- Row Z_1024, quarter 3, addresses 1536 to 1791 (rule R164). -/
def zromRows6 : List (List Nat) :=
  [ [1842, 10447, 3840, 8449, 72, 12217, 4113, 8176, 4352, 7937, 2828, 9461, 2712, 9577, 4834, 7455]
  , [2643, 9646, 1095, 11194, 3045, 9244, 5781, 6508, 1241, 11048, 4378, 7911, 3451, 8838, 4094, 8195]
  , [3020, 9269, 5673, 6616, 5406, 6883, 4665, 7624, 4770, 7519, 944, 11345, 3669, 8620, 5287, 7002]
  , [1251, 11038, 5410, 6879, 5275, 7014, 1790, 10499, 1040, 11249, 2035, 10254, 1882, 10407, 6125, 6164]
  , [3815, 8474, 1734, 10555, 1350, 10939, 5832, 6457, 3869, 8420, 4423, 7866, 1530, 10759, 1694, 10595]
  , [2209, 10080, 1763, 10526, 3116, 9173, 189, 12100, 1279, 11010, 865, 11424, 5170, 7119, 2672, 9617]
  , [2730, 9559, 5411, 6878, 2253, 10036, 1868, 10421, 4518, 7771, 3094, 9195, 1160, 11129, 4820, 7469]
  , [4974, 7315, 4565, 7724, 5078, 7211, 1783, 10506, 2840, 9449, 2478, 9811, 4194, 8095, 3019, 9270]
  , [5118, 7171, 502, 11787, 1901, 10388, 2602, 9687, 6063, 6226, 3793, 8496, 1573, 10716, 3846, 8443]
  , [1030, 11259, 466, 11823, 3821, 8468, 1681, 10608, 5969, 6320, 4649, 7640, 2929, 9360, 6026, 6263]
  , [2434, 9855, 791, 11498, 2827, 9462, 2873, 9416, 1120, 11169, 2535, 9754, 21, 12268, 5808, 6481]
  , [170, 12119, 5650, 6639, 874, 11415, 2301, 9988, 648, 11641, 150, 12139, 2307, 9982, 4289, 8000]
  , [3317, 8972, 2532, 9757, 3332, 8957, 139, 12150, 2940, 9349, 2046, 10243, 1481, 10808, 2957, 9332]
  , [1701, 10588, 3466, 8823, 4697, 7592, 3578, 8711, 2626, 9663, 530, 11759, 778, 11511, 4504, 7785]
  , [4390, 7899, 4218, 8071, 3758, 8531, 3454, 8835, 982, 11307, 2276, 10013, 2593, 9696, 879, 11410]
  , [8, 12281, 457, 11832, 4301, 7988, 4523, 7766, 1849, 10440, 5776, 6513, 3268, 9021, 3795, 8494] ]

/-- Row Z_1024, quarter 4, addresses 1792 to 2047 (rule R164). -/
def zromRows7 : List (List Nat) :=
  [ [4719, 7570, 751, 11538, 910, 11379, 5900, 6389, 3065, 9224, 1506, 10783, 4483, 7806, 5703, 6586]
  , [5043, 7246, 826, 11463, 1398, 10891, 3090, 9199, 5789, 6500, 3502, 8787, 5618, 6671, 1658, 10631]
  , [4684, 7605, 3360, 8929, 63, 12226, 5135, 7154, 2373, 9916, 4987, 7302, 3670, 8619, 3808, 8481]
  , [578, 11711, 5368, 6921, 450, 11839, 1944, 10345, 2622, 9667, 5386, 6903, 510, 11779, 4661, 7628]
  , [1280, 11009, 614, 11675, 24, 12265, 1371, 10918, 5039, 7250, 5547, 6742, 904, 11385, 2485, 9804]
  , [1927, 10362, 1015, 11274, 881, 11408, 365, 11924, 4510, 7779, 2637, 9652, 2946, 9343, 5461, 6828]
  , [2334, 9955, 1223, 11066, 4411, 7878, 1590, 10699, 1802, 10487, 1555, 10734, 5103, 7186, 1891, 10398]
  , [3469, 8820, 6138, 6151, 4443, 7846, 3418, 8871, 417, 11872, 2293, 9996, 4693, 7596, 2338, 9951]
  , [3572, 8717, 1282, 11007, 2021, 10268, 2832, 9457, 3929, 8360, 1706, 10583, 3229, 9060, 4730, 7559]
  , [3120, 9169, 6105, 6184, 6086, 6203, 5646, 6643, 3753, 8536, 3941, 8348, 3536, 8753, 5370, 6919]
  , [7, 12282, 1936, 10353, 845, 11444, 3723, 8566, 3154, 9135, 5054, 7235, 3285, 9004, 4360, 7929]
  , [769, 11520, 5526, 6763, 50, 12239, 216, 12073, 4153, 8136, 2213, 10076, 3805, 8484, 767, 11522]
  , [2633, 9656, 1406, 10883, 5349, 6940, 2945, 9344, 3232, 9057, 293, 11996, 4855, 7434, 3769, 8520]
  , [4099, 8190, 3944, 8345, 5530, 6759, 5604, 6685, 3480, 8809, 2171, 10118, 1265, 11024, 3007, 9282]
  , [5207, 7082, 4050, 8239, 5202, 7087, 844, 11445, 4590, 7699, 5082, 7207, 980, 11309, 682, 11607]
  , [567, 11722, 2941, 9348, 5289, 7000, 5662, 6627, 3221, 9068, 4273, 8016, 3837, 8452, 2595, 9694] ]

/-- The ZROM listing of rule R164, sixteen entries a row, from address 0. -/
def zromRows : List (List Nat) :=
  zromRows0 ++ zromRows1 ++ zromRows2 ++ zromRows3 ++ zromRows4 ++ zromRows5 ++ zromRows6 ++ zromRows7

/-- ZROM[a], 2 <= a <= 2047 (rules R163, R164). -/
def zrom (a : Nat) : Nat := (zromRows.getD (a / 16) []).getD (a % 16) 0

/-- `b ^ e mod q` by repeated squaring, for e < 2^fuel. -/
def powq (b : Nat) : Nat → Nat → Nat
  | 0, _ => 1
  | fuel + 1, e =>
    let h := powq b fuel (e / 2)
    let s := h * h % Config.q
    if e % 2 = 1 then s * b % Config.q else s

/-- INVROM[a], 0 <= a <= 12288: `a ^ (q - 2) mod q`, and 0 at address 0 (rule R165). -/
def invrom (a : Nat) : Nat := if a = 0 then 0 else powq a 14 (Config.q - 2)

end Sys2Proof.Machine
end

