-- ==== Sys2Proof/Machine/Binary64.lean ====
section
/-! DEFINITION. Binary64 arithmetic (rules R11, R121): every operation is exact on integers and then rounded once, to
nearest with ties to even. A finite binary64 is an integer multiple of 2^-1074; that integer is what is computed with. -/

namespace Sys2Proof.Machine

/-- The canonical NaN, the only NaN an operation delivers (rule R121). -/
def b64NaN : B64 := 0x7FF8000000000000
/-- +infinity. -/
def b64Inf : B64 := 0x7FF0000000000000
/-- 0.5, the factor of `chalf` (rule R122). -/
def b64Half : B64 := 0x3FE0000000000000
/-- 1.0 -/
def b64One : B64 := 0x3FF0000000000000
/-- 2.0 -/
def b64Two : B64 := 0x4000000000000000
/-- 63.0, the cap of rule R206. -/
def b64SixtyThree : B64 := 0x404F800000000000

/-- 2^1074: a finite binary64 is its integer `b64Val` divided by this. -/
def b64Unit : Nat := 2 ^ 1074

/-- The sign bit, bit 63. -/
def b64Sign (v : B64) : Bool := v.msb
/-- The biased exponent, bits [62:52]. -/
def b64Exp (v : B64) : Nat := v.toNat / 2 ^ 52 % 2 ^ 11
/-- The fraction, bits [51:0]. -/
def b64Frac (v : B64) : Nat := v.toNat % 2 ^ 52

/-- A NaN pattern. -/
def b64IsNaN (v : B64) : Bool := b64Exp v == 2047 && b64Frac v != 0
/-- An infinity. -/
def b64IsInf (v : B64) : Bool := b64Exp v == 2047 && b64Frac v == 0
/-- Neither NaN nor infinity. -/
def b64IsFinite (v : B64) : Bool := b64Exp v != 2047

/-- |v| in units of 2^-1074 for a finite v, exactly. For an infinity it is 2^2098, above every finite value, so that
comparisons of `b64Val` order infinities too. -/
def b64Mag (v : B64) : Nat :=
  if b64Exp v = 0 then b64Frac v else (2 ^ 52 + b64Frac v) * 2 ^ (b64Exp v - 1)

/-- v in units of 2^-1074, exactly. -/
def b64Val (v : B64) : Int := if b64Sign v then -(b64Mag v : Int) else (b64Mag v : Int)

/-- `neg(v)`: flips bit 63 of any pattern (rules R11, R121). -/
def b64Neg (v : B64) : B64 := v ^^^ 0x8000000000000000

/-- `num / den` rounded to the nearest integer, ties to even. -/
def roundNearestEven (num den : Nat) : Nat :=
  let q := num / den
  let r := num % den
  if 2 * r < den then q else if den < 2 * r then q + 1 else q + q % 2

/-- Bit 63 of a pattern with the given sign. -/
def b64SignBit (neg : Bool) : Nat := if neg then 2 ^ 63 else 0

/-- The binary64 nearest to ± num/den · 2^-1074, ties to even, overflowing to infinity (rule R121). `e` is how many
binary places of the integer part are dropped; exponent field and significand then add up to the pattern, a carry out
of the significand included. -/
def b64Round (neg : Bool) (num den : Nat) : B64 :=
  let e := Nat.log2 (num / den) - 52
  let p := e * 2 ^ 52 + roundNearestEven num (den * 2 ^ e)
  BitVec.ofNat 64 (min p (2047 * 2 ^ 52) + b64SignBit neg)

/-- An infinity with the given sign. -/
def b64SignedInf (neg : Bool) : B64 := BitVec.ofNat 64 (2047 * 2 ^ 52 + b64SignBit neg)
/-- A zero with the given sign. -/
def b64SignedZero (neg : Bool) : B64 := BitVec.ofNat 64 (b64SignBit neg)

/-- ⊕ (rules R11, R121). -/
def b64Add (a b : B64) : B64 :=
  if b64IsNaN a || b64IsNaN b then b64NaN
  else if b64IsInf a then (if b64IsInf b && b64Sign a != b64Sign b then b64NaN else a)
  else if b64IsInf b then b
  else
    let v := b64Val a + b64Val b
    if v = 0 then b64SignedZero (b64Sign a && b64Sign b)
    else b64Round (decide (v < 0)) v.natAbs 1

/-- ⊖ (rules R11, R121): a ⊖ b is a ⊕ neg(b), for a NaN too since every NaN result is canonical. -/
def b64Sub (a b : B64) : B64 := b64Add a (b64Neg b)

/-- ⊗ (rules R11, R121). -/
def b64Mul (a b : B64) : B64 :=
  let neg := b64Sign a != b64Sign b
  if b64IsNaN a || b64IsNaN b then b64NaN
  else if b64IsInf a || b64IsInf b then
    (if b64Mag a = 0 || b64Mag b = 0 then b64NaN else b64SignedInf neg)
  else b64Round neg (b64Mag a * b64Mag b) b64Unit

/-- ⊘ (rules R11, R121). -/
def b64Div (a b : B64) : B64 :=
  let neg := b64Sign a != b64Sign b
  if b64IsNaN a || b64IsNaN b then b64NaN
  else if b64IsInf a then (if b64IsInf b then b64NaN else b64SignedInf neg)
  else if b64IsInf b then b64SignedZero neg
  else if b64Mag b = 0 then (if b64Mag a = 0 then b64NaN else b64SignedInf neg)
  else b64Round neg (b64Mag a * b64Unit) (b64Mag b)

/-- a <= b as values; false when either is a NaN (rule R210: "NaN fails every comparison"). -/
def b64Le (a b : B64) : Bool := !b64IsNaN a && !b64IsNaN b && decide (b64Val a ≤ b64Val b)

/-- a < b as values; false when either is a NaN. -/
def b64Lt (a b : B64) : Bool := !b64IsNaN a && !b64IsNaN b && decide (b64Val a < b64Val b)

/-- `double(i)`: the binary64 equal to i, exact for |i| < 2^53; double(0) is +0 (rule R11). -/
def b64OfInt (i : Int) : B64 := b64Round (decide (i < 0)) (i.natAbs * b64Unit) 1

/-- `floor(v)` of a finite v (rule R10). -/
def b64Floor (v : B64) : Int := b64Val v / (b64Unit : Int)

/-- `trunc(v)` of a finite v >= 0 (rule R10). -/
def b64TruncNat (v : B64) : Nat := b64Mag v / b64Unit

/-- `fx63(v) = floor(v · 2^63)` for 0 <= v <= 1, -0 included (rule R204). -/
def fx63 (v : B64) : Nat := b64Mag v * 2 ^ 63 / b64Unit

end Sys2Proof.Machine
end

