-- ==== Sys2Proof/Machine/Complex.lean ====
section
/-! DEFINITION. Complex values (rule R120) and the complex primitives, in the evaluation order of rule R122. -/

namespace Sys2Proof.Machine

/-- One entry of an F bank: two binary64 patterns (rules R41, R120). -/
structure Cplx where
  re : B64
  im : B64
  deriving DecidableEq, Repr

/-- `cadd(a, b)` (rule R122). -/
def cadd (a b : Cplx) : Cplx := ⟨b64Add a.re b.re, b64Add a.im b.im⟩

/-- `csub(a, b)` (rule R122). -/
def csub (a b : Cplx) : Cplx := ⟨b64Sub a.re b.re, b64Sub a.im b.im⟩

/-- `cmul(a, b)` (rule R122). -/
def cmul (a b : Cplx) : Cplx :=
  ⟨b64Sub (b64Mul a.re b.re) (b64Mul a.im b.im), b64Add (b64Mul a.re b.im) (b64Mul a.im b.re)⟩

/-- `cdiv(a, b)`, the textbook formula without scaling (rule R122). -/
def cdiv (a b : Cplx) : Cplx :=
  let d := b64Add (b64Mul b.re b.re) (b64Mul b.im b.im)
  let nr := b64Add (b64Mul a.re b.re) (b64Mul a.im b.im)
  let ni := b64Sub (b64Mul a.im b.re) (b64Mul a.re b.im)
  ⟨b64Div nr d, b64Div ni d⟩

/-- `cconj(a)` (rule R122). -/
def cconj (a : Cplx) : Cplx := ⟨a.re, b64Neg a.im⟩

/-- `chalf(a)` (rule R122). -/
def chalf (a : Cplx) : Cplx := ⟨b64Mul b64Half a.re, b64Mul b64Half a.im⟩

/-- `mulI(a)`, exact (rule R122). -/
def mulI (a : Cplx) : Cplx := ⟨b64Neg a.im, a.re⟩

/-- `mulNegI(a)`, exact (rule R122). -/
def mulNegI (a : Cplx) : Cplx := ⟨a.im, b64Neg a.re⟩

/-- TWROM[a] (rules R123, R124). -/
def twrom (a : Nat) : Cplx := ⟨twromRe a, twromIm a⟩

end Sys2Proof.Machine
end

