-- ==== Sys2Proof/Machine/SamplerRom.lean ====
section
/-! DEFINITION. The suggested instances of the two OPEN ROMs of the sampler (rules R201, R202), and the sampler's
binary64 constants (rule R203). The instances are what State.reset holds (log entries 8 and 9); no rule needs them. -/

namespace Sys2Proof.Machine

/-- CDT_ROM: 18 unsigned 72-bit integers (rules R45, R201). -/
abbrev CdtRom := Vector (BitVec 72) 18

/-- EXP_ROM: 13 unsigned 64-bit integers (rules R45, R202). -/
abbrev ExpRom := Vector (BitVec 64) 13

/-- The suggested CDT_ROM of rule R201. PRESUMED (log entry 8): general knowledge, not in the source. -/
def cdtSuggested : CdtRom :=
  #v[ 3024686241123004913666, 1564742784480091954050, 636254429462080897535
  , 199560484645026482916, 47667343854657281903, 8595902006365044063
  , 1163297957344668388, 117656387352093658, 8867391802663976
  , 496969357462633, 20680885154299, 638331848991
  , 14602316184, 247426747, 3104126
  , 28824, 198, 1 ]

/-- The suggested EXP_ROM of rule R202. PRESUMED (log entry 9): general knowledge, not in the source. -/
def expSuggested : ExpRom :=
  #v[ 0x00000004741183A3, 0x00000036548CFC06, 0x0000024FDCBF140A
  , 0x0000171D939DE045, 0x0000D00CF58F6F84, 0x000680681CF796E3
  , 0x002D82D8305B0FEA, 0x011111110E066FD0, 0x0555555555070F00
  , 0x155555555581FF00, 0x400000000002B400, 0x7FFFFFFFFFFF4800
  , 0x8000000000000000 ]

/-- LN2, the binary64 nearest ln 2 (rule R203). -/
def ln2 : B64 := 0x3FE62E42FEFA39EF
/-- ILN2, the binary64 nearest 1/ln 2 (rule R203). -/
def iln2 : B64 := 0x3FF71547652B82FE
/-- SIGMA_MAX, the binary64 nearest 1.8205 (rule R203). -/
def sigmaMax : B64 := 0x3FFD20C49BA5E354
/-- INV_2SIGMA2 = 1/(2·SIGMA_MAX²) in binary64 (rule R203). -/
def inv2Sigma2 : B64 := 0x3FC34F8BC183BBC2

end Sys2Proof.Machine
end

