-- ==== Sys2Proof/Machine/State.lean ====
section
/-! DEFINITION. The state of PQS-CORE as plain data (rules R20 to R51), the events of its interfaces (rules R60, R200,
R290), the reasons a step could stop, and the state after reset. -/

namespace Sys2Proof.Machine

/-- The command error codes of STATUS.ERRCODE (rule R261). Codes 9 to 15 are never produced, so they are no values. -/
inductive ErrCode where
  | none | illegalOp | badLen | badOperand | noInverse | budgetExceeded | truncated | malformed | domain
  deriving DecidableEq, Repr

/-- STATUS (rule R27), one field per field of the register; its reserved bits are never set. RNGW is also the RNG
handshake state: rng_ready is high while it is 1 (rule R48). -/
structure Status where
  busy    : Bool
  done    : Bool
  err     : Bool
  rngw    : Bool
  ovr     : Bool
  errCode : ErrCode
  deriving DecidableEq, Repr

/-- The operand snapshot a command runs on (rule R47). -/
structure Snapshot where
  mu     : B64
  sigma  : B64
  sigmin : B64
  x      : B64
  ccs    : B64
  budget : BitVec 12
  inlen  : BitVec 12
  deriving DecidableEq, Repr

/-- A word of the CSR block (rule R23). A 64-bit operand register is two of them (rule R40). -/
inductive Csr where
  | id | version | ctrl | status | cmd | result0 | result1 | rngcnt
  | muLo | muHi | sigmaLo | sigmaHi | sigminLo | sigminHi | xLo | xHi | ccsLo | ccsHi
  | budget | inlen
  deriving DecidableEq, Repr

/-- One access of the host bus, always of one 32-bit word (rule R62). -/
inductive Access where
  | read (addr : Addr)
  | write (addr : Addr) (data : Word)
  deriving DecidableEq, Repr

/-- What the outside world and the passing of time can do to the machine; one step is one of these (log entry 1). -/
inductive Input where
  /-- The host makes one access (rules R62 to R72). -/
  | host (a : Access)
  /-- The engine has a turn: it runs the accepted command, if there is one (rules R46, R100, R304). -/
  | engine
  /-- A host access and a turn of the engine in the same clock cycle (rule R27; log entry 12). -/
  | hostAndEngine (a : Access)
  /-- The random source has one more byte to deliver (rule R200). -/
  | rngByte (b : Byte)
  /-- rst_n goes to 0 (rule R290). -/
  | rstAssert
  /-- rst_n goes back to 1 (rule R290). -/
  | rstRelease
  deriving DecidableEq, Repr

/-- The answer to the last host access: prdata where it was a read, and pslverr (rule R60). -/
inductive BusResponse where
  | none
  | read (data : Word) (slverr : Bool)
  | write (slverr : Bool)
  deriving DecidableEq, Repr

/-- The RAM the host and the engine share (banks F and Z, BYTEBUF; rules R41 to R43): bytes at host addresses. Canonical
form: addresses strictly rising. An address that is not listed has not been written since the last reset. -/
abbrev Memory := List Host.Cell

/-- Nothing stops PQS-CORE: a bus error is an answer of the bus, a command error a completion (rule R260: "Neither kind
stops the CORE, and no error leads to a fatal or stuck state"). There is no fault, so this type has no constructor. -/
inductive Fault where
  deriving DecidableEq, Repr

/-- Why a step has no meaning. -/
inductive Refusal where
  /-- Raised by an arm of `exec` whose command has no meaning yet. Safe: nothing can be proved about such a step. No arm
  raises it. -/
  | notModelled (mnemonic : String)
  deriving DecidableEq, Repr

/-- The state of PQS-CORE. -/
structure State where
  /-- CTRL.IE (rule R26). -/
  ctrlIe  : Bool
  /-- STATUS (rule R27). -/
  status  : Status
  /-- CMD, the last accepted command word (rule R28). -/
  cmd     : Word
  /-- RESULT0 (rule R29). -/
  result0 : Word
  /-- RESULT1 (rule R30). -/
  result1 : Word
  /-- RNGCNT, random bytes taken since reset, modulo 2^32 (rule R38). -/
  rngCnt  : Word
  /-- MU (rule R31). -/
  mu      : B64
  /-- SIGMA (rule R32). -/
  sigma   : B64
  /-- SIGMIN (rule R33). -/
  sigmin  : B64
  /-- X (rule R34). -/
  x       : B64
  /-- CCS (rule R35). -/
  ccs     : B64
  /-- BUDGET.BYTES (rule R36). -/
  budget  : BitVec 12
  /-- INLEN.BYTES (rule R37). -/
  inlen   : BitVec 12
  /-- F0..F3, Z0..Z3 and BYTEBUF (rules R41 to R43, R64 to R66). -/
  mem     : Memory
  /-- CDT_ROM, an OPEN parameter that no step changes (rules R45, R201). -/
  cdtRom  : CdtRom
  /-- EXP_ROM, an OPEN parameter that no step changes (rules R45, R202). -/
  expRom  : ExpRom
  /-- The operand snapshot (rule R47). -/
  snap    : Snapshot
  /-- The sequencer's place inside a command that waits for random bytes: the bytes it has drawn (rule R46). -/
  drawn   : List Byte
  /-- The model's own: the bytes the random source will deliver next, in order (rule R200). -/
  rngIn   : List Byte
  /-- The model's own: rst_n = 0 (rule R290). -/
  inReset : Bool
  /-- The model's own: the answer to the last host access (rule R60). -/
  bus     : BusResponse
  /-- The model's own: the events still to come (log entry 1). -/
  inputs  : List Input
  /-- The model's own: how many resets there were, on which the free contents of RAM depend (log entry 5). -/
  resets  : Nat
  /-- The model's own: how many bus accesses were made during reset, on which their free answers depend (log entry 10). -/
  resetReads : Nat
  deriving DecidableEq, Repr

/-- STATUS after reset: 0x00000000 (rules R27, R51). -/
def Status.reset : Status :=
  { busy := false, done := false, err := false, rngw := false, ovr := false, errCode := .none }

/-- The snapshot after reset. DESIGN CHOICE (log entry 7): the spec leaves it unspecified and never read (rule R51). -/
def Snapshot.reset : Snapshot :=
  { mu := 0, sigma := 0, sigmin := 0, x := 0, ccs := 0, budget := 0, inlen := 0 }

/-- The state right after reset (rules R51, R293): every register at its reset value, the engine idle, no byte of RAM
written, the ROMs valid, nothing waiting at the interfaces. -/
def State.reset : State :=
  { ctrlIe := false, status := Status.reset, cmd := 0, result0 := 0, result1 := 0, rngCnt := 0
    mu := 0, sigma := 0, sigmin := 0, x := 0, ccs := 0, budget := 0, inlen := 0
    mem := [], cdtRom := cdtSuggested, expRom := expSuggested
    snap := Snapshot.reset, drawn := [], rngIn := [], inReset := false
    bus := .none, inputs := [], resets := 0, resetReads := 0 }

/-- What a meaning answers. -/
abbrev Result := Host.Outcome State Fault Refusal

end Sys2Proof.Machine
end

