-- ==== Sys2Proof/Machine/Flags.lean ====
section
/-! DEFINITION. The flags: STATUS as a word, what a completion and a host write do to it, CTRL as a word, and irq
(rules R26, R27, R50, R261, R264, R266, R270). -/

namespace Sys2Proof.Machine

/-- The number of an error code (rule R261). -/
def ErrCode.code : ErrCode → Nat
  | .none => 0
  | .illegalOp => 1
  | .badLen => 2
  | .badOperand => 3
  | .noInverse => 4
  | .budgetExceeded => 5
  | .truncated => 6
  | .malformed => 7
  | .domain => 8

/-- A flag as a number. -/
def bitOf (b : Bool) : Nat := if b then 1 else 0

/-- STATUS as the host reads it: BUSY [0], DONE [1], ERR [2], RNGW [3], OVR [4], ERRCODE [11:8], the rest 0
(rule R27). -/
def Status.toWord (t : Status) : Word :=
  BitVec.ofNat 32 (bitOf t.busy + 2 * bitOf t.done + 4 * bitOf t.err + 8 * bitOf t.rngw + 16 * bitOf t.ovr
    + 256 * t.errCode.code)

/-- A host write to STATUS: bits 1, 2 and 4 written as 1 clear DONE, ERR and OVR, and clearing ERR clears ERRCODE; every
other bit is ignored (rules R27, R266). -/
def Status.writeOneToClear (v : Word) (t : Status) : Status :=
  { t with
    done := t.done && !v.getLsbD 1
    err := t.err && !v.getLsbD 2
    errCode := if v.getLsbD 2 then .none else t.errCode
    ovr := t.ovr && !v.getLsbD 4 }

/-- Acceptance: BUSY is set, DONE, ERR and ERRCODE are cleared, OVR stays (rules R28, R265). -/
def Status.accept (t : Status) : Status :=
  { t with busy := true, done := false, err := false, errCode := .none }

/-- Completion without error: BUSY and RNGW are cleared, DONE is set (rules R27, R100). -/
def Status.finish (t : Status) : Status :=
  { t with busy := false, done := true, rngw := false }

/-- Completion with an error: as without, and ERR and ERRCODE are set (rules R100, R264). -/
def Status.raise (c : ErrCode) (t : Status) : Status :=
  { t with busy := false, done := true, rngw := false, err := true, errCode := c }

/-- The engine waits on the RNG port: RNGW is set (rules R27, R200). -/
def Status.wait (t : Status) : Status := { t with rngw := true }

/-- CTRL as the host reads it: IE [0], the rest 0 (rule R26). -/
def ctrlWord (ie : Bool) : Word := BitVec.ofNat 32 (bitOf ie)

/-- The irq output: CTRL.IE AND STATUS.DONE (rule R270). -/
def State.irq (s : State) : Bool := s.ctrlIe && s.status.done

/-- The rng_ready output (rules R48, R200). -/
def State.rngReady (s : State) : Bool := s.status.rngw

end Sys2Proof.Machine
end

