-- ==== Sys2Proof/Machine/Ops.lean ====
section
/-! DEFINITION. The named operations over the memory and the registers: bytes, entries of the banks, BYTEBUF; acceptance
of a command; the completion step, with and without an error (the machine's exception entry, rule R264), the return from
an error (rule R266), and the wait for random bytes. -/

namespace Sys2Proof.Machine

/-! ## Bytes -/

/-- The canonical form of a memory: addresses strictly rising. -/
def Memory.wf : Memory → Bool
  | [] => true
  | [_] => true
  | c :: d :: m => decide (c.1 < d.1) && Memory.wf (d :: m)

/-- The byte written at an address, none where nothing has been written since the last reset. -/
def Memory.read : Memory → Nat → Option Byte
  | [], _ => none
  | c :: m, a => if c.1 = a then some c.2 else Memory.read m a

/-- Write one byte, keeping the canonical form. -/
def Memory.write : Memory → Nat → Byte → Memory
  | [], a, v => [(a, v)]
  | c :: m, a, v =>
    if a < c.1 then (a, v) :: c :: m
    else if a = c.1 then (a, v) :: m
    else c :: Memory.write m a v

/-- Write bytes at consecutive addresses, the first at the lowest (rule R64: little-endian, low byte first). -/
def Memory.writeBytes : Memory → Nat → List Byte → Memory
  | m, _, [] => m
  | m, a, v :: vs => Memory.writeBytes (m.write a v) (a + 1) vs

/-- The `n` bytes of a number, least significant first (rules R9, R64). -/
def bytesOf : Nat → Nat → List Byte
  | 0, _ => []
  | n + 1, v => BitVec.ofNat 8 v :: bytesOf n (v / 256)

/-- The number of little-endian bytes (rules R9, R64). -/
def numberOf : List Byte → Nat
  | [] => 0
  | b :: bs => b.toNat + 256 * numberOf bs

/-- The byte of RAM at a host address: what was last written there, or the free value of a byte that nothing has written
since the last reset (rule R294; log entry 5). -/
def State.byteAt (s : State) (a : Nat) : Byte :=
  (Memory.read s.mem a).getD (Config.ramPowerOn s.resets a)

/-- The `n` bytes of RAM from a host address on. -/
def State.bytesAt (s : State) (a n : Nat) : List Byte := (List.range n).map fun k => s.byteAt (a + k)

/-! ## Where the banks lie (rules R61, R64, R65, R66) -/

/-- Host address of entry i of F bank b (rule R65). -/
def fAddr (b : Bank) (i : Nat) : Nat := 0x10000 + 0x4000 * b.val + 16 * i

/-- Host address of entry i of Z bank b (rule R66). -/
def zAddr (b : Bank) (i : Nat) : Nat := 0x20000 + 0x1000 * b.val + 4 * i

/-- Host address of BYTEBUF[k] (rule R64). -/
def bufAddr (k : Nat) : Nat := 0x24000 + k

/-- F[b][i] (rules R41, R65). -/
def State.fEntry (s : State) (b : Bank) (i : Nat) : Cplx :=
  ⟨BitVec.ofNat 64 (numberOf (s.bytesAt (fAddr b i) 8)), BitVec.ofNat 64 (numberOf (s.bytesAt (fAddr b i + 8) 8))⟩

/-- Z[b][i] (rules R42, R66). -/
def State.zEntry (s : State) (b : Bank) (i : Nat) : Half :=
  BitVec.ofNat 16 (numberOf (s.bytesAt (zAddr b i) 2))

/-- BYTEBUF[k] (rule R43). -/
def State.bufByte (s : State) (k : Nat) : Byte := s.byteAt (bufAddr k)

/-- F[b][0..n-1] (rule R41). -/
def State.fEntries (s : State) (b : Bank) (n : Nat) : List Cplx := (List.range n).map fun i => s.fEntry b i

/-- Z[b][0..n-1] (rule R42). -/
def State.zEntries (s : State) (b : Bank) (n : Nat) : List Half := (List.range n).map fun i => s.zEntry b i

/-- The bytes of a complex entry in address order (rule R65). -/
def cplxBytes (v : Cplx) : List Byte := bytesOf 8 v.re.toNat ++ bytesOf 8 v.im.toNat

/-- F[b][i], F[b][i+1], ... <- the values of the list. -/
def Memory.writeF (b : Bank) : Memory → Nat → List Cplx → Memory
  | m, _, [] => m
  | m, i, v :: vs => Memory.writeF b (m.writeBytes (fAddr b i) (cplxBytes v)) (i + 1) vs

/-- Z[b][i], Z[b][i+1], ... <- the values of the list. -/
def Memory.writeZ (b : Bank) : Memory → Nat → List Half → Memory
  | m, _, [] => m
  | m, i, v :: vs => Memory.writeZ b (m.writeBytes (zAddr b i) (bytesOf 2 v.toNat)) (i + 1) vs

/-- BYTEBUF[0], BYTEBUF[1], ... <- the bytes of the list. -/
def Memory.writeBuf (m : Memory) (bs : List Byte) : Memory := m.writeBytes (bufAddr 0) bs

/-! ## The command frame (rule R100) -/

/-- The operand registers as the snapshot takes them (rule R47). -/
def State.latch (s : State) : Snapshot :=
  { mu := s.mu, sigma := s.sigma, sigmin := s.sigmin, x := s.x, ccs := s.ccs, budget := s.budget, inlen := s.inlen }

/-- Acceptance of a command word (rule R28). -/
def State.accept (w : Word) (s : State) : State :=
  { s with cmd := w, snap := s.latch, status := s.status.accept, drawn := [] }

/-- Error entry, what this machine has in place of taking an exception (rules R100, R264): the completion step with an
error code. Nothing but STATUS changes, and the sequencer is idle again. -/
def State.raiseError (c : ErrCode) (s : State) : State :=
  { s with status := s.status.raise c, drawn := [] }

/-- Return from an error, what this machine has in place of a return from exception (rule R266): the host's
write-one-to-clear of STATUS. -/
def State.clearStatus (v : Word) (s : State) : State :=
  { s with status := s.status.writeOneToClear v }

/-- What a command that succeeds leaves behind: the memory, and RESULT0 and RESULT1 where the operation gives results. -/
structure Effect where
  mem     : Memory
  results : Option (Word × Word)

/-- RESULT0 after a command (rule R29): commands that give no results leave it. -/
def Effect.result0 (e : Effect) (s : State) : Word := (e.results.map Prod.fst).getD s.result0

/-- RESULT1 after a command (rule R30). -/
def Effect.result1 (e : Effect) (s : State) : Word := (e.results.map Prod.snd).getD s.result1

/-- The completion step of a command that succeeds (rule R100): outputs, results, BUSY and DONE in one step. -/
def State.finish (e : Effect) (s : State) : State :=
  { s with
    mem := e.mem, result0 := e.result0 s, result1 := e.result1 s
    status := s.status.finish, drawn := [] }

/-- The frame of a command that draws no random byte (rule R100): the check phase, then execution, then completion. -/
def runCommand (check : Option ErrCode) (body : Except ErrCode Effect) (s : State) : Result :=
  match check with
  | some c => .next (s.raiseError c)
  | none =>
    match body with
    | .error c => .next (s.raiseError c)
    | .ok e => .next (s.finish e)

/-! ## Random bytes (rules R200, R302) -/

/-- What a command that draws random bytes makes of the bytes it can have, the ones it has drawn and the ones the source
delivers: its two results and the bytes it left, or none when it needs more than there are. -/
abbrev Draw := List Byte → Option (Word × Word × List Byte)

/-- The bytes of the running command: those it has drawn, then those the source delivers (rule R200). -/
def State.supply (s : State) : List Byte := s.drawn ++ s.rngIn

/-- The engine takes `n` bytes from the port: they leave the stream and RNGCNT counts them (rules R38, R200). -/
def State.takeBytes (n : Nat) (s : State) : State :=
  { s with rngIn := s.rngIn.drop n, rngCnt := s.rngCnt + BitVec.ofNat 32 n }

/-- The engine has taken every byte there is and waits for the next one (rules R46, R200, R273). -/
def State.starve (s : State) : State :=
  { s with
    drawn := s.supply, rngIn := [], rngCnt := s.rngCnt + BitVec.ofNat 32 s.rngIn.length
    status := s.status.wait }

/-- The frame of a command that draws random bytes (rules R100, R200): the checks come before any draw, a command whose
bytes are not all there waits with BUSY and RNGW, and one whose bytes are there completes with its results. -/
def runDrawing (check : Option ErrCode) (draw : Draw) (s : State) : Result :=
  match check with
  | some c => .next (s.raiseError c)
  | none =>
    match draw s.supply with
    | none => .next s.starve
    | some (r0, r1, rest) =>
      .next ((s.takeBytes (s.supply.length - rest.length - s.drawn.length)).finish
        { mem := s.mem, results := some (r0, r1) })

end Sys2Proof.Machine
end

