-- ==== Sys2Proof/Machine/Bus.lean ====
section
/-! DEFINITION. The host bus (rules R60 to R72): the address map, the registers, the ROM windows, and one host access.
A bus error is an answer, never a stop (rule R260). -/

namespace Sys2Proof.Machine

/-! ## The address map (rule R61) -/

/-- The regions of the address map (rule R61). -/
inductive Region where
  | csr | fBank | zBank | byteBuf | twrom | zrom | invrom | cdtRom | expRom
  deriving DecidableEq, Repr

/-- One row of the address map: first byte, last byte, region (rule R61). -/
structure MapRow where
  first  : Nat
  last   : Nat
  region : Region
  deriving DecidableEq, Repr

/-- The host address map; the four F banks and the four Z banks lie end to end (rule R61). -/
def memoryMap : List MapRow :=
  [ ⟨0x00000, 0x0004F, .csr⟩, ⟨0x10000, 0x1FFFF, .fBank⟩, ⟨0x20000, 0x23FFF, .zBank⟩, ⟨0x24000, 0x247FF, .byteBuf⟩
  , ⟨0x30020, 0x37FFF, .twrom⟩, ⟨0x38008, 0x39FFF, .zrom⟩, ⟨0x40000, 0x4C003, .invrom⟩
  , ⟨0x4D000, 0x4D11F, .cdtRom⟩, ⟨0x4D200, 0x4D267, .expRom⟩ ]

/-- The region of a byte address, none where nothing is mapped (rules R61, R63). -/
def regionOf (a : Nat) : Option Region :=
  (memoryMap.find? fun r => decide (r.first ≤ a) && decide (a ≤ r.last)).map MapRow.region

/-- Byte addresses at which RAM has a byte: all of F and BYTEBUF, and the two low bytes of each word of Z (rules R64 to
R66). -/
def isRamByte (a : Nat) : Bool :=
  match regionOf a with
  | some .fBank => true
  | some .byteBuf => true
  | some .zBank => decide (a % 4 < 2)
  | _ => false

/-! ## The registers (rules R23 to R40) -/

/-- Byte offset of a register word (rule R23). -/
def Csr.offset : Csr → Nat
  | .id => 0x00 | .version => 0x04 | .ctrl => 0x08 | .status => 0x0C | .cmd => 0x10
  | .result0 => 0x14 | .result1 => 0x18 | .rngcnt => 0x1C
  | .muLo => 0x20 | .muHi => 0x24 | .sigmaLo => 0x28 | .sigmaHi => 0x2C
  | .sigminLo => 0x30 | .sigminHi => 0x34 | .xLo => 0x38 | .xHi => 0x3C
  | .ccsLo => 0x40 | .ccsHi => 0x44 | .budget => 0x48 | .inlen => 0x4C

/-- Every register word, in the order of rule R23. -/
def csrAll : List Csr :=
  [ .id, .version, .ctrl, .status, .cmd, .result0, .result1, .rngcnt, .muLo, .muHi, .sigmaLo, .sigmaHi
  , .sigminLo, .sigminHi, .xLo, .xHi, .ccsLo, .ccsHi, .budget, .inlen ]

/-- The register word at a byte address; none where rule R23 lists none (rule R39). -/
def csrAt (a : Nat) : Option Csr := csrAll.find? fun c => c.offset == a

/-- Registers a write to which gets SLVERR (rules R23, R68). -/
def Csr.readOnly : Csr → Bool
  | .id | .version | .result0 | .result1 | .rngcnt => true
  | _ => false

/-- The low word of a 64-bit register (rule R40). -/
def loWord (v : B64) : Word := v.extractLsb' 0 32

/-- The high word of a 64-bit register (rule R40). -/
def hiWord (v : B64) : Word := v.extractLsb' 32 32

/-- Replace the low word of a 64-bit register (rule R40). -/
def setLo (v : B64) (w : Word) : B64 := hiWord v ++ w

/-- Replace the high word of a 64-bit register (rule R40). -/
def setHi (v : B64) (w : Word) : B64 := w ++ loWord v

/-- What a read of a register returns (rules R24 to R38). ID and VERSION are hard-wired. -/
def State.readCsr (s : State) : Csr → Word
  | .id => 0x50514353
  | .version => 0x00010000
  | .ctrl => ctrlWord s.ctrlIe
  | .status => s.status.toWord
  | .cmd => s.cmd
  | .result0 => s.result0
  | .result1 => s.result1
  | .rngcnt => s.rngCnt
  | .muLo => loWord s.mu
  | .muHi => hiWord s.mu
  | .sigmaLo => loWord s.sigma
  | .sigmaHi => hiWord s.sigma
  | .sigminLo => loWord s.sigmin
  | .sigminHi => hiWord s.sigmin
  | .xLo => loWord s.x
  | .xHi => hiWord s.x
  | .ccsLo => loWord s.ccs
  | .ccsHi => hiWord s.ccs
  | .budget => s.budget.setWidth 32
  | .inlen => s.inlen.setWidth 32

/-- A write to CMD: accepted when idle (rule R28), refused with OVR while a command runs (rules R28, R265). The flag
answers whether it was refused. -/
def State.writeCmd (v : Word) (s : State) : State × Bool :=
  if s.status.busy then ({ s with status := { s.status with ovr := true } }, true)
  else (s.accept v, false)

/-- A write to a register and its pslverr (rules R24 to R40, R68). -/
def State.writeCsr (s : State) (v : Word) : Csr → State × Bool
  | .id => (s, true)
  | .version => (s, true)
  | .result0 => (s, true)
  | .result1 => (s, true)
  | .rngcnt => (s, true)
  | .ctrl => ({ s with ctrlIe := v.getLsbD 0 }, false)
  | .status => (s.clearStatus v, false)
  | .cmd => s.writeCmd v
  | .muLo => ({ s with mu := setLo s.mu v }, false)
  | .muHi => ({ s with mu := setHi s.mu v }, false)
  | .sigmaLo => ({ s with sigma := setLo s.sigma v }, false)
  | .sigmaHi => ({ s with sigma := setHi s.sigma v }, false)
  | .sigminLo => ({ s with sigmin := setLo s.sigmin v }, false)
  | .sigminHi => ({ s with sigmin := setHi s.sigmin v }, false)
  | .xLo => ({ s with x := setLo s.x v }, false)
  | .xHi => ({ s with x := setHi s.x v }, false)
  | .ccsLo => ({ s with ccs := setLo s.ccs v }, false)
  | .ccsHi => ({ s with ccs := setHi s.ccs v }, false)
  | .budget => ({ s with budget := v.setWidth 12 }, false)
  | .inlen => ({ s with inlen := v.setWidth 12 }, false)

/-! ## RAM and ROM words (rules R64 to R67) -/

/-- The aligned word of F or BYTEBUF at a host address (rules R64, R65). -/
def State.ramWord (s : State) (a : Nat) : Word := BitVec.ofNat 32 (numberOf (s.bytesAt a 4))

/-- The aligned word of Z at a host address: bits [31:16] read as 0 (rule R66). -/
def State.zWord (s : State) (a : Nat) : Word := BitVec.ofNat 32 (numberOf (s.bytesAt a 2))

/-- Word `k` (0 to 3) of a complex ROM entry (rule R67). -/
def cplxWord (v : Cplx) : Nat → Word
  | 0 => loWord v.re
  | 1 => hiWord v.re
  | 2 => loWord v.im
  | _ => hiWord v.im

/-- Word `k` (0 to 3) of a CDT entry: 32, 32 and 8 bits, then 0 (rule R67). -/
def cdtWord (v : BitVec 72) : Nat → Word
  | 0 => v.extractLsb' 0 32
  | 1 => v.extractLsb' 32 32
  | 2 => v.extractLsb' 64 32
  | _ => 0

/-- Word `k` (0 or 1) of an EXP entry (rule R67). -/
def expWord (v : BitVec 64) : Nat → Word
  | 0 => loWord v
  | _ => hiWord v

/-- The word of a ROM window (rule R67). -/
def State.romWord (s : State) (r : Region) (a : Nat) : Word :=
  match r with
  | .twrom => cplxWord (Sys2Proof.Machine.twrom ((a - 0x30000) / 16)) (a / 4 % 4)
  | .zrom => BitVec.ofNat 32 (Sys2Proof.Machine.zrom ((a - 0x38000) / 4))
  | .invrom => BitVec.ofNat 32 (Sys2Proof.Machine.invrom ((a - 0x40000) / 4))
  | .cdtRom => cdtWord (s.cdtRom.toList.getD ((a - 0x4D000) / 16) 0) (a / 4 % 4)
  | .expRom => expWord (s.expRom.toList.getD ((a - 0x4D200) / 8) 0) (a / 4 % 2)
  | .csr | .fBank | .zBank | .byteBuf => 0

/-! ## One access -/

/-- The access gets SLVERR whatever lies at the address: it is misaligned (rule R62), or it reaches at or above 0x10000
while a command runs (rules R69, R267). -/
def State.busRefuses (s : State) (a : Nat) : Bool := a % 4 != 0 || (s.status.busy && decide (0x10000 ≤ a))

/-- The answer of a host read: data and pslverr. A read has no side effect (rule R70); one that gets SLVERR returns 0
(rules R62, R63, R69). -/
def State.readWord (s : State) (a : Nat) : Word × Bool :=
  if s.busRefuses a then (0, true)
  else
    match regionOf a with
    | none => (0, true)
    | some .csr =>
      match csrAt a with
      | none => (0, true)
      | some c => (s.readCsr c, false)
    | some .fBank => (s.ramWord a, false)
    | some .byteBuf => (s.ramWord a, false)
    | some .zBank => (s.zWord a, false)
    | some .twrom => (s.romWord .twrom a, false)
    | some .zrom => (s.romWord .zrom a, false)
    | some .invrom => (s.romWord .invrom a, false)
    | some .cdtRom => (s.romWord .cdtRom a, false)
    | some .expRom => (s.romWord .expRom a, false)

/-- The state and the pslverr of a host write (rules R62 to R70). -/
def State.writeWord (s : State) (a : Nat) (v : Word) : State × Bool :=
  if s.busRefuses a then (s, true)
  else
    match regionOf a with
    | none => (s, true)
    | some .csr =>
      match csrAt a with
      | none => (s, true)
      | some c => s.writeCsr v c
    | some .fBank => ({ s with mem := s.mem.writeBytes a (bytesOf 4 v.toNat) }, false)
    | some .byteBuf => ({ s with mem := s.mem.writeBytes a (bytesOf 4 v.toNat) }, false)
    | some .zBank => ({ s with mem := s.mem.writeBytes a (bytesOf 2 v.toNat) }, false)
    | some .twrom => (s, true)
    | some .zrom => (s, true)
    | some .invrom => (s, true)
    | some .cdtRom => (s, true)
    | some .expRom => (s, true)

/-- One host access while rst_n = 1: what it does and the answer of the bus (rules R60 to R70). -/
def State.access (s : State) : Access → State
  | .read a => { s with bus := .read (s.readWord a.toNat).1 (s.readWord a.toNat).2 }
  | .write a v => { (s.writeWord a.toNat v).1 with bus := .write (s.writeWord a.toNat v).2 }

/-- One host access while rst_n = 0: it does nothing, and the answer is a free value (rule R290; log entry 10). -/
def State.accessInReset (s : State) : Access → State
  | .read _ =>
    { s with
      bus := .read (Config.resetReadData s.resetReads) (Config.resetSlverr s.resetReads)
      resetReads := s.resetReads + 1 }
  | .write _ _ =>
    { s with bus := .write (Config.resetSlverr s.resetReads), resetReads := s.resetReads + 1 }

/-- One host access (rules R60 to R70, R290). -/
def State.hostAccess (s : State) (a : Access) : State :=
  if s.inReset then s.accessInReset a else s.access a

end Sys2Proof.Machine
end

