-- ==== Sys2Proof/Machine/Operands.lean ====
section
/-! DEFINITION. The operand forms: the length classes, the checks of the check phase on the command word and the
snapshot (rules R84, R86, R263), and the operand vectors a unit reads. -/

namespace Sys2Proof.Machine

/-- The length classes of rule R84 whose LEN is checked (class X is not). -/
inductive LenClass where
  /-- Transform: a power of two, 2 to 1024. -/
  | T
  /-- Pointwise: 1 to 1024. -/
  | P
  /-- Split: even, 2 to 1024. -/
  | S
  /-- Merge: 1 to 1024. -/
  | M
  /-- Codec: 0 to 1024. -/
  | C
  deriving DecidableEq, Repr

/-- Which LEN is legal in a class (rule R84). -/
def LenClass.legal : LenClass → Nat → Bool
  | .T, n => decide (2 ≤ n) && decide (n ≤ Config.nMax) && 2 ^ Nat.log2 n == n
  | .P, n => decide (1 ≤ n) && decide (n ≤ Config.nMax)
  | .S, n => decide (2 ≤ n) && decide (n ≤ Config.nMax) && n % 2 == 0
  | .M, n => decide (1 ≤ n) && decide (n ≤ Config.nMax)
  | .C, n => decide (n ≤ Config.nMax)

/-- BAD_LEN: LEN is outside the operation's class (rules R84, R263). -/
def lenCheck (c : LenClass) (n : Nat) : Option ErrCode := if c.legal n then none else some .badLen

/-- BAD_OPERAND of the split operations: the two outputs name one bank (rules R86, R263). -/
def splitCheck (rd re : Bank) : Option ErrCode := if rd = re then some .badOperand else none

/-- BAD_OPERAND of the codec: a byte count of the snapshot above 2048 (rules R86, R263). -/
def byteCountCheck (n : BitVec 12) : Option ErrCode :=
  if n.toNat ≤ Config.byteBufSize then none else some .badOperand

/-- DOMAIN: the domain test of a sampler command fails (rule R263). -/
def domainCheck (ok : Bool) : Option ErrCode := if ok then none else some .domain

/-- 0 <= v <= 1, -0 included, NaN not (rules R204, R210, R211). -/
def inUnit (v : B64) : Bool := b64Le 0 v && b64Le v b64One

/-- The domain of GEXP: 0 <= X < 1 and 0 <= CCS <= 1 (rule R210). -/
def gexpDomain (p : Snapshot) : Bool := b64Le 0 p.x && b64Lt p.x b64One && inUnit p.ccs

/-- The domain of GBER: X is not NaN and 0 <= CCS <= 1 (rule R211). -/
def gberDomain (p : Snapshot) : Bool := !b64IsNaN p.x && inUnit p.ccs

/-- The domain of GSAMP: MU finite with |MU| <= 16384, and 0.5 <= SIGMIN <= SIGMA <= SIGMA_MAX (rule R212). -/
def gsampDomain (p : Snapshot) : Bool :=
  b64IsFinite p.mu && decide (b64Mag p.mu ≤ 16384 * b64Unit)
    && b64Le b64Half p.sigmin && b64Le p.sigmin p.sigma && b64Le p.sigma sigmaMax

/-- The residues of Z[b][0..n-1]: `zext_16(v) mod q` (rule R161). -/
def State.residues (s : State) (b : Bank) (n : Nat) : List Nat :=
  (s.zEntries b n).map fun v => v.toNat % Config.q

/-- The signed coefficients of Z[b][0..n-1]: `sext_16(v)` (rules R44, R240). -/
def State.coefficients (s : State) (b : Bank) (n : Nat) : List Int :=
  (s.zEntries b n).map fun v => v.toInt

/-- BYTEBUF[0..n-1] (rule R43). -/
def State.bufBytes (s : State) (n : Nat) : List Byte := (List.range n).map fun k => s.bufByte k

/-! ## Outputs -/

/-- The output of a command that writes one F bank from entry 0 on. -/
def State.outF (s : State) (rd : Bank) (v : List Cplx) : Effect :=
  { mem := Memory.writeF rd s.mem 0 v, results := none }

/-- The outputs of a command that writes two F banks. -/
def State.outFF (s : State) (rd re : Bank) (v w : List Cplx) : Effect :=
  { mem := Memory.writeF re (Memory.writeF rd s.mem 0 v) 0 w, results := none }

/-- The output of a command that writes one Z bank from entry 0 on. -/
def State.outZ (s : State) (rd : Bank) (v : List Half) : Effect :=
  { mem := Memory.writeZ rd s.mem 0 v, results := none }

/-- The outputs of a command that writes two Z banks. -/
def State.outZZ (s : State) (rd re : Bank) (v w : List Half) : Effect :=
  { mem := Memory.writeZ re (Memory.writeZ rd s.mem 0 v) 0 w, results := none }

/-- A residue as a Z entry: the canonical residue, the bits above it 0 (rule R161). -/
def halfOf (r : Nat) : Half := BitVec.ofNat 16 r

end Sys2Proof.Machine
end

