-- ==== Sys2Proof/Machine/Codec.lean ====
section
/-! DEFINITION. The sign-magnitude codec, U5 (rules R240 to R246). A bitstream is a list of bits in stream order. -/

namespace Sys2Proof.Machine

/-- The low `n` bits of a number, most significant first. -/
def bitsMsb : Nat → Nat → List Bool
  | 0, _ => []
  | n + 1, m => (m / 2 ^ n % 2 == 1) :: bitsMsb n m

/-- The number whose bits, most significant first, are the list, after the bits already read. -/
def numberMsb : Nat → List Bool → Nat
  | acc, [] => acc
  | acc, b :: bs => numberMsb (2 * acc + bitOf b) bs

/-- `enc(c)`: sign, low 7 bits of |c|, |c| >> 7 one-bits, a zero (rule R242). -/
def encodeCoeff (c : Int) : List Bool :=
  decide (c < 0) :: (bitsMsb 7 c.natAbs ++ List.replicate (c.natAbs / 128) true ++ [false])

/-- `encall(v)` (rule R242). -/
def encodeAll (v : List Int) : List Bool := (v.map encodeCoeff).flatten

/-- The stream as `n` bytes, the first bit in bit 7 of the first byte; bits missing at the end are 0 (rule R241). -/
def packBits : Nat → List Bool → List Byte
  | 0, _ => []
  | n + 1, bits =>
    BitVec.ofNat 8 (numberMsb 0 (bits.take 8 ++ List.replicate (8 - bits.length) false)) :: packBits n (bits.drop 8)

/-- The bits of bytes in stream order (rule R241). -/
def unpackBits (bs : List Byte) : List Bool := (bs.map fun b => bitsMsb 8 b.toNat).flatten

/-- The unary run: how many one-bits up to the zero terminator, and the bits after it; none when the input ends first
(rule R244). -/
def unaryRun : Nat → List Bool → Option (Nat × List Bool)
  | _, [] => none
  | u, true :: bs => unaryRun (u + 1) bs
  | u, false :: bs => some (u, bs)

/-- The coefficient of a sign, low 7 bits and run: MALFORMED for negative zero and outside the 16-bit range
(rule R244). -/
def signedMagnitude (neg : Bool) (low u : Nat) : Except ErrCode Int :=
  let m : Nat := u * 128 + low
  let c : Int := if neg then -(m : Int) else m
  if neg && m == 0 then .error .malformed
  else if c < -32768 ∨ 32767 < c then .error .malformed
  else .ok c

/-- One coefficient of `dec` and the bits after it (rule R244). -/
def decodeCoeff : List Bool → Except ErrCode (Int × List Bool)
  | sg :: b6 :: b5 :: b4 :: b3 :: b2 :: b1 :: b0 :: bs =>
    match unaryRun 0 bs with
    | none => .error .truncated
    | some (u, rest) => (signedMagnitude sg (numberMsb 0 [b6, b5, b4, b3, b2, b1, b0]) u).map fun c => (c, rest)
  | _ => .error .truncated

/-- `dec(β, N, n)`: n coefficients, or the first error in stream order, and the bits left (rule R244). -/
def decodeAll : Nat → List Bool → Except ErrCode (List Int × List Bool)
  | 0, bits => .ok ([], bits)
  | n + 1, bits =>
    match decodeCoeff bits with
    | .error c => .error c
    | .ok (c, rest) =>
      match decodeAll n rest with
      | .error e => .error e
      | .ok (cs, rest') => .ok (c :: cs, rest')

/-- The execution of CMPR (rule R243): BUDGET_EXCEEDED when the unpadded length is above 8·B, else B bytes and the
length. -/
def compress (s : State) (v : List Int) (budget : Nat) : Except ErrCode Effect :=
  let bits := encodeAll v
  if 8 * budget < bits.length then .error .budgetExceeded
  else .ok { mem := s.mem.writeBuf (packBits budget bits), results := some (BitVec.ofNat 32 bits.length, 0) }

/-- The execution of DCMP (rule R245): BUDGET_EXCEEDED when INLEN is above BUDGET, before any bit is read. -/
def decompress (s : State) (rd : Bank) (n budget inlen : Nat) : Except ErrCode Effect :=
  if budget < inlen then .error .budgetExceeded
  else
    (decodeAll n (unpackBits (s.bufBytes inlen))).map fun r =>
      { mem := Memory.writeZ rd s.mem 0 (r.1.map fun c => BitVec.ofInt 16 c)
        results := some (BitVec.ofNat 32 (8 * inlen - r.2.length), 0) }

/-- CMPR (rule R243). -/
def execCmpr (ra : Bank) (len : Nat) (s : State) : Result :=
  runCommand ((lenCheck .C len).or (byteCountCheck s.snap.budget))
    (compress s (s.coefficients ra len) s.snap.budget.toNat) s

/-- DCMP (rule R245). -/
def execDcmp (rd : Bank) (len : Nat) (s : State) : Result :=
  runCommand ((lenCheck .C len).or ((byteCountCheck s.snap.budget).or (byteCountCheck s.snap.inlen)))
    (decompress s rd len s.snap.budget.toNat s.snap.inlen.toNat) s

end Sys2Proof.Machine
end

