-- ==== Sys2Proof/Machine/Butterfly.lean ====
section
/-! DEFINITION. The recursion U2 and U3 share (rules R126 to R129 and R166 to R169; the source: "structurally identical
recursion"), over any kind of coefficient, and the deinterleaving of U1 (rules R102, R103). -/

namespace Sys2Proof.Machine

variable {α : Type}

/-- The even half of `split(s)`: e[i] = s[2i] (rule R102). -/
def evens : List α → List α
  | a :: _ :: t => a :: evens t
  | [a] => [a]
  | [] => []

/-- The odd half of `split(s)`: o[i] = s[2i+1] (rule R102). -/
def odds : List α → List α
  | _ :: b :: t => b :: odds t
  | [_] => []
  | [] => []

/-- `merge(a, b)`: m[2i] = a[i], m[2i+1] = b[i], and the remainder of a longer first sequence at the end (rule R103). -/
def interleave : List α → List α → List α
  | a :: as, b :: bs => a :: b :: interleave as bs
  | a :: as, [] => a :: as
  | [], bs => bs

/-- What a transform is made of: the 2-point transform and its inverse, and the butterfly of a ROM address and its
inverse. -/
structure Radix2 (α : Type) where
  base    : α → α → α × α
  baseInv : α → α → α × α
  fly     : Nat → α → α → α × α
  flyInv  : Nat → α → α → α × α

/-- The merge pass (rules R129, R169): entry i of the halves gives entries 2i and 2i+1, with the root at ROM address
n + 2i. The first argument is that address, n at the start. -/
def mergePass (fly : Nat → α → α → α × α) : Nat → List α → List α → List α
  | a, x :: xs, y :: ys => (fly a x y).1 :: (fly a x y).2 :: mergePass fly (a + 2) xs ys
  | _, [], _ => []
  | _, _ :: _, [] => []

/-- The split pass (rules R128, R168): entries 2i and 2i+1 give entry i of the halves, with the root at ROM address
n + 2i. -/
def splitPass (flyInv : Nat → α → α → α × α) : Nat → List α → List α × List α
  | a, x :: y :: t =>
    let r := splitPass flyInv (a + 2) t
    ((flyInv a x y).1 :: r.1, (flyInv a x y).2 :: r.2)
  | _, [_] => ([], [])
  | _, [] => ([], [])

/-- The forward transform of 2^(k+1) coefficients (rules R126, R166). -/
def transform (u : Radix2 α) : Nat → List α → List α
  | 0, x :: y :: _ => [(u.base x y).1, (u.base x y).2]
  | 0, _ => []
  | k + 1, f => mergePass u.fly (2 ^ (k + 2)) (transform u k (evens f)) (transform u k (odds f))

/-- The inverse transform of 2^(k+1) values (rules R127, R167). -/
def inverseTransform (u : Radix2 α) : Nat → List α → List α
  | 0, x :: y :: _ => [(u.baseInv x y).1, (u.baseInv x y).2]
  | 0, _ => []
  | k + 1, f =>
    let h := splitPass u.flyInv (2 ^ (k + 2)) f
    interleave (inverseTransform u k h.1) (inverseTransform u k h.2)

/-- The level of a transform of length n = 2^(level+1). -/
def levelOf (n : Nat) : Nat := Nat.log2 n - 1

end Sys2Proof.Machine
end

