-- ==== Sys2Proof/Machine/Fft.lean ====
section
/-! DEFINITION. The FFT engine, U2 (rules R126 to R142). No command of it raises a numeric error. -/

namespace Sys2Proof.Machine

/-- The fft base case: `[f0 + i·f1, f0 - i·f1]` (rule R126). -/
def fftBase (x y : Cplx) : Cplx × Cplx := (cadd x (mulI y), csub x (mulI y))

/-- The ifft base case (rule R127). -/
def fftBaseInv (x y : Cplx) : Cplx × Cplx := (chalf (cadd x y), chalf (mulNegI (csub x y)))

/-- The merge_fft butterfly with w = TWROM[a] (rule R129). -/
def fftFly (a : Nat) (x y : Cplx) : Cplx × Cplx :=
  let t := cmul (twrom a) y
  (cadd x t, csub x t)

/-- The split_fft butterfly with w = TWROM[a]: halved before it is multiplied by conj(w) (rule R128). -/
def fftFlyInv (a : Nat) (x y : Cplx) : Cplx × Cplx :=
  (chalf (cadd x y), cmul (chalf (csub x y)) (cconj (twrom a)))

/-- U2's transform (rules R126 to R129). -/
def fftUnit : Radix2 Cplx :=
  { base := fftBase, baseInv := fftBaseInv, fly := fftFly, flyInv := fftFlyInv }

/-- `fft(f, n)` (rule R126). -/
def fft (n : Nat) (f : List Cplx) : List Cplx := transform fftUnit (levelOf n) f

/-- `ifft(F, n)` (rule R127). -/
def ifft (n : Nat) (f : List Cplx) : List Cplx := inverseTransform fftUnit (levelOf n) f

/-- `split_fft(F, n)` (rule R128). -/
def splitFft (n : Nat) (f : List Cplx) : List Cplx × List Cplx := splitPass fftFlyInv n f

/-- `merge_fft(f0, f1, n)` (rule R129). -/
def mergeFft (n : Nat) (f0 f1 : List Cplx) : List Cplx := mergePass fftFly n f0 f1

/-- FFT (rule R130). -/
def execFft (rd ra : Bank) (len : Nat) (s : State) : Result :=
  runCommand (lenCheck .T len) (.ok (s.outF rd (fft len (s.fEntries ra len)))) s

/-- IFFT (rule R131). -/
def execIfft (rd ra : Bank) (len : Nat) (s : State) : Result :=
  runCommand (lenCheck .T len) (.ok (s.outF rd (ifft len (s.fEntries ra len)))) s

/-- FSPLITT (rule R132). -/
def execFsplitt (rd re ra : Bank) (len : Nat) (s : State) : Result :=
  let h := splitFft len (s.fEntries ra len)
  runCommand ((lenCheck .T len).or (splitCheck rd re)) (.ok (s.outFF rd re h.1 h.2)) s

/-- FMERGET (rule R133). -/
def execFmerget (rd ra rb : Bank) (len : Nat) (s : State) : Result :=
  runCommand (lenCheck .T len)
    (.ok (s.outF rd (mergeFft len (s.fEntries ra (len / 2)) (s.fEntries rb (len / 2))))) s

/-- A pointwise two-input command of U2 (rules R134 to R137): n of class P, entry i from entries i. -/
def runPointwiseF (op : Cplx → Cplx → Cplx) (rd ra rb : Bank) (len : Nat) (s : State) : Result :=
  runCommand (lenCheck .P len)
    (.ok (s.outF rd (List.zipWith op (s.fEntries ra len) (s.fEntries rb len)))) s

/-- FADD (rule R134). -/
def execFadd (rd ra rb : Bank) (len : Nat) (s : State) : Result := runPointwiseF cadd rd ra rb len s

/-- FSUB (rule R135). -/
def execFsub (rd ra rb : Bank) (len : Nat) (s : State) : Result := runPointwiseF csub rd ra rb len s

/-- FMULF (rule R136). -/
def execFmulf (rd ra rb : Bank) (len : Nat) (s : State) : Result := runPointwiseF cmul rd ra rb len s

/-- FDIVF (rule R137). -/
def execFdivf (rd ra rb : Bank) (len : Nat) (s : State) : Result := runPointwiseF cdiv rd ra rb len s

/-- FADJF (rule R138). -/
def execFadjf (rd ra : Bank) (len : Nat) (s : State) : Result :=
  runCommand (lenCheck .P len) (.ok (s.outF rd ((s.fEntries ra len).map cconj))) s

/-- FMUL (rule R139): transform both, multiply entry by entry, transform back. -/
def execFmul (rd ra rb : Bank) (len : Nat) (s : State) : Result :=
  let fa := fft len (s.fEntries ra len)
  let fb := fft len (s.fEntries rb len)
  runCommand (lenCheck .T len) (.ok (s.outF rd (ifft len (List.zipWith cmul fa fb)))) s

/-- FDIV (rule R140). -/
def execFdiv (rd ra rb : Bank) (len : Nat) (s : State) : Result :=
  let fa := fft len (s.fEntries ra len)
  let fb := fft len (s.fEntries rb len)
  runCommand (lenCheck .T len) (.ok (s.outF rd (ifft len (List.zipWith cdiv fa fb)))) s

/-- FADJ (rule R141). -/
def execFadj (rd ra : Bank) (len : Nat) (s : State) : Result :=
  let fa := fft len (s.fEntries ra len)
  runCommand (lenCheck .T len) (.ok (s.outF rd (ifft len (fa.map cconj)))) s

end Sys2Proof.Machine
end

