-- ==== Sys2Proof/Machine/Ntt.lean ====
section
/-! DEFINITION. The NTT engine, U3 (rules R160 to R180): exact arithmetic modulo q. -/

namespace Sys2Proof.Machine

/-- `addq(a, b)` (rule R162). -/
def addq (a b : Nat) : Nat := (a + b) % Config.q

/-- `subq(a, b) = (a - b) mod q`, in [0, q) (rules R10, R162). -/
def subq (a b : Nat) : Nat := (((a : Int) - (b : Int)) % (Config.q : Int)).toNat

/-- `mulq(a, b)` (rule R162). -/
def mulq (a b : Nat) : Nat := a * b % Config.q

/-- `I2`, the inverse of 2 (rule R162). -/
def inv2 : Nat := 6145

/-- The ntt base case, with s = ZROM[2] (rule R166). -/
def nttBase (x y : Nat) : Nat × Nat := (addq x (mulq (zrom 2) y), subq x (mulq (zrom 2) y))

/-- The intt base case (rule R167). -/
def nttBaseInv (x y : Nat) : Nat × Nat :=
  (mulq inv2 (addq x y), mulq (mulq inv2 (invrom (zrom 2))) (subq x y))

/-- The merge_ntt butterfly with w = ZROM[a] (rule R169). -/
def nttFly (a x y : Nat) : Nat × Nat :=
  let t := mulq (zrom a) y
  (addq x t, subq x t)

/-- The split_ntt butterfly with w = ZROM[a] (rule R168). -/
def nttFlyInv (a x y : Nat) : Nat × Nat :=
  (mulq inv2 (addq x y), mulq (mulq inv2 (subq x y)) (invrom (zrom a)))

/-- U3's transform (rules R166 to R169). -/
def nttUnit : Radix2 Nat :=
  { base := nttBase, baseInv := nttBaseInv, fly := nttFly, flyInv := nttFlyInv }

/-- `ntt(f, n)` (rule R166). -/
def ntt (n : Nat) (f : List Nat) : List Nat := transform nttUnit (levelOf n) f

/-- `intt(F, n)` (rule R167). -/
def intt (n : Nat) (f : List Nat) : List Nat := inverseTransform nttUnit (levelOf n) f

/-- `split_ntt(F, n)` (rule R168). -/
def splitNtt (n : Nat) (f : List Nat) : List Nat × List Nat := splitPass nttFlyInv n f

/-- `merge_ntt(f0, f1, n)` (rule R169). -/
def mergeNtt (n : Nat) (f0 f1 : List Nat) : List Nat := mergePass nttFly n f0 f1

/-- Residues as Z entries (rule R161). -/
def halves (v : List Nat) : List Half := v.map halfOf

/-- Entrywise division through INVROM; NO_INVERSE when an entry of the divisor is zero (rules R177, R179). -/
def divideq (a b : List Nat) : Except ErrCode (List Nat) :=
  if b.contains 0 then .error .noInverse
  else .ok (List.zipWith (fun x y => mulq x (invrom y)) a b)

/-- NTT (rule R170). -/
def execNtt (rd ra : Bank) (len : Nat) (s : State) : Result :=
  runCommand (lenCheck .T len) (.ok (s.outZ rd (halves (ntt len (s.residues ra len))))) s

/-- INTT (rule R171). -/
def execIntt (rd ra : Bank) (len : Nat) (s : State) : Result :=
  runCommand (lenCheck .T len) (.ok (s.outZ rd (halves (intt len (s.residues ra len))))) s

/-- ZSPLITT (rule R172). -/
def execZsplitt (rd re ra : Bank) (len : Nat) (s : State) : Result :=
  let h := splitNtt len (s.residues ra len)
  runCommand ((lenCheck .T len).or (splitCheck rd re)) (.ok (s.outZZ rd re (halves h.1) (halves h.2))) s

/-- ZMERGET (rule R173). -/
def execZmerget (rd ra rb : Bank) (len : Nat) (s : State) : Result :=
  runCommand (lenCheck .T len)
    (.ok (s.outZ rd (halves (mergeNtt len (s.residues ra (len / 2)) (s.residues rb (len / 2)))))) s

/-- A pointwise two-input command of U3 (rules R174 to R176): n of class P, entry i from entries i. -/
def runPointwiseZ (op : Nat → Nat → Nat) (rd ra rb : Bank) (len : Nat) (s : State) : Result :=
  runCommand (lenCheck .P len)
    (.ok (s.outZ rd (halves (List.zipWith op (s.residues ra len) (s.residues rb len))))) s

/-- ZADD (rule R174). -/
def execZadd (rd ra rb : Bank) (len : Nat) (s : State) : Result := runPointwiseZ addq rd ra rb len s

/-- ZSUB (rule R175). -/
def execZsub (rd ra rb : Bank) (len : Nat) (s : State) : Result := runPointwiseZ subq rd ra rb len s

/-- ZMULN (rule R176). -/
def execZmuln (rd ra rb : Bank) (len : Nat) (s : State) : Result := runPointwiseZ mulq rd ra rb len s

/-- ZDIVN (rule R177). -/
def execZdivn (rd ra rb : Bank) (len : Nat) (s : State) : Result :=
  runCommand (lenCheck .P len)
    ((divideq (s.residues ra len) (s.residues rb len)).map fun v => s.outZ rd (halves v)) s

/-- ZMUL (rule R178). -/
def execZmul (rd ra rb : Bank) (len : Nat) (s : State) : Result :=
  let na := ntt len (s.residues ra len)
  let nb := ntt len (s.residues rb len)
  runCommand (lenCheck .T len) (.ok (s.outZ rd (halves (intt len (List.zipWith mulq na nb))))) s

/-- ZDIV (rule R179): NO_INVERSE when a transform-domain coefficient of the divisor is zero. -/
def execZdiv (rd ra rb : Bank) (len : Nat) (s : State) : Result :=
  let nb := ntt len (s.residues rb len)
  let na := ntt len (s.residues ra len)
  runCommand (lenCheck .T len)
    ((divideq na nb).map fun v => s.outZ rd (halves (intt len v))) s

end Sys2Proof.Machine
end

