-- ==== Sys2Proof/Machine/Ring.lean ====
section
/-! DEFINITION. NOP and the ring split/merge mux, U1 (rules R101 to R106). Entries are copied bit for bit. -/

namespace Sys2Proof.Machine

/-- NOP (rule R101): no outputs, no results. -/
def execNop (s : State) : Result := runCommand none (.ok { mem := s.mem, results := none }) s

/-- FSPLIT (rule R102). -/
def execFsplit (rd re ra : Bank) (len : Nat) (s : State) : Result :=
  let v := s.fEntries ra len
  runCommand ((lenCheck .S len).or (splitCheck rd re)) (.ok (s.outFF rd re (evens v) (odds v))) s

/-- FMERGE (rule R103): the first sequence has ceil(n/2) entries, the second floor(n/2). -/
def execFmerge (rd ra rb : Bank) (len : Nat) (s : State) : Result :=
  runCommand (lenCheck .M len)
    (.ok (s.outF rd (interleave (s.fEntries ra ((len + 1) / 2)) (s.fEntries rb (len / 2))))) s

/-- ZSPLIT (rule R104). -/
def execZsplit (rd re ra : Bank) (len : Nat) (s : State) : Result :=
  let v := s.zEntries ra len
  runCommand ((lenCheck .S len).or (splitCheck rd re)) (.ok (s.outZZ rd re (evens v) (odds v))) s

/-- ZMERGE (rule R105). -/
def execZmerge (rd ra rb : Bank) (len : Nat) (s : State) : Result :=
  runCommand (lenCheck .M len)
    (.ok (s.outZ rd (interleave (s.zEntries ra ((len + 1) / 2)) (s.zEntries rb (len / 2))))) s

end Sys2Proof.Machine
end

