-- ==== Sys2Proof/Machine/Sampler.lean ====
section
/-! DEFINITION. The Gaussian sampler, U4 (rules R200 to R214). A function that draws random bytes takes them from the
front of the byte list it is given and answers the rest, or none when the list is too short. -/

namespace Sys2Proof.Machine

/-- Draw `n` bytes in order (rule R200). -/
def drawBytes (n : Nat) (bs : List Byte) : Option (List Byte × List Byte) :=
  if bs.length < n then none else some (bs.take n, bs.drop n)

/-- The steps of Horner's rule over EXP[1..12]: `y <- (EXP[k] - ((zx · y) >> 63)) mod 2^64` (rule R205). -/
def hornerSteps (zx : Nat) : BitVec 64 → List (BitVec 64) → BitVec 64
  | y, [] => y
  | y, c :: cs => hornerSteps zx (c - BitVec.ofNat 64 (zx * y.toNat / 2 ^ 63)) cs

/-- `approx_exp_fx(zx, cfx)` (rule R205). -/
def approxExpFx (rom : ExpRom) (zx cfx : Nat) : Nat :=
  cfx * (hornerSteps zx (rom.toList.headD 0) rom.toList.tail).toNat / 2 ^ 63

/-- s of `x = s·ln2 + r` for t = x ⊗ ILN2 < 63 (rule R206). -/
def berExponent (t : B64) : Nat := if b64Lt t b64One then 0 else b64TruncNat t

/-- r of `x = s·ln2 + r`, clamped at +0 (rule R206). -/
def berRemainder (x : B64) (s : Nat) : B64 :=
  let r := b64Sub x (b64Mul (b64OfInt s) ln2)
  if b64Lt 0 r then r else 0

/-- `ber_P(x, ccs)` (rule R206). -/
def berP (rom : ExpRom) (x ccs : B64) : Nat :=
  let t := b64Mul x iln2
  if b64Le b64SixtyThree t then 0
  else approxExpFx rom (fx63 (berRemainder x (berExponent t))) (fx63 ccs) / 2 ^ berExponent t

/-- The comparison of `ber_accept` on bytes already drawn: byte 7 of P first, then bytes 6 down to 1; the first
difference decides, and all equal rejects (rule R207). `k` counts the bytes still to compare. -/
def berCompare (p : Nat) : Nat → List Byte → Bool
  | k + 1, r :: rs =>
    let pb := p / 2 ^ (8 * (k + 1)) % 256
    if r.toNat = pb then berCompare p k rs else decide (r.toNat < pb)
  | _, _ => false

/-- `ber_accept(P)`: all 7 bytes are drawn, then compared (rule R207). -/
def berAccept (p : Nat) (bs : List Byte) : Option (Bool × List Byte) :=
  (drawBytes 7 bs).map fun d => (berCompare p 7 d.1, d.2)

/-- The count of `base_sampler`: entries of CDT strictly above u (rule R208). -/
def cdtCount (rom : CdtRom) (u : Nat) : Nat := rom.toList.countP fun c => decide (u < c.toNat)

/-- `base_sampler()`: 9 bytes, little-endian, and the count (rule R208). -/
def baseSampler (rom : CdtRom) (bs : List Byte) : Option (Nat × List Byte) :=
  (drawBytes 9 bs).map fun d => (cdtCount rom (numberOf d.1), d.2)

/-- What GSAMP computes once from its operands (rule R212): floor(mu), its remainder r, 1/(2σ²) and sigmin/σ. -/
structure GsampSetup where
  s   : Int
  r   : B64
  dss : B64
  ccs : B64
  deriving DecidableEq, Repr

/-- The lines of GSAMP before its loop (rule R212). -/
def gsampSetup (p : Snapshot) : GsampSetup :=
  { s := b64Floor p.mu
    r := b64Sub p.mu (b64OfInt (b64Floor p.mu))
    dss := b64Div b64One (b64Mul (b64Mul b64Two p.sigma) p.sigma)
    ccs := b64Div p.sigmin p.sigma }

/-- The candidate `z = b + (2b - 1)·z0` (rule R212). -/
def gsampCandidate (z0 : Nat) (b : Byte) : Int :=
  let bit : Int := (b.toNat % 2 : Nat)
  bit + (2 * bit - 1) * z0

/-- The rejection statistic x of a candidate (rule R212). -/
def gsampStatistic (g : GsampSetup) (z0 : Nat) (z : Int) : B64 :=
  let tt := b64Sub (b64OfInt z) g.r
  b64Sub (b64Mul (b64Mul tt tt) g.dss) (b64Mul (b64OfInt (z0 * z0 : Nat)) inv2Sigma2)

/-- One iteration of GSAMP's loop: 9 base bytes, 1 sign byte, 7 Bernoulli bytes (rule R212). It answers the candidate and
whether it is accepted. -/
def gsampIteration (cdt : CdtRom) (exp : ExpRom) (g : GsampSetup) (bs : List Byte) :
    Option (Int × Bool × List Byte) :=
  match baseSampler cdt bs with
  | none => none
  | some (_, []) => none
  | some (z0, sign :: bs2) =>
    let z := gsampCandidate z0 sign
    (berAccept (berP exp (gsampStatistic g z0 z) g.ccs) bs2).map fun a => (z, a.1, a.2)

/-- GSAMP's loop, `it` iterations done (rule R212). It has no bound of its own (rule R213): it runs until a candidate is
accepted or the bytes are used up. Every iteration takes 17 bytes, so a fuel of the number of bytes never ends it. -/
def gsampLoop (cdt : CdtRom) (exp : ExpRom) (g : GsampSetup) :
    (fuel it : Nat) → List Byte → Option (Int × Nat × List Byte)
  | 0, _, _ => none
  | fuel + 1, it, bs =>
    match gsampIteration cdt exp g bs with
    | none => none
    | some (z, accepted, rest) =>
      if accepted then some (z + g.s, it + 1, rest) else gsampLoop cdt exp g fuel (it + 1) rest

/-- The draw of GBASE: RESULT0 <- z0, RESULT1 <- 0 (rule R209). -/
def gbaseDraw (cdt : CdtRom) : Draw := fun bs =>
  (baseSampler cdt bs).map fun a => (BitVec.ofNat 32 a.1, 0, a.2)

/-- The draw of GBER: RESULT0 <- the accept bit, RESULT1 <- P[63:32] (rule R211). -/
def gberDraw (exp : ExpRom) (p : Snapshot) : Draw := fun bs =>
  (berAccept (berP exp p.x p.ccs) bs).map fun a =>
    (BitVec.ofNat 32 (bitOf a.1), BitVec.ofNat 32 (berP exp p.x p.ccs / 2 ^ 32), a.2)

/-- The draw of GSAMP: RESULT0 <- twos_32(z + s), RESULT1 <- the iteration count, saturating (rule R212). -/
def gsampDraw (cdt : CdtRom) (exp : ExpRom) (p : Snapshot) : Draw := fun bs =>
  (gsampLoop cdt exp (gsampSetup p) bs.length 0 bs).map fun a =>
    (BitVec.ofInt 32 a.1, BitVec.ofNat 32 (min a.2.1 (2 ^ 32 - 1)), a.2.2)

/-- GBASE (rule R209). -/
def execGbase (s : State) : Result := runDrawing none (gbaseDraw s.cdtRom) s

/-- GEXP (rule R210): y = approx_exp_fx(fx63(X), fx63(CCS)), no random byte. -/
def execGexp (s : State) : Result :=
  let y := approxExpFx s.expRom (fx63 s.snap.x) (fx63 s.snap.ccs)
  runCommand (domainCheck (gexpDomain s.snap))
    (.ok { mem := s.mem, results := some (BitVec.ofNat 32 y, BitVec.ofNat 32 (y / 2 ^ 32)) }) s

/-- GBER (rule R211). -/
def execGber (s : State) : Result :=
  runDrawing (domainCheck (gberDomain s.snap)) (gberDraw s.expRom s.snap) s

/-- GSAMP (rule R212). -/
def execGsamp (s : State) : Result :=
  runDrawing (domainCheck (gsampDomain s.snap)) (gsampDraw s.cdtRom s.expRom s.snap) s

end Sys2Proof.Machine
end

