-- ==== Sys2Proof/Machine/Dispatch.lean ====
section
/-! DEFINITION. The meaning of each command (rule R87). -/

namespace Sys2Proof.Machine

def exec (i : Instr) (s : State) : Host.Outcome State Fault Refusal :=
  match i with
  | .nop => Sys2Proof.Machine.execNop s
  | .fsplit rd re ra len => Sys2Proof.Machine.execFsplit rd re ra len s
  | .fmerge rd ra rb len => Sys2Proof.Machine.execFmerge rd ra rb len s
  | .zsplit rd re ra len => Sys2Proof.Machine.execZsplit rd re ra len s
  | .zmerge rd ra rb len => Sys2Proof.Machine.execZmerge rd ra rb len s
  | .fft rd ra len => Sys2Proof.Machine.execFft rd ra len s
  | .ifft rd ra len => Sys2Proof.Machine.execIfft rd ra len s
  | .fsplitt rd re ra len => Sys2Proof.Machine.execFsplitt rd re ra len s
  | .fmerget rd ra rb len => Sys2Proof.Machine.execFmerget rd ra rb len s
  | .fadd rd ra rb len => Sys2Proof.Machine.execFadd rd ra rb len s
  | .fsub rd ra rb len => Sys2Proof.Machine.execFsub rd ra rb len s
  | .fmulf rd ra rb len => Sys2Proof.Machine.execFmulf rd ra rb len s
  | .fdivf rd ra rb len => Sys2Proof.Machine.execFdivf rd ra rb len s
  | .fadjf rd ra len => Sys2Proof.Machine.execFadjf rd ra len s
  | .fmul rd ra rb len => Sys2Proof.Machine.execFmul rd ra rb len s
  | .fdiv rd ra rb len => Sys2Proof.Machine.execFdiv rd ra rb len s
  | .fadj rd ra len => Sys2Proof.Machine.execFadj rd ra len s
  | .ntt rd ra len => Sys2Proof.Machine.execNtt rd ra len s
  | .intt rd ra len => Sys2Proof.Machine.execIntt rd ra len s
  | .zsplitt rd re ra len => Sys2Proof.Machine.execZsplitt rd re ra len s
  | .zmerget rd ra rb len => Sys2Proof.Machine.execZmerget rd ra rb len s
  | .zadd rd ra rb len => Sys2Proof.Machine.execZadd rd ra rb len s
  | .zsub rd ra rb len => Sys2Proof.Machine.execZsub rd ra rb len s
  | .zmuln rd ra rb len => Sys2Proof.Machine.execZmuln rd ra rb len s
  | .zdivn rd ra rb len => Sys2Proof.Machine.execZdivn rd ra rb len s
  | .zmul rd ra rb len => Sys2Proof.Machine.execZmul rd ra rb len s
  | .zdiv rd ra rb len => Sys2Proof.Machine.execZdiv rd ra rb len s
  | .gbase => Sys2Proof.Machine.execGbase s
  | .gexp => Sys2Proof.Machine.execGexp s
  | .gber => Sys2Proof.Machine.execGber s
  | .gsamp => Sys2Proof.Machine.execGsamp s
  | .cmpr ra len => Sys2Proof.Machine.execCmpr ra len s
  | .dcmp rd len => Sys2Proof.Machine.execDcmp rd len s

end Sys2Proof.Machine
end

