-- ==== Sys2Proof/Machine/Engine.lean ====
section
/-! DEFINITION. A turn of the engine (rules R46, R100), reset (rules R290 to R295), and what each event does. -/

namespace Sys2Proof.Machine

/-- A turn of the engine (rules R46, R100, R263). In reset, and with no command accepted, it does nothing (rules R279,
R290). A command word that names no command completes with ILLEGAL_OP; otherwise the command runs. -/
def State.engineTurn (s : State) : Result :=
  if s.inReset || !s.status.busy then .next s
  else
    match decode s.cmd with
    | .error _ => .next (s.raiseError .illegalOp)
    | .ok i => exec i s

/-- How many bytes the engine would take from the source in its turn. -/
def State.wouldTake (s : State) : Nat :=
  match s.engineTurn with
  | .next t => s.rngIn.length - t.rngIn.length
  | _ => 0

/-- rst_n goes to 0 (rules R51, R290 to R295): every register takes its reset value, the running command is abandoned,
the contents of RAM are unspecified from now on (a new number of resets, so new free values), the ROMs stay. The source
may have delivered more bytes to the abandoned command than the model has counted: a free number, at most what the
command could take (rule R291; log entry 10). The source's stream, the events to come and the counters are outside the
machine and stay. -/
def State.assertReset (s : State) : State :=
  { State.reset with
    cdtRom := s.cdtRom, expRom := s.expRom
    rngIn := s.rngIn.drop (min (Config.rngLostAtReset s.resets) s.wouldTake)
    inReset := true, bus := s.bus, inputs := s.inputs
    resets := s.resets + 1, resetReads := s.resetReads }

/-- rst_n goes back to 1 (rule R290). -/
def State.releaseReset (s : State) : State := { s with inReset := false }

/-- A host access and the engine's turn in one clock cycle: the access sees the state before the completion, and the
completion wins (rule R27; log entry 12). A command accepted in this cycle does not run in it (rule R304). -/
def State.accessAndTurn (s : State) (a : Access) : Result :=
  if s.status.busy then (s.hostAccess a).engineTurn else .next (s.hostAccess a)

/-- What an event does. -/
def State.applyInput (s : State) : Input → Result
  | .host a => .next (s.hostAccess a)
  | .engine => s.engineTurn
  | .hostAndEngine a => s.accessAndTurn a
  | .rngByte b => .next { s with rngIn := s.rngIn ++ [b] }
  | .rstAssert => .next s.assertReset
  | .rstRelease => .next s.releaseReset

/-- The state in which a command word has just been accepted and the engine has the next turn: where a command comes
from in this machine, which fetches nothing (rules R22, R28; log entry 3). -/
def State.withCommand (w : Word) (s : State) : State :=
  { (s.accept w) with inReset := false, inputs := .engine :: s.inputs }

end Sys2Proof.Machine
end

