-- ==== Sys2Proof/Machine/Step.lean ====
section
/-! DEFINITION. One step of the machine: the next event, or a turn of the engine when none is listed (log entry 1). -/

namespace Sys2Proof.Machine

/-- One step: the first event of `inputs` happens; with none listed the engine has its turn. -/
def step (s : State) : Host.Outcome State Fault Refusal :=
  match s.inputs with
  | [] => s.engineTurn
  | e :: rest => { s with inputs := rest }.applyInput e

/-- `s` with an opcode-table word accepted as the command word and the engine's turn next, so that the next step runs
exactly that command (log entry 3). -/
def State.withFetchWord (s : State) (nbits w : Nat) : State := s.withCommand (tableWord nbits w)

end Sys2Proof.Machine
end

