-- ==== Sys2Proof/Safety.lean ====
section
/-! DEFINITION. The terms the claims use: what a sound state is, how a command can end and what it then leaves alone, and
the tables of the spec that the claims compare the model with, written from the spec and not from the decoder. -/

namespace Sys2Proof.Machine

/-! ## Sound states -/

/-- What rule R27 says of STATUS in every state. Its fourth remark, ERR = 1 implies DONE = 1, is left out: the same rule
lets a host clear DONE alone (log entry 11). -/
structure Status.Coherent (t : Status) : Prop where
  busyClears : t.busy = true → t.done = false ∧ t.err = false
  errIffCode : t.err = true ↔ t.errCode ≠ .none
  waitIsBusy : t.rngw = true → t.busy = true

/-- What a command draws from the random source, where it draws at all (rules R209, R211, R212). -/
def commandDraw (s : State) : Instr → Option Draw
  | .gbase => some (gbaseDraw s.cdtRom)
  | .gber => some (gberDraw s.expRom s.snap)
  | .gsamp => some (gsampDraw s.cdtRom s.expRom s.snap)
  | .nop | .gexp => none
  | .fsplit _ _ _ _ | .fmerge _ _ _ _ | .zsplit _ _ _ _ | .zmerge _ _ _ _ => none
  | .fft _ _ _ | .ifft _ _ _ | .fsplitt _ _ _ _ | .fmerget _ _ _ _ => none
  | .fadd _ _ _ _ | .fsub _ _ _ _ | .fmulf _ _ _ _ | .fdivf _ _ _ _ | .fadjf _ _ _ => none
  | .fmul _ _ _ _ | .fdiv _ _ _ _ | .fadj _ _ _ => none
  | .ntt _ _ _ | .intt _ _ _ | .zsplitt _ _ _ _ | .zmerget _ _ _ _ => none
  | .zadd _ _ _ _ | .zsub _ _ _ _ | .zmuln _ _ _ _ | .zdivn _ _ _ _ => none
  | .zmul _ _ _ _ | .zdiv _ _ _ _ => none
  | .cmpr _ _ | .dcmp _ _ => none

/-- The invariant of the machine. -/
structure State.Inv (s : State) : Prop where
  /-- Memory is in its canonical form. -/
  memCanonical : s.mem.wf = true
  /-- Only bytes that exist are ever written (rules R61, R66, R78). -/
  memMapped : ∀ c ∈ s.mem, isRamByte c.1 = true
  /-- STATUS is a legal combination of its fields (rule R27). -/
  status : s.status.Coherent
  /-- The sequencer holds bytes only while it waits for more (rules R46, R48). -/
  drawnOnlyWaiting : s.status.rngw = false → s.drawn = []
  /-- A command that waits is one that draws, and it needs a byte it has not drawn (rule R200). -/
  waiting : s.status.rngw = true →
    ∃ i draw, decode s.cmd = .ok i ∧ commandDraw s i = some draw ∧ draw s.drawn = none
  /-- While rst_n = 0 every register holds its reset value and nothing runs (rule R290). The snapshot is among them: that
  it is 0 then is the model's choice, since rule R51 leaves it unspecified (log entry 7). -/
  inReset : s.inReset = true →
    s = { State.reset with
          cdtRom := s.cdtRom, expRom := s.expRom, rngIn := s.rngIn, inReset := true, bus := s.bus
          inputs := s.inputs, resets := s.resets, resetReads := s.resetReads }

/-! ## How a command ends

Each of these says what EVERY field of the next state is, but for the memory where it says `mem := t.mem`. -/

/-- `t` is `s` after a command that completed without an error and gave these results: BUSY and RNGW cleared, DONE set,
no other register changed (rule R100). What it wrote to memory is said beside it. -/
def State.SucceedsWith (s : State) (r0 r1 : Word) (t : State) : Prop :=
  t = { s with
        mem := t.mem, result0 := r0, result1 := r1, drawn := []
        status := { s.status with busy := false, done := true, rngw := false } }

/-- `t` is `s` after a command that completed without an error and gives no results (rules R29, R30, R100). -/
def State.Succeeds (s t : State) : Prop := s.SucceedsWith s.result0 s.result1 t

/-- `t` is `s` after a command that completed with an error: STATUS says so and nothing else changed (rules R100,
R264). -/
def State.FailsWith (s : State) (c : ErrCode) (t : State) : Prop :=
  t = { s with
        drawn := []
        status := { busy := false, done := true, err := true, rngw := false, ovr := s.status.ovr, errCode := c } }

/-- `t` is `s` after a command that completed without an error and has drawn `n` bytes in all: the bytes it took in this
turn left the stream and RNGCNT counts them, and no byte of memory changed (rules R38, R100, R200). -/
def State.DrewAndSucceeds (s : State) (n : Nat) (r0 r1 : Word) (t : State) : Prop :=
  t = { s with
        rngIn := s.rngIn.drop (n - s.drawn.length)
        rngCnt := s.rngCnt + BitVec.ofNat 32 (n - s.drawn.length)
        result0 := r0, result1 := r1, drawn := []
        status := { s.status with busy := false, done := true, rngw := false } }

/-- `t` is `s` with the command still running: it took every byte there was and waits for the next (rules R200, R273). -/
def State.WaitsForByte (s t : State) : Prop :=
  t = { s with
        rngIn := [], drawn := s.drawn ++ s.rngIn
        rngCnt := s.rngCnt + BitVec.ofNat 32 s.rngIn.length
        status := { s.status with rngw := true } }

/-- `s` with other values in the operand registers, the snapshot as it was (rules R31 to R37, R47). -/
def State.withOperands (s : State) (o : Snapshot) : State :=
  { s with mu := o.mu, sigma := o.sigma, sigmin := o.sigmin, x := o.x, ccs := o.ccs, budget := o.budget, inlen := o.inlen }

/-! ## What a command wrote -/

/-- Entries 0 to n-1 of F bank b are the list, and every other byte of memory reads as before. -/
def State.WroteF (s : State) (b : Bank) (n : Nat) (vs : List Cplx) (t : State) : Prop :=
  t.fEntries b n = vs ∧
  ∀ a, (a < fAddr b 0 ∨ fAddr b n ≤ a) → t.byteAt a = s.byteAt a

/-- The same for two F banks. -/
def State.WroteFF (s : State) (b c : Bank) (n : Nat) (vs ws : List Cplx) (t : State) : Prop :=
  t.fEntries b n = vs ∧ t.fEntries c n = ws ∧
  ∀ a, (a < fAddr b 0 ∨ fAddr b n ≤ a) → (a < fAddr c 0 ∨ fAddr c n ≤ a) → t.byteAt a = s.byteAt a

/-- Entries 0 to n-1 of Z bank b are the list, and every byte that belongs to none of them reads as before. -/
def State.WroteZ (s : State) (b : Bank) (n : Nat) (vs : List Half) (t : State) : Prop :=
  t.zEntries b n = vs ∧
  ∀ a, (∀ i < n, a ≠ zAddr b i ∧ a ≠ zAddr b i + 1) → t.byteAt a = s.byteAt a

/-- The same for two Z banks. -/
def State.WroteZZ (s : State) (b c : Bank) (n : Nat) (vs ws : List Half) (t : State) : Prop :=
  t.zEntries b n = vs ∧ t.zEntries c n = ws ∧
  ∀ a, (∀ i < n, a ≠ zAddr b i ∧ a ≠ zAddr b i + 1) → (∀ i < n, a ≠ zAddr c i ∧ a ≠ zAddr c i + 1) →
    t.byteAt a = s.byteAt a

/-- Every byte of memory reads as before. -/
def State.WroteNothing (s t : State) : Prop := ∀ a, t.byteAt a = s.byteAt a

/-- The byte at `a` is one of entries 0 to n-1 of F bank b (rule R65). -/
def inF (b : Bank) (n a : Nat) : Prop := fAddr b 0 ≤ a ∧ a < fAddr b n

/-- The byte at `a` is one of entries 0 to n-1 of Z bank b (rule R66). -/
def inZ (b : Bank) (n a : Nat) : Prop := ∃ i < n, a = zAddr b i ∨ a = zAddr b i + 1

/-- The byte at `a` belongs to an output of the command: to an entry below the output length of a destination bank, or to
the bytes of BYTEBUF below the budget. A command with no bank and no BYTEBUF among its outputs has none (rules R86, R100,
R243). -/
def storesAt (p : Snapshot) (i : Instr) (a : Nat) : Prop :=
  match i with
  | .nop | .gbase | .gexp | .gber | .gsamp => False
  | .fsplit rd re _ n | .fsplitt rd re _ n => inF rd (n / 2) a ∨ inF re (n / 2) a
  | .zsplit rd re _ n | .zsplitt rd re _ n => inZ rd (n / 2) a ∨ inZ re (n / 2) a
  | .fmerge rd _ _ n | .fmerget rd _ _ n => inF rd n a
  | .zmerge rd _ _ n | .zmerget rd _ _ n => inZ rd n a
  | .fft rd _ n | .ifft rd _ n | .fadjf rd _ n | .fadj rd _ n => inF rd n a
  | .fadd rd _ _ n | .fsub rd _ _ n | .fmulf rd _ _ n | .fdivf rd _ _ n | .fmul rd _ _ n | .fdiv rd _ _ n => inF rd n a
  | .ntt rd _ n | .intt rd _ n => inZ rd n a
  | .zadd rd _ _ n | .zsub rd _ _ n | .zmuln rd _ _ n | .zdivn rd _ _ n | .zmul rd _ _ n | .zdiv rd _ _ n => inZ rd n a
  | .cmpr _ _ => bufAddr 0 ≤ a ∧ a < bufAddr p.budget.toNat
  | .dcmp rd n => inZ rd n a

/-! ## The command word, from rules R81 to R88 and not from the decoder -/

/-- The word has this OP, and its reserved bits [15:14] and [31:27] are 0 (rules R81, R85). -/
def HasOp (op : BitVec 6) (w : Word) : Prop :=
  w.extractLsb' 0 6 = op ∧ w.extractLsb' 14 2 = 0 ∧ w.extractLsb' 27 5 = 0

/-- The reserved opcodes (rule R88). -/
def reservedOps : List Nat :=
  [ 0x05, 0x06, 0x07, 0x14, 0x15, 0x16, 0x17, 0x22, 0x23, 0x24, 0x25, 0x26, 0x27, 0x2C, 0x2D, 0x2E, 0x2F
  , 0x32, 0x33, 0x34, 0x35, 0x36, 0x37, 0x38, 0x39, 0x3A, 0x3B, 0x3C, 0x3D, 0x3E, 0x3F ]

/-- The lengths of class T: the powers of two from 2 to 1024 (rule R84). -/
def transformLens : List Nat := [2, 4, 8, 16, 32, 64, 128, 256, 512, 1024]

/-- LEN is legal for the operation (rule R84, class by class). -/
abbrev lenLegal (op n : Nat) : Prop :=
  (op ∈ [0x08, 0x09, 0x0A, 0x0B, 0x11, 0x12, 0x13, 0x18, 0x19, 0x1A, 0x1B, 0x20, 0x21] → n ∈ transformLens) ∧
  (op ∈ [0x0C, 0x0D, 0x0E, 0x0F, 0x10, 0x1C, 0x1D, 0x1E, 0x1F] → 1 ≤ n ∧ n ≤ 1024) ∧
  (op ∈ [0x01, 0x03] → n % 2 = 0 ∧ 2 ≤ n ∧ n ≤ 1024) ∧
  (op ∈ [0x02, 0x04] → 1 ≤ n ∧ n ≤ 1024) ∧
  (op ∈ [0x30, 0x31] → n ≤ 1024)

/-- `v` is a number from 0 to 1, both included, -0 too; NaN is none (rules R204, R210, R211). -/
abbrev InUnitInterval (v : B64) : Prop := b64IsFinite v = true ∧ 0 ≤ b64Val v ∧ b64Val v ≤ 2 ^ 1074

/-- The operands GEXP accepts: 0 <= X < 1 and 0 <= CCS <= 1 (rule R210). -/
abbrev GexpOperands (p : Snapshot) : Prop :=
  (b64IsFinite p.x = true ∧ 0 ≤ b64Val p.x ∧ b64Val p.x < 2 ^ 1074) ∧ InUnitInterval p.ccs

/-- The operands GBER accepts: X any number or infinity, 0 <= CCS <= 1 (rule R211). -/
abbrev GberOperands (p : Snapshot) : Prop := b64IsNaN p.x = false ∧ InUnitInterval p.ccs

/-- The operands GSAMP accepts: |MU| <= 16384 and 0.5 <= SIGMIN <= SIGMA <= SIGMA_MAX (rules R203, R212). -/
abbrev GsampOperands (p : Snapshot) : Prop :=
  b64IsFinite p.mu = true ∧ b64IsFinite p.sigma = true ∧ b64IsFinite p.sigmin = true ∧
  (b64Val p.mu).natAbs ≤ 16384 * 2 ^ 1074 ∧ 2 ^ 1073 ≤ b64Val p.sigmin ∧ b64Val p.sigmin ≤ b64Val p.sigma ∧
  b64Val p.sigma ≤ b64Val 0x3FFD20C49BA5E354

/-- The domain test of a sampler command fails (rules R210 to R212). -/
abbrev domainFails (op : Nat) (p : Snapshot) : Prop :=
  (op = 0x29 ∧ ¬GexpOperands p) ∨ (op = 0x2A ∧ ¬GberOperands p) ∨ (op = 0x2B ∧ ¬GsampOperands p)

/-- `Check(cmd, snap)`, line by line (rule R263). -/
def checkPhase (w : Word) (p : Snapshot) : Option ErrCode :=
  let op := (w.extractLsb' 0 6).toNat
  if w.extractLsb' 14 2 ≠ 0 ∨ w.extractLsb' 27 5 ≠ 0 then some .illegalOp
  else if op ∈ reservedOps then some .illegalOp
  else if ¬ lenLegal op (w.extractLsb' 16 11).toNat then some .badLen
  else if op ∈ [0x01, 0x03, 0x0A, 0x1A] ∧ w.extractLsb' 6 2 = w.extractLsb' 12 2 then some .badOperand
  else if op ∈ [0x30, 0x31] ∧ 2048 < p.budget.toNat then some .badOperand
  else if op = 0x31 ∧ 2048 < p.inlen.toNat then some .badOperand
  else if domainFails op p then some .domain
  else none

/-- The bits of its word that a command depends on: OP, the reserved bits, and the fields rule R86 says it uses. -/
def significantBits : Instr → Word
  | .nop | .gbase | .gexp | .gber | .gsamp => 0xF800C03F
  | .fsplit _ _ _ _ | .zsplit _ _ _ _ | .fsplitt _ _ _ _ | .zsplitt _ _ _ _ => 0xFFFFF3FF
  | .fmerge _ _ _ _ | .zmerge _ _ _ _ | .fmerget _ _ _ _ | .zmerget _ _ _ _ => 0xFFFFCFFF
  | .fadd _ _ _ _ | .fsub _ _ _ _ | .fmulf _ _ _ _ | .fdivf _ _ _ _ | .fmul _ _ _ _ | .fdiv _ _ _ _ => 0xFFFFCFFF
  | .zadd _ _ _ _ | .zsub _ _ _ _ | .zmuln _ _ _ _ | .zdivn _ _ _ _ | .zmul _ _ _ _ | .zdiv _ _ _ _ => 0xFFFFCFFF
  | .fft _ _ _ | .ifft _ _ _ | .fadjf _ _ _ | .fadj _ _ _ | .ntt _ _ _ | .intt _ _ _ => 0xFFFFC3FF
  | .cmpr _ _ => 0xFFFFC33F
  | .dcmp _ _ => 0xFFFFC0FF

/-- The command ends in this error and has no other effect. -/
def EndsIn (i : Instr) (s : State) (c : ErrCode) : Prop := ∃ t, exec i s = .next t ∧ s.FailsWith c t

/-- How a command's words look: every word that decodes to it has its OP and clear reserved bits, and a running word with
this OP and a reserved bit set ends in ILLEGAL_OP with no other effect (rules R81, R85). -/
def EncodedAs (op : BitVec 6) (i : Instr) : Prop :=
  (∀ w, decode w = .ok i → HasOp op w) ∧
  ∀ (u : State) (rest : List Input),
    u.inReset = false → u.status.busy = true → u.inputs = .engine :: rest →
    u.cmd.extractLsb' 0 6 = op → u.cmd.extractLsb' 14 2 ≠ 0 ∨ u.cmd.extractLsb' 27 5 ≠ 0 →
    ∃ t, step u = .next t ∧ ({ u with inputs := rest } : State).FailsWith .illegalOp t

/-- A command's rule, in the template of the 4N files. Its words are as `EncodedAs` says; an illegal length ends in BAD_LEN, a forbidden operand in BAD_OPERAND, each with no other effect; otherwise
the command completes without an error, changes no register but STATUS, and its effect on memory is `effect`. -/
def CommandRule (op : BitVec 6) (i : Instr) (s : State) (lenOk operandOk : Prop) (effect : State → Prop) : Prop :=
  EncodedAs op i ∧
  (¬lenOk → EndsIn i s .badLen) ∧
  (lenOk → ¬operandOk → EndsIn i s .badOperand) ∧
  (lenOk → operandOk → ∃ t, exec i s = .next t ∧ s.Succeeds t ∧ effect t)

/-! ## Numbers -/

/-- `v` is the binary64 nearest to `num / den` in units of 2^-1074, ties to the even significand, an infinity from half a
unit in the last place above the largest finite value on (rule R121). -/
def NearestB64 (num : Int) (den : Nat) (v : B64) : Prop :=
  if num.natAbs < (2 ^ 54 - 1) * 2 ^ 2044 * den then
    b64IsFinite v = true ∧
    ∀ c, b64IsFinite c = true →
      (b64Val v * den - num).natAbs ≤ (b64Val c * den - num).natAbs ∧
      ((b64Val v * den - num).natAbs = (b64Val c * den - num).natAbs → b64Val c = b64Val v ∨ b64Frac v % 2 = 0)
  else b64IsInf v = true

/-- The residue of entry i of Z bank b (rule R161). -/
def State.residue (s : State) (b : Bank) (i : Nat) : Nat := (s.zEntry b i).toNat % 12289

/-- The value of a polynomial with these residues at entry j of row Z_n (rules R163, R180). -/
def evaluateAtRoot (n : Nat) (f : Nat → Nat) (j : Nat) : Nat :=
  (∑ k ∈ Finset.range n, f k * zrom (n + j) ^ k) % 12289

/-- Coefficient k of the product of two polynomials modulo x^n + 1 and q (rule R178). -/
def negacyclic (n : Nat) (f g : Nat → Nat) (k : Nat) : Nat :=
  ((∑ i ∈ Finset.range n, if i ≤ k then (f i * g (k - i) : Int) else -(f i * g (n + k - i) : Int)) % 12289).toNat

/-! ## The sampler, trial by trial (rules R207, R208, R212) -/

/-- A byte of a list, 0 beyond its end. -/
def byteOf (bs : List Byte) (k : Nat) : Nat := (bs.getD k 0).toNat

/-- The 72-bit number of 9 bytes from byte k on, first byte lowest (rule R208). -/
def uniform72 (bs : List Byte) (k : Nat) : Nat := ∑ j ∈ Finset.range 9, byteOf bs (k + j) * 2 ^ (8 * j)

/-- The 56-bit number of 7 bytes from byte k on, first byte highest (rule R207). -/
def trial56 (bs : List Byte) (k : Nat) : Nat := ∑ j ∈ Finset.range 7, byteOf bs (k + j) * 2 ^ (8 * (6 - j))

/-- How many entries of CDT_ROM are strictly above u (rule R208). -/
def countAbove (rom : CdtRom) (u : Nat) : Nat := (Finset.univ.filter fun k : Fin 18 => u < (rom[k]).toNat).card

/-- The candidate z of a loop iteration whose 17 bytes start at byte k: 9 for z0, 1 for the sign (rule R212). -/
def candidateAt (rom : CdtRom) (bs : List Byte) (k : Nat) : Int :=
  let z0 : Int := countAbove rom (uniform72 bs k)
  if byteOf bs (k + 9) % 2 = 1 then 1 + z0 else -z0

/-- The rejection statistic x of that iteration, in the evaluation order of rule R212. -/
def statisticAt (rom : CdtRom) (p : Snapshot) (bs : List Byte) (k : Nat) : B64 :=
  let z0 : Int := countAbove rom (uniform72 bs k)
  let r := b64Sub p.mu (b64OfInt (b64Floor p.mu))
  let dss := b64Div 0x3FF0000000000000 (b64Mul (b64Mul 0x4000000000000000 p.sigma) p.sigma)
  let tt := b64Sub (b64OfInt (candidateAt rom bs k)) r
  b64Sub (b64Mul (b64Mul tt tt) dss) (b64Mul (b64OfInt (z0 * z0)) 0x3FC34F8BC183BBC2)

/-- That iteration accepts: its 7 Bernoulli bytes are below bits [63:8] of the probability (rules R207, R212). -/
def acceptsAt (cdt : CdtRom) (exp : ExpRom) (p : Snapshot) (bs : List Byte) (k : Nat) : Prop :=
  trial56 bs (k + 10) < berP exp (statisticAt cdt p bs k) (b64Div p.sigmin p.sigma) / 2 ^ 8 % 2 ^ 56

/-! ## The codec's bits (rules R241, R242) -/

/-- The bits of one coefficient (rule R242). -/
def coeffBits (c : Int) : List Bool :=
  [decide (c < 0)] ++ (List.range 7).map (fun j => c.natAbs.testBit (6 - j)) ++
    List.replicate (c.natAbs / 2 ^ 7) true ++ [false]

/-- Bit p of the stream in BYTEBUF: bit 7 - p mod 8 of byte p / 8 (rule R241). -/
def State.streamBit (s : State) (p : Nat) : Bool := (s.bufByte (p / 8)).getLsbD (7 - p % 8)

/-- The first 8·n bits of the stream in BYTEBUF. -/
def State.streamBits (s : State) (n : Nat) : List Bool := (List.range (8 * n)).map s.streamBit

/-- A coefficient that an entry can hold (rule R240). -/
def IsCoeff (c : Int) : Prop := -32768 ≤ c ∧ c ≤ 32767

/-! ## Results (rules R29, R30) -/

/-- RESULT0 and RESULT1 after a command that draws no byte and succeeded, from state `s` to state `t`: GEXP, CMPR and DCMP
give them; every other such command leaves them (rules R29, R30, R210, R243, R245). -/
def resultsAfter (s t : State) : Instr → Word × Word
  | .gexp =>
    let y := approxExpFx s.expRom (fx63 s.snap.x) (fx63 s.snap.ccs)
    (BitVec.ofNat 32 y, BitVec.ofNat 32 (y / 2 ^ 32))
  | .cmpr ra n => (BitVec.ofNat 32 (((s.zEntries ra n).map BitVec.toInt).flatMap coeffBits).length, 0)
  | .dcmp rd n => (BitVec.ofNat 32 (((t.zEntries rd n).map BitVec.toInt).flatMap coeffBits).length, 0)
  | .nop | .gbase | .gber | .gsamp => (s.result0, s.result1)
  | .fsplit _ _ _ _ | .fmerge _ _ _ _ | .zsplit _ _ _ _ | .zmerge _ _ _ _ => (s.result0, s.result1)
  | .fft _ _ _ | .ifft _ _ _ | .fsplitt _ _ _ _ | .fmerget _ _ _ _ => (s.result0, s.result1)
  | .fadd _ _ _ _ | .fsub _ _ _ _ | .fmulf _ _ _ _ | .fdivf _ _ _ _ | .fadjf _ _ _ => (s.result0, s.result1)
  | .fmul _ _ _ _ | .fdiv _ _ _ _ | .fadj _ _ _ => (s.result0, s.result1)
  | .ntt _ _ _ | .intt _ _ _ | .zsplitt _ _ _ _ | .zmerget _ _ _ _ => (s.result0, s.result1)
  | .zadd _ _ _ _ | .zsub _ _ _ _ | .zmuln _ _ _ _ | .zdivn _ _ _ _ => (s.result0, s.result1)
  | .zmul _ _ _ _ | .zdiv _ _ _ _ => (s.result0, s.result1)

/-- A command that draws `n` bytes in all may complete: 9 for GBASE, 7 for GBER, 17 an iteration for GSAMP (rule R200). -/
def DrawsBytes (n : Nat) : Instr → Prop
  | .gbase => n = 9
  | .gber => n = 7
  | .gsamp => ∃ m, n = 17 * (m + 1)
  | .nop | .gexp | .cmpr _ _ | .dcmp _ _ => n = 0
  | .fsplit _ _ _ _ | .fmerge _ _ _ _ | .zsplit _ _ _ _ | .zmerge _ _ _ _ => n = 0
  | .fft _ _ _ | .ifft _ _ _ | .fsplitt _ _ _ _ | .fmerget _ _ _ _ => n = 0
  | .fadd _ _ _ _ | .fsub _ _ _ _ | .fmulf _ _ _ _ | .fdivf _ _ _ _ | .fadjf _ _ _ => n = 0
  | .fmul _ _ _ _ | .fdiv _ _ _ _ | .fadj _ _ _ => n = 0
  | .ntt _ _ _ | .intt _ _ _ | .zsplitt _ _ _ _ | .zmerget _ _ _ _ => n = 0
  | .zadd _ _ _ _ | .zsub _ _ _ _ | .zmuln _ _ _ _ | .zdivn _ _ _ _ => n = 0
  | .zmul _ _ _ _ | .zdiv _ _ _ _ => n = 0

end Sys2Proof.Machine
end

