-- ==== Sys2Proof/Certificates/Slice0/Obligations.lean ====
section
/-! DEFINITION. The statements for the provers. Each names the rule of spec/ it formalises; one that rests on a choice of
the model says so and names the log entry. -/

open Sys2Proof Sys2Proof.Machine

/-! ## The command word -/

/-- Words the spec writes out in its examples and its syntax table (rules R81, R91) decode to the commands they stand
for, and words with a reserved bit or a reserved opcode (rules R85, R88) to none. -/
def Obligations.DecodesListedWords : Prop :=
  decode 0x00000000 = .ok .nop ∧
  decode 0x00042041 = .ok (.fsplit 1 2 0 4) ∧
  decode 0x000409C2 = .ok (.fmerge 3 1 2 4) ∧
  decode 0x00062043 = .ok (.zsplit 1 2 0 6) ∧
  decode 0x000609C4 = .ok (.zmerge 3 1 2 6) ∧
  decode 0x000404A0 = .ok (.zmul 2 0 1 4) ∧
  decode 0x0000002B = .ok .gsamp ∧
  decode 0x00040030 = .ok (.cmpr 0 4) ∧
  decode 0x00040071 = .ok (.dcmp 1 4) ∧
  decode 0x00004000 = .error .reservedBits ∧
  decode 0x08000000 = .error .reservedBits ∧
  decode 0x00000005 = .error .reservedOpcode

/-- Every command whose LEN fits its field is what its word decodes to (rules R81, R87, R91). -/
def Obligations.DecodeEncodeRoundTrip : Prop :=
  ∀ i : Instr, i.wf = true → decode (encode i) = .ok i

/-- A word decodes to a command exactly when it agrees with the command's word on OP, on the reserved bits and on the
fields the operation uses: no other field has an effect (rules R82, R85, R86, R90). -/
def Obligations.DecodeDependsOnUsedFieldsOnly : Prop :=
  ∀ (w : Word) (i : Instr), decode w = .ok i ↔ i.wf = true ∧ w &&& significantBits i = encode i

/-- A command word with a reserved bit set or a reserved opcode completes with ILLEGAL_OP and has no other effect, and
every other word is a command (rules R85, R88). -/
def Obligations.ReservedWordsEndInIllegalOp : Prop :=
  (∀ (s : State) (rest : List Input),
    s.inReset = false → s.status.busy = true → s.inputs = .engine :: rest →
    s.cmd.extractLsb' 14 2 ≠ 0 ∨ s.cmd.extractLsb' 27 5 ≠ 0 ∨ (s.cmd.extractLsb' 0 6).toNat ∈ reservedOps →
    ∃ t, step s = .next t ∧ ({ s with inputs := rest } : State).FailsWith .illegalOp t) ∧
  (∀ w : Word, w.extractLsb' 14 2 = 0 → w.extractLsb' 27 5 = 0 → (w.extractLsb' 0 6).toNat ∉ reservedOps →
    ∃ i, decode w = .ok i) ∧
  reservedOps.length = 31

/-! ## The machine -/

/-- While a command runs, a turn of the engine is the meaning of the command the accepted word decodes to: on its own, at
the end of the listed events, or after the host access of the same cycle (rules R22, R46, R100; log entries 1 and 12).
With no command running, and in reset, a turn changes nothing (rules R279, R290). -/
def Obligations.EngineRunsTheDecodedCommand : Prop :=
  (∀ (s : State) (i : Instr) (rest : List Input),
    s.inReset = false → s.status.busy = true → decode s.cmd = .ok i →
    (s.inputs = [] → step s = exec i s) ∧
    (s.inputs = .engine :: rest → step s = exec i { s with inputs := rest }) ∧
    (∀ a, s.inputs = .hostAndEngine a :: rest → step s = exec i (({ s with inputs := rest } : State).hostAccess a))) ∧
  (∀ (s : State) (rest : List Input), s.inReset = true ∨ s.status.busy = false →
    (s.inputs = [] → step s = .next s) ∧
    (s.inputs = .engine :: rest → step s = .next { s with inputs := rest }))

/-- The reset state is sound (rules R27, R51). -/
def Obligations.ResetStateIsSound : Prop := State.reset.Inv

/-- Every step keeps the machine sound, whatever the host, the source and the reset input do (rules R27, R46, R48, R61,
R66, R78, R290). Two clauses of `State.Inv` are the model's choice: the operand snapshot is 0 while rst_n = 0, where rule
R51 leaves it unspecified (log entry 7), and ERR = 1 with DONE = 0 is a sound STATUS (log entry 11). -/
def Obligations.StepKeepsTheMachineSound : Prop :=
  ∀ s t : State, s.Inv → step s = .next t → t.Inv

/-- No error of either kind, and nothing else, stops the machine: every step and every command answers a next state
(rule R260). -/
def Obligations.NothingStopsTheMachine : Prop :=
  (∀ s : State, ∃ t, step s = .next t) ∧ (∀ (i : Instr) (s : State), ∃ t, exec i s = .next t)

/-- No step changes a ROM, and what the host reads in the ROM windows depends on the ROM contents alone
(rules R45, R295). -/
def Obligations.RomsNeverChange : Prop :=
  (∀ s t : State, step s = .next t → t.cdtRom = s.cdtRom ∧ t.expRom = s.expRom) ∧
  (∀ (s t : State) (a : Nat), s.status.busy = false → t.status.busy = false → s.cdtRom = t.cdtRom →
    s.expRom = t.expRom → 0x30000 ≤ a → s.readWord a = t.readWord a)

/-- The frame of every command: no byte changes but those of its outputs, and it ends in one of three ways, which
together say what every other field of the next state is. It fails with an error code and changes STATUS only; or it
succeeds, with new results only where it gives results; or it draws random bytes, as many as its rule says, and either
succeeds with the results of its draw, or waits for the next byte (rules R29, R30, R38, R100, R200, R264). -/
def Obligations.CommandFailsSucceedsOrWaits : Prop :=
  ∀ (i : Instr) (s t : State), exec i s = .next t →
    (∀ a, ¬storesAt s.snap i a → t.byteAt a = s.byteAt a) ∧
    ((∃ c, c ≠ .none ∧ s.FailsWith c t) ∨
     (commandDraw s i = none ∧ s.SucceedsWith (resultsAfter s t i).1 (resultsAfter s t i).2 t) ∨
     ∃ draw, commandDraw s i = some draw ∧
       ((∃ r0 r1 rest, draw s.supply = some (r0, r1, rest) ∧ rest.length ≤ s.supply.length ∧
          DrawsBytes (s.supply.length - rest.length) i ∧
          s.DrewAndSucceeds (s.supply.length - rest.length) r0 r1 t) ∨
        (draw s.supply = none ∧ s.WaitsForByte t)))

/-- The order of checks: with a command running, a turn of the engine completes with the code the check phase gives, in
the order of rule R263, or, when it gives none, runs a command that raises no code but one of the four execution errors.
The premise ERR = 0 is what rule R27 says while BUSY = 1. -/
def Obligations.ChecksComeInOrder : Prop :=
  ∀ (s : State) (rest : List Input),
    s.inReset = false → s.status.busy = true → s.status.err = false → s.inputs = .engine :: rest →
    (∀ c, checkPhase s.cmd s.snap = some c →
      ∃ t, step s = .next t ∧ ({ s with inputs := rest } : State).FailsWith c t) ∧
    (checkPhase s.cmd s.snap = none →
      ∃ i t, decode s.cmd = .ok i ∧ step s = .next t ∧
        ∀ c, ({ s with inputs := rest } : State).FailsWith c t →
          c = .noInverse ∨ c = .budgetExceeded ∨ c = .truncated ∨ c = .malformed)

/-- The running command reads the snapshot and never the operand registers: with other values in them it does the same
(rule R47). -/
def Obligations.RunningCommandIgnoresOperandRegisters : Prop :=
  ∀ (i : Instr) (s t : State) (o : Snapshot), exec i s = .next t → exec i (s.withOperands o) = .next (t.withOperands o)

/-! ## The host bus -/

/-- Which accesses get OKAY and which get SLVERR, for every address of the 20-bit space, and that an access that gets
SLVERR reads as 0 and changes nothing but OVR (rules R39, R61, R62, R63, R68, R69, R262). -/
def Obligations.BusErrorsAreAnswers : Prop :=
  ∀ (s : State) (a : Nat) (v : Word), a < 0x100000 →
    ((s.readWord a).2 = false ↔
      a % 4 = 0 ∧ (a < 0x50 ∨ (s.status.busy = false ∧
        ((0x10000 ≤ a ∧ a < 0x24800) ∨ (0x30020 ≤ a ∧ a < 0x38000) ∨ (0x38008 ≤ a ∧ a < 0x3A000) ∨
         (0x40000 ≤ a ∧ a < 0x4C004) ∨ (0x4D000 ≤ a ∧ a < 0x4D120) ∨ (0x4D200 ≤ a ∧ a < 0x4D268))))) ∧
    ((s.readWord a).2 = true → (s.readWord a).1 = 0) ∧
    ((s.writeWord a v).2 = false ↔
      a % 4 = 0 ∧ (a = 0x08 ∨ a = 0x0C ∨ (a = 0x10 ∧ s.status.busy = false) ∨ (0x20 ≤ a ∧ a < 0x50) ∨
        (s.status.busy = false ∧ 0x10000 ≤ a ∧ a < 0x24800))) ∧
    ((s.writeWord a v).2 = true →
      (s.writeWord a v).1 = if a = 0x10 then { s with status := { s.status with ovr := true } } else s)

/-- A host read has no side effect; a write to any location but CMD is idempotent; and a write changes nothing but the
location written: a register the register of that offset, a word of RAM its four bytes, or the two a Z bank has; one that
gets SLVERR nothing. CMD and STATUS have the side effects their own rules give, and so are left out of the last two
clauses (rule R70). -/
def Obligations.OnlyCmdAndStatusWritesHaveSideEffects : Prop :=
  (∀ (s : State) (a : Addr) (rest : List Input), s.inReset = false → s.inputs = .host (.read a) :: rest →
    step s = .next { s with inputs := rest, bus := .read (s.readWord a.toNat).1 (s.readWord a.toNat).2 }) ∧
  (∀ (s : State) (a : Addr) (v : Word) (rest : List Input), s.inReset = false →
    s.inputs = .host (.write a v) :: rest →
    step s = .next { (s.writeWord a.toNat v).1 with inputs := rest, bus := .write (s.writeWord a.toNat v).2 }) ∧
  (∀ (s : State) (a : Nat) (v : Word), a ≠ 0x10 →
    (s.writeWord a v).1.writeWord a v = ((s.writeWord a v).1, (s.writeWord a v).2)) ∧
  (∀ (s : State) (a : Nat) (v : Word), a ≠ 0x0C → a ≠ 0x10 → a < 0x10000 →
    (s.writeWord a v).1 =
      { s with
        ctrlIe := if a = 0x08 then v.getLsbD 0 else s.ctrlIe
        mu := if a = 0x20 then s.mu.extractLsb' 32 32 ++ v else if a = 0x24 then v ++ s.mu.extractLsb' 0 32 else s.mu
        sigma := if a = 0x28 then s.sigma.extractLsb' 32 32 ++ v
          else if a = 0x2C then v ++ s.sigma.extractLsb' 0 32 else s.sigma
        sigmin := if a = 0x30 then s.sigmin.extractLsb' 32 32 ++ v
          else if a = 0x34 then v ++ s.sigmin.extractLsb' 0 32 else s.sigmin
        x := if a = 0x38 then s.x.extractLsb' 32 32 ++ v else if a = 0x3C then v ++ s.x.extractLsb' 0 32 else s.x
        ccs := if a = 0x40 then s.ccs.extractLsb' 32 32 ++ v
          else if a = 0x44 then v ++ s.ccs.extractLsb' 0 32 else s.ccs
        budget := if a = 0x48 then v.extractLsb' 0 12 else s.budget
        inlen := if a = 0x4C then v.extractLsb' 0 12 else s.inlen }) ∧
  (∀ (s : State) (a : Nat) (v : Word), 0x10000 ≤ a →
    let n := if 0x20000 ≤ a ∧ a < 0x24000 then 2 else 4
    ((s.writeWord a v).2 = true → (s.writeWord a v).1 = s) ∧
    ((s.writeWord a v).2 = false →
      (s.writeWord a v).1 = { s with mem := s.mem.writeBytes a (bytesOf n v.toNat) } ∧
      ∀ b, (b < a ∨ a + n ≤ b) → (s.writeWord a v).1.byteAt b = s.byteAt b))

/-- A word written to a bank or BYTEBUF while no command runs reads back, cut to 16 bits in a Z bank, and no other aligned
word of the address space reads otherwise than before (rules R64, R65, R66). -/
def Obligations.RamWordReadsBack : Prop :=
  ∀ (s : State) (a b : Nat) (v : Word), s.status.busy = false → a % 4 = 0 → b % 4 = 0 →
    0x10000 ≤ a → a < 0x24800 → b ≠ a →
    (s.writeWord a v).1.readWord a = (if 0x20000 ≤ a ∧ a < 0x24000 then v &&& 0xFFFF else v, false) ∧
    (s.writeWord a v).1.readWord b = s.readWord b

/-- Where the parts of an entry of a bank and the bytes of BYTEBUF lie in the host's words, for reading and for writing
(rules R64, R65, R66). -/
def Obligations.EntriesLieWhereTheMapSays : Prop :=
  ∀ (s : State) (b : Bank) (i : Nat) (v : Word), s.status.busy = false → i < 1024 →
    let f := 0x10000 + 0x4000 * b.val + 16 * i
    let z := 0x20000 + 0x1000 * b.val + 4 * i
    (s.readWord f = ((s.fEntry b i).re.extractLsb' 0 32, false) ∧
     s.readWord (f + 4) = ((s.fEntry b i).re.extractLsb' 32 32, false) ∧
     s.readWord (f + 8) = ((s.fEntry b i).im.extractLsb' 0 32, false) ∧
     s.readWord (f + 12) = ((s.fEntry b i).im.extractLsb' 32 32, false)) ∧
    s.readWord z = ((s.zEntry b i).setWidth 32, false) ∧
    (∀ w < 512, s.readWord (0x24000 + 4 * w) =
      (s.bufByte (4 * w + 3) ++ s.bufByte (4 * w + 2) ++ s.bufByte (4 * w + 1) ++ s.bufByte (4 * w), false)) ∧
    ((s.writeWord f v).1.fEntry b i = ⟨(s.fEntry b i).re.extractLsb' 32 32 ++ v, (s.fEntry b i).im⟩ ∧
     (s.writeWord (f + 4) v).1.fEntry b i = ⟨v ++ (s.fEntry b i).re.extractLsb' 0 32, (s.fEntry b i).im⟩ ∧
     (s.writeWord (f + 8) v).1.fEntry b i = ⟨(s.fEntry b i).re, (s.fEntry b i).im.extractLsb' 32 32 ++ v⟩ ∧
     (s.writeWord (f + 12) v).1.fEntry b i = ⟨(s.fEntry b i).re, v ++ (s.fEntry b i).im.extractLsb' 0 32⟩) ∧
    (s.writeWord z v).1.zEntry b i = v.setWidth 16 ∧
    (∀ w < 512, ∀ k < 4, (s.writeWord (0x24000 + 4 * w) v).1.bufByte (4 * w + k) = v.extractLsb' (8 * k) 8)

/-- What the host reads in the five ROM windows while no command runs, and that no write reaches them (rule R67). -/
def Obligations.RomWindowsShowTheRoms : Prop :=
  ∀ s : State, s.status.busy = false →
    (∀ a v, 0x30000 ≤ a → s.writeWord a v = (s, true)) ∧
    (∀ a, 2 ≤ a → a ≤ 2047 →
      s.readWord (0x30000 + 16 * a) = ((twrom a).re.extractLsb' 0 32, false) ∧
      s.readWord (0x30000 + 16 * a + 4) = ((twrom a).re.extractLsb' 32 32, false) ∧
      s.readWord (0x30000 + 16 * a + 8) = ((twrom a).im.extractLsb' 0 32, false) ∧
      s.readWord (0x30000 + 16 * a + 12) = ((twrom a).im.extractLsb' 32 32, false)) ∧
    (∀ a, 2 ≤ a → a ≤ 2047 → zrom a < 65536 ∧ s.readWord (0x38000 + 4 * a) = (BitVec.ofNat 32 (zrom a), false)) ∧
    (∀ a, a ≤ 12288 → invrom a < 65536 ∧ s.readWord (0x40000 + 4 * a) = (BitVec.ofNat 32 (invrom a), false)) ∧
    (∀ k : Fin 18,
      s.readWord (0x4D000 + 16 * k.val) = (s.cdtRom[k].extractLsb' 0 32, false) ∧
      s.readWord (0x4D000 + 16 * k.val + 4) = (s.cdtRom[k].extractLsb' 32 32, false) ∧
      s.readWord (0x4D000 + 16 * k.val + 8) = ((s.cdtRom[k].extractLsb' 64 8).setWidth 32, false) ∧
      s.readWord (0x4D000 + 16 * k.val + 12) = (0, false)) ∧
    (∀ k : Fin 13,
      s.readWord (0x4D200 + 8 * k.val) = (s.expRom[k].extractLsb' 0 32, false) ∧
      s.readWord (0x4D200 + 8 * k.val + 4) = (s.expRom[k].extractLsb' 32 32, false))

/-- What the host reads at each register's offset, whether or not a command runs (rules R23 to R26, R28 to R38, R40). -/
def Obligations.RegisterReads : Prop :=
  ∀ s : State,
    s.readWord 0x00 = (0x50514353, false) ∧
    s.readWord 0x04 = (0x00010000, false) ∧
    s.readWord 0x08 = (if s.ctrlIe then 1 else 0, false) ∧
    s.readWord 0x10 = (s.cmd, false) ∧
    s.readWord 0x14 = (s.result0, false) ∧
    s.readWord 0x18 = (s.result1, false) ∧
    s.readWord 0x1C = (s.rngCnt, false) ∧
    s.readWord 0x20 = (s.mu.extractLsb' 0 32, false) ∧ s.readWord 0x24 = (s.mu.extractLsb' 32 32, false) ∧
    s.readWord 0x28 = (s.sigma.extractLsb' 0 32, false) ∧ s.readWord 0x2C = (s.sigma.extractLsb' 32 32, false) ∧
    s.readWord 0x30 = (s.sigmin.extractLsb' 0 32, false) ∧ s.readWord 0x34 = (s.sigmin.extractLsb' 32 32, false) ∧
    s.readWord 0x38 = (s.x.extractLsb' 0 32, false) ∧ s.readWord 0x3C = (s.x.extractLsb' 32 32, false) ∧
    s.readWord 0x40 = (s.ccs.extractLsb' 0 32, false) ∧ s.readWord 0x44 = (s.ccs.extractLsb' 32 32, false) ∧
    s.readWord 0x48 = (s.budget.setWidth 32, false) ∧
    s.readWord 0x4C = (s.inlen.setWidth 32, false)

/-- What a host write does at each register's offset but CMD and STATUS, whether or not a command runs: CTRL keeps bit 0,
BUDGET and INLEN keep 12 bits, half of a 64-bit register leaves the other half, a read-only register answers SLVERR
(rules R24 to R26, R29 to R38, R40, R68). -/
def Obligations.RegisterWrites : Prop :=
  ∀ (s : State) (v : Word),
    s.writeWord 0x00 v = (s, true) ∧
    s.writeWord 0x04 v = (s, true) ∧
    s.writeWord 0x08 v = ({ s with ctrlIe := v.getLsbD 0 }, false) ∧
    s.writeWord 0x14 v = (s, true) ∧
    s.writeWord 0x18 v = (s, true) ∧
    s.writeWord 0x1C v = (s, true) ∧
    s.writeWord 0x20 v = ({ s with mu := s.mu.extractLsb' 32 32 ++ v }, false) ∧
    s.writeWord 0x24 v = ({ s with mu := v ++ s.mu.extractLsb' 0 32 }, false) ∧
    s.writeWord 0x28 v = ({ s with sigma := s.sigma.extractLsb' 32 32 ++ v }, false) ∧
    s.writeWord 0x2C v = ({ s with sigma := v ++ s.sigma.extractLsb' 0 32 }, false) ∧
    s.writeWord 0x30 v = ({ s with sigmin := s.sigmin.extractLsb' 32 32 ++ v }, false) ∧
    s.writeWord 0x34 v = ({ s with sigmin := v ++ s.sigmin.extractLsb' 0 32 }, false) ∧
    s.writeWord 0x38 v = ({ s with x := s.x.extractLsb' 32 32 ++ v }, false) ∧
    s.writeWord 0x3C v = ({ s with x := v ++ s.x.extractLsb' 0 32 }, false) ∧
    s.writeWord 0x40 v = ({ s with ccs := s.ccs.extractLsb' 32 32 ++ v }, false) ∧
    s.writeWord 0x44 v = ({ s with ccs := v ++ s.ccs.extractLsb' 0 32 }, false) ∧
    s.writeWord 0x48 v = ({ s with budget := v.extractLsb' 0 12 }, false) ∧
    s.writeWord 0x4C v = ({ s with inlen := v.extractLsb' 0 12 }, false)

/-- A write to CMD while no command runs accepts the word, whatever it is, and latches the operands, and the engine then
runs the command; one while a command runs is refused with SLVERR and sets OVR; a read returns the last accepted word,
0 after reset (rule R28). -/
def Obligations.CmdWriteIsAcceptedOrRefused : Prop :=
  State.reset.cmd = 0 ∧
  ∀ (s : State) (w : Word),
    s.readWord 0x10 = (s.cmd, false) ∧
    (s.status.busy = false → s.inReset = false → s.inputs = [] →
      ∀ i, decode w = .ok i → step (s.writeWord 0x10 w).1 = exec i (s.writeWord 0x10 w).1) ∧
    (s.status.busy = false → s.writeWord 0x10 w =
      ({ s with
          cmd := w
          snap := { mu := s.mu, sigma := s.sigma, sigmin := s.sigmin, x := s.x, ccs := s.ccs
                    budget := s.budget, inlen := s.inlen }
          status := { s.status with busy := true, done := false, err := false, errCode := .none }
          drawn := [] }, false)) ∧
    (s.status.busy = true → s.writeWord 0x10 w = ({ s with status := { s.status with ovr := true } }, true))

/-- A refused CMD write gets SLVERR and changes OVR alone; OVR then stays 1, across acceptances too, until a host write
to STATUS with bit 4 set clears it, or reset; and irq does not depend on it (rule R265). -/
def Obligations.OverrunStaysUntilCleared : Prop :=
  (∀ (s : State) (w : Word), s.status.busy = true →
    s.writeWord 0x10 w = ({ s with status := { s.status with ovr := true } }, true) ∧
    (s.writeWord 0x10 w).1.irq = s.irq) ∧
  (∀ s t : State, s.status.ovr = true → step s = .next t → t.status.ovr = false →
    t.inReset = true ∨ ∃ (v : Word) (rest : List Input), v.getLsbD 4 = true ∧
      (s.inputs = .host (.write 0x0000C v) :: rest ∨ s.inputs = .hostAndEngine (.write 0x0000C v) :: rest)) ∧
  (∀ (s : State) (v : Word), v.getLsbD 4 = true → (s.writeWord 0x0C v).1.status.ovr = false) ∧
  State.reset.status.ovr = false

/-! ## STATUS, the interrupt, reset -/

/-- Where the fields of STATUS lie in its word, the numbers of the error codes, and that a host write clears the W1C bits
written as 1, ERRCODE with ERR, and changes nothing else (rules R27, R261, R266). That a write of bit 1 alone clears DONE
and leaves ERR = 1 is the model's choice between two sentences of rule R27 (log entry 11). -/
def Obligations.StatusReadsAndWrites : Prop :=
  ∀ (s : State) (v : Word),
    (s.readWord 0x0C).2 = false ∧
    (s.readWord 0x0C).1 =
      (if s.status.busy then 0x01 else 0) ||| (if s.status.done then 0x02 else 0) |||
      (if s.status.err then 0x04 else 0) ||| (if s.status.rngw then 0x08 else 0) |||
      (if s.status.ovr then 0x10 else 0) |||
      (match s.status.errCode with
        | .none => 0x000 | .illegalOp => 0x100 | .badLen => 0x200 | .badOperand => 0x300 | .noInverse => 0x400
        | .budgetExceeded => 0x500 | .truncated => 0x600 | .malformed => 0x700 | .domain => 0x800 : Word) ∧
    s.writeWord 0x0C v =
      ({ s with
          status :=
            { s.status with
              done := s.status.done && !v.getLsbD 1
              err := s.status.err && !v.getLsbD 2
              errCode := if v.getLsbD 2 then .none else s.status.errCode
              ovr := s.status.ovr && !v.getLsbD 4 } }, false)

/-- When a host write to STATUS meets the completion in one cycle, the completion wins: DONE, ERR and ERRCODE are as the
command alone would leave them (rule R27; log entry 12). -/
def Obligations.CompletionWinsOverClear : Prop :=
  ∀ (s t u : State) (v : Word) (i : Instr) (rest : List Input),
    s.inReset = false → s.status.busy = true → s.status.Coherent → decode s.cmd = .ok i →
    s.inputs = .hostAndEngine (.write 0x0000C v) :: rest →
    exec i { s with inputs := rest } = .next u → step s = .next t → t.status.busy = false →
    t.status.done = true ∧ t.status.err = u.status.err ∧ t.status.errCode = u.status.errCode

/-- irq is IE AND DONE: it rises with every completion while IE = 1 and on the write that sets IE while DONE = 1, and
falls when DONE is cleared, by a write or by an acceptance, and when IE is cleared; it is 0 after reset (rule R270). -/
def Obligations.IrqIsEnableAndDone : Prop :=
  (∀ s : State, s.irq = (s.ctrlIe && s.status.done)) ∧
  (∀ (i : Instr) (s t : State), s.status.busy = true → exec i s = .next t → t.status.busy = false → t.irq = s.ctrlIe) ∧
  (∀ (s : State) (w : Word), s.status.busy = false → (s.writeWord 0x10 w).1.irq = false) ∧
  (∀ (s : State) (v : Word), v.getLsbD 1 = true → (s.writeWord 0x0C v).1.irq = false) ∧
  (∀ (s : State) (v : Word), (s.writeWord 0x08 v).1.irq = (v.getLsbD 0 && s.status.done)) ∧
  State.reset.irq = false

/-- The state after reset as the host sees it: every register at its reset value, idle, irq and rng_ready low, and a CMD
write accepted on the first access (rules R51, R293). -/
def Obligations.ResetValues : Prop :=
  (∀ a ∈ [0x08, 0x0C, 0x10, 0x14, 0x18, 0x1C, 0x20, 0x24, 0x28, 0x2C, 0x30, 0x34, 0x38, 0x3C, 0x40, 0x44, 0x48, 0x4C],
    State.reset.readWord a = (0, false)) ∧
  State.reset.readWord 0x00 = (0x50514353, false) ∧
  State.reset.readWord 0x04 = (0x00010000, false) ∧
  State.reset.irq = false ∧ State.reset.rngReady = false ∧ State.reset.inReset = false ∧
  (∀ w : Word, (State.reset.writeWord 0x10 w).2 = false ∧ (State.reset.writeWord 0x10 w).1.cmd = w)

/-- An assertion of rst_n, in any state and inside any command, leaves every register at its reset value, the ROMs as they
were and RAM with nothing written; its release changes nothing else. The source may have delivered bytes that are lost, at
most as many as the abandoned command would have taken, and none when no command ran (rules R290, R291, R293, R294, R295).
That the operand snapshot is 0 after reset is the model's choice, since rules R51 and R294 leave it unspecified (log entry
7); how many bytes are lost is a free value, and its bound the model's choice (log entry 10). -/
def Obligations.ResetFromAnyState : Prop :=
  ∀ (s : State) (rest : List Input), s.inputs = .rstAssert :: .rstRelease :: rest →
    ∃ t u k,
      step s = .next t ∧ step t = .next u ∧
      t.inReset = true ∧ t.irq = false ∧ t.rngReady = false ∧
      u = { State.reset with
            cdtRom := s.cdtRom, expRom := s.expRom, rngIn := s.rngIn.drop k, bus := s.bus, inputs := rest
            resets := s.resets + 1, resetReads := s.resetReads } ∧
      k ≤ ({ s with inputs := .rstRelease :: rest } : State).wouldTake ∧ (s.status.busy = false → k = 0)

/-- No host access and no byte of the source ends a running command or changes what it will do: it stays BUSY with the
same word, snapshot, drawn bytes and memory, and its results are not yet visible (rules R69, R265, R298, R305). -/
def Obligations.OnlyResetEndsARunningCommand : Prop :=
  ∀ (s t : State) (e : Input) (rest : List Input),
    s.status.busy = true → s.inputs = e :: rest → step s = .next t →
    ((∃ a, e = .host a) ∨ (∃ b, e = .rngByte b) ∨ e = .rstRelease) →
    t.status.busy = true ∧ t.status.rngw = s.status.rngw ∧ t.cmd = s.cmd ∧ t.snap = s.snap ∧ t.drawn = s.drawn ∧
    t.mem = s.mem ∧ t.result0 = s.result0 ∧ t.result1 = s.result1 ∧ t.rngCnt = s.rngCnt

/-! ## Control and U1 -/

/-- NOP completes and has no other effect (rule R101). -/
def Obligations.NopOnlyCompletes : Prop :=
  ∀ s : State, CommandRule 0x00 .nop s True True fun t => s.WroteNothing t

/-- FSPLIT and ZSPLIT: entry i of the two destinations is entry 2i and entry 2i+1 of the source, bit for bit
(rules R102, R104). -/
def Obligations.SplitDeinterleaves : Prop :=
  ∀ (rd re ra : Bank) (n : Nat) (s : State),
    CommandRule 0x01 (.fsplit rd re ra n) s (n % 2 = 0 ∧ 2 ≤ n ∧ n ≤ 1024) (rd ≠ re)
      (s.WroteFF rd re (n / 2) ((List.range (n / 2)).map fun i => s.fEntry ra (2 * i))
        ((List.range (n / 2)).map fun i => s.fEntry ra (2 * i + 1))) ∧
    CommandRule 0x03 (.zsplit rd re ra n) s (n % 2 = 0 ∧ 2 ≤ n ∧ n ≤ 1024) (rd ≠ re)
      (s.WroteZZ rd re (n / 2) ((List.range (n / 2)).map fun i => s.zEntry ra (2 * i))
        ((List.range (n / 2)).map fun i => s.zEntry ra (2 * i + 1)))

/-- FMERGE and ZMERGE: entry 2i of the destination is entry i of the first source and entry 2i+1 entry i of the second,
bit for bit; with an odd length the last one is of the first (rules R103, R105). -/
def Obligations.MergeInterleaves : Prop :=
  ∀ (rd ra rb : Bank) (n : Nat) (s : State),
    CommandRule 0x02 (.fmerge rd ra rb n) s (1 ≤ n ∧ n ≤ 1024) True
      (s.WroteF rd n
        ((List.range n).map fun k => if k % 2 = 0 then s.fEntry ra (k / 2) else s.fEntry rb (k / 2))) ∧
    CommandRule 0x04 (.zmerge rd ra rb n) s (1 ≤ n ∧ n ≤ 1024) True
      (s.WroteZ rd n
        ((List.range n).map fun k => if k % 2 = 0 then s.zEntry ra (k / 2) else s.zEntry rb (k / 2)))

/-- A split followed by a merge restores the entries, and a merge of equal halves followed by a split gives the halves
back, on F and on Z banks (rule R106). -/
def Obligations.SplitAndMergeAreInverse : Prop :=
  ∀ (s t u : State) (n : Nat) (a b c d e : Bank), n % 2 = 0 → 2 ≤ n → n ≤ 1024 → d ≠ e →
    (exec (.fsplit d e a n) s = .next t → exec (.fmerge c d e n) t = .next u →
      u.fEntries c n = s.fEntries a n) ∧
    (exec (.zsplit d e a n) s = .next t → exec (.zmerge c d e n) t = .next u →
      u.zEntries c n = s.zEntries a n) ∧
    (exec (.fmerge c a b n) s = .next t → exec (.fsplit d e c n) t = .next u →
      u.fEntries d (n / 2) = s.fEntries a (n / 2) ∧ u.fEntries e (n / 2) = s.fEntries b (n / 2)) ∧
    (exec (.zmerge c a b n) s = .next t → exec (.zsplit d e c n) t = .next u →
      u.zEntries d (n / 2) = s.zEntries a (n / 2) ∧ u.zEntries e (n / 2) = s.zEntries b (n / 2))

/-! ## U2 -/

/-- The four binary64 operations on finite operands give the exact result rounded once to nearest, ties to even, with the
sign of the exact result; subtraction is addition of the operand with its sign flipped (rule R121, its points on
rounding and subnormals). -/
def Obligations.BinaryOperationsRoundToNearestEven : Prop :=
  ∀ a b : B64, b64IsFinite a = true → b64IsFinite b = true →
    NearestB64 (b64Val a + b64Val b) 1 (b64Add a b) ∧
    (b64Val a + b64Val b ≠ 0 → b64Sign (b64Add a b) = decide (b64Val a + b64Val b < 0)) ∧
    b64Sub a b = b64Add a (b64Neg b) ∧
    NearestB64 (b64Val a - b64Val b) 1 (b64Sub a b) ∧
    (b64Val a - b64Val b ≠ 0 → b64Sign (b64Sub a b) = decide (b64Val a - b64Val b < 0)) ∧
    NearestB64 (b64Val a * b64Val b) (2 ^ 1074) (b64Mul a b) ∧
    b64Sign (b64Mul a b) = (b64Sign a != b64Sign b) ∧
    (b64Val b ≠ 0 →
      NearestB64 (b64Val a * 2 ^ 1074 * (b64Val b).sign) (b64Val b).natAbs (b64Div a b) ∧
      b64Sign (b64Div a b) = (b64Sign a != b64Sign b))

/-- The operands that no rounding answers: every NaN result is the canonical NaN; infinities, signed zeros and divisions
by zero; neg flips bit 63 of any pattern (rule R121; the values are IEEE 754's, log entry 16). -/
def Obligations.SpecialOperandsFollowIeee : Prop :=
  (∀ a b : B64, b64IsNaN a = true ∨ b64IsNaN b = true →
    b64Add a b = 0x7FF8000000000000 ∧ b64Sub a b = 0x7FF8000000000000 ∧
    b64Mul a b = 0x7FF8000000000000 ∧ b64Div a b = 0x7FF8000000000000) ∧
  (∀ a b : B64, ∀ r ∈ [b64Add a b, b64Sub a b, b64Mul a b, b64Div a b], b64IsNaN r = true → r = 0x7FF8000000000000) ∧
  (∀ a b : B64, b64IsInf a = true → b64IsInf b = true →
    b64Add a b = (if b64Sign a = b64Sign b then a else 0x7FF8000000000000) ∧
    b64Sub a b = (if b64Sign a = b64Sign b then 0x7FF8000000000000 else a) ∧
    b64Mul a b = (if b64Sign a = b64Sign b then 0x7FF0000000000000 else 0xFFF0000000000000) ∧
    b64Div a b = 0x7FF8000000000000) ∧
  (∀ a b : B64, b64IsInf a = true → b64IsFinite b = true →
    b64Add a b = a ∧ b64Add b a = a ∧ b64Sub a b = a ∧ b64Sub b a = b64Neg a ∧
    b64Mul a b = (if b64Val b = 0 then 0x7FF8000000000000
      else if b64Sign a = b64Sign b then 0x7FF0000000000000 else 0xFFF0000000000000) ∧
    b64Mul b a = b64Mul a b ∧
    b64Div a b = (if b64Sign a = b64Sign b then 0x7FF0000000000000 else 0xFFF0000000000000) ∧
    b64Div b a = (if b64Sign a = b64Sign b then 0 else 0x8000000000000000)) ∧
  (∀ a b : B64, b64IsFinite a = true → b64IsFinite b = true →
    (b64Val a + b64Val b = 0 →
      b64Add a b = if b64Sign a = true ∧ b64Sign b = true then 0x8000000000000000 else 0) ∧
    (b64Val a - b64Val b = 0 →
      b64Sub a b = if b64Sign a = true ∧ b64Sign b = false then 0x8000000000000000 else 0) ∧
    (b64Val b = 0 → b64Val a ≠ 0 →
      b64Div a b = if b64Sign a = b64Sign b then 0x7FF0000000000000 else 0xFFF0000000000000) ∧
    (b64Val b = 0 → b64Val a = 0 → b64Div a b = 0x7FF8000000000000)) ∧
  (∀ v : B64, ∀ k < 64, (b64Neg v).getLsbD k = if k = 63 then !v.getLsbD 63 else v.getLsbD k)

/-- The conversions and comparisons the sampler is written in, as statements about numbers in units of 2^-1074: double(i)
is exact below 2^53, and double(0) is +0; floor and trunc; and an order that infinities bound and that no NaN enters
(rules R10, R11, and R210's remark on NaN). -/
def Obligations.ConversionsAndComparisonsAreExact : Prop :=
  (∀ i : Int, i.natAbs < 2 ^ 53 →
    b64IsFinite (b64OfInt i) = true ∧ b64Val (b64OfInt i) = i * 2 ^ 1074 ∧ (i = 0 → b64OfInt i = 0)) ∧
  (∀ v : B64, b64IsFinite v = true →
    b64Floor v * 2 ^ 1074 ≤ b64Val v ∧ b64Val v < (b64Floor v + 1) * 2 ^ 1074 ∧
    (0 ≤ b64Val v →
      (b64TruncNat v : Int) * 2 ^ 1074 ≤ b64Val v ∧ b64Val v < ((b64TruncNat v : Int) + 1) * 2 ^ 1074)) ∧
  (∀ a b : B64, b64IsFinite a = true → b64IsFinite b = true →
    (b64Lt a b = true ↔ b64Val a < b64Val b) ∧ (b64Le a b = true ↔ b64Val a ≤ b64Val b)) ∧
  (∀ a : B64, b64IsFinite a = true →
    b64Lt a 0x7FF0000000000000 = true ∧ b64Le 0x7FF0000000000000 a = false ∧
    b64Lt 0xFFF0000000000000 a = true ∧ b64Le a 0xFFF0000000000000 = false) ∧
  (∀ a b : B64, b64IsNaN a = true ∨ b64IsNaN b = true → b64Lt a b = false ∧ b64Le a b = false)

/-- The complex primitives, in the one evaluation order the spec gives (rule R122). -/
def Obligations.ComplexPrimitives : Prop :=
  ∀ a b : Cplx,
    cadd a b = ⟨b64Add a.re b.re, b64Add a.im b.im⟩ ∧
    csub a b = ⟨b64Sub a.re b.re, b64Sub a.im b.im⟩ ∧
    cmul a b = ⟨b64Sub (b64Mul a.re b.re) (b64Mul a.im b.im), b64Add (b64Mul a.re b.im) (b64Mul a.im b.re)⟩ ∧
    cdiv a b =
      ⟨b64Div (b64Add (b64Mul a.re b.re) (b64Mul a.im b.im)) (b64Add (b64Mul b.re b.re) (b64Mul b.im b.im)),
       b64Div (b64Sub (b64Mul a.im b.re) (b64Mul a.re b.im)) (b64Add (b64Mul b.re b.re) (b64Mul b.im b.im))⟩ ∧
    cconj a = ⟨a.re, b64Neg a.im⟩ ∧
    chalf a = ⟨b64Mul 0x3FE0000000000000 a.re, b64Mul 0x3FE0000000000000 a.im⟩ ∧
    mulI a = ⟨b64Neg a.im, a.re⟩ ∧
    mulNegI a = ⟨a.im, b64Neg a.re⟩

/-- The angles of TWROM follow the spec's recursion at every address, in units of pi/1024; the entries are those the spec
lists for levels 2 and 4 and its further entries; an odd entry is the negation of the even one before it; and every entry
has length 1 and squares to its parent, within 2^-52 (rules R123, R124, R125; the table itself is log entry 15). -/
def Obligations.TwiddleRomFollowsTheAngles : Prop :=
  (twiddleAngle 2 = 512 ∧ twiddleAngle 3 = -512 ∧
   ∀ a, 2 ≤ a → a ≤ 1023 →
     2 * twiddleAngle (2 * a) = twiddleAngle a ∧
     twiddleAngle (2 * a + 1) =
       if twiddleAngle (2 * a) + 1024 > 1024 then twiddleAngle (2 * a) + 1024 - 2048 else twiddleAngle (2 * a) + 1024) ∧
  (twrom 2 = ⟨0, 0x3FF0000000000000⟩ ∧ twrom 3 = ⟨0, 0xBFF0000000000000⟩ ∧
   twrom 4 = ⟨0x3FE6A09E667F3BCD, 0x3FE6A09E667F3BCD⟩ ∧ twrom 5 = ⟨0xBFE6A09E667F3BCD, 0xBFE6A09E667F3BCD⟩ ∧
   twrom 6 = ⟨0x3FE6A09E667F3BCD, 0xBFE6A09E667F3BCD⟩ ∧ twrom 7 = ⟨0xBFE6A09E667F3BCD, 0x3FE6A09E667F3BCD⟩ ∧
   twrom 1024 = ⟨0x3FEFFFF621621D02, 0x3F6921F8BECCA4BA⟩ ∧
   twrom 1026 = ⟨0x3F6921F8BECCA4BA, 0xBFEFFFF621621D02⟩ ∧
   twrom 2047 = ⟨0xBFE00740C82B82E1, 0x3FEBB249A0B6C40D⟩) ∧
  (∀ a, 2 ≤ a → a ≤ 1023 → twrom (2 * a + 1) = ⟨b64Neg (twrom (2 * a)).re, b64Neg (twrom (2 * a)).im⟩) ∧
  (∀ a, 4 ≤ a → a ≤ 2047 →
    let x := b64Val (twrom a).re
    let y := b64Val (twrom a).im
    (x * x + y * y - 2 ^ 2148).natAbs ≤ 2 ^ 2096 ∧
    (x * x - y * y - b64Val (twrom (a / 2)).re * 2 ^ 1074).natAbs ≤ 2 ^ 2096 ∧
    (2 * x * y - b64Val (twrom (a / 2)).im * 2 ^ 1074).natAbs ≤ 2 ^ 2096)

/-- FADD, FSUB, FMULF, FDIVF and FADJF, entry by entry (rules R134 to R138). -/
def Obligations.PointwiseComplexCommands : Prop :=
  ∀ (rd ra rb : Bank) (n : Nat) (s : State),
    CommandRule 0x0C (.fadd rd ra rb n) s (1 ≤ n ∧ n ≤ 1024) True
      (s.WroteF rd n ((List.range n).map fun i => cadd (s.fEntry ra i) (s.fEntry rb i))) ∧
    CommandRule 0x0D (.fsub rd ra rb n) s (1 ≤ n ∧ n ≤ 1024) True
      (s.WroteF rd n ((List.range n).map fun i => csub (s.fEntry ra i) (s.fEntry rb i))) ∧
    CommandRule 0x0E (.fmulf rd ra rb n) s (1 ≤ n ∧ n ≤ 1024) True
      (s.WroteF rd n ((List.range n).map fun i => cmul (s.fEntry ra i) (s.fEntry rb i))) ∧
    CommandRule 0x0F (.fdivf rd ra rb n) s (1 ≤ n ∧ n ≤ 1024) True
      (s.WroteF rd n ((List.range n).map fun i => cdiv (s.fEntry ra i) (s.fEntry rb i))) ∧
    CommandRule 0x10 (.fadjf rd ra n) s (1 ≤ n ∧ n ≤ 1024) True
      (s.WroteF rd n ((List.range n).map fun i => cconj (s.fEntry ra i)))

/-- The four recursive functions of U2, at every transform length, as the spec defines them (rules R126 to R129). -/
def Obligations.FftRecursion : Prop :=
  (∀ x y : Cplx,
    fft 2 [x, y] = [cadd x (mulI y), csub x (mulI y)] ∧
    ifft 2 [x, y] = [chalf (cadd x y), chalf (mulNegI (csub x y))]) ∧
  (∀ (n : Nat) (f : List Cplx), n ∈ transformLens → n ≠ 2 → f.length = n →
    fft n f = mergeFft n
      (fft (n / 2) ((List.range (n / 2)).map fun i => f.getD (2 * i) ⟨0, 0⟩))
      (fft (n / 2) ((List.range (n / 2)).map fun i => f.getD (2 * i + 1) ⟨0, 0⟩)) ∧
    ifft n f = (List.range n).map fun k =>
      (ifft (n / 2) (if k % 2 = 0 then (splitFft n f).1 else (splitFft n f).2)).getD (k / 2) ⟨0, 0⟩) ∧
  (∀ (n : Nat) (f : List Cplx), n ∈ transformLens → f.length = n →
    (splitFft n f).1 = (List.range (n / 2)).map (fun i =>
      chalf (cadd (f.getD (2 * i) ⟨0, 0⟩) (f.getD (2 * i + 1) ⟨0, 0⟩))) ∧
    (splitFft n f).2 = (List.range (n / 2)).map fun i =>
      cmul (chalf (csub (f.getD (2 * i) ⟨0, 0⟩) (f.getD (2 * i + 1) ⟨0, 0⟩))) (cconj (twrom (n + 2 * i)))) ∧
  (∀ (n : Nat) (f g : List Cplx), n ∈ transformLens → f.length = n / 2 → g.length = n / 2 →
    mergeFft n f g = (List.range n).map fun k =>
      if k % 2 = 0 then cadd (f.getD (k / 2) ⟨0, 0⟩) (cmul (twrom (n + k)) (g.getD (k / 2) ⟨0, 0⟩))
      else csub (f.getD (k / 2) ⟨0, 0⟩) (cmul (twrom (n + k - 1)) (g.getD (k / 2) ⟨0, 0⟩)))

/-- FFT, IFFT, FSPLITT, FMERGET, FMUL, FDIV and FADJ (rules R130 to R133, R139 to R141). -/
def Obligations.ComplexTransformCommands : Prop :=
  ∀ (rd re ra rb : Bank) (n : Nat) (s : State),
    CommandRule 0x08 (.fft rd ra n) s (n ∈ transformLens) True (s.WroteF rd n (fft n (s.fEntries ra n))) ∧
    CommandRule 0x09 (.ifft rd ra n) s (n ∈ transformLens) True (s.WroteF rd n (ifft n (s.fEntries ra n))) ∧
    CommandRule 0x0A (.fsplitt rd re ra n) s (n ∈ transformLens) (rd ≠ re)
      (s.WroteFF rd re (n / 2) (splitFft n (s.fEntries ra n)).1 (splitFft n (s.fEntries ra n)).2) ∧
    CommandRule 0x0B (.fmerget rd ra rb n) s (n ∈ transformLens) True
      (s.WroteF rd n (mergeFft n (s.fEntries ra (n / 2)) (s.fEntries rb (n / 2)))) ∧
    CommandRule 0x11 (.fmul rd ra rb n) s (n ∈ transformLens) True
      (s.WroteF rd n (ifft n (List.zipWith cmul (fft n (s.fEntries ra n)) (fft n (s.fEntries rb n))))) ∧
    CommandRule 0x12 (.fdiv rd ra rb n) s (n ∈ transformLens) True
      (s.WroteF rd n (ifft n (List.zipWith cdiv (fft n (s.fEntries ra n)) (fft n (s.fEntries rb n))))) ∧
    CommandRule 0x13 (.fadj rd ra n) s (n ∈ transformLens) True
      (s.WroteF rd n (ifft n ((fft n (s.fEntries ra n)).map cconj)))

/-- FMUL, FDIV, FADJ and ZMUL are, bit for bit, their transforms, their pointwise command and the inverse transform run
as commands of their own (rules R143 and R180, composition). -/
def Obligations.CoefficientCommandsCompose : Prop :=
  ∀ (s s1 s2 s3 s4 t : State) (n : Nat) (rd ra rb c d : Bank), n ∈ transformLens → c ≠ rb → c ≠ d →
    (exec (.fft c ra n) s = .next s1 → exec (.fft d rb n) s1 = .next s2 → exec (.fmulf c c d n) s2 = .next s3 →
      exec (.ifft rd c n) s3 = .next s4 → exec (.fmul rd ra rb n) s = .next t →
      s4.fEntries rd n = t.fEntries rd n) ∧
    (exec (.fft c ra n) s = .next s1 → exec (.fft d rb n) s1 = .next s2 → exec (.fdivf c c d n) s2 = .next s3 →
      exec (.ifft rd c n) s3 = .next s4 → exec (.fdiv rd ra rb n) s = .next t →
      s4.fEntries rd n = t.fEntries rd n) ∧
    (exec (.fft c ra n) s = .next s1 → exec (.fadjf c c n) s1 = .next s2 → exec (.ifft rd c n) s2 = .next s3 →
      exec (.fadj rd ra n) s = .next t → s3.fEntries rd n = t.fEntries rd n) ∧
    (exec (.ntt c ra n) s = .next s1 → exec (.ntt d rb n) s1 = .next s2 → exec (.zmuln c c d n) s2 = .next s3 →
      exec (.intt rd c n) s3 = .next s4 → exec (.zmul rd ra rb n) s = .next t →
      s4.zEntries rd n = t.zEntries rd n)

/-! ## U3 -/

/-- ZROM: the two square roots of -1 at level 2, and at every further level the smaller of the two square roots of the
parent entry, then its negation; the n entries of row Z_n are n distinct roots of x^n + 1 (rule R163). -/
def Obligations.RootRomHoldsTheSmallerRoots : Prop :=
  zrom 2 = 1479 ∧ zrom 3 = 10810 ∧
  (∀ a, 2 ≤ a → a ≤ 1023 →
    1 ≤ zrom (2 * a) ∧ zrom (2 * a) < zrom (2 * a + 1) ∧ zrom (2 * a + 1) = 12289 - zrom (2 * a) ∧
    ∀ r, 1 ≤ r → r < 12289 → (r ^ 2 % 12289 = zrom a ↔ r = zrom (2 * a) ∨ r = zrom (2 * a + 1))) ∧
  ∀ n ∈ transformLens, ∀ j < n,
    zrom (n + j) ^ n % 12289 = 12288 ∧ ∀ k < n, zrom (n + j) = zrom (n + k) → j = k

/-- INVROM: the inverse of every nonzero residue, and 0 at address 0 (rule R165). -/
def Obligations.InverseRomInverts : Prop :=
  invrom 0 = 0 ∧
  ∀ a, 1 ≤ a → a ≤ 12288 →
    1 ≤ invrom a ∧ invrom a < 12289 ∧ a * invrom a % 12289 = 1 ∧
    ∀ b, 1 ≤ b → b < 12289 → a * b % 12289 = 1 → b = invrom a

/-- ZADD, ZSUB and ZMULN: the entries are read modulo q and the results are canonical residues (rules R161, R162, R174,
R175, R176). -/
def Obligations.PointwiseModularCommands : Prop :=
  ∀ (rd ra rb : Bank) (n : Nat) (s : State),
    CommandRule 0x1C (.zadd rd ra rb n) s (1 ≤ n ∧ n ≤ 1024) True
      (s.WroteZ rd n ((List.range n).map fun i =>
        BitVec.ofNat 16 ((s.residue ra i + s.residue rb i) % 12289))) ∧
    CommandRule 0x1D (.zsub rd ra rb n) s (1 ≤ n ∧ n ≤ 1024) True
      (s.WroteZ rd n ((List.range n).map fun i =>
        BitVec.ofInt 16 (((s.residue ra i : Int) - s.residue rb i) % 12289))) ∧
    CommandRule 0x1E (.zmuln rd ra rb n) s (1 ≤ n ∧ n ≤ 1024) True
      (s.WroteZ rd n ((List.range n).map fun i =>
        BitVec.ofNat 16 (s.residue ra i * s.residue rb i % 12289)))

/-- ZDIVN: NO_INVERSE when an entry of the divisor is the zero residue, and then nothing is written; otherwise the quotient
q with q·b = a modulo q, entry by entry (rules R165, R177). -/
def Obligations.ZdivnDividesOrFindsNoInverse : Prop :=
  ∀ (rd ra rb : Bank) (n : Nat) (s : State),
    EncodedAs 0x1F (.zdivn rd ra rb n) ∧
    (¬(1 ≤ n ∧ n ≤ 1024) → EndsIn (.zdivn rd ra rb n) s .badLen) ∧
    (1 ≤ n → n ≤ 1024 → (∃ i < n, s.residue rb i = 0) → EndsIn (.zdivn rd ra rb n) s .noInverse) ∧
    (1 ≤ n → n ≤ 1024 → (∀ i < n, s.residue rb i ≠ 0) →
      ∃ t, exec (.zdivn rd ra rb n) s = .next t ∧ s.Succeeds t ∧
        s.WroteZ rd n ((List.range n).map fun i =>
          BitVec.ofNat 16 (s.residue ra i * invrom (s.residue rb i) % 12289)) t ∧
        ∀ i < n, (t.zEntry rd i).toNat < 12289 ∧ (t.zEntry rd i).toNat * s.residue rb i % 12289 = s.residue ra i)

/-- The four recursive functions of U3, at every transform length, as the spec defines them (rules R166 to R169). -/
def Obligations.NttRecursion : Prop :=
  (∀ x y : Nat,
    ntt 2 [x, y] = [addq x (mulq 1479 y), subq x (mulq 1479 y)] ∧
    intt 2 [x, y] = [mulq 6145 (addq x y), mulq (mulq 6145 10810) (subq x y)]) ∧
  (∀ (n : Nat) (f : List Nat), n ∈ transformLens → n ≠ 2 → f.length = n →
    ntt n f = mergeNtt n
      (ntt (n / 2) ((List.range (n / 2)).map fun i => f.getD (2 * i) 0))
      (ntt (n / 2) ((List.range (n / 2)).map fun i => f.getD (2 * i + 1) 0)) ∧
    intt n f = (List.range n).map fun k =>
      (intt (n / 2) (if k % 2 = 0 then (splitNtt n f).1 else (splitNtt n f).2)).getD (k / 2) 0) ∧
  (∀ (n : Nat) (f : List Nat), n ∈ transformLens → f.length = n →
    (splitNtt n f).1 = (List.range (n / 2)).map (fun i =>
      mulq 6145 (addq (f.getD (2 * i) 0) (f.getD (2 * i + 1) 0))) ∧
    (splitNtt n f).2 = (List.range (n / 2)).map fun i =>
      mulq (mulq 6145 (subq (f.getD (2 * i) 0) (f.getD (2 * i + 1) 0))) (invrom (zrom (n + 2 * i)))) ∧
  (∀ (n : Nat) (f g : List Nat), n ∈ transformLens → f.length = n / 2 → g.length = n / 2 →
    mergeNtt n f g = (List.range n).map fun k =>
      if k % 2 = 0 then addq (f.getD (k / 2) 0) (mulq (zrom (n + k)) (g.getD (k / 2) 0))
      else subq (f.getD (k / 2) 0) (mulq (zrom (n + k - 1)) (g.getD (k / 2) 0)))

/-- NTT, INTT, ZSPLITT and ZMERGET (rules R170 to R173). -/
def Obligations.ModularTransformCommands : Prop :=
  ∀ (rd re ra rb : Bank) (n : Nat) (s : State),
    let a := fun m => (List.range m).map (s.residue ra)
    let b := fun m => (List.range m).map (s.residue rb)
    CommandRule 0x18 (.ntt rd ra n) s (n ∈ transformLens) True
      (s.WroteZ rd n ((ntt n (a n)).map (BitVec.ofNat 16))) ∧
    CommandRule 0x19 (.intt rd ra n) s (n ∈ transformLens) True
      (s.WroteZ rd n ((intt n (a n)).map (BitVec.ofNat 16))) ∧
    CommandRule 0x1A (.zsplitt rd re ra n) s (n ∈ transformLens) (rd ≠ re)
      (s.WroteZZ rd re (n / 2) ((splitNtt n (a n)).1.map (BitVec.ofNat 16))
        ((splitNtt n (a n)).2.map (BitVec.ofNat 16))) ∧
    CommandRule 0x1B (.zmerget rd ra rb n) s (n ∈ transformLens) True
      (s.WroteZ rd n ((mergeNtt n (a (n / 2)) (b (n / 2))).map (BitVec.ofNat 16)))

/-- NTT evaluates: entry j of its output is the polynomial of its input at entry j of row Z_n, modulo q
(rule R180, evaluation). -/
def Obligations.NttEvaluatesAtTheRoots : Prop :=
  ∀ (rd ra : Bank) (n : Nat) (s : State), n ∈ transformLens →
    ∃ t, exec (.ntt rd ra n) s = .next t ∧ s.Succeeds t ∧
      s.WroteZ rd n ((List.range n).map fun j => BitVec.ofNat 16 (evaluateAtRoot n (s.residue ra) j)) t

/-- INTT undoes NTT exactly, up to the reduction of the input; ZMERGET undoes ZSPLITT; and ZSPLITT of a transform gives
the transforms of the even and the odd coefficients (rules R171 to R173, R180). -/
def Obligations.InttUndoesNtt : Prop :=
  ∀ (s t u : State) (n : Nat) (a b c d e : Bank), n ∈ transformLens → d ≠ e →
    (exec (.ntt b a n) s = .next t → exec (.intt c b n) t = .next u →
      ∀ i < n, u.zEntry c i = BitVec.ofNat 16 (s.residue a i)) ∧
    (exec (.zsplitt d e a n) s = .next t → exec (.zmerget c d e n) t = .next u →
      ∀ i < n, u.zEntry c i = BitVec.ofNat 16 (s.residue a i)) ∧
    (n ≠ 2 → exec (.ntt b a n) s = .next t → exec (.zsplitt d e b n) t = .next u →
      u.zEntries d (n / 2) =
        (ntt (n / 2) ((List.range (n / 2)).map fun i => s.residue a (2 * i))).map (BitVec.ofNat 16) ∧
      u.zEntries e (n / 2) =
        (ntt (n / 2) ((List.range (n / 2)).map fun i => s.residue a (2 * i + 1))).map (BitVec.ofNat 16))

/-- ZMUL is the negacyclic product modulo q, exactly (rules R178, R180). -/
def Obligations.ZmulIsTheNegacyclicProduct : Prop :=
  ∀ (rd ra rb : Bank) (n : Nat) (s : State),
    CommandRule 0x20 (.zmul rd ra rb n) s (n ∈ transformLens) True
      (s.WroteZ rd n ((List.range n).map fun k =>
        BitVec.ofNat 16 (negacyclic n (s.residue ra) (s.residue rb) k)))

/-- ZDIV: NO_INVERSE exactly when the divisor has a zero at one of the roots, and then nothing is written; otherwise the
quotient whose product with the divisor is the dividend (rules R179, R180). -/
def Obligations.ZdivInvertsZmulOrFindsNoInverse : Prop :=
  ∀ (rd ra rb : Bank) (n : Nat) (s : State),
    EncodedAs 0x21 (.zdiv rd ra rb n) ∧
    (n ∉ transformLens → EndsIn (.zdiv rd ra rb n) s .badLen) ∧
    (n ∈ transformLens → (∃ j < n, evaluateAtRoot n (s.residue rb) j = 0) →
      EndsIn (.zdiv rd ra rb n) s .noInverse) ∧
    (n ∈ transformLens → (∀ j < n, evaluateAtRoot n (s.residue rb) j ≠ 0) →
      ∃ (t : State) (c : Nat → Nat), exec (.zdiv rd ra rb n) s = .next t ∧ s.Succeeds t ∧
        s.WroteZ rd n ((List.range n).map fun k => BitVec.ofNat 16 (c k)) t ∧
        ∀ k < n, c k < 12289 ∧ negacyclic n c (s.residue rb) k = s.residue ra k)

/-! ## U4 -/

/-- The domain tests of the sampler commands as statements about numbers, in units of 2^-1074: which operands GEXP, GBER
and GSAMP accept, NaN never among them (rules R210, R211, R212). -/
def Obligations.SamplerDomains : Prop :=
  ∀ p : Snapshot,
    (gexpDomain p = true ↔ GexpOperands p) ∧
    (gberDomain p = true ↔ GberOperands p) ∧
    (gsampDomain p = true ↔ GsampOperands p)

/-- GBASE draws 9 bytes and answers how many entries of CDT_ROM are strictly above their 72-bit little-endian number, for
every content of CDT_ROM; with fewer bytes it waits (rules R200, R208, R209). -/
def Obligations.GbaseCountsTheTable : Prop :=
  ∀ s : State,
    EncodedAs 0x28 .gbase ∧
    (9 ≤ s.supply.length → ∃ t, exec .gbase s = .next t ∧
      s.DrewAndSucceeds 9 (BitVec.ofNat 32 (countAbove s.cdtRom (uniform72 s.supply 0))) 0 t) ∧
    (s.supply.length < 9 → ∃ t, exec .gbase s = .next t ∧ s.WaitsForByte t)

/-- GEXP: the 13-term Horner evaluation at scale 2^63, scaled by CCS, for every content of EXP_ROM; DOMAIN outside its
domain (rules R204, R205, R210). -/
def Obligations.GexpEvaluatesTheHornerForm : Prop :=
  (∀ v : B64, InUnitInterval v →
    (fx63 v : Int) * 2 ^ 1074 ≤ b64Val v * 2 ^ 63 ∧ b64Val v * 2 ^ 63 < ((fx63 v : Int) + 1) * 2 ^ 1074) ∧
  (∀ (rom : ExpRom) (zx cfx : Nat),
    approxExpFx rom zx cfx =
      cfx * ((List.range 12).foldl
        (fun (y : Nat) k => (((rom.toList.getD (k + 1) 0).toNat : Int) - (zx * y / 2 ^ 63 : Nat)) % 2 ^ 64 |>.toNat)
        (rom.toList.getD 0 0).toNat) / 2 ^ 63) ∧
  (∀ s : State,
    EncodedAs 0x29 .gexp ∧
    (¬GexpOperands s.snap → EndsIn .gexp s .domain) ∧
    (GexpOperands s.snap →
      ∃ t, exec .gexp s = .next t ∧ s.WroteNothing t ∧
        s.SucceedsWith (BitVec.ofNat 32 (approxExpFx s.expRom (fx63 s.snap.x) (fx63 s.snap.ccs)))
          (BitVec.ofNat 32 (approxExpFx s.expRom (fx63 s.snap.x) (fx63 s.snap.ccs) / 2 ^ 32)) t))

/-- GBER: the probability P with s capped at 63; then 7 bytes, all drawn, that accept exactly when their 56-bit big-endian
number is below P >> 8; DOMAIN outside its domain, and with fewer bytes it waits (rules R200, R206, R207, R211). -/
def Obligations.GberComparesWithTheProbability : Prop :=
  (∀ (rom : ExpRom) (x ccs : B64),
    let t := b64Mul x 0x3FF71547652B82FE
    let s := if b64Lt t 0x3FF0000000000000 then 0 else b64TruncNat t
    let r := b64Sub x (b64Mul (b64OfInt s) 0x3FE62E42FEFA39EF)
    let rc := if b64Lt 0 r then r else 0
    berP rom x ccs =
      if b64Le 0x404F800000000000 t then 0 else approxExpFx rom (fx63 rc) (fx63 ccs) / 2 ^ s) ∧
  (∀ s : State,
    let p := berP s.expRom s.snap.x s.snap.ccs
    EncodedAs 0x2A .gber ∧
    (¬GberOperands s.snap → EndsIn .gber s .domain) ∧
    (GberOperands s.snap → 7 ≤ s.supply.length → ∃ t, exec .gber s = .next t ∧
      s.DrewAndSucceeds 7 (if trial56 s.supply 0 < p / 2 ^ 8 then 1 else 0) (BitVec.ofNat 32 (p / 2 ^ 32)) t) ∧
    (GberOperands s.snap → s.supply.length < 7 → ∃ t, exec .gber s = .next t ∧ s.WaitsForByte t))

/-- GSAMP: iterations of 17 bytes each until one accepts; it answers the accepted candidate plus floor(mu) and the number
of iterations, saturating; while no iteration whose bytes are there accepts, it waits; DOMAIN outside its domain
(rules R200, R212, R213). -/
def Obligations.GsampRunsTrialsOfSeventeenBytes : Prop :=
  ∀ s : State,
    EncodedAs 0x2B .gsamp ∧
    (¬GsampOperands s.snap → EndsIn .gsamp s .domain) ∧
    (GsampOperands s.snap → ∀ m, 17 * (m + 1) ≤ s.supply.length →
      (∀ j < m, ¬acceptsAt s.cdtRom s.expRom s.snap s.supply (17 * j)) →
      acceptsAt s.cdtRom s.expRom s.snap s.supply (17 * m) →
      ∃ t, exec .gsamp s = .next t ∧
        s.DrewAndSucceeds (17 * (m + 1))
          (BitVec.ofInt 32 (candidateAt s.cdtRom s.supply (17 * m) + b64Floor s.snap.mu))
          (BitVec.ofNat 32 (min (m + 1) (2 ^ 32 - 1))) t) ∧
    (GsampOperands s.snap →
      (∀ j, 17 * (j + 1) ≤ s.supply.length → ¬acceptsAt s.cdtRom s.expRom s.snap s.supply (17 * j)) →
      ∃ t, exec .gsamp s = .next t ∧ s.WaitsForByte t)

/-- When the bytes arrive does not matter: a command that is given some of its bytes, waits, and is then given the rest
ends in the state it would have reached with all of them at once (rules R46, R200, R302; log entry 4). -/
def Obligations.DeliveryTimesDoNotMatter : Prop :=
  ∀ (i : Instr) (s u : State) (xs ys : List Byte),
    commandDraw s i ≠ none → s.rngIn = xs ++ ys →
    exec i { s with rngIn := xs } = .next u → u.status.rngw = true →
    exec i { u with rngIn := ys } = exec i s

/-! ## U5 -/

/-- CMPR: the bits of the coefficients, padded with zeros to exactly the budget, first bit in bit 7 of the first byte; the
unpadded length as the result; BUDGET_EXCEEDED, with nothing written, when it is above the budget
(rules R240 to R243). -/
def Obligations.CmprPacksTheCoefficients : Prop :=
  ∀ (ra : Bank) (n : Nat) (s : State),
    let v := (List.range n).map fun i => (s.zEntry ra i).toInt
    let bits := v.flatMap coeffBits
    let budget := s.snap.budget.toNat
    bits.length = (v.map fun c => 9 + c.natAbs / 2 ^ 7).sum ∧
    EncodedAs 0x30 (.cmpr ra n) ∧
    (1024 < n → EndsIn (.cmpr ra n) s .badLen) ∧
    (n ≤ 1024 → 2048 < budget → EndsIn (.cmpr ra n) s .badOperand) ∧
    (n ≤ 1024 → budget ≤ 2048 → 8 * budget < bits.length → EndsIn (.cmpr ra n) s .budgetExceeded) ∧
    (n ≤ 1024 → budget ≤ 2048 → bits.length ≤ 8 * budget →
      ∃ t, exec (.cmpr ra n) s = .next t ∧ s.SucceedsWith (BitVec.ofNat 32 bits.length) 0 t ∧
        (∀ p < 8 * budget, t.streamBit p = bits.getD p false) ∧
        ∀ a, (a < bufAddr 0 ∨ bufAddr budget ≤ a) → t.byteAt a = s.byteAt a)

/-- DCMP: BUDGET_EXCEEDED before any bit is read; then the coefficients whose bits the stream starts with, the bits after
them ignored; TRUNCATED where the stream ends inside a coefficient; MALFORMED at a negative zero and at a magnitude no
entry can hold (rules R240, R241, R244, R245). -/
def Obligations.DcmpReadsTheCoefficients : Prop :=
  ∀ (rd : Bank) (n : Nat) (s : State),
    let budget := s.snap.budget.toNat
    let inlen := s.snap.inlen.toNat
    EncodedAs 0x31 (.dcmp rd n) ∧
    (1024 < n → EndsIn (.dcmp rd n) s .badLen) ∧
    (n ≤ 1024 → 2048 < budget ∨ 2048 < inlen → EndsIn (.dcmp rd n) s .badOperand) ∧
    (n ≤ 1024 → budget ≤ 2048 → inlen ≤ 2048 → budget < inlen → EndsIn (.dcmp rd n) s .budgetExceeded) ∧
    (n ≤ 1024 → budget ≤ 2048 → inlen ≤ budget →
      ∀ (v : List Int) (rest : List Bool), (∀ c ∈ v, IsCoeff c) →
        s.streamBits inlen = v.flatMap coeffBits ++ rest →
        (v.length = n → ∃ t, exec (.dcmp rd n) s = .next t ∧
          s.SucceedsWith (BitVec.ofNat 32 (v.flatMap coeffBits).length) 0 t ∧
          s.WroteZ rd n (v.map (BitVec.ofInt 16)) t) ∧
        (v.length < n → (∀ b ∈ rest.drop 8, b = true) → EndsIn (.dcmp rd n) s .truncated) ∧
        (v.length < n → ∀ (sg : Bool) (low : List Bool) (u : Nat) (tail : List Bool),
          low.length = 7 → rest = sg :: low ++ List.replicate u true ++ false :: tail →
          let m : Int := (u * 2 ^ 7 + low.foldl (fun a b => 2 * a + b.toNat) 0 : Nat)
          (sg = true ∧ m = 0) ∨ ¬IsCoeff (if sg then -m else m) → EndsIn (.dcmp rd n) s .malformed))

/-- What CMPR packs DCMP restores, with the same number of bits as result; CMPR fails above the budget; and a stream has
one reading only (rule R246). -/
def Obligations.CodecRoundTrip : Prop :=
  (∀ (ra rd : Bank) (n : Nat) (s t : State),
    let v := (List.range n).map fun i => (s.zEntry ra i).toInt
    let l := (v.map fun c => 9 + c.natAbs / 2 ^ 7).sum
    n ≤ 1024 → s.snap.budget.toNat ≤ 2048 → exec (.cmpr ra n) s = .next t →
    (l ≤ 8 * s.snap.budget.toNat →
      ∃ u, exec (.dcmp rd n) { t with snap := { t.snap with inlen := t.snap.budget } } = .next u ∧
        u.zEntries rd n = s.zEntries ra n ∧ u.result0 = t.result0 ∧ t.result0 = BitVec.ofNat 32 l ∧
        u.status.done = true ∧ u.status.err = s.status.err) ∧
    (8 * s.snap.budget.toNat < l → s.FailsWith .budgetExceeded t)) ∧
  (∀ (v w : List Int) (x y : List Bool), v.length = w.length →
    v.flatMap coeffBits ++ x = w.flatMap coeffBits ++ y → v = w ∧ x = y)
end

