-- ==== Sys2Proof/Laws/Memory.lean ====
section
/-! SUPPORT. The laws of the memory: read after write, what a write leaves alone, the canonical form, and bytes as
numbers. -/

namespace Sys2Proof.Machine

/-! ## One byte -/

theorem Memory.read_write_same (m : Memory) (a : Nat) (v : Byte) : (m.write a v).read a = some v := by
  induction m with
  | nil => simp [Memory.write, Memory.read]
  | cons c m ih =>
    unfold Memory.write
    split
    · simp [Memory.read]
    · split
      · simp [Memory.read]
      · rename_i _ h
        simp [Memory.read, ih, Ne.symm h]

theorem Memory.read_write_other (m : Memory) {a b : Nat} (v : Byte) (h : b ≠ a) :
    (m.write a v).read b = m.read b := by
  induction m with
  | nil => simp [Memory.write, Memory.read, h.symm]
  | cons c m ih =>
    unfold Memory.write
    split
    · simp [Memory.read, h.symm]
    · split
      · rename_i _ e
        simp [Memory.read, ← e, h.symm]
      · simp [Memory.read, ih]

/-- The cells of a memory after a write: the new one, and some of the old ones. -/
theorem Memory.mem_write {m : Memory} {a : Nat} {v : Byte} {c : Host.Cell} (h : c ∈ m.write a v) :
    c = (a, v) ∨ c ∈ m := by
  induction m with
  | nil => simpa [Memory.write] using h
  | cons d m ih =>
    unfold Memory.write at h
    split at h
    · simpa using h
    · split at h
      · rcases List.mem_cons.1 h with h | h
        · exact .inl h
        · exact .inr (List.mem_cons_of_mem _ h)
      · rcases List.mem_cons.1 h with h | h
        · exact .inr (h ▸ List.mem_cons_self)
        · exact (ih h).imp_right (List.mem_cons_of_mem _)

/-! ## The canonical form -/

theorem Memory.wf_tail {c : Host.Cell} {m : Memory} (h : Memory.wf (c :: m) = true) : Memory.wf m = true := by
  cases m with
  | nil => rfl
  | cons d m => simp [Memory.wf] at h; exact h.2

/-- A canonical memory with a cell in front of it: the cell lies below every other one. -/
theorem Memory.wf_cons_iff {c : Host.Cell} {m : Memory} :
    Memory.wf (c :: m) = true ↔ (∀ d ∈ m, c.1 < d.1) ∧ Memory.wf m = true := by
  induction m generalizing c with
  | nil => simp [Memory.wf]
  | cons d m ih =>
    simp only [Memory.wf, Bool.and_eq_true, decide_eq_true_eq, List.mem_cons, forall_eq_or_imp]
    constructor
    · rintro ⟨h, hw⟩
      exact ⟨⟨h, fun e he => lt_trans h ((ih.1 hw).1 e he)⟩, hw⟩
    · rintro ⟨⟨h, -⟩, hw⟩
      exact ⟨h, hw⟩

/-- A write keeps the canonical form. -/
theorem Memory.wf_write {m : Memory} (a : Nat) (v : Byte) (h : m.wf = true) : (m.write a v).wf = true := by
  induction m with
  | nil => rfl
  | cons c m ih =>
    have hc := Memory.wf_cons_iff.1 h
    unfold Memory.write
    split
    · rename_i hlt
      exact Memory.wf_cons_iff.2 ⟨fun d hd => by
        rcases List.mem_cons.1 hd with rfl | hd
        · exact hlt
        · exact lt_trans hlt (hc.1 d hd), h⟩
    · split
      · rename_i _ e
        exact Memory.wf_cons_iff.2 ⟨fun d hd => e ▸ hc.1 d hd, hc.2⟩
      · rename_i h1 h2
        refine Memory.wf_cons_iff.2 ⟨fun d hd => ?_, ih hc.2⟩
        rcases Memory.mem_write hd with rfl | hd
        · show c.1 < a
          omega
        · exact hc.1 d hd

/-! ## Consecutive bytes -/

theorem Memory.wf_writeBytes {m : Memory} (a : Nat) (vs : List Byte) (h : m.wf = true) :
    (m.writeBytes a vs).wf = true := by
  induction vs generalizing m a with
  | nil => exact h
  | cons v vs ih => exact ih _ (Memory.wf_write a v h)

/-- What a byte reads as after consecutive bytes are written. -/
theorem Memory.read_writeBytes (m : Memory) (a k : Nat) (vs : List Byte) :
    (m.writeBytes a vs).read k = if a ≤ k ∧ k < a + vs.length then vs[k - a]? else m.read k := by
  induction vs generalizing m a with
  | nil =>
    rw [if_neg (by simp)]
    rfl
  | cons v vs ih =>
    rw [Memory.writeBytes, ih]
    rcases Nat.lt_trichotomy k a with h | h | h
    · have h1 : ¬(a + 1 ≤ k ∧ k < a + 1 + vs.length) := by omega
      have h2 : ¬(a ≤ k ∧ k < a + (v :: vs).length) := by omega
      rw [if_neg h1, if_neg h2, Memory.read_write_other _ _ (by omega)]
    · subst h
      have h1 : ¬(k + 1 ≤ k ∧ k < k + 1 + vs.length) := by omega
      have h2 : k ≤ k ∧ k < k + (v :: vs).length := by simp
      rw [if_neg h1, if_pos h2, Memory.read_write_same]
      simp
    · by_cases h3 : k < a + (v :: vs).length
      · have h1 : a + 1 ≤ k ∧ k < a + 1 + vs.length := by simp at h3; omega
        rw [if_pos h1, if_pos ⟨by omega, h3⟩]
        obtain ⟨j, rfl⟩ : ∃ j, k = a + 1 + j := ⟨k - (a + 1), by omega⟩
        have e1 : a + 1 + j - (a + 1) = j := by omega
        have e2 : a + 1 + j - a = j + 1 := by omega
        rw [e1, e2]; simp
      · have h1 : ¬(a + 1 ≤ k ∧ k < a + 1 + vs.length) := by simp at h3; omega
        rw [if_neg h1, if_neg (by omega), Memory.read_write_other _ _ (by omega)]

theorem Memory.read_writeBytes_inside (m : Memory) (a j : Nat) (vs : List Byte) (h : j < vs.length) :
    (m.writeBytes a vs).read (a + j) = some vs[j] := by
  rw [Memory.read_writeBytes, if_pos ⟨by omega, by omega⟩, Nat.add_sub_cancel_left,
    List.getElem?_eq_getElem h]

theorem Memory.read_writeBytes_outside (m : Memory) (a k : Nat) (vs : List Byte)
    (h : k < a ∨ a + vs.length ≤ k) : (m.writeBytes a vs).read k = m.read k := by
  rw [Memory.read_writeBytes, if_neg (by omega)]

theorem Memory.writeBytes_append (m : Memory) (a : Nat) (xs ys : List Byte) :
    m.writeBytes a (xs ++ ys) = (m.writeBytes a xs).writeBytes (a + xs.length) ys := by
  induction xs generalizing m a with
  | nil => simp [Memory.writeBytes]
  | cons x xs ih =>
    simp only [List.cons_append, Memory.writeBytes, List.length_cons]
    rw [ih, show a + 1 + xs.length = a + (xs.length + 1) by omega]

/-- The cells of a memory after consecutive bytes are written. -/
theorem Memory.mem_writeBytes {m : Memory} {a : Nat} {vs : List Byte} {c : Host.Cell}
    (h : c ∈ m.writeBytes a vs) : (a ≤ c.1 ∧ c.1 < a + vs.length) ∨ c ∈ m := by
  induction vs generalizing m a with
  | nil => exact .inr h
  | cons v vs ih =>
    rcases ih h with h | h
    · left; simp; omega
    · rcases Memory.mem_write h with rfl | h
      · left; simp
      · exact .inr h

/-! ## Bytes as numbers -/

@[simp] theorem bytesOf_length (n v : Nat) : (bytesOf n v).length = n := by
  induction n generalizing v with
  | zero => rfl
  | succ n ih => simp [bytesOf, ih]

/-- The little-endian bytes of a number give it back, cut to their width. -/
theorem numberOf_bytesOf (n v : Nat) : numberOf (bytesOf n v) = v % 256 ^ n := by
  induction n generalizing v with
  | zero => simp [bytesOf, numberOf, Nat.mod_one]
  | succ n ih =>
    rw [bytesOf, numberOf, ih, BitVec.toNat_ofNat, show 256 ^ (n + 1) = 256 * 256 ^ n from pow_succ' .., Nat.mod_mul]

theorem numberOf_lt (bs : List Byte) : numberOf bs < 256 ^ bs.length := by
  induction bs with
  | nil => simp [numberOf]
  | cons b bs ih =>
    have hb := b.isLt
    rw [numberOf, List.length_cons, pow_succ]
    omega

@[simp] theorem cplxBytes_length (v : Cplx) : (cplxBytes v).length = 16 := by simp [cplxBytes]

@[simp] theorem State.bytesAt_length (s : State) (a n : Nat) : (s.bytesAt a n).length = n := by
  simp [State.bytesAt]

@[simp] theorem State.fEntries_length (s : State) (b : Bank) (n : Nat) : (s.fEntries b n).length = n := by
  simp [State.fEntries]

@[simp] theorem State.zEntries_length (s : State) (b : Bank) (n : Nat) : (s.zEntries b n).length = n := by
  simp [State.zEntries]

@[simp] theorem State.residues_length (s : State) (b : Bank) (n : Nat) : (s.residues b n).length = n := by
  simp [State.residues]

@[simp] theorem State.coefficients_length (s : State) (b : Bank) (n : Nat) : (s.coefficients b n).length = n := by
  simp [State.coefficients]

@[simp] theorem State.bufBytes_length (s : State) (n : Nat) : (s.bufBytes n).length = n := by
  simp [State.bufBytes]

@[simp] theorem State.fEntries_getElem (s : State) (b : Bank) (n i : Nat) (h : i < (s.fEntries b n).length) :
    (s.fEntries b n)[i] = s.fEntry b i := by
  simp [State.fEntries]

@[simp] theorem State.zEntries_getElem (s : State) (b : Bank) (n i : Nat) (h : i < (s.zEntries b n).length) :
    (s.zEntries b n)[i] = s.zEntry b i := by
  simp [State.zEntries]

@[simp] theorem State.residues_getElem (s : State) (b : Bank) (n i : Nat) (h : i < (s.residues b n).length) :
    (s.residues b n)[i] = (s.zEntry b i).toNat % Config.q := by
  simp [State.residues, State.zEntries]

@[simp] theorem State.coefficients_getElem (s : State) (b : Bank) (n i : Nat)
    (h : i < (s.coefficients b n).length) : (s.coefficients b n)[i] = (s.zEntry b i).toInt := by
  simp [State.coefficients, State.zEntries]

end Sys2Proof.Machine
end

