-- ==== Sys2Proof/Laws/Banks.lean ====
section
/-! SUPPORT. Reading an entry of a bank or a byte of BYTEBUF after a bank or BYTEBUF has been written: the entry that was
written reads back, every other one and every byte outside reads as before. -/

namespace Sys2Proof.Machine

/-! ## Bytes of two states -/

theorem State.byteAt_congr {s t : State} {a : Nat} (hm : t.mem.read a = s.mem.read a) (hr : t.resets = s.resets) :
    t.byteAt a = s.byteAt a := by
  simp [State.byteAt, hm, hr]

theorem State.byteAt_of_read {t : State} {a : Nat} {v : Byte} (h : t.mem.read a = some v) : t.byteAt a = v := by
  simp [State.byteAt, h]

theorem State.bytesAt_congr {s t : State} {a n : Nat} (h : ∀ j < n, t.byteAt (a + j) = s.byteAt (a + j)) :
    t.bytesAt a n = s.bytesAt a n := by
  simp only [State.bytesAt]
  exact List.map_congr_left fun j hj => h j (List.mem_range.1 hj)

theorem State.bytesAt_eq_of_forall {t : State} {a : Nat} {vs : List Byte}
    (h : ∀ j, (hj : j < vs.length) → t.byteAt (a + j) = vs[j]) : t.bytesAt a vs.length = vs := by
  apply List.ext_getElem (by simp)
  intro j h1 h2
  simpa [State.bytesAt] using h j h2

theorem State.fEntry_congr {s t : State} {b : Bank} {i : Nat}
    (h : ∀ j < 16, t.byteAt (fAddr b i + j) = s.byteAt (fAddr b i + j)) : t.fEntry b i = s.fEntry b i := by
  have h1 : t.bytesAt (fAddr b i) 8 = s.bytesAt (fAddr b i) 8 :=
    State.bytesAt_congr fun j hj => h j (by omega)
  have h2 : t.bytesAt (fAddr b i + 8) 8 = s.bytesAt (fAddr b i + 8) 8 :=
    State.bytesAt_congr fun j hj => by
      have := h (8 + j) (by omega)
      rwa [← Nat.add_assoc] at this
  simp [State.fEntry, h1, h2]

theorem State.zEntry_congr {s t : State} {b : Bank} {i : Nat}
    (h : ∀ j < 2, t.byteAt (zAddr b i + j) = s.byteAt (zAddr b i + j)) : t.zEntry b i = s.zEntry b i := by
  simp [State.zEntry, State.bytesAt_congr h]

/-- An entry whose sixteen bytes are those of a value is that value. -/
theorem State.fEntry_of_bytes {t : State} {b : Bank} {i : Nat} {v : Cplx}
    (h : ∀ j, (hj : j < (cplxBytes v).length) → t.byteAt (fAddr b i + j) = (cplxBytes v)[j]) :
    t.fEntry b i = v := by
  have h1 : t.bytesAt (fAddr b i) 8 = bytesOf 8 v.re.toNat := by
    have := State.bytesAt_eq_of_forall (t := t) (a := fAddr b i) (vs := bytesOf 8 v.re.toNat) fun j hj => by
      rw [h j (by simp at hj ⊢; omega)]
      simp [cplxBytes, List.getElem_append_left hj]
    simpa using this
  have h2 : t.bytesAt (fAddr b i + 8) 8 = bytesOf 8 v.im.toNat := by
    have := State.bytesAt_eq_of_forall (t := t) (a := fAddr b i + 8) (vs := bytesOf 8 v.im.toNat) fun j hj => by
      simp at hj
      rw [Nat.add_assoc, h (8 + j) (by simp; omega)]
      simp [cplxBytes, List.getElem_append_right]
    simpa using this
  have e1 : v.re.toNat % 256 ^ 8 = v.re.toNat := Nat.mod_eq_of_lt v.re.isLt
  have e2 : v.im.toNat % 256 ^ 8 = v.im.toNat := Nat.mod_eq_of_lt v.im.isLt
  rw [State.fEntry, h1, h2, numberOf_bytesOf, numberOf_bytesOf, e1, e2, BitVec.ofNat_toNat, BitVec.ofNat_toNat,
    BitVec.setWidth_eq, BitVec.setWidth_eq]

/-- An entry whose two bytes are those of a value is that value. -/
theorem State.zEntry_of_bytes {t : State} {b : Bank} {i : Nat} {v : Half}
    (h : ∀ j, (hj : j < (bytesOf 2 v.toNat).length) → t.byteAt (zAddr b i + j) = (bytesOf 2 v.toNat)[j]) :
    t.zEntry b i = v := by
  have h1 : t.bytesAt (zAddr b i) 2 = bytesOf 2 v.toNat := by
    simpa using State.bytesAt_eq_of_forall (t := t) (a := zAddr b i) (vs := bytesOf 2 v.toNat) h
  have e1 : v.toNat % 256 ^ 2 = v.toNat := Nat.mod_eq_of_lt v.isLt
  rw [State.zEntry, h1, numberOf_bytesOf, e1, BitVec.ofNat_toNat, BitVec.setWidth_eq]

/-! ## Writing an F bank -/

/-- Writing entries of an F bank is writing their bytes from the first entry's address on (rule R65). -/
theorem Memory.writeF_eq (b : Bank) (m : Memory) (i : Nat) (vs : List Cplx) :
    Memory.writeF b m i vs = m.writeBytes (fAddr b i) (vs.flatMap cplxBytes) := by
  induction vs generalizing m i with
  | nil => rfl
  | cons v vs ih =>
    rw [Memory.writeF, ih, List.flatMap_cons, Memory.writeBytes_append, cplxBytes_length]
    congr 1

theorem cplxBytes_flatMap_length (vs : List Cplx) : (vs.flatMap cplxBytes).length = 16 * vs.length := by
  induction vs with
  | nil => rfl
  | cons v vs ih => rw [List.flatMap_cons, List.length_append, ih, cplxBytes_length, List.length_cons]; omega

theorem Memory.wf_writeF {m : Memory} (b : Bank) (i : Nat) (vs : List Cplx) (h : m.wf = true) :
    (Memory.writeF b m i vs).wf = true := by
  rw [Memory.writeF_eq]; exact Memory.wf_writeBytes _ _ h

/-- A byte outside the entries that are written reads as before. -/
theorem Memory.read_writeF_outside (b : Bank) (m : Memory) (i k : Nat) (vs : List Cplx)
    (h : k < fAddr b i ∨ fAddr b (i + vs.length) ≤ k) : (Memory.writeF b m i vs).read k = m.read k := by
  rw [Memory.writeF_eq]
  apply Memory.read_writeBytes_outside
  rw [cplxBytes_flatMap_length]
  simp only [fAddr] at h ⊢
  omega

/-- Byte `j` of the `n`-th entry that is written. -/
theorem Memory.read_writeF_inside (b : Bank) (m : Memory) (i n : Nat) (vs : List Cplx) (h : n < vs.length) (j : Nat)
    (hj : j < (cplxBytes vs[n]).length) :
    (Memory.writeF b m i vs).read (fAddr b (i + n) + j) = some (cplxBytes vs[n])[j] := by
  have hj' : j < 16 := by simpa using hj
  induction vs generalizing m i n with
  | nil => simp at h
  | cons v vs ih =>
    rw [Memory.writeF]
    cases n with
    | zero =>
      rw [Memory.read_writeF_outside _ _ _ _ _ (.inl (by simp only [fAddr]; omega)), Nat.add_zero]
      exact Memory.read_writeBytes_inside _ _ _ _ hj
    | succ n =>
      have := ih (m.writeBytes (fAddr b i) (cplxBytes v)) (i + 1) n (by simpa using h) hj
      rw [show i + (n + 1) = i + 1 + n by omega]
      simpa using this

/-- The entry that was written reads back. -/
theorem State.fEntry_writeF_same {s t : State} {b : Bank} {vs : List Cplx}
    (hm : t.mem = Memory.writeF b s.mem 0 vs) (i : Nat) (h : i < vs.length) : t.fEntry b i = vs[i] := by
  apply State.fEntry_of_bytes
  intro j hj
  apply State.byteAt_of_read
  rw [hm]
  simpa using Memory.read_writeF_inside b s.mem 0 i vs h j hj

/-- A byte outside the entries that were written reads as before. -/
theorem State.byteAt_writeF_outside {s t : State} {b : Bank} {vs : List Cplx}
    (hm : t.mem = Memory.writeF b s.mem 0 vs) (hr : t.resets = s.resets) (a : Nat)
    (h : a < fAddr b 0 ∨ fAddr b vs.length ≤ a) : t.byteAt a = s.byteAt a :=
  State.byteAt_congr (by rw [hm]; exact Memory.read_writeF_outside b _ _ _ _ (by simpa using h)) hr

/-- An entry of another F bank reads as before, as long as the entries that were written stay in their bank. -/
theorem State.fEntry_writeF_other {s t : State} {b c : Bank} {vs : List Cplx}
    (hm : t.mem = Memory.writeF b s.mem 0 vs) (hr : t.resets = s.resets) (i : Nat) (hc : c ≠ b)
    (hl : vs.length ≤ 1024) (hi : i < 1024) : t.fEntry c i = s.fEntry c i := by
  apply State.fEntry_congr
  intro j hj
  apply State.byteAt_writeF_outside hm hr
  have hcb : c.val ≠ b.val := fun e => hc (Fin.ext e)
  simp only [fAddr]
  omega

/-- An entry beyond the ones that were written reads as before. -/
theorem State.fEntry_writeF_beyond {s t : State} {b : Bank} {vs : List Cplx}
    (hm : t.mem = Memory.writeF b s.mem 0 vs) (hr : t.resets = s.resets) (i : Nat) (hi : vs.length ≤ i) :
    t.fEntry b i = s.fEntry b i := by
  apply State.fEntry_congr
  intro j hj
  apply State.byteAt_writeF_outside hm hr
  simp only [fAddr]
  omega

/-- An entry of a Z bank reads as before when an F bank is written. -/
theorem State.zEntry_writeF {s t : State} {b c : Bank} {vs : List Cplx}
    (hm : t.mem = Memory.writeF b s.mem 0 vs) (hr : t.resets = s.resets) (i : Nat) (hl : vs.length ≤ 1024) :
    t.zEntry c i = s.zEntry c i := by
  apply State.zEntry_congr
  intro j hj
  apply State.byteAt_writeF_outside hm hr
  have := b.isLt
  simp only [fAddr, zAddr]
  omega

/-! ## Writing a Z bank -/

theorem Memory.wf_writeZ {m : Memory} (b : Bank) (i : Nat) (vs : List Half) (h : m.wf = true) :
    (Memory.writeZ b m i vs).wf = true := by
  induction vs generalizing m i with
  | nil => exact h
  | cons v vs ih => exact ih _ (Memory.wf_writeBytes _ _ h)

/-- A byte that belongs to no entry that is written reads as before. -/
theorem Memory.read_writeZ_outside (b : Bank) (m : Memory) (i k : Nat) (vs : List Half)
    (h : ∀ n < vs.length, k < zAddr b (i + n) ∨ zAddr b (i + n) + 2 ≤ k) :
    (Memory.writeZ b m i vs).read k = m.read k := by
  induction vs generalizing m i with
  | nil => rfl
  | cons v vs ih =>
    rw [Memory.writeZ, ih]
    · have := h 0 (by simp)
      apply Memory.read_writeBytes_outside
      simpa using this
    · intro n hn
      have := h (n + 1) (by simpa using hn)
      rwa [show i + (n + 1) = i + 1 + n by omega] at this

/-- Byte `j` of the `n`-th entry that is written. -/
theorem Memory.read_writeZ_inside (b : Bank) (m : Memory) (i n : Nat) (vs : List Half) (h : n < vs.length) (j : Nat)
    (hj : j < (bytesOf 2 vs[n].toNat).length) :
    (Memory.writeZ b m i vs).read (zAddr b (i + n) + j) = some (bytesOf 2 vs[n].toNat)[j] := by
  have hj' : j < 2 := by simpa using hj
  induction vs generalizing m i n with
  | nil => simp at h
  | cons v vs ih =>
    rw [Memory.writeZ]
    cases n with
    | zero =>
      rw [Memory.read_writeZ_outside _ _ _ _ _ (fun n _ => .inl (by simp only [zAddr]; omega)), Nat.add_zero]
      exact Memory.read_writeBytes_inside _ _ _ _ hj
    | succ n =>
      have := ih (m.writeBytes (zAddr b i) (bytesOf 2 v.toNat)) (i + 1) n (by simpa using h) hj
      rw [show i + (n + 1) = i + 1 + n by omega]
      simpa using this

/-- The cells of a memory after a Z bank is written. -/
theorem Memory.mem_writeZ {b : Bank} {m : Memory} {i : Nat} {vs : List Half} {c : Host.Cell}
    (h : c ∈ Memory.writeZ b m i vs) :
    (∃ n < vs.length, zAddr b (i + n) ≤ c.1 ∧ c.1 < zAddr b (i + n) + 2) ∨ c ∈ m := by
  induction vs generalizing m i with
  | nil => exact .inr h
  | cons v vs ih =>
    rcases ih h with ⟨n, hn, hc⟩ | h
    · exact .inl ⟨n + 1, by simpa using hn, by rwa [show i + (n + 1) = i + 1 + n by omega]⟩
    · rcases Memory.mem_writeBytes h with h | h
      · exact .inl ⟨0, by simp, by simpa using h⟩
      · exact .inr h

/-- The entry that was written reads back. -/
theorem State.zEntry_writeZ_same {s t : State} {b : Bank} {vs : List Half}
    (hm : t.mem = Memory.writeZ b s.mem 0 vs) (i : Nat) (h : i < vs.length) : t.zEntry b i = vs[i] := by
  apply State.zEntry_of_bytes
  intro j hj
  apply State.byteAt_of_read
  rw [hm]
  simpa using Memory.read_writeZ_inside b s.mem 0 i vs h j hj

/-- A byte that belongs to no entry that was written reads as before. -/
theorem State.byteAt_writeZ_outside {s t : State} {b : Bank} {vs : List Half}
    (hm : t.mem = Memory.writeZ b s.mem 0 vs) (hr : t.resets = s.resets) (a : Nat)
    (h : ∀ n < vs.length, a < zAddr b n ∨ zAddr b n + 2 ≤ a) : t.byteAt a = s.byteAt a :=
  State.byteAt_congr (by rw [hm]; exact Memory.read_writeZ_outside b _ _ _ _ (by simpa using h)) hr

/-- An entry of another Z bank reads as before, as long as the entries that were written stay in their bank. -/
theorem State.zEntry_writeZ_other {s t : State} {b c : Bank} {vs : List Half}
    (hm : t.mem = Memory.writeZ b s.mem 0 vs) (hr : t.resets = s.resets) (i : Nat) (hc : c ≠ b)
    (hl : vs.length ≤ 1024) (hi : i < 1024) : t.zEntry c i = s.zEntry c i := by
  apply State.zEntry_congr
  intro j hj
  apply State.byteAt_writeZ_outside hm hr
  intro n hn
  have hcb : c.val ≠ b.val := fun e => hc (Fin.ext e)
  simp only [zAddr]
  omega

/-- An entry beyond the ones that were written reads as before. -/
theorem State.zEntry_writeZ_beyond {s t : State} {b : Bank} {vs : List Half}
    (hm : t.mem = Memory.writeZ b s.mem 0 vs) (hr : t.resets = s.resets) (i : Nat) (hi : vs.length ≤ i) :
    t.zEntry b i = s.zEntry b i := by
  apply State.zEntry_congr
  intro j hj
  apply State.byteAt_writeZ_outside hm hr
  intro n hn
  simp only [zAddr]
  omega

/-- A byte below Z reads as before when a Z bank is written, so every entry of an F bank does. -/
theorem State.fEntry_writeZ {s t : State} {b c : Bank} {vs : List Half}
    (hm : t.mem = Memory.writeZ b s.mem 0 vs) (hr : t.resets = s.resets) (i : Nat) (hi : i < 1024) :
    t.fEntry c i = s.fEntry c i := by
  apply State.fEntry_congr
  intro j hj
  apply State.byteAt_writeZ_outside hm hr
  intro n hn
  have := c.isLt
  simp only [fAddr, zAddr]
  omega

/-! ## Writing BYTEBUF -/

/-- The byte that was written reads back. -/
theorem State.bufByte_writeBuf_same {s t : State} {bs : List Byte} (hm : t.mem = s.mem.writeBuf bs) (k : Nat)
    (h : k < bs.length) : t.bufByte k = bs[k] := by
  apply State.byteAt_of_read
  rw [hm, Memory.writeBuf]
  exact Memory.read_writeBytes_inside _ _ _ _ h

/-- A byte outside the ones that were written reads as before. -/
theorem State.byteAt_writeBuf_outside {s t : State} {bs : List Byte} (hm : t.mem = s.mem.writeBuf bs)
    (hr : t.resets = s.resets) (a : Nat) (h : a < bufAddr 0 ∨ bufAddr bs.length ≤ a) : t.byteAt a = s.byteAt a :=
  State.byteAt_congr (by
    rw [hm, Memory.writeBuf]
    apply Memory.read_writeBytes_outside
    simp only [bufAddr] at h ⊢
    omega) hr

/-- BYTEBUF reads as before when a Z bank is written within its entries. -/
theorem State.bufByte_writeZ {s t : State} {b : Bank} {vs : List Half}
    (hm : t.mem = Memory.writeZ b s.mem 0 vs) (hr : t.resets = s.resets) (k : Nat) (hl : vs.length ≤ 1024) :
    t.bufByte k = s.bufByte k := by
  apply State.byteAt_writeZ_outside hm hr
  intro n hn
  have := b.isLt
  simp only [bufAddr, zAddr]
  omega

end Sys2Proof.Machine
end

