-- ==== Sys2Proof/Laws/State.lean ====
section
/-! SUPPORT. What each update of the state does to each field, by rfl, for simp; and the same for STATUS. -/

namespace Sys2Proof.Machine

/-! ## STATUS -/

@[simp] theorem Status.writeOneToClear_busy (v : Word) (t : Status) : (t.writeOneToClear v).busy = t.busy := rfl
@[simp] theorem Status.writeOneToClear_done (v : Word) (t : Status) : (t.writeOneToClear v).done = (t.done && !v.getLsbD 1) := rfl
@[simp] theorem Status.writeOneToClear_err (v : Word) (t : Status) : (t.writeOneToClear v).err = (t.err && !v.getLsbD 2) := rfl
@[simp] theorem Status.writeOneToClear_rngw (v : Word) (t : Status) : (t.writeOneToClear v).rngw = t.rngw := rfl
@[simp] theorem Status.writeOneToClear_ovr (v : Word) (t : Status) : (t.writeOneToClear v).ovr = (t.ovr && !v.getLsbD 4) := rfl
@[simp] theorem Status.writeOneToClear_errCode (v : Word) (t : Status) : (t.writeOneToClear v).errCode = (if v.getLsbD 2 then .none else t.errCode) := rfl

@[simp] theorem Status.accept_busy (t : Status) : (t.accept).busy = true := rfl
@[simp] theorem Status.accept_done (t : Status) : (t.accept).done = false := rfl
@[simp] theorem Status.accept_err (t : Status) : (t.accept).err = false := rfl
@[simp] theorem Status.accept_rngw (t : Status) : (t.accept).rngw = t.rngw := rfl
@[simp] theorem Status.accept_ovr (t : Status) : (t.accept).ovr = t.ovr := rfl
@[simp] theorem Status.accept_errCode (t : Status) : (t.accept).errCode = .none := rfl

@[simp] theorem Status.finish_busy (t : Status) : (t.finish).busy = false := rfl
@[simp] theorem Status.finish_done (t : Status) : (t.finish).done = true := rfl
@[simp] theorem Status.finish_err (t : Status) : (t.finish).err = t.err := rfl
@[simp] theorem Status.finish_rngw (t : Status) : (t.finish).rngw = false := rfl
@[simp] theorem Status.finish_ovr (t : Status) : (t.finish).ovr = t.ovr := rfl
@[simp] theorem Status.finish_errCode (t : Status) : (t.finish).errCode = t.errCode := rfl

@[simp] theorem Status.raise_busy (c : ErrCode) (t : Status) : (t.raise c).busy = false := rfl
@[simp] theorem Status.raise_done (c : ErrCode) (t : Status) : (t.raise c).done = true := rfl
@[simp] theorem Status.raise_err (c : ErrCode) (t : Status) : (t.raise c).err = true := rfl
@[simp] theorem Status.raise_rngw (c : ErrCode) (t : Status) : (t.raise c).rngw = false := rfl
@[simp] theorem Status.raise_ovr (c : ErrCode) (t : Status) : (t.raise c).ovr = t.ovr := rfl
@[simp] theorem Status.raise_errCode (c : ErrCode) (t : Status) : (t.raise c).errCode = c := rfl

@[simp] theorem Status.wait_busy (t : Status) : (t.wait).busy = t.busy := rfl
@[simp] theorem Status.wait_done (t : Status) : (t.wait).done = t.done := rfl
@[simp] theorem Status.wait_err (t : Status) : (t.wait).err = t.err := rfl
@[simp] theorem Status.wait_rngw (t : Status) : (t.wait).rngw = true := rfl
@[simp] theorem Status.wait_ovr (t : Status) : (t.wait).ovr = t.ovr := rfl
@[simp] theorem Status.wait_errCode (t : Status) : (t.wait).errCode = t.errCode := rfl

/-! ## Acceptance -/

@[simp] theorem State.accept_ctrlIe (w : Word) (s : State) :
    (s.accept w).ctrlIe = s.ctrlIe := rfl
@[simp] theorem State.accept_status (w : Word) (s : State) :
    (s.accept w).status = s.status.accept := rfl
@[simp] theorem State.accept_cmd (w : Word) (s : State) :
    (s.accept w).cmd = w := rfl
@[simp] theorem State.accept_result0 (w : Word) (s : State) :
    (s.accept w).result0 = s.result0 := rfl
@[simp] theorem State.accept_result1 (w : Word) (s : State) :
    (s.accept w).result1 = s.result1 := rfl
@[simp] theorem State.accept_rngCnt (w : Word) (s : State) :
    (s.accept w).rngCnt = s.rngCnt := rfl
@[simp] theorem State.accept_mu (w : Word) (s : State) :
    (s.accept w).mu = s.mu := rfl
@[simp] theorem State.accept_sigma (w : Word) (s : State) :
    (s.accept w).sigma = s.sigma := rfl
@[simp] theorem State.accept_sigmin (w : Word) (s : State) :
    (s.accept w).sigmin = s.sigmin := rfl
@[simp] theorem State.accept_x (w : Word) (s : State) :
    (s.accept w).x = s.x := rfl
@[simp] theorem State.accept_ccs (w : Word) (s : State) :
    (s.accept w).ccs = s.ccs := rfl
@[simp] theorem State.accept_budget (w : Word) (s : State) :
    (s.accept w).budget = s.budget := rfl
@[simp] theorem State.accept_inlen (w : Word) (s : State) :
    (s.accept w).inlen = s.inlen := rfl
@[simp] theorem State.accept_mem (w : Word) (s : State) :
    (s.accept w).mem = s.mem := rfl
@[simp] theorem State.accept_cdtRom (w : Word) (s : State) :
    (s.accept w).cdtRom = s.cdtRom := rfl
@[simp] theorem State.accept_expRom (w : Word) (s : State) :
    (s.accept w).expRom = s.expRom := rfl
@[simp] theorem State.accept_snap (w : Word) (s : State) :
    (s.accept w).snap = s.latch := rfl
@[simp] theorem State.accept_drawn (w : Word) (s : State) :
    (s.accept w).drawn = [] := rfl
@[simp] theorem State.accept_rngIn (w : Word) (s : State) :
    (s.accept w).rngIn = s.rngIn := rfl
@[simp] theorem State.accept_inReset (w : Word) (s : State) :
    (s.accept w).inReset = s.inReset := rfl
@[simp] theorem State.accept_bus (w : Word) (s : State) :
    (s.accept w).bus = s.bus := rfl
@[simp] theorem State.accept_inputs (w : Word) (s : State) :
    (s.accept w).inputs = s.inputs := rfl
@[simp] theorem State.accept_resets (w : Word) (s : State) :
    (s.accept w).resets = s.resets := rfl
@[simp] theorem State.accept_resetReads (w : Word) (s : State) :
    (s.accept w).resetReads = s.resetReads := rfl

/-! ## Error entry -/

@[simp] theorem State.raiseError_ctrlIe (c : ErrCode) (s : State) :
    (s.raiseError c).ctrlIe = s.ctrlIe := rfl
@[simp] theorem State.raiseError_status (c : ErrCode) (s : State) :
    (s.raiseError c).status = s.status.raise c := rfl
@[simp] theorem State.raiseError_cmd (c : ErrCode) (s : State) :
    (s.raiseError c).cmd = s.cmd := rfl
@[simp] theorem State.raiseError_result0 (c : ErrCode) (s : State) :
    (s.raiseError c).result0 = s.result0 := rfl
@[simp] theorem State.raiseError_result1 (c : ErrCode) (s : State) :
    (s.raiseError c).result1 = s.result1 := rfl
@[simp] theorem State.raiseError_rngCnt (c : ErrCode) (s : State) :
    (s.raiseError c).rngCnt = s.rngCnt := rfl
@[simp] theorem State.raiseError_mu (c : ErrCode) (s : State) :
    (s.raiseError c).mu = s.mu := rfl
@[simp] theorem State.raiseError_sigma (c : ErrCode) (s : State) :
    (s.raiseError c).sigma = s.sigma := rfl
@[simp] theorem State.raiseError_sigmin (c : ErrCode) (s : State) :
    (s.raiseError c).sigmin = s.sigmin := rfl
@[simp] theorem State.raiseError_x (c : ErrCode) (s : State) :
    (s.raiseError c).x = s.x := rfl
@[simp] theorem State.raiseError_ccs (c : ErrCode) (s : State) :
    (s.raiseError c).ccs = s.ccs := rfl
@[simp] theorem State.raiseError_budget (c : ErrCode) (s : State) :
    (s.raiseError c).budget = s.budget := rfl
@[simp] theorem State.raiseError_inlen (c : ErrCode) (s : State) :
    (s.raiseError c).inlen = s.inlen := rfl
@[simp] theorem State.raiseError_mem (c : ErrCode) (s : State) :
    (s.raiseError c).mem = s.mem := rfl
@[simp] theorem State.raiseError_cdtRom (c : ErrCode) (s : State) :
    (s.raiseError c).cdtRom = s.cdtRom := rfl
@[simp] theorem State.raiseError_expRom (c : ErrCode) (s : State) :
    (s.raiseError c).expRom = s.expRom := rfl
@[simp] theorem State.raiseError_snap (c : ErrCode) (s : State) :
    (s.raiseError c).snap = s.snap := rfl
@[simp] theorem State.raiseError_drawn (c : ErrCode) (s : State) :
    (s.raiseError c).drawn = [] := rfl
@[simp] theorem State.raiseError_rngIn (c : ErrCode) (s : State) :
    (s.raiseError c).rngIn = s.rngIn := rfl
@[simp] theorem State.raiseError_inReset (c : ErrCode) (s : State) :
    (s.raiseError c).inReset = s.inReset := rfl
@[simp] theorem State.raiseError_bus (c : ErrCode) (s : State) :
    (s.raiseError c).bus = s.bus := rfl
@[simp] theorem State.raiseError_inputs (c : ErrCode) (s : State) :
    (s.raiseError c).inputs = s.inputs := rfl
@[simp] theorem State.raiseError_resets (c : ErrCode) (s : State) :
    (s.raiseError c).resets = s.resets := rfl
@[simp] theorem State.raiseError_resetReads (c : ErrCode) (s : State) :
    (s.raiseError c).resetReads = s.resetReads := rfl

/-! ## Return from an error -/

@[simp] theorem State.clearStatus_ctrlIe (v : Word) (s : State) :
    (s.clearStatus v).ctrlIe = s.ctrlIe := rfl
@[simp] theorem State.clearStatus_status (v : Word) (s : State) :
    (s.clearStatus v).status = s.status.writeOneToClear v := rfl
@[simp] theorem State.clearStatus_cmd (v : Word) (s : State) :
    (s.clearStatus v).cmd = s.cmd := rfl
@[simp] theorem State.clearStatus_result0 (v : Word) (s : State) :
    (s.clearStatus v).result0 = s.result0 := rfl
@[simp] theorem State.clearStatus_result1 (v : Word) (s : State) :
    (s.clearStatus v).result1 = s.result1 := rfl
@[simp] theorem State.clearStatus_rngCnt (v : Word) (s : State) :
    (s.clearStatus v).rngCnt = s.rngCnt := rfl
@[simp] theorem State.clearStatus_mu (v : Word) (s : State) :
    (s.clearStatus v).mu = s.mu := rfl
@[simp] theorem State.clearStatus_sigma (v : Word) (s : State) :
    (s.clearStatus v).sigma = s.sigma := rfl
@[simp] theorem State.clearStatus_sigmin (v : Word) (s : State) :
    (s.clearStatus v).sigmin = s.sigmin := rfl
@[simp] theorem State.clearStatus_x (v : Word) (s : State) :
    (s.clearStatus v).x = s.x := rfl
@[simp] theorem State.clearStatus_ccs (v : Word) (s : State) :
    (s.clearStatus v).ccs = s.ccs := rfl
@[simp] theorem State.clearStatus_budget (v : Word) (s : State) :
    (s.clearStatus v).budget = s.budget := rfl
@[simp] theorem State.clearStatus_inlen (v : Word) (s : State) :
    (s.clearStatus v).inlen = s.inlen := rfl
@[simp] theorem State.clearStatus_mem (v : Word) (s : State) :
    (s.clearStatus v).mem = s.mem := rfl
@[simp] theorem State.clearStatus_cdtRom (v : Word) (s : State) :
    (s.clearStatus v).cdtRom = s.cdtRom := rfl
@[simp] theorem State.clearStatus_expRom (v : Word) (s : State) :
    (s.clearStatus v).expRom = s.expRom := rfl
@[simp] theorem State.clearStatus_snap (v : Word) (s : State) :
    (s.clearStatus v).snap = s.snap := rfl
@[simp] theorem State.clearStatus_drawn (v : Word) (s : State) :
    (s.clearStatus v).drawn = s.drawn := rfl
@[simp] theorem State.clearStatus_rngIn (v : Word) (s : State) :
    (s.clearStatus v).rngIn = s.rngIn := rfl
@[simp] theorem State.clearStatus_inReset (v : Word) (s : State) :
    (s.clearStatus v).inReset = s.inReset := rfl
@[simp] theorem State.clearStatus_bus (v : Word) (s : State) :
    (s.clearStatus v).bus = s.bus := rfl
@[simp] theorem State.clearStatus_inputs (v : Word) (s : State) :
    (s.clearStatus v).inputs = s.inputs := rfl
@[simp] theorem State.clearStatus_resets (v : Word) (s : State) :
    (s.clearStatus v).resets = s.resets := rfl
@[simp] theorem State.clearStatus_resetReads (v : Word) (s : State) :
    (s.clearStatus v).resetReads = s.resetReads := rfl

/-! ## Completion -/

@[simp] theorem State.finish_ctrlIe (e : Effect) (s : State) :
    (s.finish e).ctrlIe = s.ctrlIe := rfl
@[simp] theorem State.finish_status (e : Effect) (s : State) :
    (s.finish e).status = s.status.finish := rfl
@[simp] theorem State.finish_cmd (e : Effect) (s : State) :
    (s.finish e).cmd = s.cmd := rfl
@[simp] theorem State.finish_result0 (e : Effect) (s : State) :
    (s.finish e).result0 = e.result0 s := rfl
@[simp] theorem State.finish_result1 (e : Effect) (s : State) :
    (s.finish e).result1 = e.result1 s := rfl
@[simp] theorem State.finish_rngCnt (e : Effect) (s : State) :
    (s.finish e).rngCnt = s.rngCnt := rfl
@[simp] theorem State.finish_mu (e : Effect) (s : State) :
    (s.finish e).mu = s.mu := rfl
@[simp] theorem State.finish_sigma (e : Effect) (s : State) :
    (s.finish e).sigma = s.sigma := rfl
@[simp] theorem State.finish_sigmin (e : Effect) (s : State) :
    (s.finish e).sigmin = s.sigmin := rfl
@[simp] theorem State.finish_x (e : Effect) (s : State) :
    (s.finish e).x = s.x := rfl
@[simp] theorem State.finish_ccs (e : Effect) (s : State) :
    (s.finish e).ccs = s.ccs := rfl
@[simp] theorem State.finish_budget (e : Effect) (s : State) :
    (s.finish e).budget = s.budget := rfl
@[simp] theorem State.finish_inlen (e : Effect) (s : State) :
    (s.finish e).inlen = s.inlen := rfl
@[simp] theorem State.finish_mem (e : Effect) (s : State) :
    (s.finish e).mem = e.mem := rfl
@[simp] theorem State.finish_cdtRom (e : Effect) (s : State) :
    (s.finish e).cdtRom = s.cdtRom := rfl
@[simp] theorem State.finish_expRom (e : Effect) (s : State) :
    (s.finish e).expRom = s.expRom := rfl
@[simp] theorem State.finish_snap (e : Effect) (s : State) :
    (s.finish e).snap = s.snap := rfl
@[simp] theorem State.finish_drawn (e : Effect) (s : State) :
    (s.finish e).drawn = [] := rfl
@[simp] theorem State.finish_rngIn (e : Effect) (s : State) :
    (s.finish e).rngIn = s.rngIn := rfl
@[simp] theorem State.finish_inReset (e : Effect) (s : State) :
    (s.finish e).inReset = s.inReset := rfl
@[simp] theorem State.finish_bus (e : Effect) (s : State) :
    (s.finish e).bus = s.bus := rfl
@[simp] theorem State.finish_inputs (e : Effect) (s : State) :
    (s.finish e).inputs = s.inputs := rfl
@[simp] theorem State.finish_resets (e : Effect) (s : State) :
    (s.finish e).resets = s.resets := rfl
@[simp] theorem State.finish_resetReads (e : Effect) (s : State) :
    (s.finish e).resetReads = s.resetReads := rfl

/-! ## Bytes taken -/

@[simp] theorem State.takeBytes_ctrlIe (n : Nat) (s : State) :
    (s.takeBytes n).ctrlIe = s.ctrlIe := rfl
@[simp] theorem State.takeBytes_status (n : Nat) (s : State) :
    (s.takeBytes n).status = s.status := rfl
@[simp] theorem State.takeBytes_cmd (n : Nat) (s : State) :
    (s.takeBytes n).cmd = s.cmd := rfl
@[simp] theorem State.takeBytes_result0 (n : Nat) (s : State) :
    (s.takeBytes n).result0 = s.result0 := rfl
@[simp] theorem State.takeBytes_result1 (n : Nat) (s : State) :
    (s.takeBytes n).result1 = s.result1 := rfl
@[simp] theorem State.takeBytes_rngCnt (n : Nat) (s : State) :
    (s.takeBytes n).rngCnt = s.rngCnt + BitVec.ofNat 32 n := rfl
@[simp] theorem State.takeBytes_mu (n : Nat) (s : State) :
    (s.takeBytes n).mu = s.mu := rfl
@[simp] theorem State.takeBytes_sigma (n : Nat) (s : State) :
    (s.takeBytes n).sigma = s.sigma := rfl
@[simp] theorem State.takeBytes_sigmin (n : Nat) (s : State) :
    (s.takeBytes n).sigmin = s.sigmin := rfl
@[simp] theorem State.takeBytes_x (n : Nat) (s : State) :
    (s.takeBytes n).x = s.x := rfl
@[simp] theorem State.takeBytes_ccs (n : Nat) (s : State) :
    (s.takeBytes n).ccs = s.ccs := rfl
@[simp] theorem State.takeBytes_budget (n : Nat) (s : State) :
    (s.takeBytes n).budget = s.budget := rfl
@[simp] theorem State.takeBytes_inlen (n : Nat) (s : State) :
    (s.takeBytes n).inlen = s.inlen := rfl
@[simp] theorem State.takeBytes_mem (n : Nat) (s : State) :
    (s.takeBytes n).mem = s.mem := rfl
@[simp] theorem State.takeBytes_cdtRom (n : Nat) (s : State) :
    (s.takeBytes n).cdtRom = s.cdtRom := rfl
@[simp] theorem State.takeBytes_expRom (n : Nat) (s : State) :
    (s.takeBytes n).expRom = s.expRom := rfl
@[simp] theorem State.takeBytes_snap (n : Nat) (s : State) :
    (s.takeBytes n).snap = s.snap := rfl
@[simp] theorem State.takeBytes_drawn (n : Nat) (s : State) :
    (s.takeBytes n).drawn = s.drawn := rfl
@[simp] theorem State.takeBytes_rngIn (n : Nat) (s : State) :
    (s.takeBytes n).rngIn = s.rngIn.drop n := rfl
@[simp] theorem State.takeBytes_inReset (n : Nat) (s : State) :
    (s.takeBytes n).inReset = s.inReset := rfl
@[simp] theorem State.takeBytes_bus (n : Nat) (s : State) :
    (s.takeBytes n).bus = s.bus := rfl
@[simp] theorem State.takeBytes_inputs (n : Nat) (s : State) :
    (s.takeBytes n).inputs = s.inputs := rfl
@[simp] theorem State.takeBytes_resets (n : Nat) (s : State) :
    (s.takeBytes n).resets = s.resets := rfl
@[simp] theorem State.takeBytes_resetReads (n : Nat) (s : State) :
    (s.takeBytes n).resetReads = s.resetReads := rfl

/-! ## Waiting -/

@[simp] theorem State.starve_ctrlIe (s : State) :
    (s.starve).ctrlIe = s.ctrlIe := rfl
@[simp] theorem State.starve_status (s : State) :
    (s.starve).status = s.status.wait := rfl
@[simp] theorem State.starve_cmd (s : State) :
    (s.starve).cmd = s.cmd := rfl
@[simp] theorem State.starve_result0 (s : State) :
    (s.starve).result0 = s.result0 := rfl
@[simp] theorem State.starve_result1 (s : State) :
    (s.starve).result1 = s.result1 := rfl
@[simp] theorem State.starve_rngCnt (s : State) :
    (s.starve).rngCnt = s.rngCnt + BitVec.ofNat 32 s.rngIn.length := rfl
@[simp] theorem State.starve_mu (s : State) :
    (s.starve).mu = s.mu := rfl
@[simp] theorem State.starve_sigma (s : State) :
    (s.starve).sigma = s.sigma := rfl
@[simp] theorem State.starve_sigmin (s : State) :
    (s.starve).sigmin = s.sigmin := rfl
@[simp] theorem State.starve_x (s : State) :
    (s.starve).x = s.x := rfl
@[simp] theorem State.starve_ccs (s : State) :
    (s.starve).ccs = s.ccs := rfl
@[simp] theorem State.starve_budget (s : State) :
    (s.starve).budget = s.budget := rfl
@[simp] theorem State.starve_inlen (s : State) :
    (s.starve).inlen = s.inlen := rfl
@[simp] theorem State.starve_mem (s : State) :
    (s.starve).mem = s.mem := rfl
@[simp] theorem State.starve_cdtRom (s : State) :
    (s.starve).cdtRom = s.cdtRom := rfl
@[simp] theorem State.starve_expRom (s : State) :
    (s.starve).expRom = s.expRom := rfl
@[simp] theorem State.starve_snap (s : State) :
    (s.starve).snap = s.snap := rfl
@[simp] theorem State.starve_drawn (s : State) :
    (s.starve).drawn = s.supply := rfl
@[simp] theorem State.starve_rngIn (s : State) :
    (s.starve).rngIn = [] := rfl
@[simp] theorem State.starve_inReset (s : State) :
    (s.starve).inReset = s.inReset := rfl
@[simp] theorem State.starve_bus (s : State) :
    (s.starve).bus = s.bus := rfl
@[simp] theorem State.starve_inputs (s : State) :
    (s.starve).inputs = s.inputs := rfl
@[simp] theorem State.starve_resets (s : State) :
    (s.starve).resets = s.resets := rfl
@[simp] theorem State.starve_resetReads (s : State) :
    (s.starve).resetReads = s.resetReads := rfl

/-! ## Reset -/

@[simp] theorem State.assertReset_ctrlIe (s : State) :
    (s.assertReset).ctrlIe = State.reset.ctrlIe := rfl
@[simp] theorem State.assertReset_status (s : State) :
    (s.assertReset).status = State.reset.status := rfl
@[simp] theorem State.assertReset_cmd (s : State) :
    (s.assertReset).cmd = State.reset.cmd := rfl
@[simp] theorem State.assertReset_result0 (s : State) :
    (s.assertReset).result0 = State.reset.result0 := rfl
@[simp] theorem State.assertReset_result1 (s : State) :
    (s.assertReset).result1 = State.reset.result1 := rfl
@[simp] theorem State.assertReset_rngCnt (s : State) :
    (s.assertReset).rngCnt = State.reset.rngCnt := rfl
@[simp] theorem State.assertReset_mu (s : State) :
    (s.assertReset).mu = State.reset.mu := rfl
@[simp] theorem State.assertReset_sigma (s : State) :
    (s.assertReset).sigma = State.reset.sigma := rfl
@[simp] theorem State.assertReset_sigmin (s : State) :
    (s.assertReset).sigmin = State.reset.sigmin := rfl
@[simp] theorem State.assertReset_x (s : State) :
    (s.assertReset).x = State.reset.x := rfl
@[simp] theorem State.assertReset_ccs (s : State) :
    (s.assertReset).ccs = State.reset.ccs := rfl
@[simp] theorem State.assertReset_budget (s : State) :
    (s.assertReset).budget = State.reset.budget := rfl
@[simp] theorem State.assertReset_inlen (s : State) :
    (s.assertReset).inlen = State.reset.inlen := rfl
@[simp] theorem State.assertReset_mem (s : State) :
    (s.assertReset).mem = State.reset.mem := rfl
@[simp] theorem State.assertReset_cdtRom (s : State) :
    (s.assertReset).cdtRom = s.cdtRom := rfl
@[simp] theorem State.assertReset_expRom (s : State) :
    (s.assertReset).expRom = s.expRom := rfl
@[simp] theorem State.assertReset_snap (s : State) :
    (s.assertReset).snap = State.reset.snap := rfl
@[simp] theorem State.assertReset_drawn (s : State) :
    (s.assertReset).drawn = State.reset.drawn := rfl
@[simp] theorem State.assertReset_rngIn (s : State) :
    (s.assertReset).rngIn = s.rngIn.drop (min (Config.rngLostAtReset s.resets) s.wouldTake) := rfl
@[simp] theorem State.assertReset_inReset (s : State) :
    (s.assertReset).inReset = true := rfl
@[simp] theorem State.assertReset_bus (s : State) :
    (s.assertReset).bus = s.bus := rfl
@[simp] theorem State.assertReset_inputs (s : State) :
    (s.assertReset).inputs = s.inputs := rfl
@[simp] theorem State.assertReset_resets (s : State) :
    (s.assertReset).resets = s.resets + 1 := rfl
@[simp] theorem State.assertReset_resetReads (s : State) :
    (s.assertReset).resetReads = s.resetReads := rfl

/-! ## Release of reset -/

@[simp] theorem State.releaseReset_ctrlIe (s : State) :
    (s.releaseReset).ctrlIe = s.ctrlIe := rfl
@[simp] theorem State.releaseReset_status (s : State) :
    (s.releaseReset).status = s.status := rfl
@[simp] theorem State.releaseReset_cmd (s : State) :
    (s.releaseReset).cmd = s.cmd := rfl
@[simp] theorem State.releaseReset_result0 (s : State) :
    (s.releaseReset).result0 = s.result0 := rfl
@[simp] theorem State.releaseReset_result1 (s : State) :
    (s.releaseReset).result1 = s.result1 := rfl
@[simp] theorem State.releaseReset_rngCnt (s : State) :
    (s.releaseReset).rngCnt = s.rngCnt := rfl
@[simp] theorem State.releaseReset_mu (s : State) :
    (s.releaseReset).mu = s.mu := rfl
@[simp] theorem State.releaseReset_sigma (s : State) :
    (s.releaseReset).sigma = s.sigma := rfl
@[simp] theorem State.releaseReset_sigmin (s : State) :
    (s.releaseReset).sigmin = s.sigmin := rfl
@[simp] theorem State.releaseReset_x (s : State) :
    (s.releaseReset).x = s.x := rfl
@[simp] theorem State.releaseReset_ccs (s : State) :
    (s.releaseReset).ccs = s.ccs := rfl
@[simp] theorem State.releaseReset_budget (s : State) :
    (s.releaseReset).budget = s.budget := rfl
@[simp] theorem State.releaseReset_inlen (s : State) :
    (s.releaseReset).inlen = s.inlen := rfl
@[simp] theorem State.releaseReset_mem (s : State) :
    (s.releaseReset).mem = s.mem := rfl
@[simp] theorem State.releaseReset_cdtRom (s : State) :
    (s.releaseReset).cdtRom = s.cdtRom := rfl
@[simp] theorem State.releaseReset_expRom (s : State) :
    (s.releaseReset).expRom = s.expRom := rfl
@[simp] theorem State.releaseReset_snap (s : State) :
    (s.releaseReset).snap = s.snap := rfl
@[simp] theorem State.releaseReset_drawn (s : State) :
    (s.releaseReset).drawn = s.drawn := rfl
@[simp] theorem State.releaseReset_rngIn (s : State) :
    (s.releaseReset).rngIn = s.rngIn := rfl
@[simp] theorem State.releaseReset_inReset (s : State) :
    (s.releaseReset).inReset = false := rfl
@[simp] theorem State.releaseReset_bus (s : State) :
    (s.releaseReset).bus = s.bus := rfl
@[simp] theorem State.releaseReset_inputs (s : State) :
    (s.releaseReset).inputs = s.inputs := rfl
@[simp] theorem State.releaseReset_resets (s : State) :
    (s.releaseReset).resets = s.resets := rfl
@[simp] theorem State.releaseReset_resetReads (s : State) :
    (s.releaseReset).resetReads = s.resetReads := rfl

/-! ## A command word in place -/

@[simp] theorem State.withCommand_ctrlIe (w : Word) (s : State) :
    (s.withCommand w).ctrlIe = s.ctrlIe := rfl
@[simp] theorem State.withCommand_status (w : Word) (s : State) :
    (s.withCommand w).status = s.status.accept := rfl
@[simp] theorem State.withCommand_cmd (w : Word) (s : State) :
    (s.withCommand w).cmd = w := rfl
@[simp] theorem State.withCommand_result0 (w : Word) (s : State) :
    (s.withCommand w).result0 = s.result0 := rfl
@[simp] theorem State.withCommand_result1 (w : Word) (s : State) :
    (s.withCommand w).result1 = s.result1 := rfl
@[simp] theorem State.withCommand_rngCnt (w : Word) (s : State) :
    (s.withCommand w).rngCnt = s.rngCnt := rfl
@[simp] theorem State.withCommand_mu (w : Word) (s : State) :
    (s.withCommand w).mu = s.mu := rfl
@[simp] theorem State.withCommand_sigma (w : Word) (s : State) :
    (s.withCommand w).sigma = s.sigma := rfl
@[simp] theorem State.withCommand_sigmin (w : Word) (s : State) :
    (s.withCommand w).sigmin = s.sigmin := rfl
@[simp] theorem State.withCommand_x (w : Word) (s : State) :
    (s.withCommand w).x = s.x := rfl
@[simp] theorem State.withCommand_ccs (w : Word) (s : State) :
    (s.withCommand w).ccs = s.ccs := rfl
@[simp] theorem State.withCommand_budget (w : Word) (s : State) :
    (s.withCommand w).budget = s.budget := rfl
@[simp] theorem State.withCommand_inlen (w : Word) (s : State) :
    (s.withCommand w).inlen = s.inlen := rfl
@[simp] theorem State.withCommand_mem (w : Word) (s : State) :
    (s.withCommand w).mem = s.mem := rfl
@[simp] theorem State.withCommand_cdtRom (w : Word) (s : State) :
    (s.withCommand w).cdtRom = s.cdtRom := rfl
@[simp] theorem State.withCommand_expRom (w : Word) (s : State) :
    (s.withCommand w).expRom = s.expRom := rfl
@[simp] theorem State.withCommand_snap (w : Word) (s : State) :
    (s.withCommand w).snap = s.latch := rfl
@[simp] theorem State.withCommand_drawn (w : Word) (s : State) :
    (s.withCommand w).drawn = [] := rfl
@[simp] theorem State.withCommand_rngIn (w : Word) (s : State) :
    (s.withCommand w).rngIn = s.rngIn := rfl
@[simp] theorem State.withCommand_inReset (w : Word) (s : State) :
    (s.withCommand w).inReset = false := rfl
@[simp] theorem State.withCommand_bus (w : Word) (s : State) :
    (s.withCommand w).bus = s.bus := rfl
@[simp] theorem State.withCommand_inputs (w : Word) (s : State) :
    (s.withCommand w).inputs = .engine :: s.inputs := rfl
@[simp] theorem State.withCommand_resets (w : Word) (s : State) :
    (s.withCommand w).resets = s.resets := rfl
@[simp] theorem State.withCommand_resetReads (w : Word) (s : State) :
    (s.withCommand w).resetReads = s.resetReads := rfl

/-! ## Results and banks -/

@[simp] theorem Effect.result0_none (m : Memory) (s : State) : (Effect.mk m none).result0 s = s.result0 := rfl
@[simp] theorem Effect.result1_none (m : Memory) (s : State) : (Effect.mk m none).result1 s = s.result1 := rfl
@[simp] theorem Effect.result0_some (m : Memory) (a b : Word) (s : State) :
    (Effect.mk m (some (a, b))).result0 s = a := rfl
@[simp] theorem Effect.result1_some (m : Memory) (a b : Word) (s : State) :
    (Effect.mk m (some (a, b))).result1 s = b := rfl
@[simp] theorem State.outF_mem (s : State) (rd : Bank) (v : List Cplx) :
    (s.outF rd v).mem = Memory.writeF rd s.mem 0 v := rfl
@[simp] theorem State.outF_results (s : State) (rd : Bank) (v : List Cplx) : (s.outF rd v).results = none := rfl
@[simp] theorem State.outFF_mem (s : State) (rd re : Bank) (v w : List Cplx) :
    (s.outFF rd re v w).mem = Memory.writeF re (Memory.writeF rd s.mem 0 v) 0 w := rfl
@[simp] theorem State.outFF_results (s : State) (rd re : Bank) (v w : List Cplx) :
    (s.outFF rd re v w).results = none := rfl
@[simp] theorem State.outZ_mem (s : State) (rd : Bank) (v : List Half) :
    (s.outZ rd v).mem = Memory.writeZ rd s.mem 0 v := rfl
@[simp] theorem State.outZ_results (s : State) (rd : Bank) (v : List Half) : (s.outZ rd v).results = none := rfl
@[simp] theorem State.outZZ_mem (s : State) (rd re : Bank) (v w : List Half) :
    (s.outZZ rd re v w).mem = Memory.writeZ re (Memory.writeZ rd s.mem 0 v) 0 w := rfl
@[simp] theorem State.outZZ_results (s : State) (rd re : Bank) (v w : List Half) :
    (s.outZZ rd re v w).results = none := rfl

end Sys2Proof.Machine
end

