-- ==== Sys2Proof/Laws/Bus.lean ====
section
/-! SUPPORT. The laws of the host bus: the address map as arithmetic, everything a host write and a host access can do,
said once, and what a read of each region answers. -/

namespace Sys2Proof.Machine

/-! ## The address map -/

/-- One row of the map: its region inside it, the rest of the map outside. -/
theorem find?_mapRow (r : MapRow) (rows : List MapRow) (a : Nat) :
    ((r :: rows).find? fun r => decide (r.first ≤ a) && decide (a ≤ r.last)).map MapRow.region =
      if r.first ≤ a ∧ a ≤ r.last then some r.region
      else (rows.find? fun r => decide (r.first ≤ a) && decide (a ≤ r.last)).map MapRow.region := by
  rw [List.find?_cons]
  by_cases h : r.first ≤ a ∧ a ≤ r.last
  · rw [if_pos h]; simp [h]
  · rw [if_neg h]
    have : (decide (r.first ≤ a) && decide (a ≤ r.last)) = false := by
      rw [← Bool.decide_and, decide_eq_false h]
    rw [this]

theorem regionOf_eq (a : Nat) : regionOf a =
    if a ≤ 0x4F then some .csr
    else if 0x10000 ≤ a ∧ a ≤ 0x1FFFF then some .fBank
    else if 0x20000 ≤ a ∧ a ≤ 0x23FFF then some .zBank
    else if 0x24000 ≤ a ∧ a ≤ 0x247FF then some .byteBuf
    else if 0x30020 ≤ a ∧ a ≤ 0x37FFF then some .twrom
    else if 0x38008 ≤ a ∧ a ≤ 0x39FFF then some .zrom
    else if 0x40000 ≤ a ∧ a ≤ 0x4C003 then some .invrom
    else if 0x4D000 ≤ a ∧ a ≤ 0x4D11F then some .cdtRom
    else if 0x4D200 ≤ a ∧ a ≤ 0x4D267 then some .expRom
    else none := by
  unfold regionOf memoryMap
  simp only [find?_mapRow, List.find?_nil, Option.map_none, Nat.zero_le, true_and]

theorem regionOf_f {a : Nat} (h1 : 0x10000 ≤ a) (h2 : a ≤ 0x1FFFF) : regionOf a = some .fBank := by
  rw [regionOf_eq, if_neg (by omega), if_pos ⟨h1, h2⟩]

theorem regionOf_z {a : Nat} (h1 : 0x20000 ≤ a) (h2 : a ≤ 0x23FFF) : regionOf a = some .zBank := by
  rw [regionOf_eq, if_neg (by omega), if_neg (by omega), if_pos ⟨h1, h2⟩]

theorem regionOf_buf {a : Nat} (h1 : 0x24000 ≤ a) (h2 : a ≤ 0x247FF) : regionOf a = some .byteBuf := by
  rw [regionOf_eq, if_neg (by omega), if_neg (by omega), if_neg (by omega), if_pos ⟨h1, h2⟩]

theorem regionOf_csr {a : Nat} (h : a ≤ 0x4F) : regionOf a = some .csr := by rw [regionOf_eq, if_pos h]

/-- The bytes of a bank lie where RAM has bytes (rules R61, R65, R66, R78). -/
theorem isRamByte_f {a : Nat} (h1 : 0x10000 ≤ a) (h2 : a ≤ 0x1FFFF) : isRamByte a = true := by
  simp [isRamByte, regionOf_f h1 h2]

theorem isRamByte_z {a : Nat} (h1 : 0x20000 ≤ a) (h2 : a ≤ 0x23FFF) (h : a % 4 < 2) : isRamByte a = true := by
  simp [isRamByte, regionOf_z h1 h2, h]

theorem isRamByte_buf {a : Nat} (h1 : 0x24000 ≤ a) (h2 : a ≤ 0x247FF) : isRamByte a = true := by
  simp [isRamByte, regionOf_buf h1 h2]

/-- A register word is found at its offset, and nowhere else. -/
theorem csrAt_eq_some {a : Nat} {c : Csr} : csrAt a = some c ↔ a = c.offset := by
  constructor
  · intro h
    have := List.find?_some h
    exact (by simpa using this : c.offset = a).symm
  · rintro rfl
    cases c <;> decide

theorem csrAt_eq_none {a : Nat} : csrAt a = none ↔ ¬(a % 4 = 0 ∧ a ≤ 0x4C) := by
  constructor
  · rintro h ⟨h4, hl⟩
    obtain ⟨k, rfl⟩ : ∃ k, a = 4 * k := ⟨a / 4, by omega⟩
    have hk : k < 20 := by omega
    revert h
    interval_cases k <;> decide
  · intro h
    rcases hc : csrAt a with _ | c
    · rfl
    · have := csrAt_eq_some.1 hc
      exfalso
      apply h
      rw [this]
      cases c <;> decide

/-- A read of a register's offset answers the register, whether or not a command runs (rules R23, R69). -/
theorem State.readWord_csr (s : State) (c : Csr) : s.readWord c.offset = (s.readCsr c, false) := by
  have hr : s.busRefuses c.offset = false := by cases c <;> simp [State.busRefuses, Csr.offset]
  have h1 : regionOf c.offset = some .csr := by cases c <;> decide
  have h2 : csrAt c.offset = some c := csrAt_eq_some.2 rfl
  simp [State.readWord, hr, h1, h2]

/-- A write to a register's offset is the register's write, whether or not a command runs (rules R23, R69). -/
theorem State.writeWord_csr (s : State) (c : Csr) (v : Word) : s.writeWord c.offset v = s.writeCsr v c := by
  have hr : s.busRefuses c.offset = false := by cases c <;> simp [State.busRefuses, Csr.offset]
  have h1 : regionOf c.offset = some .csr := by cases c <;> decide
  have h2 : csrAt c.offset = some c := csrAt_eq_some.2 rfl
  simp [State.writeWord, hr, h1, h2]

/-- While no command runs, a read of an aligned RAM address answers the word there (rules R64 to R66). -/
theorem State.readWord_ram {s : State} {a : Nat} (hb : s.status.busy = false) (h4 : a % 4 = 0)
    (h : 0x10000 ≤ a ∧ a ≤ 0x1FFFF ∨ 0x24000 ≤ a ∧ a ≤ 0x247FF) : s.readWord a = (s.ramWord a, false) := by
  have hr : s.busRefuses a = false := by simp [State.busRefuses, hb, h4]
  rcases h with ⟨h1, h2⟩ | ⟨h1, h2⟩
  · simp [State.readWord, hr, regionOf_f h1 h2]
  · simp [State.readWord, hr, regionOf_buf h1 h2]

theorem State.readWord_z {s : State} {a : Nat} (hb : s.status.busy = false) (h4 : a % 4 = 0)
    (h1 : 0x20000 ≤ a) (h2 : a ≤ 0x23FFF) : s.readWord a = (s.zWord a, false) := by
  have hr : s.busRefuses a = false := by simp [State.busRefuses, hb, h4]
  simp [State.readWord, hr, regionOf_z h1 h2]

/-- While no command runs, a write to an aligned RAM address stores the word's bytes (rules R64 to R66). -/
theorem State.writeWord_ram {s : State} {a : Nat} (v : Word) (hb : s.status.busy = false) (h4 : a % 4 = 0)
    (h : 0x10000 ≤ a ∧ a ≤ 0x1FFFF ∨ 0x24000 ≤ a ∧ a ≤ 0x247FF) :
    s.writeWord a v = ({ s with mem := s.mem.writeBytes a (bytesOf 4 v.toNat) }, false) := by
  have hr : s.busRefuses a = false := by simp [State.busRefuses, hb, h4]
  rcases h with ⟨h1, h2⟩ | ⟨h1, h2⟩
  · simp [State.writeWord, hr, regionOf_f h1 h2]
  · simp [State.writeWord, hr, regionOf_buf h1 h2]

theorem State.writeWord_z {s : State} {a : Nat} (v : Word) (hb : s.status.busy = false) (h4 : a % 4 = 0)
    (h1 : 0x20000 ≤ a) (h2 : a ≤ 0x23FFF) :
    s.writeWord a v = ({ s with mem := s.mem.writeBytes a (bytesOf 2 v.toNat) }, false) := by
  have hr : s.busRefuses a = false := by simp [State.busRefuses, hb, h4]
  simp [State.writeWord, hr, regionOf_z h1 h2]

/-! ## A host write -/

/-- Everything a host write can do: nothing, with SLVERR; a register write; or a store of the bytes of its word to RAM,
which happens only while no command runs. -/
theorem State.writeWord_cases (s : State) (a : Nat) (v : Word) :
    s.writeWord a v = (s, true) ∨
    (∃ c : Csr, a = c.offset ∧ s.writeWord a v = s.writeCsr v c) ∨
    (∃ n, s.status.busy = false ∧ a % 4 = 0 ∧ n ≤ 4 ∧
      ((n = 4 ∧ (0x10000 ≤ a ∧ a ≤ 0x1FFFF ∨ 0x24000 ≤ a ∧ a ≤ 0x247FF)) ∨
        (n = 2 ∧ 0x20000 ≤ a ∧ a ≤ 0x23FFF)) ∧
      s.writeWord a v = ({ s with mem := s.mem.writeBytes a (bytesOf n v.toNat) }, false)) := by
  rcases hb : s.busRefuses a
  · have hm : a % 4 = 0 ∧ (0x10000 ≤ a → s.status.busy = false) := by
      simp only [State.busRefuses, Bool.or_eq_false_iff, bne_eq_false_iff_eq, Bool.and_eq_false_iff,
        decide_eq_false_iff_not] at hb
      refine ⟨hb.1, fun h => ?_⟩
      rcases hb.2 with h' | h'
      · exact h'
      · exact absurd h h'
    unfold State.writeWord
    simp only [hb, Bool.false_eq_true, if_false]
    rw [regionOf_eq]
    split_ifs with h1 h2 h3 h4 h5 h6 h7 h8 h9
    · rcases hc : csrAt a with _ | c
      · exact .inl rfl
      · exact .inr (.inl ⟨c, csrAt_eq_some.1 hc, rfl⟩)
    · exact .inr (.inr ⟨4, hm.2 (by omega), hm.1, by omega, .inl ⟨rfl, .inl h2⟩, rfl⟩)
    · exact .inr (.inr ⟨2, hm.2 (by omega), hm.1, by omega, .inr ⟨rfl, h3⟩, rfl⟩)
    · exact .inr (.inr ⟨4, hm.2 (by omega), hm.1, by omega, .inl ⟨rfl, .inr h4⟩, rfl⟩)
    all_goals exact .inl rfl
  · left
    simp [State.writeWord, hb]

/-- Everything a write to a register can do: nothing, set OVR, accept a command, clear bits of STATUS, or change CTRL and
the operand registers. -/
theorem State.writeCsr_cases (s : State) (v : Word) (c : Csr) :
    s.writeCsr v c = (s, true) ∨
    (c = .cmd ∧ s.status.busy = true ∧
      s.writeCsr v c = ({ s with status := { s.status with ovr := true } }, true)) ∨
    (c = .cmd ∧ s.status.busy = false ∧ s.writeCsr v c = (s.accept v, false)) ∨
    (c = .status ∧ s.writeCsr v c = (s.clearStatus v, false)) ∨
    (∃ ie mu sigma sigmin x ccs budget inlen,
      s.writeCsr v c = ({ s with ctrlIe := ie, mu := mu, sigma := sigma, sigmin := sigmin, x := x, ccs := ccs
                                 budget := budget, inlen := inlen }, false)) := by
  cases c
  case cmd =>
    rcases hb : s.status.busy
    · exact .inr (.inr (.inl ⟨rfl, rfl, by simp [State.writeCsr, State.writeCmd, hb]⟩))
    · exact .inr (.inl ⟨rfl, rfl, by simp [State.writeCsr, State.writeCmd, hb]⟩)
  case status => exact .inr (.inr (.inr (.inl ⟨rfl, rfl⟩)))
  case id | version | result0 | result1 | rngcnt => exact .inl rfl
  all_goals exact .inr (.inr (.inr (.inr ⟨_, _, _, _, _, _, _, _, rfl⟩)))

/-! ## A host access -/

/-- What no host access changes, in reset or out of it. -/
theorem State.hostAccess_keeps (s : State) (a : Access) :
    (s.hostAccess a).result0 = s.result0 ∧ (s.hostAccess a).result1 = s.result1 ∧
    (s.hostAccess a).rngCnt = s.rngCnt ∧ (s.hostAccess a).cdtRom = s.cdtRom ∧
    (s.hostAccess a).expRom = s.expRom ∧ (s.hostAccess a).rngIn = s.rngIn ∧
    (s.hostAccess a).inReset = s.inReset ∧ (s.hostAccess a).inputs = s.inputs ∧
    (s.hostAccess a).resets = s.resets ∧ (s.hostAccess a).status.rngw = s.status.rngw := by
  unfold State.hostAccess
  split
  · cases a <;> simp [State.accessInReset]
  · cases a with
    | read a => simp [State.access]
    | write a v =>
      rcases s.writeWord_cases a.toNat v with h | ⟨c, -, h⟩ | ⟨n, -, -, -, -, h⟩
      · simp [State.access, h]
      · rcases s.writeCsr_cases v c with hc | ⟨-, -, hc⟩ | ⟨-, -, hc⟩ | ⟨-, hc⟩ | ⟨ie, mu, sg, sm, x, cc, b, n, hc⟩ <;>
          simp [State.access, h, hc]
      · simp [State.access, h]

/-- What no host access changes while a command runs. -/
theorem State.hostAccess_keeps_running {s : State} (hb : s.status.busy = true) (a : Access) :
    (s.hostAccess a).status.busy = true ∧ (s.hostAccess a).cmd = s.cmd ∧ (s.hostAccess a).snap = s.snap ∧
    (s.hostAccess a).drawn = s.drawn ∧ (s.hostAccess a).mem = s.mem := by
  unfold State.hostAccess
  split
  · cases a <;> simp [State.accessInReset, hb]
  · cases a with
    | read a => simp [State.access, hb]
    | write a v =>
      rcases s.writeWord_cases a.toNat v with h | ⟨c, -, h⟩ | ⟨n, hn, -, -, -, h⟩
      · simp [State.access, h, hb]
      · rcases s.writeCsr_cases v c with hc | ⟨-, -, hc⟩ | ⟨-, hn, -⟩ | ⟨-, hc⟩ | ⟨ie, mu, sg, sm, x, cc, b, n, hc⟩
        · simp [State.access, h, hc, hb]
        · simp [State.access, h, hc, hb]
        · rw [hb] at hn; cases hn
        · simp [State.access, h, hc, hb]
        · simp [State.access, h, hc, hb]
      · rw [hb] at hn; cases hn

end Sys2Proof.Machine
end

