-- ==== Sys2Proof/Laws/Butterfly.lean ====
section
/-! SUPPORT. The laws of the deinterleaving and of the recursion U2 and U3 share: lengths, entries by index, and that the
inverse transform undoes the transform where its pieces do. -/

namespace Sys2Proof.Machine

variable {α : Type}

/-! ## Deinterleaving -/

@[simp] theorem evens_length (l : List α) : (evens l).length = (l.length + 1) / 2 := by
  induction l using evens.induct with
  | case1 a b t ih => simp only [evens, List.length_cons, ih]; omega
  | case2 a => simp [evens]
  | case3 => simp [evens]

@[simp] theorem odds_length (l : List α) : (odds l).length = l.length / 2 := by
  induction l using odds.induct with
  | case1 a b t ih => simp only [odds, List.length_cons, ih]; omega
  | case2 a => simp [odds]
  | case3 => simp [odds]

theorem evens_getElem? (l : List α) (i : Nat) : (evens l)[i]? = l[2 * i]? := by
  induction l using evens.induct generalizing i with
  | case1 a b t ih =>
    cases i with
    | zero => rfl
    | succ i => simpa [evens, Nat.mul_add] using ih i
  | case2 a => cases i <;> simp [evens, Nat.mul_add]
  | case3 => simp [evens]

theorem odds_getElem? (l : List α) (i : Nat) : (odds l)[i]? = l[2 * i + 1]? := by
  induction l using odds.induct generalizing i with
  | case1 a b t ih =>
    cases i with
    | zero => rfl
    | succ i => simpa [odds, Nat.mul_add] using ih i
  | case2 a => simp [odds]
  | case3 => simp [odds]

theorem interleave_length (a b : List α) : (interleave a b).length = a.length + b.length := by
  induction a, b using interleave.induct with
  | case1 a as b bs ih => simp only [interleave, List.length_cons, ih]; omega
  | case2 a as => simp [interleave]
  | case3 bs => simp [interleave]

/-- Entry k of a merge whose first sequence is as long as the second or one longer (rule R103). -/
theorem interleave_getElem? (a b : List α) (h1 : b.length ≤ a.length) (h2 : a.length ≤ b.length + 1) (k : Nat) :
    (interleave a b)[k]? = if k % 2 = 0 then a[k / 2]? else b[k / 2]? := by
  induction a, b using interleave.induct generalizing k with
  | case1 a as b bs ih =>
    simp only [List.length_cons] at h1 h2
    match k with
    | 0 => rfl
    | 1 => rfl
    | k + 2 =>
      have := ih (by omega) (by omega) k
      simpa [interleave, Nat.add_mod_right] using this
  | case2 a as =>
    simp only [List.length_cons, List.length_nil] at h2
    obtain rfl : as = [] := List.eq_nil_of_length_eq_zero (by omega)
    match k with
    | 0 => rfl
    | 1 => rfl
    | k + 2 => simp [interleave]
  | case3 bs =>
    obtain rfl : bs = [] := List.eq_nil_of_length_eq_zero (by simpa using h1)
    simp [interleave]

/-- Splitting and merging an even number of entries restores them (rule R106). -/
theorem interleave_evens_odds (l : List α) : interleave (evens l) (odds l) = l := by
  induction l using evens.induct with
  | case1 a b t ih => simp [evens, odds, interleave, ih]
  | case2 a => rfl
  | case3 => rfl

theorem evens_interleave {a b : List α} (h : a.length = b.length) : evens (interleave a b) = a := by
  induction a, b using interleave.induct with
  | case1 a as b bs ih => simp [interleave, evens, ih (by simpa using h)]
  | case2 a as => simp at h
  | case3 bs => obtain rfl : bs = [] := List.eq_nil_of_length_eq_zero h.symm; rfl

theorem odds_interleave {a b : List α} (h : a.length = b.length) : odds (interleave a b) = b := by
  induction a, b using interleave.induct with
  | case1 a as b bs ih => simp [interleave, odds, ih (by simpa using h)]
  | case2 a as => simp at h
  | case3 bs => obtain rfl : bs = [] := List.eq_nil_of_length_eq_zero h.symm; rfl

/-! ## One pass -/

theorem mergePass_length (fly : Nat → α → α → α × α) (a : Nat) (x y : List α) (h : x.length = y.length) :
    (mergePass fly a x y).length = 2 * x.length := by
  induction x generalizing a y with
  | nil => cases y <;> rfl
  | cons x xs ih =>
    cases y with
    | nil => simp at h
    | cons y ys =>
      simp only [mergePass, List.length_cons, ih (a + 2) ys (by simpa using h)]
      omega

/-- Entries 2i and 2i+1 of a merge pass (rules R129, R169). -/
theorem mergePass_getElem? (fly : Nat → α → α → α × α) (a : Nat) (x y : List α) (i : Nat) (u v : α)
    (hu : x[i]? = some u) (hv : y[i]? = some v) :
    (mergePass fly a x y)[2 * i]? = some (fly (a + 2 * i) u v).1 ∧
    (mergePass fly a x y)[2 * i + 1]? = some (fly (a + 2 * i) u v).2 := by
  induction i generalizing a x y with
  | zero =>
    cases x with
    | nil => simp at hu
    | cons x xs =>
      cases y with
      | nil => simp at hv
      | cons y ys =>
        simp only [List.getElem?_cons_zero, Option.some.injEq] at hu hv
        subst hu hv
        exact ⟨rfl, rfl⟩
  | succ i ih =>
    cases x with
    | nil => simp at hu
    | cons x xs =>
      cases y with
      | nil => simp at hv
      | cons y ys =>
        have := ih (a + 2) xs ys (by simpa using hu) (by simpa using hv)
        rw [show a + 2 + 2 * i = a + 2 * (i + 1) by omega] at this
        simpa [mergePass, Nat.mul_add] using this

theorem splitPass_length (flyInv : Nat → α → α → α × α) (a : Nat) (l : List α) :
    (splitPass flyInv a l).1.length = l.length / 2 ∧ (splitPass flyInv a l).2.length = l.length / 2 := by
  induction l using evens.induct generalizing a with
  | case1 x y t ih => simp only [splitPass, List.length_cons, (ih (a + 2)).1, (ih (a + 2)).2]; omega
  | case2 x => simp [splitPass]
  | case3 => simp [splitPass]

/-- Entry i of the halves of a split pass (rules R128, R168). -/
theorem splitPass_getElem? (flyInv : Nat → α → α → α × α) (a : Nat) (l : List α) (i : Nat) (u v : α)
    (hu : l[2 * i]? = some u) (hv : l[2 * i + 1]? = some v) :
    (splitPass flyInv a l).1[i]? = some (flyInv (a + 2 * i) u v).1 ∧
    (splitPass flyInv a l).2[i]? = some (flyInv (a + 2 * i) u v).2 := by
  induction i generalizing a l with
  | zero =>
    match l with
    | [] => simp at hu
    | [x] => simp at hv
    | x :: y :: t =>
      simp only [Nat.mul_zero, List.getElem?_cons_zero, Option.some.injEq, Nat.zero_add,
        List.getElem?_cons_succ] at hu hv
      subst hu hv
      exact ⟨rfl, rfl⟩
  | succ i ih =>
    match l with
    | [] => simp at hu
    | [x] => simp [Nat.mul_add] at hu
    | x :: y :: t =>
      have := ih (a + 2) t (by simpa [Nat.mul_add] using hu) (by simpa [Nat.mul_add] using hv)
      rw [show a + 2 + 2 * i = a + 2 * (i + 1) by omega] at this
      simpa [splitPass] using this

/-- A split pass undoes a merge pass whose butterfly it undoes, entry by entry. -/
theorem splitPass_mergePass {fly flyInv : Nat → α → α → α × α} {P : α → Prop} (a : Nat) (x y : List α)
    (h : x.length = y.length) (hx : ∀ u ∈ x, P u) (hy : ∀ v ∈ y, P v)
    (hinv : ∀ i < x.length, ∀ u v, P u → P v →
      flyInv (a + 2 * i) (fly (a + 2 * i) u v).1 (fly (a + 2 * i) u v).2 = (u, v)) :
    splitPass flyInv a (mergePass fly a x y) = (x, y) := by
  induction x generalizing a y with
  | nil => obtain rfl : y = [] := List.eq_nil_of_length_eq_zero h.symm; rfl
  | cons x xs ih =>
    cases y with
    | nil => simp at h
    | cons y ys =>
      have h0 := hinv 0 (by simp) x y (hx x (by simp)) (hy y (by simp))
      simp only [Nat.mul_zero, Nat.add_zero] at h0
      have hs := ih (a + 2) ys (by simpa using h) (fun u hu => hx u (by simp [hu])) (fun v hv => hy v (by simp [hv]))
        fun i hi u v hu hv => by
          have := hinv (i + 1) (by simpa using hi) u v hu hv
          rwa [show a + 2 * (i + 1) = a + 2 + 2 * i by omega] at this
      simp [mergePass, splitPass, h0, hs]

/-! ## Lists given entry by entry -/

/-- A list whose entries are known is the list of them. -/
theorem eq_map_range {l : List α} {n : Nat} {f : Nat → α} (hl : l.length = n) (h : ∀ i < n, l[i]? = some (f i)) :
    l = (List.range n).map f := by
  subst hl
  apply List.ext_getElem?
  intro i
  by_cases hi : i < l.length
  · rw [h i hi]; simp [hi]
  · simp [hi]

theorem map_range_getElem? (f : Nat → α) {n i : Nat} (h : i < n) : ((List.range n).map f)[i]? = some (f i) := by
  simp [h]

theorem evens_map_range (f : Nat → α) (n : Nat) :
    evens ((List.range n).map f) = (List.range ((n + 1) / 2)).map fun i => f (2 * i) :=
  eq_map_range (by simp) fun i hi => by rw [evens_getElem?, map_range_getElem? f (by omega)]

theorem odds_map_range (f : Nat → α) (n : Nat) :
    odds ((List.range n).map f) = (List.range (n / 2)).map fun i => f (2 * i + 1) :=
  eq_map_range (by simp) fun i hi => by rw [odds_getElem?, map_range_getElem? f (by omega)]

theorem interleave_map_range (f g : Nat → α) (n : Nat) :
    interleave ((List.range ((n + 1) / 2)).map f) ((List.range (n / 2)).map g) =
      (List.range n).map fun k => if k % 2 = 0 then f (k / 2) else g (k / 2) :=
  eq_map_range (by simp [interleave_length]; omega) fun k hk => by
    rw [interleave_getElem? _ _ (by simp; omega) (by simp; omega)]
    split
    · rw [map_range_getElem? f (by omega)]
    · rw [map_range_getElem? g (by omega)]

/-- A merge pass of lists given entry by entry (rules R129, R169). -/
theorem mergePass_map_range (fly : Nat → α → α → α × α) (a : Nat) (f g : Nat → α) (m : Nat) :
    mergePass fly a ((List.range m).map f) ((List.range m).map g) =
      (List.range (2 * m)).map fun k =>
        if k % 2 = 0 then (fly (a + k) (f (k / 2)) (g (k / 2))).1 else (fly (a + (k - 1)) (f (k / 2)) (g (k / 2))).2 :=
  eq_map_range (by simp [mergePass_length]) fun k hk => by
    have := mergePass_getElem? fly a _ _ (k / 2) _ _ (map_range_getElem? f (n := m) (by omega))
      (map_range_getElem? g (n := m) (by omega))
    split
    · rw [show 2 * (k / 2) = k by omega] at this
      exact this.1
    · rw [show 2 * (k / 2) = k - 1 by omega, show k - 1 + 1 = k by omega] at this
      exact this.2

/-- A split pass of a list given entry by entry (rules R128, R168). -/
theorem splitPass_map_range (flyInv : Nat → α → α → α × α) (a : Nat) (f : Nat → α) (n : Nat) :
    splitPass flyInv a ((List.range n).map f) =
      ((List.range (n / 2)).map fun i => (flyInv (a + 2 * i) (f (2 * i)) (f (2 * i + 1))).1,
       (List.range (n / 2)).map fun i => (flyInv (a + 2 * i) (f (2 * i)) (f (2 * i + 1))).2) := by
  have h := splitPass_length flyInv a ((List.range n).map f)
  simp only [List.length_map, List.length_range] at h
  have he : ∀ i < n / 2, _ := fun i hi =>
    splitPass_getElem? flyInv a _ i _ _ (map_range_getElem? f (n := n) (i := 2 * i) (by omega))
      (map_range_getElem? f (n := n) (i := 2 * i + 1) (by omega))
  exact Prod.ext (eq_map_range h.1 fun i hi => (he i hi).1) (eq_map_range h.2 fun i hi => (he i hi).2)

/-! ## The whole transform -/

theorem transform_length (u : Radix2 α) (k : Nat) (f : List α) (h : f.length = 2 ^ (k + 1)) :
    (transform u k f).length = 2 ^ (k + 1) := by
  induction k generalizing f with
  | zero =>
    match f, h with
    | [x, y], _ => rfl
  | succ k ih =>
    have hp : 2 ^ (k + 1 + 1) = 2 * 2 ^ (k + 1) := by rw [pow_succ]; omega
    have he : (evens f).length = 2 ^ (k + 1) := by rw [evens_length]; omega
    have ho : (odds f).length = 2 ^ (k + 1) := by rw [odds_length]; omega
    rw [transform, mergePass_length _ _ _ _ (by rw [ih _ he, ih _ ho]), ih _ he, hp]

theorem inverseTransform_length (u : Radix2 α) (k : Nat) (f : List α) (h : f.length = 2 ^ (k + 1)) :
    (inverseTransform u k f).length = 2 ^ (k + 1) := by
  induction k generalizing f with
  | zero =>
    match f, h with
    | [x, y], _ => rfl
  | succ k ih =>
    have hp : 2 ^ (k + 1 + 1) = 2 * 2 ^ (k + 1) := by rw [pow_succ]; omega
    have hp' : 2 ^ (k + 2) = 2 * 2 ^ (k + 1) := hp
    have hl := splitPass_length u.flyInv (2 ^ (k + 2)) f
    rw [inverseTransform, interleave_length, ih _ (hl.1.trans (by omega)), ih _ (hl.2.trans (by omega))]
    omega

/-- Every entry of a transform has a property that the base case and the butterflies give. -/
theorem forall_mem_transform {u : Radix2 α} {P : α → Prop} (hb : ∀ x y, P (u.base x y).1 ∧ P (u.base x y).2)
    (hf : ∀ a x y, P (u.fly a x y).1 ∧ P (u.fly a x y).2) (k : Nat) (f : List α) : ∀ v ∈ transform u k f, P v := by
  have hm : ∀ a (x y : List α), ∀ v ∈ mergePass u.fly a x y, P v := by
    intro a x
    induction x generalizing a with
    | nil => intro y; cases y <;> simp [mergePass]
    | cons x xs ih =>
      intro y
      cases y with
      | nil => simp [mergePass]
      | cons y ys =>
        simp only [mergePass, List.mem_cons, forall_eq_or_imp]
        exact ⟨(hf a x y).1, (hf a x y).2, ih (a + 2) ys⟩
  cases k with
  | zero =>
    match f with
    | [] => simp [transform]
    | [x] => simp [transform]
    | x :: y :: t => simpa [transform] using hb x y
  | succ k => exact hm _ _ _

/-- The inverse transform undoes the transform, when the base case and every butterfly the recursion reaches are undone
on values with a property that the base case and the butterflies give. -/
theorem inverseTransform_transform {u : Radix2 α} {P : α → Prop}
    (hb : ∀ x y, P x → P y → u.baseInv (u.base x y).1 (u.base x y).2 = (x, y))
    (hP : ∀ x y, P (u.base x y).1 ∧ P (u.base x y).2) (hF : ∀ a x y, P (u.fly a x y).1 ∧ P (u.fly a x y).2)
    (k : Nat)
    (hf : ∀ a, 2 ≤ a → a < 2 ^ (k + 2) → ∀ x y, P x → P y → u.flyInv a (u.fly a x y).1 (u.fly a x y).2 = (x, y))
    (f : List α) (h : f.length = 2 ^ (k + 1)) (hp : ∀ v ∈ f, P v) : inverseTransform u k (transform u k f) = f := by
  induction k generalizing f with
  | zero =>
    match f, h with
    | [x, y], _ =>
      have := hb x y (hp x (by simp)) (hp y (by simp))
      simp [transform, inverseTransform, this]
  | succ k ih =>
    have hk : 2 ^ (k + 1 + 1) = 2 * 2 ^ (k + 1) := by rw [pow_succ]; omega
    have hk' : 2 ^ (k + 1 + 2) = 2 * 2 ^ (k + 1 + 1) := pow_succ' 2 (k + 1 + 1)
    have he : (evens f).length = 2 ^ (k + 1) := by rw [evens_length]; omega
    have ho : (odds f).length = 2 ^ (k + 1) := by rw [odds_length]; omega
    have hpe : ∀ v ∈ evens f, P v := fun v hv => by
      obtain ⟨i, hi⟩ := List.mem_iff_getElem?.1 hv
      rw [evens_getElem?] at hi
      exact hp v (List.mem_of_getElem? hi)
    have hpo : ∀ v ∈ odds f, P v := fun v hv => by
      obtain ⟨i, hi⟩ := List.mem_iff_getElem?.1 hv
      rw [odds_getElem?] at hi
      exact hp v (List.mem_of_getElem? hi)
    have hs : splitPass u.flyInv (2 ^ (k + 2)) (mergePass u.fly (2 ^ (k + 2)) (transform u k (evens f))
        (transform u k (odds f))) = (transform u k (evens f), transform u k (odds f)) := by
      apply splitPass_mergePass (P := P)
      · rw [transform_length _ _ _ he, transform_length _ _ _ ho]
      · exact forall_mem_transform hP hF k _
      · exact forall_mem_transform hP hF k _
      · intro i hi x y hx hy
        rw [transform_length _ _ _ he] at hi
        have h2 : 2 ^ (k + 2) = 2 * 2 ^ (k + 1) := hk
        have := Nat.one_le_two_pow (n := k + 1)
        exact hf _ (by omega) (by omega) x y hx hy
    have hf' : ∀ a, 2 ≤ a → a < 2 ^ (k + 2) → ∀ x y, P x → P y →
        u.flyInv a (u.fly a x y).1 (u.fly a x y).2 = (x, y) := fun a h1 h2 => hf a h1 (by
        have h3 : 2 ^ (k + 2) = 2 ^ (k + 1 + 1) := rfl
        omega)
    rw [transform, inverseTransform, hs]
    simp only
    rw [ih hf' _ he hpe, ih hf' _ ho hpo, interleave_evens_odds]

end Sys2Proof.Machine
end

