-- ==== Sys2Proof/Laws/Decode.lean ====
section
/-! SUPPORT. The fields of a command word as bit fields, the fields of a packed word, and what a word that decodes has in
its OP field and its reserved bits. -/

namespace Sys2Proof.Machine

/-! ## The fields of a word -/

theorem fieldOp_eq (w : Word) : fieldOp w = (w.extractLsb' 0 6).toNat := by
  simp [fieldOp, BitVec.extractLsb'_toNat]

theorem fieldLen_eq (w : Word) : fieldLen w = (w.extractLsb' 16 11).toNat := by
  simp [fieldLen, BitVec.extractLsb'_toNat, Nat.shiftRight_eq_div_pow]

theorem fieldLen_lt (w : Word) : fieldLen w < 2048 := Nat.mod_lt _ (by decide)

theorem fieldBank_eq_iff (w : Word) (i j : Nat) :
    fieldBank i w = fieldBank j w ↔ w.extractLsb' i 2 = w.extractLsb' j 2 := by
  simp [fieldBank, BitVec.toNat_eq, BitVec.extractLsb'_toNat, Nat.shiftRight_eq_div_pow]

/-- The reserved bits are clear (rule R85). -/
theorem reservedClear_iff (w : Word) :
    reservedClear w = true ↔ w.extractLsb' 14 2 = 0 ∧ w.extractLsb' 27 5 = 0 := by
  have := w.isLt
  rw [BitVec.toNat_eq, BitVec.toNat_eq, show (0 : BitVec 2).toNat = 0 from rfl, show (0 : BitVec 5).toNat = 0 from rfl]
  simp only [reservedClear, Bool.and_eq_true, beq_iff_eq, BitVec.extractLsb'_toNat,
    Nat.shiftRight_eq_div_pow]
  omega

/-! ## The fields of a packed word (rule R81) -/

section
variable (op : Nat) (rd ra rb re : Bank) (n : Nat)

theorem packFields_toNat (ho : op < 64) (hn : n < 2048) :
    (packFields op rd ra rb re n).toNat =
      op + rd.val * 2 ^ 6 + ra.val * 2 ^ 8 + rb.val * 2 ^ 10 + re.val * 2 ^ 12 + n * 2 ^ 16 := by
  simp only [packFields, BitVec.toNat_ofNat]
  omega

theorem fieldOp_packFields (ho : op < 64) : fieldOp (packFields op rd ra rb re n) = op := by
  simp only [fieldOp, packFields, BitVec.toNat_ofNat]
  omega

theorem fieldRd_packFields (ho : op < 64) (hn : n < 2048) : fieldRd (packFields op rd ra rb re n) = rd := by
  apply Fin.ext
  simp only [fieldRd, fieldBank, packFields_toNat op rd ra rb re n ho hn]
  omega

theorem fieldRa_packFields (ho : op < 64) (hn : n < 2048) : fieldRa (packFields op rd ra rb re n) = ra := by
  apply Fin.ext
  simp only [fieldRa, fieldBank, packFields_toNat op rd ra rb re n ho hn]
  omega

theorem fieldRb_packFields (ho : op < 64) (hn : n < 2048) : fieldRb (packFields op rd ra rb re n) = rb := by
  apply Fin.ext
  simp only [fieldRb, fieldBank, packFields_toNat op rd ra rb re n ho hn]
  omega

theorem fieldRe_packFields (ho : op < 64) (hn : n < 2048) : fieldRe (packFields op rd ra rb re n) = re := by
  apply Fin.ext
  simp only [fieldRe, fieldBank, packFields_toNat op rd ra rb re n ho hn]
  omega

theorem fieldLen_packFields (ho : op < 64) (hn : n < 2048) : fieldLen (packFields op rd ra rb re n) = n := by
  simp only [fieldLen, packFields_toNat op rd ra rb re n ho hn]
  omega

theorem reservedClear_packFields (ho : op < 64) (hn : n < 2048) :
    reservedClear (packFields op rd ra rb re n) = true := by
  simp only [reservedClear, packFields_toNat op rd ra rb re n ho hn, Bool.and_eq_true, beq_iff_eq]
  omega

end

/-! ## A word that decodes -/

/-- What `decode` answers: a command exactly when the reserved bits are clear and the opcode map names one. -/
theorem decode_eq_ok {w : Word} {i : Instr} : decode w = .ok i ↔ reservedClear w = true ∧ decodeOp w = some i := by
  unfold decode
  split
  · rename_i h
    rw [h]
    split <;> rename_i h' <;> simp [h']
  · rename_i h
    simp [h]

/-- The OP of a word that decodes is the OP of the command's own word. -/
theorem fieldOp_of_decodeOp {w : Word} {i : Instr} (h : decodeOp w = some i) : fieldOp w = fieldOp (encode i) := by
  unfold decodeOp at h
  split at h
  case h_34 => cases h
  all_goals
    rename_i ho
    cases h
    rw [ho, encode, fieldOp_packFields _ _ _ _ _ _ (by decide)]

theorem hasOp_of_decode {w : Word} {i : Instr} (h : decode w = .ok i) : HasOp (BitVec.ofNat 6 (fieldOp (encode i))) w := by
  obtain ⟨h1, h2⟩ := decode_eq_ok.1 h
  obtain ⟨h3, h4⟩ := (reservedClear_iff w).1 h1
  refine ⟨?_, h3, h4⟩
  rw [← fieldOp_of_decodeOp h2, fieldOp_eq, BitVec.ofNat_toNat, BitVec.setWidth_eq]

end Sys2Proof.Machine
end

