-- ==== Sys2Proof/Laws/Frame.lean ====
section
/-! SUPPORT. Everything the two command frames can do, said once, and that every meaning is one of the two. -/

namespace Sys2Proof.Machine

/-! ## The frame of a command that draws no byte -/

theorem runCommand_check {check : Option ErrCode} {c : ErrCode} (body : Except ErrCode Effect) (s : State)
    (h : check = some c) : runCommand check body s = .next (s.raiseError c) := by
  subst h; rfl

theorem runCommand_error {check : Option ErrCode} {body : Except ErrCode Effect} {c : ErrCode} (s : State)
    (h : check = none) (hb : body = .error c) : runCommand check body s = .next (s.raiseError c) := by
  subst h hb; rfl

theorem runCommand_ok {check : Option ErrCode} {body : Except ErrCode Effect} {e : Effect} (s : State)
    (h : check = none) (hb : body = .ok e) : runCommand check body s = .next (s.finish e) := by
  subst h hb; rfl

/-- The frame answers a next state: the error entry, or the completion of a success. -/
theorem runCommand_cases {check : Option ErrCode} {body : Except ErrCode Effect} {s t : State}
    (h : runCommand check body s = .next t) :
    (∃ c, (check = some c ∨ check = none ∧ body = .error c) ∧ t = s.raiseError c) ∨
    (∃ e, check = none ∧ body = .ok e ∧ t = s.finish e) := by
  cases check with
  | some c => exact .inl ⟨c, .inl rfl, (Host.Outcome.next.inj h).symm⟩
  | none =>
    cases body with
    | error c => exact .inl ⟨c, .inr ⟨rfl, rfl⟩, (Host.Outcome.next.inj h).symm⟩
    | ok e => exact .inr ⟨e, rfl, rfl, (Host.Outcome.next.inj h).symm⟩

/-! ## The frame of a command that draws bytes -/

theorem runDrawing_check {check : Option ErrCode} {c : ErrCode} (draw : Draw) (s : State) (h : check = some c) :
    runDrawing check draw s = .next (s.raiseError c) := by
  subst h; rfl

theorem runDrawing_starve {check : Option ErrCode} {draw : Draw} {s : State} (h : check = none)
    (hd : draw s.supply = none) : runDrawing check draw s = .next s.starve := by
  subst h; simp only [runDrawing, hd]

theorem runDrawing_ok {check : Option ErrCode} {draw : Draw} {s : State} {r0 r1 : Word} {rest : List Byte}
    (h : check = none) (hd : draw s.supply = some (r0, r1, rest)) :
    runDrawing check draw s =
      .next ((s.takeBytes (s.supply.length - rest.length - s.drawn.length)).finish
        { mem := s.mem, results := some (r0, r1) }) := by
  subst h; simp only [runDrawing, hd]

/-- The frame answers a next state: the error entry before any draw, a wait, or the completion of a success. -/
theorem runDrawing_cases {check : Option ErrCode} {draw : Draw} {s t : State} (h : runDrawing check draw s = .next t) :
    (∃ c, check = some c ∧ t = s.raiseError c) ∨
    (check = none ∧ draw s.supply = none ∧ t = s.starve) ∨
    (∃ r0 r1 rest, check = none ∧ draw s.supply = some (r0, r1, rest) ∧
      t = (s.takeBytes (s.supply.length - rest.length - s.drawn.length)).finish
        { mem := s.mem, results := some (r0, r1) }) := by
  cases check with
  | some c => exact .inl ⟨c, rfl, (Host.Outcome.next.inj h).symm⟩
  | none =>
    rcases hd : draw s.supply with _ | ⟨r0, r1, rest⟩
    · rw [runDrawing_starve rfl hd] at h
      exact .inr (.inl ⟨rfl, rfl, (Host.Outcome.next.inj h).symm⟩)
    · rw [runDrawing_ok rfl hd] at h
      exact .inr (.inr ⟨r0, r1, rest, rfl, rfl, (Host.Outcome.next.inj h).symm⟩)

/-! ## The ways a command ends, in the claims' terms -/

theorem State.failsWith_raiseError (s : State) (c : ErrCode) : s.FailsWith c (s.raiseError c) := rfl

theorem State.succeeds_finish (s : State) (m : Memory) :
    s.Succeeds (s.finish { mem := m, results := none }) := rfl

theorem State.succeedsWith_finish (s : State) (m : Memory) (r0 r1 : Word) :
    s.SucceedsWith r0 r1 (s.finish { mem := m, results := some (r0, r1) }) := rfl

theorem State.waitsForByte_starve (s : State) : s.WaitsForByte s.starve := rfl

theorem State.drewAndSucceeds_finish {s : State} {k n : Nat} (r0 r1 : Word) (h : n - s.drawn.length = k) :
    s.DrewAndSucceeds n r0 r1 ((s.takeBytes k).finish { mem := s.mem, results := some (r0, r1) }) := by
  subst h; rfl

/-! ## No check and no body raises the code NONE -/

theorem lenCheck_ne (c : LenClass) (n : Nat) : lenCheck c n ≠ some .none := by
  unfold lenCheck; split <;> simp

theorem splitCheck_ne (a b : Bank) : splitCheck a b ≠ some .none := by
  unfold splitCheck; split <;> simp

theorem byteCountCheck_ne (n : BitVec 12) : byteCountCheck n ≠ some .none := by
  unfold byteCountCheck; split <;> simp

theorem domainCheck_ne (b : Bool) : domainCheck b ≠ some .none := by
  unfold domainCheck; split <;> simp

theorem or_check_ne {a b : Option ErrCode} (ha : a ≠ some .none) (hb : b ≠ some .none) : a.or b ≠ some .none := by
  cases a with
  | none => simpa using hb
  | some c => simpa using ha

theorem divideq_error {a b : List Nat} {c : ErrCode} (h : divideq a b = .error c) : c = .noInverse := by
  unfold divideq at h
  split at h
  · exact (Except.error.inj h).symm
  · cases h

theorem compress_error {s : State} {v : List Int} {b : Nat} {c : ErrCode} (h : compress s v b = .error c) :
    c = .budgetExceeded := by
  simp only [compress] at h
  split at h
  · exact (Except.error.inj h).symm
  · cases h

theorem signedMagnitude_error {g : Bool} {low u : Nat} {c : ErrCode} (h : signedMagnitude g low u = .error c) :
    c = .malformed := by
  unfold signedMagnitude at h
  extract_lets m v at h
  split at h
  · exact (Except.error.inj h).symm
  · split at h
    · exact (Except.error.inj h).symm
    · cases h

theorem decodeCoeff_error {bits : List Bool} {c : ErrCode} (h : decodeCoeff bits = .error c) :
    c = .truncated ∨ c = .malformed := by
  unfold decodeCoeff at h
  split at h
  · split at h
    · exact .inl (Except.error.inj h).symm
    · rename_i u rest _
      rcases hm : signedMagnitude _ _ u with e | v
      · rw [hm] at h
        right
        rw [← Except.error.inj (h : Except.error e = Except.error c)]
        exact signedMagnitude_error hm
      · rw [hm] at h
        cases h
  · exact .inl (Except.error.inj h).symm

theorem decodeAll_error {n : Nat} {bits : List Bool} {c : ErrCode} (h : decodeAll n bits = .error c) :
    c = .truncated ∨ c = .malformed := by
  induction n generalizing bits with
  | zero => cases h
  | succ n ih =>
    unfold decodeAll at h
    split at h
    · rename_i e he
      rw [← Except.error.inj h]
      exact decodeCoeff_error he
    · split at h
      · rename_i e he
        exact ih (he.trans h)
      · cases h

theorem decompress_error {s : State} {rd : Bank} {n b i : Nat} {c : ErrCode} (h : decompress s rd n b i = .error c) :
    c = .budgetExceeded ∨ c = .truncated ∨ c = .malformed := by
  unfold decompress at h
  split at h
  · exact .inl (Except.error.inj h).symm
  · rcases hd : decodeAll n (unpackBits (s.bufBytes i)) with e | r
    · rw [hd] at h
      right
      rw [← Except.error.inj (h : Except.error e = Except.error c)]
      exact decodeAll_error hd
    · rw [hd] at h
      cases h

/-- Mapping a body that can only fail in given ways keeps them. -/
theorem map_error {α β : Type} {x : Except ErrCode α} {f : α → β} {c : ErrCode} (h : x.map f = .error c) :
    x = .error c := by
  cases x with
  | error e => exact congrArg _ (Except.error.inj (h : Except.error e = Except.error c))
  | ok v => cases h

/-! ## Every meaning is one of the two frames -/

/-- What a command's meaning is: a frame, with checks and a body that never raise the code NONE. -/
theorem exec_frame (i : Instr) (s : State) :
    (∃ check body, commandDraw s i = none ∧ exec i s = runCommand check body s ∧
      check ≠ some .none ∧ body ≠ .error .none) ∨
    (∃ check draw, commandDraw s i = some draw ∧ exec i s = runDrawing check draw s ∧ check ≠ some .none) := by
  have hd : ∀ {a b : List Nat} {f : List Nat → Effect}, (divideq a b).map f ≠ .error .none := fun h => by
    cases divideq_error (map_error h)
  cases i with
  | gbase => exact .inr ⟨none, _, rfl, rfl, nofun⟩
  | gber => exact .inr ⟨domainCheck _, _, rfl, rfl, domainCheck_ne _⟩
  | gsamp => exact .inr ⟨domainCheck _, _, rfl, rfl, domainCheck_ne _⟩
  | nop => exact .inl ⟨none, .ok _, rfl, rfl, nofun, nofun⟩
  | gexp => exact .inl ⟨domainCheck _, .ok _, rfl, rfl, domainCheck_ne _, nofun⟩
  | fsplit rd re =>
    exact .inl ⟨(lenCheck .S _).or (splitCheck rd re), .ok _, rfl, rfl, or_check_ne (lenCheck_ne _ _) (splitCheck_ne _ _), nofun⟩
  | zsplit rd re =>
    exact .inl ⟨(lenCheck .S _).or (splitCheck rd re), .ok _, rfl, rfl, or_check_ne (lenCheck_ne _ _) (splitCheck_ne _ _), nofun⟩
  | fsplitt rd re =>
    exact .inl ⟨(lenCheck .T _).or (splitCheck rd re), .ok _, rfl, rfl, or_check_ne (lenCheck_ne _ _) (splitCheck_ne _ _), nofun⟩
  | zsplitt rd re =>
    exact .inl ⟨(lenCheck .T _).or (splitCheck rd re), .ok _, rfl, rfl, or_check_ne (lenCheck_ne _ _) (splitCheck_ne _ _), nofun⟩
  | zdivn => exact .inl ⟨lenCheck .P _, Except.map _ _, rfl, rfl, lenCheck_ne _ _, hd⟩
  | zdiv => exact .inl ⟨lenCheck .T _, Except.map _ _, rfl, rfl, lenCheck_ne _ _, hd⟩
  | cmpr =>
    exact .inl ⟨(lenCheck .C _).or (byteCountCheck _), compress _ _ _, rfl, rfl,
      or_check_ne (lenCheck_ne _ _) (byteCountCheck_ne _), fun h => nomatch compress_error h⟩
  | dcmp =>
    refine .inl ⟨(lenCheck .C _).or ((byteCountCheck _).or (byteCountCheck _)), decompress _ _ _ _ _, rfl, rfl,
      or_check_ne (lenCheck_ne _ _) (or_check_ne (byteCountCheck_ne _) (byteCountCheck_ne _)), fun h => ?_⟩
    rcases decompress_error h with h | h | h <;> cases h
  | _ => exact .inl ⟨lenCheck _ _, .ok _, rfl, rfl, lenCheck_ne _ _, nofun⟩

/-- Everything a command can do, said once. -/
theorem exec_cases {i : Instr} {s t : State} (h : exec i s = .next t) :
    (∃ c, c ≠ .none ∧ t = s.raiseError c) ∨
    (∃ e, commandDraw s i = none ∧ t = s.finish e) ∨
    (∃ draw, commandDraw s i = some draw ∧ draw s.supply = none ∧ t = s.starve) ∨
    (∃ draw r0 r1 rest, commandDraw s i = some draw ∧ draw s.supply = some (r0, r1, rest) ∧
      t = (s.takeBytes (s.supply.length - rest.length - s.drawn.length)).finish
        { mem := s.mem, results := some (r0, r1) }) := by
  rcases exec_frame i s with ⟨check, body, hw, he, hc, hb⟩ | ⟨check, draw, hw, he, hc⟩
  · rw [he] at h
    rcases runCommand_cases h with ⟨c, hcb, rfl⟩ | ⟨e, -, -, rfl⟩
    · refine .inl ⟨c, fun e => ?_, rfl⟩
      subst e
      rcases hcb with hcb | ⟨-, hcb⟩
      · exact hc hcb
      · exact hb hcb
    · exact .inr (.inl ⟨e, hw, rfl⟩)
  · rw [he] at h
    rcases runDrawing_cases h with ⟨c, hcc, rfl⟩ | ⟨-, hn, rfl⟩ | ⟨r0, r1, rest, -, hs, rfl⟩
    · refine .inl ⟨c, fun e => ?_, rfl⟩
      subst e
      exact hc hcc
    · exact .inr (.inr (.inl ⟨draw, hw, hn, rfl⟩))
    · exact .inr (.inr (.inr ⟨draw, r0, r1, rest, hw, hs, rfl⟩))

end Sys2Proof.Machine
end

