-- ==== Sys2Proof/Laws/Operands.lean ====
section
/-! SUPPORT. What the checks of the check phase decide, as arithmetic; and how a command whose checks are known ends. -/

namespace Sys2Proof.Machine

/-- The class of power-of-two lengths is the list of rule R84. -/
theorem LenClass.legal_T_iff (n : Nat) : LenClass.T.legal n = true ↔ n ∈ transformLens := by
  constructor
  · intro h
    simp only [LenClass.legal, Bool.and_eq_true, decide_eq_true_eq, beq_iff_eq] at h
    obtain ⟨⟨h2, hm⟩, he⟩ := h
    have hl : Nat.log2 n ≤ 10 := by
      by_contra hc
      have : 2 ^ 11 ≤ 2 ^ Nat.log2 n := Nat.pow_le_pow_right (by decide) (by omega)
      rw [he] at this
      have : Config.nMax = 1024 := rfl
      omega
    have h1 : 1 ≤ Nat.log2 n := by
      by_contra hc
      have h0 : Nat.log2 n = 0 := by omega
      rw [h0] at he
      omega
    rw [← he]
    revert h1 hl
    generalize Nat.log2 n = k
    intro hl h1
    interval_cases k <;> decide
  · intro h
    simp only [transformLens, List.mem_cons, List.not_mem_nil, or_false] at h
    rcases h with h | h | h | h | h | h | h | h | h | h <;> subst h <;> decide

theorem LenClass.legal_P_iff (n : Nat) : LenClass.P.legal n = true ↔ 1 ≤ n ∧ n ≤ 1024 := by
  have : Config.nMax = 1024 := rfl
  simp only [LenClass.legal, Bool.and_eq_true, decide_eq_true_eq]
  omega

theorem LenClass.legal_M_iff (n : Nat) : LenClass.M.legal n = true ↔ 1 ≤ n ∧ n ≤ 1024 := by
  have : Config.nMax = 1024 := rfl
  simp only [LenClass.legal, Bool.and_eq_true, decide_eq_true_eq]
  omega

theorem LenClass.legal_S_iff (n : Nat) : LenClass.S.legal n = true ↔ n % 2 = 0 ∧ 2 ≤ n ∧ n ≤ 1024 := by
  have : Config.nMax = 1024 := rfl
  simp only [LenClass.legal, Bool.and_eq_true, decide_eq_true_eq, beq_iff_eq]
  omega

theorem LenClass.legal_C_iff (n : Nat) : LenClass.C.legal n = true ↔ n ≤ 1024 := by
  have : Config.nMax = 1024 := rfl
  simp only [LenClass.legal, decide_eq_true_eq]
  omega

theorem lenCheck_none {c : LenClass} {n : Nat} (h : c.legal n = true) : lenCheck c n = none := by
  simp [lenCheck, h]

theorem lenCheck_some {c : LenClass} {n : Nat} (h : ¬c.legal n = true) : lenCheck c n = some .badLen := by
  simp [lenCheck, h]

theorem splitCheck_none {a b : Bank} (h : a ≠ b) : splitCheck a b = none := by simp [splitCheck, h]

theorem splitCheck_some {a b : Bank} (h : ¬a ≠ b) : splitCheck a b = some .badOperand := by
  simp only [ne_eq, not_not] at h
  simp [splitCheck, h]

theorem byteCountCheck_none {n : BitVec 12} (h : n.toNat ≤ 2048) : byteCountCheck n = none := by
  exact if_pos h

theorem byteCountCheck_some {n : BitVec 12} (h : 2048 < n.toNat) : byteCountCheck n = some .badOperand := by
  exact if_neg (Nat.not_le.2 h)

/-- A legal transform length is even, at least 2 and at most 1024, and halving it gives 1 or a legal length again. -/
theorem transformLens_bounds {n : Nat} (h : n ∈ transformLens) : n % 2 = 0 ∧ 2 ≤ n ∧ n ≤ 1024 := by
  revert n; decide

/-- The level of a legal transform length. -/
theorem transformLens_level {n : Nat} (h : n ∈ transformLens) : ∃ k, k ≤ 9 ∧ n = 2 ^ (k + 1) ∧ levelOf n = k := by
  simp only [transformLens, List.mem_cons, List.not_mem_nil, or_false] at h
  rcases h with h | h | h | h | h | h | h | h | h | h <;> subst h
  exacts [⟨0, by decide⟩, ⟨1, by decide⟩, ⟨2, by decide⟩, ⟨3, by decide⟩, ⟨4, by decide⟩, ⟨5, by decide⟩, ⟨6, by decide⟩,
    ⟨7, by decide⟩, ⟨8, by decide⟩, ⟨9, by decide⟩]

end Sys2Proof.Machine
end

