-- ==== Sys2Proof/Laws/Wrote.lean ====
section
/-! SUPPORT. What the outputs of a command leave in memory, in the claims' terms. -/

namespace Sys2Proof.Machine

theorem State.wroteNothing_of {s t : State} (hm : t.mem = s.mem) (hr : t.resets = s.resets) : s.WroteNothing t :=
  fun _ => State.byteAt_congr (by rw [hm]) hr

theorem State.wroteF_of {s t : State} {b : Bank} {n : Nat} {vs : List Cplx} (hm : t.mem = Memory.writeF b s.mem 0 vs)
    (hr : t.resets = s.resets) (hn : vs.length = n) : s.WroteF b n vs t := by
  subst hn
  refine ⟨List.ext_getElem (by simp) fun i h1 h2 => ?_, fun a ha => State.byteAt_writeF_outside hm hr a ha⟩
  rw [State.fEntries_getElem]
  exact State.fEntry_writeF_same hm i h2

theorem State.wroteZ_of {s t : State} {b : Bank} {n : Nat} {vs : List Half} (hm : t.mem = Memory.writeZ b s.mem 0 vs)
    (hr : t.resets = s.resets) (hn : vs.length = n) : s.WroteZ b n vs t := by
  subst hn
  refine ⟨List.ext_getElem (by simp) fun i h1 h2 => ?_, fun a ha => State.byteAt_writeZ_outside hm hr a fun i hi => ?_⟩
  · rw [State.zEntries_getElem]
    exact State.zEntry_writeZ_same hm i h2
  · have := ha i hi
    omega

theorem State.wroteFF_of {s t : State} {b c : Bank} {n : Nat} {vs ws : List Cplx} (hbc : b ≠ c) (hl : n ≤ 1024)
    (hm : t.mem = Memory.writeF c (Memory.writeF b s.mem 0 vs) 0 ws) (hr : t.resets = s.resets)
    (hv : vs.length = n) (hw : ws.length = n) : s.WroteFF b c n vs ws t := by
  let u : State := { s with mem := Memory.writeF b s.mem 0 vs }
  have h1 : s.WroteF b n vs u := State.wroteF_of rfl rfl hv
  have h2 : u.WroteF c n ws t := State.wroteF_of hm hr hw
  refine ⟨?_, h2.1, fun a ha hc => (h2.2 a hc).trans (h1.2 a ha)⟩
  rw [← h1.1]
  refine List.map_congr_left fun i hi => ?_
  have hi' := List.mem_range.1 hi
  exact State.fEntry_writeF_other (s := u) hm hr i hbc (by omega) (by omega)

theorem State.wroteZZ_of {s t : State} {b c : Bank} {n : Nat} {vs ws : List Half} (hbc : b ≠ c) (hl : n ≤ 1024)
    (hm : t.mem = Memory.writeZ c (Memory.writeZ b s.mem 0 vs) 0 ws) (hr : t.resets = s.resets)
    (hv : vs.length = n) (hw : ws.length = n) : s.WroteZZ b c n vs ws t := by
  let u : State := { s with mem := Memory.writeZ b s.mem 0 vs }
  have h1 : s.WroteZ b n vs u := State.wroteZ_of rfl rfl hv
  have h2 : u.WroteZ c n ws t := State.wroteZ_of hm hr hw
  refine ⟨?_, h2.1, fun a ha hc => (h2.2 a hc).trans (h1.2 a ha)⟩
  rw [← h1.1]
  refine List.map_congr_left fun i hi => ?_
  have hi' := List.mem_range.1 hi
  exact State.zEntry_writeZ_other (s := u) hm hr i hbc (by omega) (by omega)

end Sys2Proof.Machine
end

