-- ==== Sys2Proof/Laws/Command.lean ====
section
/-! SUPPORT. How a command's rule follows from its frame: from what its length class and its operand check accept, and
from what its output leaves in memory. -/

namespace Sys2Proof.Machine

/-- Every command's words look as rules R81 and R85 say. -/
theorem encodedAs (i : Instr) : EncodedAs (BitVec.ofNat 6 (fieldOp (encode i))) i := by
  refine ⟨fun w h => hasOp_of_decode h, fun u rest hr hb hi _ h => ⟨_, ?_, State.failsWith_raiseError _ _⟩⟩
  have hc : reservedClear u.cmd = false := by
    rw [← Bool.not_eq_true, reservedClear_iff]
    exact fun ⟨h1, h2⟩ => h.elim (· h1) (· h2)
  simp [step, State.applyInput, State.engineTurn, hi, hr, hb, decode, hc]

/-- A command of one length class that has no operand check. -/
theorem commandRule_of_len {op : BitVec 6} {i : Instr} {s : State} {lenOk : Prop} {effect : State → Prop}
    {c : LenClass} {n : Nat} {e : Effect} (he : exec i s = runCommand (lenCheck c n) (.ok e) s)
    (ho : BitVec.ofNat 6 (fieldOp (encode i)) = op) (hl : c.legal n = true ↔ lenOk) (hr : e.results = none)
    (hf : lenOk → ∀ t : State, t.mem = e.mem → t.resets = s.resets → effect t) :
    CommandRule op i s lenOk True effect := by
  subst ho
  refine ⟨encodedAs i, fun h => ?_, fun _ h => absurd trivial h, fun h _ => ?_⟩
  · exact ⟨_, he.trans (runCommand_check _ _ (lenCheck_some fun h' => h (hl.1 h'))), s.failsWith_raiseError _⟩
  · refine ⟨_, he.trans (runCommand_ok _ (lenCheck_none (hl.2 h)) rfl), ?_, hf h _ rfl rfl⟩
    obtain ⟨m, r⟩ := e
    subst hr
    exact s.succeeds_finish m

/-- A split command: a length class and the check that its two outputs name two banks. -/
theorem commandRule_of_split {op : BitVec 6} {i : Instr} {s : State} {lenOk : Prop} {effect : State → Prop}
    {c : LenClass} {n : Nat} {rd re : Bank} {e : Effect}
    (he : exec i s = runCommand ((lenCheck c n).or (splitCheck rd re)) (.ok e) s)
    (ho : BitVec.ofNat 6 (fieldOp (encode i)) = op) (hl : c.legal n = true ↔ lenOk) (hr : e.results = none)
    (hf : lenOk → rd ≠ re → ∀ t : State, t.mem = e.mem → t.resets = s.resets → effect t) :
    CommandRule op i s lenOk (rd ≠ re) effect := by
  subst ho
  refine ⟨encodedAs i, fun h => ?_, fun h h' => ?_, fun h h' => ?_⟩
  · exact ⟨_, he.trans (runCommand_check _ _ (by rw [lenCheck_some fun h' => h (hl.1 h'), Option.some_or])),
      s.failsWith_raiseError _⟩
  · exact ⟨_, he.trans (runCommand_check _ _ (by rw [lenCheck_none (hl.2 h), Option.none_or, splitCheck_some h'])),
      s.failsWith_raiseError _⟩
  · refine ⟨_, he.trans (runCommand_ok _ (by rw [lenCheck_none (hl.2 h), Option.none_or, splitCheck_none h']) rfl), ?_,
      hf h h' _ rfl rfl⟩
    obtain ⟨m, r⟩ := e
    subst hr
    exact s.succeeds_finish m

end Sys2Proof.Machine
end

