-- ==== Sys2Proof/Laws/Modular.lean ====
section
/-! SUPPORT. The arithmetic of U3 as arithmetic in ZMod q, the inverse ROM by Fermat's theorem, and the root ROM's
recursion, checked entry by entry. -/

namespace Sys2Proof.Machine

/-- q is prime. -/
theorem q_prime : Nat.Prime Config.q := by
  rw [Config.q]; norm_num

/-- ZMod q as the field U3 computes in. -/
abbrev Zq := ZMod Config.q

/-- q is prime, in the form Mathlib's field lemmas ask for. -/
theorem q_fact : Fact (Nat.Prime Config.q) := ⟨q_prime⟩

theorem addq_lt (a b : Nat) : addq a b < Config.q := Nat.mod_lt _ (by decide)
theorem mulq_lt (a b : Nat) : mulq a b < Config.q := Nat.mod_lt _ (by decide)
theorem subq_lt (a b : Nat) : subq a b < Config.q := by
  have h1 : ((a : Int) - b) % (Config.q : Int) < Config.q := Int.emod_lt_of_pos _ (by decide)
  have h2 : 0 ≤ ((a : Int) - b) % (Config.q : Int) := Int.emod_nonneg _ (by decide)
  unfold subq
  omega

theorem cast_addq (a b : Nat) : ((addq a b : Nat) : Zq) = a + b := by simp [addq]
theorem cast_mulq (a b : Nat) : ((mulq a b : Nat) : Zq) = a * b := by simp [mulq]
theorem cast_subq (a b : Nat) : ((subq a b : Nat) : Zq) = a - b := by
  have h2 : 0 ≤ ((a : Int) - b) % (Config.q : Int) := Int.emod_nonneg _ (by decide)
  have h : ((subq a b : Nat) : Int) = ((a : Int) - b) % (Config.q : Int) := by unfold subq; omega
  have := congrArg (Int.cast : Int → Zq) h
  simpa using this

/-- Two residues below q are equal when they are equal in ZMod q. -/
theorem eq_of_cast_eq {a b : Nat} (ha : a < Config.q) (hb : b < Config.q) (h : (a : Zq) = b) : a = b := by
  have := (ZMod.natCast_eq_natCast_iff a b Config.q).1 h
  exact Nat.ModEq.eq_of_lt_of_lt this ha hb

/-! ## INVROM -/

theorem cast_powq (b fuel e : Nat) (h : e < 2 ^ fuel) : ((powq b fuel e : Nat) : Zq) = (b : Zq) ^ e := by
  induction fuel generalizing e with
  | zero =>
    obtain rfl : e = 0 := by simpa using h
    simp [powq]
  | succ f ih =>
    have h2 : e / 2 < 2 ^ f := by rw [pow_succ] at h; omega
    have hp : (b : Zq) ^ e = (b : Zq) ^ (e / 2) * (b : Zq) ^ (e / 2) * (b : Zq) ^ (e % 2) := by
      rw [← pow_add, ← pow_add]; congr 1; omega
    rw [powq, hp, ← ih _ h2]
    rcases Nat.mod_two_eq_zero_or_one e with he | he <;> simp [he]

theorem powq_lt (b fuel e : Nat) : powq b (fuel + 1) e < Config.q := by
  rw [powq]
  split
  · exact Nat.mod_lt _ (by decide)
  · exact Nat.mod_lt _ (by decide)

theorem invrom_lt (a : Nat) : invrom a < Config.q := by
  unfold invrom
  split
  · decide
  · exact powq_lt a 13 _

/-- INVROM inverts every nonzero residue (rule R165). -/
theorem cast_invrom {a : Nat} (h : (a : Zq) ≠ 0) : ((invrom a : Nat) : Zq) = (a : Zq)⁻¹ := by
  have := q_fact
  have ha : a ≠ 0 := fun e => h (by simp [e])
  rw [invrom, if_neg ha, cast_powq _ _ _ (by decide)]
  refine eq_inv_of_mul_eq_one_left ?_
  rw [← pow_succ]
  exact ZMod.pow_card_sub_one_eq_one h

/-- A residue is nonzero in ZMod q when it is below q and not 0. -/
theorem cast_ne_zero {a : Nat} (h0 : a ≠ 0) (h : a < Config.q) : (a : Zq) ≠ 0 := fun e =>
  h0 (eq_of_cast_eq h (by decide) (by simpa using e))

theorem cast_inv2 : ((inv2 : Nat) : Zq) = 2⁻¹ := by
  have h : ((inv2 : Nat) : Zq) * 2 = 1 := by decide
  have := q_fact
  exact eq_inv_of_mul_eq_one_left h

/-! ## ZROM -/

/-- Rule R163's recursion at every address: the even child is a square root of the entry, below q / 2, and the odd child
its negation. -/
theorem zrom_children : ∀ a < 1024, 2 ≤ a →
    0 < zrom (2 * a) ∧ 2 * zrom (2 * a) < Config.q ∧ zrom (2 * a) ^ 2 % Config.q = zrom a ∧
    zrom (2 * a + 1) = Config.q - zrom (2 * a) := by
  decide +kernel

theorem zrom_two : zrom 2 = 1479 := by decide +kernel

theorem zrom_three : zrom 3 = 10810 := by decide +kernel

/-- Every entry of ZROM is a nonzero residue. -/
theorem zrom_pos_lt {a : Nat} (h2 : 2 ≤ a) (h : a < 2048) : 0 < zrom a ∧ zrom a < Config.q := by
  by_cases h3 : a < 4
  · obtain rfl | rfl : a = 2 ∨ a = 3 := by omega
    · rw [zrom_two]; decide
    · rw [zrom_three]; decide
  · have hc := zrom_children (a / 2) (by omega) (by omega)
    rcases Nat.mod_two_eq_zero_or_one a with he | he
    · rw [show 2 * (a / 2) = a by omega] at hc; omega
    · rw [show 2 * (a / 2) + 1 = a by omega] at hc; omega

theorem cast_zrom_ne_zero {a : Nat} (h2 : 2 ≤ a) (h : a < 2048) : ((zrom a : Nat) : Zq) ≠ 0 :=
  cast_ne_zero (zrom_pos_lt h2 h).1.ne' (zrom_pos_lt h2 h).2

theorem cast_zrom_even {a : Nat} (h2 : 2 ≤ a) (h : a < 1024) : ((zrom (2 * a) : Nat) : Zq) ^ 2 = (zrom a : Zq) := by
  have := congrArg (Nat.cast : Nat → Zq) (zrom_children a h h2).2.2.1
  simpa using this

theorem cast_zrom_odd {a : Nat} (h2 : 2 ≤ a) (h : a < 1024) :
    ((zrom (2 * a + 1) : Nat) : Zq) = -((zrom (2 * a) : Nat) : Zq) := by
  have hc := zrom_children a h h2
  rw [hc.2.2.2, Nat.cast_sub (by omega), ZMod.natCast_self, zero_sub]

/-! ## The pieces of the transform -/

theorem nttBase_lt (x y : Nat) : (nttBase x y).1 < Config.q ∧ (nttBase x y).2 < Config.q :=
  ⟨addq_lt _ _, subq_lt _ _⟩

theorem nttFly_lt (a x y : Nat) : (nttFly a x y).1 < Config.q ∧ (nttFly a x y).2 < Config.q :=
  ⟨addq_lt _ _, subq_lt _ _⟩

theorem nttBaseInv_lt (x y : Nat) : (nttBaseInv x y).1 < Config.q ∧ (nttBaseInv x y).2 < Config.q :=
  ⟨mulq_lt _ _, mulq_lt _ _⟩

theorem nttFlyInv_lt (a x y : Nat) : (nttFlyInv a x y).1 < Config.q ∧ (nttFlyInv a x y).2 < Config.q :=
  ⟨mulq_lt _ _, mulq_lt _ _⟩

theorem two_ne_zero_q : (2 : Zq) ≠ 0 := by decide

theorem nttFlyInv_nttFly {a x y : Nat} (h2 : 2 ≤ a) (h : a < 2048) (hx : x < Config.q) (hy : y < Config.q) :
    nttFlyInv a (nttFly a x y).1 (nttFly a x y).2 = (x, y) := by
  have := q_fact
  have hw := cast_zrom_ne_zero h2 h
  have ht := two_ne_zero_q
  refine Prod.ext (eq_of_cast_eq (nttFlyInv_lt _ _ _).1 hx ?_) (eq_of_cast_eq (nttFlyInv_lt _ _ _).2 hy ?_)
  · simp only [nttFlyInv, nttFly, cast_mulq, cast_addq, cast_subq, cast_inv2]
    field_simp
    ring
  · simp only [nttFlyInv, nttFly, cast_mulq, cast_addq, cast_subq, cast_inv2, cast_invrom hw]
    field_simp
    ring

theorem nttFly_nttFlyInv {a x y : Nat} (h2 : 2 ≤ a) (h : a < 2048) (hx : x < Config.q) (hy : y < Config.q) :
    nttFly a (nttFlyInv a x y).1 (nttFlyInv a x y).2 = (x, y) := by
  have := q_fact
  have hw := cast_zrom_ne_zero h2 h
  have ht := two_ne_zero_q
  refine Prod.ext (eq_of_cast_eq (nttFly_lt _ _ _).1 hx ?_) (eq_of_cast_eq (nttFly_lt _ _ _).2 hy ?_)
  · simp only [nttFlyInv, nttFly, cast_mulq, cast_addq, cast_subq, cast_inv2, cast_invrom hw]
    field_simp
    ring
  · simp only [nttFlyInv, nttFly, cast_mulq, cast_addq, cast_subq, cast_inv2, cast_invrom hw]
    field_simp
    ring

theorem nttBaseInv_nttBase {x y : Nat} (hx : x < Config.q) (hy : y < Config.q) :
    nttBaseInv (nttBase x y).1 (nttBase x y).2 = (x, y) := by
  have := q_fact
  have hw := cast_zrom_ne_zero (a := 2) (by decide) (by decide)
  have ht := two_ne_zero_q
  refine Prod.ext (eq_of_cast_eq (nttBaseInv_lt _ _).1 hx ?_) (eq_of_cast_eq (nttBaseInv_lt _ _).2 hy ?_)
  · simp only [nttBaseInv, nttBase, cast_mulq, cast_addq, cast_subq, cast_inv2]
    field_simp
    ring
  · simp only [nttBaseInv, nttBase, cast_mulq, cast_addq, cast_subq, cast_inv2, cast_invrom hw]
    field_simp
    ring

/-- Every value of a transform, forward or inverse, is a canonical residue (rule R161). -/
theorem ntt_lt (n : Nat) (f : List Nat) : ∀ v ∈ ntt n f, v < Config.q :=
  forall_mem_transform nttBase_lt nttFly_lt _ f

end Sys2Proof.Machine
end

