-- ==== Sys2Proof/Laws/PerInstr.lean ====
section
/-! SUPPORT. A statement for each instruction: the fields of the word it assembles to. -/

namespace Sys2Proof.Laws.EncodeFields

/-- A number packed from fields that fit has the field OP in its low six bits, clear reserved bits, and LEN where rule
R81 puts it. -/
theorem packFields_fields {op : Nat} {rd ra rb re : Bank} {n : Nat} (ho : op < 64) (hn : n < 2048) :
    fieldOp (packFields op rd ra rb re n) = op ∧ reservedClear (packFields op rd ra rb re n) = true ∧
    fieldLen (packFields op rd ra rb re n) = n := by
  obtain ⟨d, hd⟩ := rd
  obtain ⟨a, ha⟩ := ra
  obtain ⟨b, hb⟩ := rb
  obtain ⟨e, he⟩ := re
  simp only [fieldOp, reservedClear, fieldLen, packFields, BitVec.toNat_ofNat, Bool.and_eq_true, beq_iff_eq]
  omega

/-- The word of a well-formed command has clear reserved bits and carries the command's LEN (rules R81, R85, R91). -/
def Statement (i : Instr) : Prop :=
  i.wf = true → reservedClear (encode i) = true ∧ fieldLen (encode i) = i.lenField

theorem nop : Statement .nop := fun _ => (packFields_fields (by decide) (by decide)).2
theorem fsplit (rd re ra : Bank) (len : Nat) : Statement (.fsplit rd re ra len) := fun h =>
  (packFields_fields (by decide) (of_decide_eq_true h)).2
theorem fmerge (rd ra rb : Bank) (len : Nat) : Statement (.fmerge rd ra rb len) := fun h =>
  (packFields_fields (by decide) (of_decide_eq_true h)).2
theorem zsplit (rd re ra : Bank) (len : Nat) : Statement (.zsplit rd re ra len) := fun h =>
  (packFields_fields (by decide) (of_decide_eq_true h)).2
theorem zmerge (rd ra rb : Bank) (len : Nat) : Statement (.zmerge rd ra rb len) := fun h =>
  (packFields_fields (by decide) (of_decide_eq_true h)).2
theorem fft (rd ra : Bank) (len : Nat) : Statement (.fft rd ra len) := fun h =>
  (packFields_fields (by decide) (of_decide_eq_true h)).2
theorem ifft (rd ra : Bank) (len : Nat) : Statement (.ifft rd ra len) := fun h =>
  (packFields_fields (by decide) (of_decide_eq_true h)).2
theorem fsplitt (rd re ra : Bank) (len : Nat) : Statement (.fsplitt rd re ra len) := fun h =>
  (packFields_fields (by decide) (of_decide_eq_true h)).2
theorem fmerget (rd ra rb : Bank) (len : Nat) : Statement (.fmerget rd ra rb len) := fun h =>
  (packFields_fields (by decide) (of_decide_eq_true h)).2
theorem fadd (rd ra rb : Bank) (len : Nat) : Statement (.fadd rd ra rb len) := fun h =>
  (packFields_fields (by decide) (of_decide_eq_true h)).2
theorem fsub (rd ra rb : Bank) (len : Nat) : Statement (.fsub rd ra rb len) := fun h =>
  (packFields_fields (by decide) (of_decide_eq_true h)).2
theorem fmulf (rd ra rb : Bank) (len : Nat) : Statement (.fmulf rd ra rb len) := fun h =>
  (packFields_fields (by decide) (of_decide_eq_true h)).2
theorem fdivf (rd ra rb : Bank) (len : Nat) : Statement (.fdivf rd ra rb len) := fun h =>
  (packFields_fields (by decide) (of_decide_eq_true h)).2
theorem fadjf (rd ra : Bank) (len : Nat) : Statement (.fadjf rd ra len) := fun h =>
  (packFields_fields (by decide) (of_decide_eq_true h)).2
theorem fmul (rd ra rb : Bank) (len : Nat) : Statement (.fmul rd ra rb len) := fun h =>
  (packFields_fields (by decide) (of_decide_eq_true h)).2
theorem fdiv (rd ra rb : Bank) (len : Nat) : Statement (.fdiv rd ra rb len) := fun h =>
  (packFields_fields (by decide) (of_decide_eq_true h)).2
theorem fadj (rd ra : Bank) (len : Nat) : Statement (.fadj rd ra len) := fun h =>
  (packFields_fields (by decide) (of_decide_eq_true h)).2
theorem ntt (rd ra : Bank) (len : Nat) : Statement (.ntt rd ra len) := fun h =>
  (packFields_fields (by decide) (of_decide_eq_true h)).2
theorem intt (rd ra : Bank) (len : Nat) : Statement (.intt rd ra len) := fun h =>
  (packFields_fields (by decide) (of_decide_eq_true h)).2
theorem zsplitt (rd re ra : Bank) (len : Nat) : Statement (.zsplitt rd re ra len) := fun h =>
  (packFields_fields (by decide) (of_decide_eq_true h)).2
theorem zmerget (rd ra rb : Bank) (len : Nat) : Statement (.zmerget rd ra rb len) := fun h =>
  (packFields_fields (by decide) (of_decide_eq_true h)).2
theorem zadd (rd ra rb : Bank) (len : Nat) : Statement (.zadd rd ra rb len) := fun h =>
  (packFields_fields (by decide) (of_decide_eq_true h)).2
theorem zsub (rd ra rb : Bank) (len : Nat) : Statement (.zsub rd ra rb len) := fun h =>
  (packFields_fields (by decide) (of_decide_eq_true h)).2
theorem zmuln (rd ra rb : Bank) (len : Nat) : Statement (.zmuln rd ra rb len) := fun h =>
  (packFields_fields (by decide) (of_decide_eq_true h)).2
theorem zdivn (rd ra rb : Bank) (len : Nat) : Statement (.zdivn rd ra rb len) := fun h =>
  (packFields_fields (by decide) (of_decide_eq_true h)).2
theorem zmul (rd ra rb : Bank) (len : Nat) : Statement (.zmul rd ra rb len) := fun h =>
  (packFields_fields (by decide) (of_decide_eq_true h)).2
theorem zdiv (rd ra rb : Bank) (len : Nat) : Statement (.zdiv rd ra rb len) := fun h =>
  (packFields_fields (by decide) (of_decide_eq_true h)).2
theorem gbase : Statement .gbase := fun _ => (packFields_fields (by decide) (by decide)).2
theorem gexp : Statement .gexp := fun _ => (packFields_fields (by decide) (by decide)).2
theorem gber : Statement .gber := fun _ => (packFields_fields (by decide) (by decide)).2
theorem gsamp : Statement .gsamp := fun _ => (packFields_fields (by decide) (by decide)).2
theorem cmpr (ra : Bank) (len : Nat) : Statement (.cmpr ra len) := fun h =>
  (packFields_fields (by decide) (of_decide_eq_true h)).2
theorem dcmp (rd : Bank) (len : Nat) : Statement (.dcmp rd len) := fun h =>
  (packFields_fields (by decide) (of_decide_eq_true h)).2

end Sys2Proof.Laws.EncodeFields
end

