-- ==== Sys2Proof/Laws/Transform.lean ====
section
/-! SUPPORT. The lengths of what the transforms of U2 and U3 give, at the transform lengths. -/

namespace Sys2Proof.Machine

variable {α : Type}

theorem transform_lens (u : Radix2 α) {n : Nat} {f : List α} (hn : n ∈ transformLens) (h : f.length = n) :
    (transform u (levelOf n) f).length = n := by
  obtain ⟨k, -, rfl, hk⟩ := transformLens_level hn
  rw [hk]
  exact transform_length u k f h

theorem inverseTransform_lens (u : Radix2 α) {n : Nat} {f : List α} (hn : n ∈ transformLens) (h : f.length = n) :
    (inverseTransform u (levelOf n) f).length = n := by
  obtain ⟨k, -, rfl, hk⟩ := transformLens_level hn
  rw [hk]
  exact inverseTransform_length u k f h

theorem mergePass_half (fly : Nat → α → α → α × α) (a : Nat) {n : Nat} {x y : List α} (hn : n ∈ transformLens)
    (hx : x.length = n / 2) (hy : y.length = n / 2) : (mergePass fly a x y).length = n := by
  have := transformLens_bounds hn
  rw [mergePass_length _ _ _ _ (hx.trans hy.symm), hx]
  omega

theorem splitPass_half (flyInv : Nat → α → α → α × α) (a : Nat) {n : Nat} {l : List α} (h : l.length = n) :
    (splitPass flyInv a l).1.length = n / 2 ∧ (splitPass flyInv a l).2.length = n / 2 := by
  subst h
  exact splitPass_length flyInv a l

theorem interleave_halves {n : Nat} {a b : List α} (ha : a.length = (n + 1) / 2) (hb : b.length = n / 2) :
    (interleave a b).length = n := by
  rw [interleave_length, ha, hb]
  omega

end Sys2Proof.Machine
end

