-- ==== Sys2Proof/Laws/Sound.lean ====
section
/-! SUPPORT. Every memory operation, every host write and every command keep the memory in its canonical form and list
only bytes that exist; and which bytes a command writes. -/

namespace Sys2Proof.Machine

/-- A memory in canonical form that lists only bytes that exist (rules R61, R66, R78). -/
structure Memory.Sound (m : Memory) : Prop where
  canonical : m.wf = true
  mapped : ∀ c ∈ m, isRamByte c.1 = true

theorem Memory.sound_writeBytes {m : Memory} {a : Nat} {vs : List Byte} (h : m.Sound)
    (hb : ∀ k, a ≤ k → k < a + vs.length → isRamByte k = true) : (m.writeBytes a vs).Sound :=
  ⟨Memory.wf_writeBytes _ _ h.canonical, fun c hc => by
    rcases Memory.mem_writeBytes hc with ⟨h1, h2⟩ | hc
    · exact hb _ h1 h2
    · exact h.mapped c hc⟩

theorem Memory.sound_writeF {m : Memory} {b : Bank} {vs : List Cplx} (h : m.Sound) (hl : vs.length ≤ 1024) :
    (Memory.writeF b m 0 vs).Sound := by
  rw [Memory.writeF_eq]
  refine Memory.sound_writeBytes h fun k h1 h2 => ?_
  rw [cplxBytes_flatMap_length] at h2
  have := b.isLt
  simp only [fAddr] at h1 h2
  exact isRamByte_f (by omega) (by omega)

theorem Memory.sound_writeZ {m : Memory} {b : Bank} {vs : List Half} (h : m.Sound) (hl : vs.length ≤ 1024) :
    (Memory.writeZ b m 0 vs).Sound :=
  ⟨Memory.wf_writeZ _ _ _ h.canonical, fun c hc => by
    rcases Memory.mem_writeZ hc with ⟨n, hn, h1, h2⟩ | hc
    · have := b.isLt
      simp only [zAddr] at h1 h2
      exact isRamByte_z (by omega) (by omega) (by omega)
    · exact h.mapped c hc⟩

theorem Memory.sound_writeBuf {m : Memory} {bs : List Byte} (h : m.Sound) (hl : bs.length ≤ 2048) :
    (m.writeBuf bs).Sound :=
  Memory.sound_writeBytes h fun k h1 h2 => by
    simp only [bufAddr] at h1 h2
    exact isRamByte_buf (by omega) (by omega)

/-! ## Commands -/

theorem lenCheck_eq_none {c : LenClass} {n : Nat} (h : lenCheck c n = none) : c.legal n = true := by
  by_contra hc
  rw [lenCheck_some hc] at h
  cases h

theorem or_eq_none {a b : Option ErrCode} (h : a.or b = none) : a = none ∧ b = none := by
  cases a with
  | none => exact ⟨rfl, by simpa using h⟩
  | some c => simp at h

theorem byteCountCheck_eq_none {n : BitVec 12} (h : byteCountCheck n = none) : n.toNat ≤ 2048 := by
  by_contra hc
  rw [byteCountCheck_some (by omega)] at h
  cases h

theorem packBits_length (n : Nat) (bits : List Bool) : (packBits n bits).length = n := by
  induction n generalizing bits with
  | zero => rfl
  | succ n ih => simp [packBits, ih]

theorem decodeAll_length {n : Nat} {bits rest : List Bool} {v : List Int} (h : decodeAll n bits = .ok (v, rest)) :
    v.length = n := by
  induction n generalizing bits v rest with
  | zero => cases h; rfl
  | succ n ih =>
    unfold decodeAll at h
    split at h
    · cases h
    · split at h
      · cases h
      · rename_i hd
        cases h
        simp [ih hd]

/-- Memory `m` is that of `s` after nothing, one bank, two banks or the start of BYTEBUF was written, within the bounds of
the bank or of BYTEBUF, and only at bytes in `P`. -/
def State.Leaves (s : State) (P : Nat → Prop) (m : Memory) : Prop :=
  m = s.mem ∨
  (∃ b v, v.length ≤ 1024 ∧ (∀ a, inF b v.length a → P a) ∧ m = Memory.writeF b s.mem 0 v) ∨
  (∃ b v, v.length ≤ 1024 ∧ (∀ a, inZ b v.length a → P a) ∧ m = Memory.writeZ b s.mem 0 v) ∨
  (∃ b c v w, (v.length ≤ 1024 ∧ w.length ≤ 1024) ∧ (∀ a, inF b v.length a ∨ inF c w.length a → P a) ∧
    m = Memory.writeF c (Memory.writeF b s.mem 0 v) 0 w) ∨
  (∃ b c v w, (v.length ≤ 1024 ∧ w.length ≤ 1024) ∧ (∀ a, inZ b v.length a ∨ inZ c w.length a → P a) ∧
    m = Memory.writeZ c (Memory.writeZ b s.mem 0 v) 0 w) ∨
  (∃ bs, bs.length ≤ 2048 ∧ (∀ a, bufAddr 0 ≤ a ∧ a < bufAddr bs.length → P a) ∧ m = s.mem.writeBuf bs)

theorem State.Leaves.sound {s : State} {P : Nat → Prop} {m : Memory} (h : s.Leaves P m) (hs : s.mem.Sound) : m.Sound := by
  rcases h with rfl | ⟨b, v, hl, -, rfl⟩ | ⟨b, v, hl, -, rfl⟩ | ⟨b, c, v, w, hl, -, rfl⟩ | ⟨b, c, v, w, hl, -, rfl⟩ |
    ⟨bs, hl, -, rfl⟩
  · exact hs
  · exact Memory.sound_writeF hs hl
  · exact Memory.sound_writeZ hs hl
  · exact Memory.sound_writeF (Memory.sound_writeF hs hl.1) hl.2
  · exact Memory.sound_writeZ (Memory.sound_writeZ hs hl.1) hl.2
  · exact Memory.sound_writeBuf hs hl

theorem State.Leaves.byteAt {s t : State} {P : Nat → Prop} (h : s.Leaves P t.mem) (hr : t.resets = s.resets) {a : Nat}
    (ha : ¬P a) : t.byteAt a = s.byteAt a := by
  have hF : ∀ {b : Bank} {n : Nat}, ¬inF b n a → a < fAddr b 0 ∨ fAddr b n ≤ a := fun h => by unfold inF at h; omega
  have hZ : ∀ {b : Bank} {n : Nat}, ¬inZ b n a → ∀ i < n, a < zAddr b i ∨ zAddr b i + 2 ≤ a := fun h i hi => by
    by_contra hc
    exact h ⟨i, hi, by omega⟩
  rcases h with hm | ⟨b, v, -, hp, hm⟩ | ⟨b, v, -, hp, hm⟩ | ⟨b, c, v, w, -, hp, hm⟩ | ⟨b, c, v, w, -, hp, hm⟩ |
    ⟨bs, -, hp, hm⟩
  · exact State.byteAt_congr (by rw [hm]) hr
  · exact State.byteAt_writeF_outside hm hr a (hF fun h => ha (hp a h))
  · exact State.byteAt_writeZ_outside hm hr a (hZ fun h => ha (hp a h))
  · exact (State.byteAt_writeF_outside (s := { s with mem := Memory.writeF b s.mem 0 v }) hm hr a
      (hF fun h => ha (hp a (.inr h)))).trans
      (State.byteAt_writeF_outside (s := s) (t := { s with mem := Memory.writeF b s.mem 0 v }) rfl rfl a
        (hF fun h => ha (hp a (.inl h))))
  · exact (State.byteAt_writeZ_outside (s := { s with mem := Memory.writeZ b s.mem 0 v }) hm hr a
      (hZ fun h => ha (hp a (.inr h)))).trans
      (State.byteAt_writeZ_outside (s := s) (t := { s with mem := Memory.writeZ b s.mem 0 v }) rfl rfl a
        (hZ fun h => ha (hp a (.inl h))))
  · refine State.byteAt_congr ?_ hr
    rw [hm, Memory.writeBuf, Memory.read_writeBytes_outside]
    have : ¬(bufAddr 0 ≤ a ∧ a < bufAddr bs.length) := fun h => ha (hp a h)
    simp only [bufAddr] at *
    omega

/-- What memory a command leaves, said once: it writes its destinations up to its output length and nothing else. -/
theorem exec_leaves {i : Instr} {s t : State} (h : exec i s = .next t) : s.Leaves (storesAt s.snap i) t.mem := by
  have frame : ∀ {check body}, exec i s = runCommand check body s →
      (check = none → ∀ e, body = .ok e → s.Leaves (storesAt s.snap i) e.mem) → s.Leaves (storesAt s.snap i) t.mem :=
    fun he hb => by
      rw [he] at h
      rcases runCommand_cases h with ⟨c, -, rfl⟩ | ⟨e, hc, hb', rfl⟩
      · exact .inl rfl
      · exact hb hc e hb'
  have draws : ∀ {check draw}, exec i s = runDrawing check draw s → s.Leaves (storesAt s.snap i) t.mem := fun he => by
    rw [he] at h
    rcases runDrawing_cases h with ⟨c, -, rfl⟩ | ⟨-, -, rfl⟩ | ⟨r0, r1, rest, -, -, rfl⟩ <;> exact .inl rfl
  have f1 : ∀ {c n rd} {v : List Cplx}, exec i s = runCommand (lenCheck c n) (.ok (s.outF rd v)) s →
      storesAt s.snap i = inF rd n → (c.legal n = true → v.length = n ∧ n ≤ 1024) →
      s.Leaves (storesAt s.snap i) t.mem := fun he hp hl =>
    frame he fun hc e h' => by
      cases h'
      obtain ⟨h1, h2⟩ := hl (lenCheck_eq_none hc)
      exact .inr (.inl ⟨_, _, h1 ▸ h2, fun a ha => by rw [hp, ← h1]; exact ha, rfl⟩)
  have z1 : ∀ {c n rd} {v : List Half}, exec i s = runCommand (lenCheck c n) (.ok (s.outZ rd v)) s →
      storesAt s.snap i = inZ rd n → (c.legal n = true → v.length = n ∧ n ≤ 1024) →
      s.Leaves (storesAt s.snap i) t.mem := fun he hp hl =>
    frame he fun hc e h' => by
      cases h'
      obtain ⟨h1, h2⟩ := hl (lenCheck_eq_none hc)
      exact .inr (.inr (.inl ⟨_, _, h1 ▸ h2, fun a ha => by rw [hp, ← h1]; exact ha, rfl⟩))
  have f2 : ∀ {c n rd re} {v w : List Cplx},
      exec i s = runCommand ((lenCheck c n).or (splitCheck rd re)) (.ok (s.outFF rd re v w)) s →
      storesAt s.snap i = (fun a => inF rd (n / 2) a ∨ inF re (n / 2) a) →
      (c.legal n = true → (v.length = n / 2 ∧ w.length = n / 2) ∧ n ≤ 1024) →
      s.Leaves (storesAt s.snap i) t.mem := fun he hp hl =>
    frame he fun hc e h' => by
      cases h'
      obtain ⟨⟨h1, h2⟩, h3⟩ := hl (lenCheck_eq_none (or_eq_none hc).1)
      exact .inr (.inr (.inr (.inl ⟨_, _, _, _, by omega, fun a ha => by rw [hp]; rwa [h1, h2] at ha, rfl⟩)))
  have z2 : ∀ {c n rd re} {v w : List Half},
      exec i s = runCommand ((lenCheck c n).or (splitCheck rd re)) (.ok (s.outZZ rd re v w)) s →
      storesAt s.snap i = (fun a => inZ rd (n / 2) a ∨ inZ re (n / 2) a) →
      (c.legal n = true → (v.length = n / 2 ∧ w.length = n / 2) ∧ n ≤ 1024) →
      s.Leaves (storesAt s.snap i) t.mem := fun he hp hl =>
    frame he fun hc e h' => by
      cases h'
      obtain ⟨⟨h1, h2⟩, h3⟩ := hl (lenCheck_eq_none (or_eq_none hc).1)
      exact .inr (.inr (.inr (.inr (.inl ⟨_, _, _, _, by omega, fun a ha => by rw [hp]; rwa [h1, h2] at ha, rfl⟩))))
  have hP : ∀ {n}, LenClass.P.legal n = true → n ≤ 1024 := fun h => ((LenClass.legal_P_iff _).1 h).2
  have hM : ∀ {n}, LenClass.M.legal n = true → n ≤ 1024 := fun h => ((LenClass.legal_M_iff _).1 h).2
  have hT : ∀ {n}, LenClass.T.legal n = true → n ∈ transformLens ∧ n ≤ 1024 := fun h =>
    ⟨(LenClass.legal_T_iff _).1 h, (transformLens_bounds ((LenClass.legal_T_iff _).1 h)).2.2⟩
  have hdiv : ∀ {a b v : List Nat} {n : Nat}, divideq a b = .ok v → a.length = n → b.length = n → v.length = n :=
    fun h ha hb => by
      unfold divideq at h
      split at h
      · cases h
      · cases h; simp [ha, hb]
  cases i with
  | gbase => exact draws (check := none) (draw := gbaseDraw _) rfl
  | gber => exact draws (check := domainCheck _) (draw := gberDraw _ _) rfl
  | gsamp => exact draws (check := domainCheck _) (draw := gsampDraw _ _ _) rfl
  | nop => exact frame (check := none) (body := .ok _) rfl fun _ e h' => by cases h'; exact .inl rfl
  | gexp => exact frame (check := domainCheck _) (body := .ok _) rfl fun _ e h' => by cases h'; exact .inl rfl
  | fsplit rd re ra n => exact f2 rfl rfl fun h => by have := (LenClass.legal_S_iff _).1 h; simp; omega
  | zsplit rd re ra n => exact z2 rfl rfl fun h => by have := (LenClass.legal_S_iff _).1 h; simp; omega
  | fmerge rd ra rb n => exact f1 rfl rfl fun h => by have := hM h; rw [interleave_halves (n := n)] <;> simp [this]
  | zmerge rd ra rb n => exact z1 rfl rfl fun h => by have := hM h; rw [interleave_halves (n := n)] <;> simp [this]
  | fft rd ra n => exact f1 rfl rfl fun h => ⟨by rw [fft, transform_lens _ (hT h).1 (by simp)], (hT h).2⟩
  | ifft rd ra n => exact f1 rfl rfl fun h => ⟨by rw [ifft, inverseTransform_lens _ (hT h).1 (by simp)], (hT h).2⟩
  | ntt rd ra n =>
    exact z1 rfl rfl fun h => ⟨by rw [halves, List.length_map, ntt, transform_lens _ (hT h).1 (by simp)], (hT h).2⟩
  | intt rd ra n =>
    exact z1 rfl rfl fun h => ⟨by rw [halves, List.length_map, intt, inverseTransform_lens _ (hT h).1 (by simp)], (hT h).2⟩
  | fsplitt rd re ra n => exact f2 rfl rfl fun h => ⟨splitPass_half _ _ (s.fEntries_length ra n), (hT h).2⟩
  | zsplitt rd re ra n =>
    exact z2 rfl rfl fun h => ⟨by simpa [halves, splitNtt] using splitPass_half _ _ (s.residues_length ra n), (hT h).2⟩
  | fmerget rd ra rb n =>
    exact f1 rfl rfl fun h => ⟨by rw [mergeFft, mergePass_half _ _ (hT h).1 (by simp) (by simp)], (hT h).2⟩
  | zmerget rd ra rb n =>
    exact z1 rfl rfl fun h =>
      ⟨by rw [halves, List.length_map, mergeNtt, mergePass_half _ _ (hT h).1 (by simp) (by simp)], (hT h).2⟩
  | fadd rd ra rb n | fsub rd ra rb n | fmulf rd ra rb n | fdivf rd ra rb n =>
    exact f1 rfl rfl fun h => ⟨by simp, hP h⟩
  | fadjf rd ra n => exact f1 rfl rfl fun h => ⟨by simp, hP h⟩
  | zadd rd ra rb n | zsub rd ra rb n | zmuln rd ra rb n => exact z1 rfl rfl fun h => ⟨by simp [halves], hP h⟩
  | fmul rd ra rb n | fdiv rd ra rb n =>
    exact f1 rfl rfl fun h =>
      ⟨by rw [ifft, inverseTransform_lens _ (hT h).1 (by simp [fft, transform_lens _ (hT h).1])], (hT h).2⟩
  | fadj rd ra n =>
    exact f1 rfl rfl fun h =>
      ⟨by rw [ifft, inverseTransform_lens _ (hT h).1 (by simp [fft, transform_lens _ (hT h).1])], (hT h).2⟩
  | zmul rd ra rb n =>
    exact z1 rfl rfl fun h =>
      ⟨by rw [halves, List.length_map, intt,
        inverseTransform_lens _ (hT h).1 (by simp [ntt, transform_lens _ (hT h).1])], (hT h).2⟩
  | zdivn rd ra rb n =>
    refine frame (check := lenCheck .P n) rfl fun hc e h' => ?_
    rcases hd : divideq (s.residues ra n) (s.residues rb n) with c | v
    · rw [hd] at h'; cases h'
    · rw [hd] at h'
      cases h'
      have hv : (halves v).length = n := by rw [halves, List.length_map, hdiv (n := n) hd (by simp) (by simp)]
      exact .inr (.inr (.inl ⟨_, _, hv.trans_le (hP (lenCheck_eq_none hc)), fun a ha => by rwa [hv] at ha, rfl⟩))
  | zdiv rd ra rb n =>
    refine frame (check := lenCheck .T n) rfl fun hc e h' => ?_
    have hn := hT (lenCheck_eq_none hc)
    rcases hd : divideq (ntt n (s.residues ra n)) (ntt n (s.residues rb n)) with c | v
    · rw [hd] at h'; cases h'
    · rw [hd] at h'
      cases h'
      have hv : (halves (intt n v)).length = n := by
        rw [halves, List.length_map, intt, inverseTransform_lens _ hn.1
          (hdiv (n := n) hd (by simp [ntt, transform_lens _ hn.1]) (by simp [ntt, transform_lens _ hn.1]))]
      exact .inr (.inr (.inl ⟨_, _, hv.trans_le hn.2, fun a ha => by rwa [hv] at ha, rfl⟩))
  | cmpr ra n =>
    refine frame (check := (lenCheck .C n).or (byteCountCheck _)) rfl fun hc e h' => ?_
    simp only [compress] at h'
    split at h'
    · cases h'
    · cases h'
      exact .inr (.inr (.inr (.inr (.inr ⟨_, by rw [packBits_length]; exact byteCountCheck_eq_none (or_eq_none hc).2,
        fun a ha => by rwa [packBits_length] at ha, rfl⟩))))
  | dcmp rd n =>
    refine frame (check := (lenCheck .C n).or ((byteCountCheck _).or (byteCountCheck _))) rfl fun hc e h' => ?_
    simp only [decompress] at h'
    split at h'
    · cases h'
    · rcases hd : decodeAll n (unpackBits (s.bufBytes s.snap.inlen.toNat)) with c | v
      · rw [hd] at h'; cases h'
      · rw [hd] at h'
        cases h'
        have hv : (v.1.map fun c => BitVec.ofInt 16 c).length = n := by rw [List.length_map, decodeAll_length hd]
        have := (LenClass.legal_C_iff _).1 (lenCheck_eq_none (or_eq_none hc).1)
        exact .inr (.inr (.inl ⟨_, _, hv.trans_le this, fun a ha => by rwa [hv] at ha, rfl⟩))

/-- A command keeps the memory sound. -/
theorem exec_sound {i : Instr} {s t : State} (hs : s.mem.Sound) (h : exec i s = .next t) : t.mem.Sound :=
  (exec_leaves h).sound hs

/-! ## The host -/

/-- A host access keeps the memory sound. -/
theorem State.hostAccess_sound {s : State} (hs : s.mem.Sound) (a : Access) : (s.hostAccess a).mem.Sound := by
  unfold State.hostAccess
  split
  · cases a <;> exact hs
  · cases a with
    | read a => exact hs
    | write a v =>
      rcases s.writeWord_cases a.toNat v with h | ⟨c, -, h⟩ | ⟨n, -, h4, -, hn, h⟩
      · simpa [State.access, h] using hs
      · rcases s.writeCsr_cases v c with hc | ⟨-, -, hc⟩ | ⟨-, -, hc⟩ | ⟨-, hc⟩ | ⟨ie, mu, sg, sm, x, cc, b, n, hc⟩ <;>
          simpa [State.access, h, hc] using hs
      · simp only [State.access, h]
        refine Memory.sound_writeBytes hs fun k h1 h2 => ?_
        simp only [bytesOf_length] at h2
        rcases hn with ⟨rfl, hn | hn⟩ | ⟨rfl, hn⟩
        · exact isRamByte_f (by omega) (by omega)
        · exact isRamByte_buf (by omega) (by omega)
        · exact isRamByte_z (by omega) (by omega) (by omega)

end Sys2Proof.Machine
end

