-- ==== Sys2Proof/Tests/Slice0.lean ====
section
/-! SUPPORT. Tests: words and one-step results taken from the spec (95_test_vectors and the encodings of 30_encoding), or
worked out by hand from its rules where a line says so; and for every statement of the certificate that has hypotheses, a
state and operands that meet them. -/

namespace Sys2Proof.Tests

set_option Elab.async false

open Sys2Proof.Machine

/-! ## Helpers -/

/-- The state after the word has been accepted and the engine has had its turn. -/
def after (w : Word) (s : State) : State :=
  match step (s.withCommand w) with
  | .next t => t
  | _ => s

/-- The state after a host access. -/
def accessed (a : Access) (s : State) : State :=
  match step { s with inputs := [.host a] } with
  | .next t => t
  | _ => s

/-- Reset with an F bank given. -/
def onF (b : Bank) (v : List Cplx) (s : State) : State := { s with mem := Memory.writeF b s.mem 0 v }

/-- Reset with a Z bank given. -/
def onZ (b : Bank) (v : List Half) (s : State) : State := { s with mem := Memory.writeZ b s.mem 0 v }

/-- Reset with the first bytes of BYTEBUF given and these byte counts. -/
def onBuf (v : List Byte) (budget inlen : BitVec 12) : State :=
  { State.reset with mem := State.reset.mem.writeBuf v, budget := budget, inlen := inlen }

/-- Reset with these operands of GSAMP and these random bytes. -/
def onRng (mu sigma sigmin : B64) (bs : List Byte) : State :=
  { State.reset with mu := mu, sigma := sigma, sigmin := sigmin, rngIn := bs }

/-- Reset with these operands of GEXP and GBER and these random bytes. -/
def onX (x ccs : B64) (bs : List Byte) : State := { State.reset with x := x, ccs := ccs, rngIn := bs }

/-- Reset with a command running: the word accepted, the engine's turn next. -/
def running (w : Word) : State := State.reset.withCommand w

/-- A real number as an F entry. -/
def real (v : B64) : Cplx := ⟨v, 0⟩

def one : B64 := 0x3FF0000000000000
def two : B64 := 0x4000000000000000
def three : B64 := 0x4008000000000000
def four : B64 := 0x4010000000000000
def minusZero : B64 := 0x8000000000000000

/-! ## WellFormed: LEN must fit its 11 bits -/

theorem test_wf_refuses_len : (Instr.fft 0 1 2048).wf = false ∧ (Instr.fsplit 0 1 2 2048).wf = false ∧
    (Instr.dcmp 3 4096).wf = false := by decide
theorem test_wf_accepts_len : (Instr.fft 0 1 2047).wf = true ∧ Instr.gsamp.wf = true := by decide

/-! ## Decoding: words written out from rule R81, and the words of 95_test_vectors -/

/-- OP 0x01, RD 1, RA 0, RE 2, LEN 4 (RM-1). -/
theorem test_decode_fsplit : decode 0b00000_00000000100_00_10_00_00_01_000001 = .ok (.fsplit 1 2 0 4) := by decide
/-- OP 0x02, RD 3, RA 1, RB 2, LEN 4 (RM-2). -/
theorem test_decode_fmerge : decode 0b00000_00000000100_00_00_10_01_11_000010 = .ok (.fmerge 3 1 2 4) := by decide
theorem test_decode_zsplit : decode 0x00062043 = .ok (.zsplit 1 2 0 6) := by decide
theorem test_decode_zmerge : decode 0x000609C4 = .ok (.zmerge 3 1 2 6) := by decide
theorem test_decode_nop : decode 0x00FF3FC0 = .ok .nop := by decide
theorem test_decode_fft : decode 0x00040088 = .ok (.fft 2 0 4) ∧ decode 0x00040289 = .ok (.ifft 2 2 4) := by decide
theorem test_decode_fmulf : decode 0x00040E8E = .ok (.fmulf 2 2 3 4) := by decide
theorem test_decode_fsplitt : decode 0x0004104A = .ok (.fsplitt 1 1 0 4) := by decide
/-- OP 0x0B, 0x0C, 0x0D, 0x0F, RD 3, RA 2, RB 1, LEN 1024. -/
theorem test_decode_pointwise :
    decode 0b00000_10000000000_00_00_01_10_11_001011 = .ok (.fmerget 3 2 1 1024) ∧
    decode 0b00000_10000000000_00_00_01_10_11_001100 = .ok (.fadd 3 2 1 1024) ∧
    decode 0b00000_10000000000_00_00_01_10_11_001101 = .ok (.fsub 3 2 1 1024) ∧
    decode 0b00000_10000000000_00_00_01_10_11_001111 = .ok (.fdivf 3 2 1 1024) := by decide
/-- OP 0x10 to 0x13. -/
theorem test_decode_coefficient :
    decode 0b00000_00000000010_00_00_00_10_11_010000 = .ok (.fadjf 3 2 2) ∧
    decode 0b00000_00000000010_00_00_01_10_11_010001 = .ok (.fmul 3 2 1 2) ∧
    decode 0b00000_00000000010_00_00_01_10_11_010010 = .ok (.fdiv 3 2 1 2) ∧
    decode 0b00000_00000000010_00_00_00_10_11_010011 = .ok (.fadj 3 2 2) := by decide
/-- OP 0x18 to 0x1B. -/
theorem test_decode_ntt :
    decode 0b00000_00000000010_00_00_00_10_11_011000 = .ok (.ntt 3 2 2) ∧
    decode 0b00000_00000000010_00_00_00_10_11_011001 = .ok (.intt 3 2 2) ∧
    decode 0b00000_00000000010_00_01_00_10_11_011010 = .ok (.zsplitt 3 1 2 2) ∧
    decode 0b00000_00000000010_00_00_01_10_11_011011 = .ok (.zmerget 3 2 1 2) := by decide
/-- OP 0x1C to 0x1F. -/
theorem test_decode_zpointwise :
    decode 0b00000_00000000010_00_00_01_10_11_011100 = .ok (.zadd 3 2 1 2) ∧
    decode 0b00000_00000000010_00_00_01_10_11_011101 = .ok (.zsub 3 2 1 2) ∧
    decode 0b00000_00000000010_00_00_01_10_11_011110 = .ok (.zmuln 3 2 1 2) ∧
    decode 0b00000_00000000010_00_00_01_10_11_011111 = .ok (.zdivn 3 2 1 2) := by decide
theorem test_decode_zmul : decode 0x000404A0 = .ok (.zmul 2 0 1 4) ∧ decode 0x000406E1 = .ok (.zdiv 3 2 1 4) := by decide
theorem test_decode_sampler : decode 0x28 = .ok .gbase ∧ decode 0x29 = .ok .gexp ∧ decode 0x2A = .ok .gber ∧
    decode 0x2B = .ok .gsamp := by decide
theorem test_decode_codec : decode 0x00040030 = .ok (.cmpr 0 4) ∧ decode 0x00040071 = .ok (.dcmp 1 4) := by decide
/-- CT-3 to CT-5. -/
theorem test_decode_reserved : decode 0x4000 = .error .reservedBits ∧ decode 0x08000000 = .error .reservedBits ∧
    decode 0x05 = .error .reservedOpcode ∧ decode 0x17 = .error .reservedOpcode ∧
    decode 0x3F = .error .reservedOpcode := by decide
theorem test_encode_listed : encode (.fsplit 1 2 0 4) = 0x00042041 ∧ encode (.fmerge 3 1 2 4) = 0x000409C2 ∧
    encode (.dcmp 1 4) = 0x00040071 ∧ encode .nop = 0 := by decide
theorem test_decodeTableWord : decodeTableWord 32 0x00040088 = some (.fft 2 0 4) ∧ decodeTableWord 32 0x05 = none := by
  decide

/-! ## Control and U1 -/

/-- CT-1. -/
theorem test_nop : (after 0 State.reset).status.toWord = 0x00000002 ∧ (after 0 State.reset).result0 = 0 := by decide +kernel
/-- CT-3 and CT-5. -/
theorem test_illegalOp : (after 0x4000 State.reset).status.toWord = 0x00000106 ∧
    (after 0x3F State.reset).status.toWord = 0x00000106 := by decide +kernel
/-- RM-8: a signalling NaN and -0 are copied bit for bit. -/
theorem test_fsplit :
    let t := after 0x00022041 (onF 0 [⟨0x7FF0000000000001, minusZero⟩, ⟨one, two⟩] State.reset)
    t.fEntries 1 1 = [⟨0x7FF0000000000001, minusZero⟩] ∧ t.fEntries 2 1 = [⟨one, two⟩] := by decide +kernel
/-- RM-9: inputs are read before any write. -/
theorem test_fsplit_in_place :
    let t := after 0x00041001 (onF 0 [real one, real two, real three, real four] State.reset)
    t.fEntries 0 4 = [real one, real three, real three, real four] ∧ t.fEntries 1 2 = [real two, real four] := by
  decide +kernel
/-- RM-2. -/
theorem test_fmerge :
    (after 0x000409C2 (onF 1 [real one, real three] (onF 2 [real two, real four] State.reset))).fEntries 3 4 =
      [real one, real two, real three, real four] := by decide +kernel
/-- RM-3. -/
theorem test_zsplit :
    let t := after 0x00062043 (onZ 0 [10, 20, 30, 40, 50, 60] State.reset)
    t.zEntries 1 3 = [10, 30, 50] ∧ t.zEntries 2 3 = [20, 40, 60] := by decide +kernel
/-- RM-5: the remainder comes from RA. -/
theorem test_zmerge :
    (after 0x00050904 (onZ 1 [7, 8, 9] (onZ 2 [1, 2] State.reset))).zEntries 0 5 = [7, 1, 8, 2, 9] := by decide +kernel
/-- RM-10, RM-12, RM-14. -/
theorem test_split_checks : (after 0x00032041 State.reset).status.toWord = 0x00000206 ∧
    (after 0x00041041 State.reset).status.toWord = 0x00000306 ∧
    (after 0x04022041 State.reset).status.toWord = 0x00000206 := by decide +kernel

/-! ## U2 -/

/-- FF-1. -/
theorem test_fft : (after (encode (.fft 1 0 2)) (onF 0 [real one, real two] State.reset)).fEntries 1 2 =
    [⟨one, two⟩, ⟨one, 0xC000000000000000⟩] := by decide +kernel
/-- FF-5. -/
theorem test_ifft : (after (encode (.ifft 1 0 2)) (onF 0 [real three, real one] State.reset)).fEntries 1 2 =
    [⟨two, 0⟩, ⟨0, 0xBFF0000000000000⟩] := by decide +kernel
/-- FF-24. -/
theorem test_fft_len : (after 0x00030008 State.reset).status.toWord = 0x00000206 ∧
    (after 0x00010008 State.reset).status.toWord = 0x00000206 := by decide +kernel
/-- By hand from rule R128: (3+1)/2 = 2, and (3-1)/2 times conj(i). -/
theorem test_fsplitt :
    let t := after (encode (.fsplitt 1 2 0 2)) (onF 0 [real three, real one] State.reset)
    t.fEntries 1 1 = [real two] ∧ t.fEntries 2 1 = [⟨0, 0xBFF0000000000000⟩] := by decide +kernel
/-- By hand from rule R129: 1 + 2i and 1 - 2i. -/
theorem test_fmerget :
    (after (encode (.fmerget 3 1 2 2)) (onF 1 [real one] (onF 2 [real two] State.reset))).fEntries 3 2 =
      [⟨one, two⟩, ⟨one, 0xC000000000000000⟩] := by decide +kernel
/-- FF-16. -/
theorem test_fadd :
    (after (encode (.fadd 2 0 1 1)) (onF 0 [⟨one, two⟩] (onF 1 [⟨three, 0xC010000000000000⟩] State.reset))).fEntries 2 1 =
      [⟨four, 0xC000000000000000⟩] := by decide +kernel
/-- FF-17. -/
theorem test_fsub :
    (after (encode (.fsub 2 0 1 1)) (onF 0 [⟨one, two⟩] (onF 1 [⟨three, 0xC010000000000000⟩] State.reset))).fEntries 2 1 =
      [⟨0xC000000000000000, 0x4018000000000000⟩] := by decide +kernel
/-- FF-18. -/
theorem test_fmulf :
    (after (encode (.fmulf 2 0 1 1)) (onF 0 [⟨one, two⟩] (onF 1 [⟨three, four⟩] State.reset))).fEntries 2 1 =
      [⟨0xC014000000000000, 0x4024000000000000⟩] := by decide +kernel
/-- FF-19. -/
theorem test_fdivf :
    (after (encode (.fdivf 2 0 1 1)) (onF 0 [⟨one, two⟩] (onF 1 [⟨three, four⟩] State.reset))).fEntries 2 1 =
      [⟨0x3FDC28F5C28F5C29, 0x3FB47AE147AE147B⟩] := by decide +kernel
/-- FF-21: the canonical NaN, no error. -/
theorem test_fdivf_by_zero :
    let t := after (encode (.fdivf 2 0 1 1)) (onF 0 [real one] (onF 1 [real 0] State.reset))
    t.fEntries 2 1 = [⟨0x7FF8000000000000, 0x7FF8000000000000⟩] ∧ t.status.toWord = 0x00000002 := by decide +kernel
/-- FF-20. -/
theorem test_fadjf : (after (encode (.fadjf 1 0 1)) (onF 0 [⟨one, two⟩] State.reset)).fEntries 1 1 =
    [⟨one, 0xC000000000000000⟩] := by decide +kernel
/-- By hand from rules R126, R127, R139: x times x is -1 modulo x^2 + 1. -/
theorem test_fmul : (after (encode (.fmul 1 0 0 2)) (onF 0 [real 0, real one] State.reset)).fEntries 1 2 =
    [⟨0xBFF0000000000000, 0⟩, ⟨0, minusZero⟩] := by decide +kernel
/-- By hand from rules R126, R127, R140: (1 + 2x) / x is 2 - x. -/
theorem test_fdiv :
    (after (encode (.fdiv 2 0 1 2)) (onF 0 [real one, real two] (onF 1 [real 0, real one] State.reset))).fEntries 2 2 =
      [⟨two, 0⟩, ⟨0xBFF0000000000000, minusZero⟩] := by decide +kernel
/-- By hand from rules R126, R127, R141: the adjoint of 1 + 2x is 1 - 2x. -/
theorem test_fadj : (after (encode (.fadj 1 0 2)) (onF 0 [real one, real two] State.reset)).fEntries 1 2 =
    [⟨one, 0⟩, ⟨0xC000000000000000, minusZero⟩] := by decide +kernel

/-! ## U3 -/

/-- NT-6. -/
theorem test_ntt : (after (encode (.ntt 1 0 4)) (onZ 0 [1, 2, 3, 4] State.reset)).zEntries 1 4 =
    [4229, 4647, 1973, 1444] := by decide +kernel
/-- NT-16: inputs are reduced. -/
theorem test_ntt_reduces : (after (encode (.ntt 1 0 2)) (onZ 0 [12289, 12290] State.reset)).zEntries 1 2 =
    [1479, 10810] := by decide +kernel
/-- NT-6. -/
theorem test_intt : (after (encode (.intt 1 0 4)) (onZ 0 [4229, 4647, 1973, 1444] State.reset)).zEntries 1 4 =
    [1, 2, 3, 4] := by decide +kernel
/-- NT-17. -/
theorem test_zsplitt :
    let t := after (encode (.zsplitt 1 2 0 4)) (onZ 0 [4229, 4647, 1973, 1444] State.reset)
    t.zEntries 1 2 = [4438, 7853] ∧ t.zEntries 2 2 = [5918, 6375] := by decide +kernel
/-- NT-18. -/
theorem test_zmerget :
    (after (encode (.zmerget 3 1 2 4)) (onZ 1 [4438, 7853] (onZ 2 [5918, 6375] State.reset))).zEntries 3 4 =
      [4229, 4647, 1973, 1444] := by decide +kernel
/-- NT-1 and NT-2. -/
theorem test_zadd :
    (after (encode (.zadd 2 0 1 3)) (onZ 0 [5000, 12288, 65535] (onZ 1 [9000, 1, 0] State.reset))).zEntries 2 3 =
      [1711, 0, 4090] := by decide +kernel
/-- NT-3. -/
theorem test_zsub : (after (encode (.zsub 2 0 1 2)) (onZ 0 [3, 0] (onZ 1 [10, 1] State.reset))).zEntries 2 2 =
    [12282, 12288] := by decide +kernel
/-- NT-14. -/
theorem test_zmuln : (after (encode (.zmuln 2 0 0 2)) (onZ 0 [12288, 1479] State.reset)).zEntries 2 2 = [1, 12288] := by
  decide +kernel
/-- NT-15. -/
theorem test_zdivn : (after (encode (.zdivn 2 0 1 2)) (onZ 0 [1, 3] (onZ 1 [2, 12288] State.reset))).zEntries 2 2 =
    [6145, 12286] := by decide +kernel
/-- NT-15: nothing is written. -/
theorem test_zdivn_noInverse :
    let t := after (encode (.zdivn 2 0 1 1)) (onZ 0 [5] (onZ 1 [0] (onZ 2 [7] State.reset)))
    t.status.toWord = 0x00000406 ∧ t.zEntries 2 1 = [7] := by decide +kernel
/-- NT-9. -/
theorem test_zmul :
    (after 0x000404A0 (onZ 0 [1, 2, 3, 4] (onZ 1 [5, 6, 7, 8] State.reset))).zEntries 2 4 = [12233, 12253, 2, 60] := by
  decide +kernel
/-- NT-11. -/
theorem test_zdiv :
    (after 0x000406E1 (onZ 2 [12233, 12253, 2, 60] (onZ 1 [5, 6, 7, 8] State.reset))).zEntries 3 4 = [1, 2, 3, 4] := by
  decide +kernel
/-- NT-13: one zero is enough. -/
theorem test_zdiv_noInverse :
    (after 0x000404E1 (onZ 0 [1, 2, 3, 4] (onZ 1 [3073, 4858, 3442, 4083] State.reset))).status.toWord = 0x00000406 := by
  decide +kernel

/-! ## U4 -/

/-- GB-4: an entry equal to u does not count. -/
theorem test_gbase :
    let t := after 0x28 { State.reset with rngIn := [0xC6, 0, 0, 0, 0, 0, 0, 0, 0, 0xAA] }
    t.result0 = 16 ∧ t.result1 = 0 ∧ t.rngCnt = 9 ∧ t.rngIn = [0xAA] := by decide +kernel
/-- With 8 bytes the command waits: BUSY and RNGW (rules R27, R200). -/
theorem test_gbase_waits :
    let t := after 0x28 { State.reset with rngIn := [0, 0, 0, 0, 0, 0, 0, 0] }
    t.status.toWord = 0x00000009 ∧ t.rngCnt = 8 ∧ t.rngIn = [] := by decide +kernel
/-- GE-3. -/
theorem test_gexp :
    let t := after 0x29 (onX 0x3FE0000000000000 one [])
    t.result1 = 0x4DA2CBF1 ∧ t.result0 = 0xBE582361 := by decide +kernel
/-- GE-6 and GE-7. -/
theorem test_gexp_domain : (after 0x29 (onX one one [])).status.toWord = 0x00000806 ∧
    (after 0x29 (onX minusZero one [])).result1 = 0x80000000 := by decide +kernel
/-- GR-8: the last byte decides. -/
theorem test_gber :
    let t := after 0x2A (onX one 0x3FE999999999999A [0x25, 0xAB, 0xBD, 0x23, 0x7B, 0x18, 0x55])
    t.result0 = 1 ∧ t.result1 = 0x25ABBD23 ∧ t.rngCnt = 7 := by decide +kernel
/-- GR-3: equality rejects. -/
theorem test_gber_equal : (after 0x2A (onX 0 one [0x80, 0, 0, 0, 0, 0, 0])).result0 = 0 := by decide +kernel
/-- GS-4: a rejection, then an acceptance. -/
theorem test_gsamp :
    let t := after 0x2B (onRng 0x4025800000000000 0x3FFB333333333333 0x3FF46E978D4FDF3B
      ([0xFF, 0xFF, 0xFF, 0xFF, 0xFF, 0xFF, 0xFF, 0xFF, 0xFF, 0, 0xFF, 0xFF, 0xFF, 0xFF, 0xFF, 0xFF, 0xFF] ++
        [0xFF, 0xFF, 0xFF, 0xFF, 0xFF, 0xFF, 0xFF, 0xFF, 0xFF, 1, 0, 0, 0, 0, 0, 0, 0]))
    t.result0 = 11 ∧ t.result1 = 2 ∧ t.rngCnt = 34 := by decide +kernel
/-- GS-8 and GS-9. -/
theorem test_gsamp_domain : (after 0x2B State.reset).status.toWord = 0x00000806 ∧
    (after 0x2B (onRng 0x40D0002000000000 0x3FF8000000000000 0x3FF3333333333333 [])).status.toWord = 0x00000806 := by
  decide +kernel

/-! ## U5 -/

/-- CD-9. -/
theorem test_cmpr :
    let t := after 0x00040030 (onZ 0 [5, 0xFFFD, 0, 200] (onBuf [] 8 0))
    t.result0 = 37 ∧ t.bufBytes 8 = [0x05, 0x41, 0x80, 0x09, 0x10, 0, 0, 0] := by decide +kernel
/-- CD-10. -/
theorem test_cmpr_budget : (after 0x00040030 (onZ 0 [1, 1, 1, 1] (onBuf [] 1 0))).status.toWord = 0x00000506 := by
  decide +kernel
/-- DC-8. -/
theorem test_dcmp :
    let t := after 0x00040071 (onBuf [0x02, 0xE3, 0x40, 0x80, 0x00] 8 5)
    t.result0 = 39 ∧ t.zEntries 1 4 = [386, 52, 16, 0] := by decide +kernel
/-- DC-2, DC-4, DC-5. -/
theorem test_dcmp_errors : (after 0x00010071 (onBuf [0x80, 0] 2 2)).status.toWord = 0x00000706 ∧
    (after 0x00010071 (onBuf [0] 2 1)).status.toWord = 0x00000606 ∧
    (after 0x00010071 (onBuf [0, 0] 1 2)).status.toWord = 0x00000506 := by decide +kernel

/-! ## The bus -/

/-- TWROM, ZROM, INVROM and CDT_ROM spot values of 95_test_vectors. -/
theorem test_rom_windows :
    State.reset.readWord 0x30080 = (0xCF328D46, false) ∧ State.reset.readWord 0x3008C = (0x3FD87DE2, false) ∧
    State.reset.readWord 0x3800C = (10810, false) ∧ State.reset.readWord 0x40008 = (0x1801, false) ∧
    State.reset.readWord 0x4D008 = (0xA3, false) := by decide +kernel
/-- P6: a CMD write and a bank read while a command waits for a byte. -/
theorem test_busy_bus :
    let t := after 0x28 State.reset
    (t.writeWord 0x10 0).2 = true ∧ (t.writeWord 0x10 0).1.status.toWord = 0x00000019 ∧
    t.readWord 0x20000 = (0, true) := by decide +kernel
/-- A word of a Z bank keeps its low 16 bits (rule R66). -/
theorem test_z_write : (accessed (.read 0x20000) (accessed (.write 0x20000 0xABCD1234) State.reset)).bus =
    .read 0x1234 false := by decide +kernel

/-! ## States and operands that meet the hypotheses of the statements -/

/-- DecodeEncodeRoundTrip: the largest LEN and the largest banks. -/
theorem test_witness_roundTrip : (Instr.fsplit 3 3 3 2047).wf = true ∧ (Instr.nop).wf = true := by decide

/-- ReservedWordsEndInIllegalOp, first clause: each reserved field at its ends, and a reserved opcode. -/
theorem test_witness_reserved : ∀ w ∈ ([0x4000, 0x8000, 0x08000000, 0x80000000, 0x05, 0x3F] : List Word),
    (running w).inReset = false ∧ (running w).status.busy = true ∧ (running w).inputs = .engine :: [] ∧
    ((running w).cmd.extractLsb' 14 2 ≠ 0 ∨ (running w).cmd.extractLsb' 27 5 ≠ 0 ∨
      ((running w).cmd.extractLsb' 0 6).toNat ∈ reservedOps) := by
  intro w h
  simp only [List.mem_cons, List.not_mem_nil, or_false] at h
  rcases h with rfl | rfl | rfl | rfl | rfl | rfl <;> decide +kernel
/-- The reserved bits of a command rule: a running FSPLIT word with one set. -/
theorem test_witness_encodedAs :
    (running 0x80022041).inReset = false ∧ (running 0x80022041).status.busy = true ∧
    (running 0x80022041).inputs = .engine :: [] ∧ (running 0x80022041).cmd.extractLsb' 0 6 = 0x01 ∧
    (running 0x80022041).cmd.extractLsb' 27 5 ≠ 0 := ⟨rfl, rfl, rfl, by decide, by decide⟩
/-- Second clause: the lowest and the highest opcode, every other bit set. -/
theorem test_witness_unreserved : ∀ w ∈ ([0x07FF3FC0, 0x07FF3FF1] : List Word),
    w.extractLsb' 14 2 = 0 ∧ w.extractLsb' 27 5 = 0 ∧ (w.extractLsb' 0 6).toNat ∉ reservedOps := by
  intro w h
  simp only [List.mem_cons, List.not_mem_nil, or_false] at h
  rcases h with rfl | rfl <;> decide +kernel

/-- EngineRunsTheDecodedCommand, the three ways to a turn. -/
theorem test_witness_engine (a : Access) :
    let s := running 0x2B
    s.inReset = false ∧ s.status.busy = true ∧ decode s.cmd = .ok .gsamp ∧ ({ s with inputs := [] } : State).inputs = [] ∧
    s.inputs = .engine :: [] ∧ ({ s with inputs := [.hostAndEngine a] } : State).inputs = .hostAndEngine a :: [] :=
  ⟨rfl, rfl, by decide, rfl, rfl, rfl⟩
/-- And the two ways in which a turn does nothing. -/
theorem test_witness_engine_idle : State.reset.status.busy = false ∧ State.reset.inputs = [] ∧
    ({ running 0x2B with inReset := true } : State).inReset = true := ⟨rfl, rfl, rfl⟩

/-- StepKeepsTheMachineSound: the reset state is sound and steps. -/
theorem test_witness_sound : State.reset.Inv ∧ step State.reset = .next State.reset :=
  ⟨⟨rfl, nofun, ⟨nofun, ⟨nofun, (absurd rfl ·)⟩, nofun⟩,
    fun _ => rfl, nofun, nofun⟩, rfl⟩

/-- RomsNeverChange: a step, and two idle states with the same ROMs that differ elsewhere. -/
theorem test_witness_roms : step State.reset = .next State.reset ∧
    (let t : State := { State.reset with mu := 1, mem := [(0x10000, 1)] }
     State.reset.status.busy = false ∧ t.status.busy = false ∧ State.reset.cdtRom = t.cdtRom ∧
     State.reset.expRom = t.expRom ∧ 0x30000 ≤ 0x30000) := ⟨rfl, rfl, rfl, rfl, rfl, by decide⟩

/-- CommandFailsSucceedsOrWaits and RunningCommandIgnoresOperandRegisters: a failure, a success, a draw that succeeds and
one that waits. -/
theorem test_witness_exec :
    (∃ t, exec (.fft 0 0 3) State.reset = .next t ∧ t.status.err = true) ∧
    (∃ t, exec .nop State.reset = .next t ∧ t.status.err = false) ∧
    (∃ t, exec .gbase { State.reset with rngIn := List.replicate 9 0 } = .next t ∧ t.status.done = true) ∧
    (∃ t, exec .gbase State.reset = .next t ∧ t.status.rngw = true) :=
  ⟨⟨_, rfl, rfl⟩, ⟨_, rfl, rfl⟩, ⟨_, rfl, rfl⟩, ⟨_, rfl, rfl⟩⟩

/-- CommandFailsSucceedsOrWaits, its clause on memory: the first bytes on either side of what commands write. -/
theorem test_witness_stores :
    ¬storesAt Snapshot.reset (.fft 0 1 2) 0xFFFF ∧ ¬storesAt Snapshot.reset (.fft 0 1 2) 0x10020 ∧
    storesAt Snapshot.reset (.fft 0 1 2) 0x1001F ∧ ¬storesAt { Snapshot.reset with budget := 1 } (.cmpr 0 0) 0x24001 ∧
    storesAt { Snapshot.reset with budget := 1 } (.cmpr 0 0) 0x24000 ∧ ¬storesAt Snapshot.reset .gexp 0x10000 ∧
    storesAt Snapshot.reset (.ntt 0 1 2) 0x20005 ∧ ¬storesAt Snapshot.reset (.zsplit 0 1 2 2) 0x20002 := by
  simp only [storesAt, inF, inZ]
  decide

/-- ChecksComeInOrder, its common premises. -/
theorem test_witness_checks (w : Word) :
    (running w).inReset = false ∧ (running w).status.busy = true ∧ (running w).status.err = false ∧
    (running w).inputs = .engine :: [] := ⟨rfl, rfl, rfl, rfl⟩
/-- Each check of rule R263 at a word or a snapshot it is the first to refuse; the words carry the later faults too. -/
theorem test_witness_check_codes :
    checkPhase 0x00034041 Snapshot.reset = some .illegalOp ∧ checkPhase 0x08000000 Snapshot.reset = some .illegalOp ∧
    checkPhase 0x05 Snapshot.reset = some .illegalOp ∧ checkPhase 0x00031041 Snapshot.reset = some .badLen ∧
    checkPhase 0x04010008 Snapshot.reset = some .badLen ∧ checkPhase 0x00041041 Snapshot.reset = some .badOperand ∧
    checkPhase 0x30 { Snapshot.reset with budget := 2049 } = some .badOperand ∧
    checkPhase 0x31 { Snapshot.reset with inlen := 2049 } = some .badOperand ∧
    checkPhase 0x2B Snapshot.reset = some .domain ∧ checkPhase 0x31 Snapshot.reset = none ∧
    checkPhase 0x04000008 Snapshot.reset = none := by decide +kernel

/-- BusErrorsAreAnswers: the last address of the space. -/
theorem test_witness_address : 0xFFFFC < 0x100000 := by decide

/-- OnlyCmdAndStatusWritesHaveSideEffects: a read and a write listed, a register that is neither CMD nor STATUS, a RAM
write that is answered OKAY and one that gets SLVERR. -/
theorem test_witness_sideEffects (a : Addr) (v : Word) :
    let s : State := { State.reset with inputs := [.host (.read a)] }
    let u : State := { State.reset with inputs := [.host (.write a v)] }
    (s.inReset = false ∧ s.inputs = .host (.read a) :: [] ∧ u.inputs = .host (.write a v) :: []) ∧
    (0x4C ≠ 0x0C ∧ 0x4C ≠ 0x10 ∧ 0x4C < 0x10000) ∧
    (State.reset.writeWord 0x23FFC 1).2 = false ∧ (State.reset.writeWord 0x24000 1).2 = false ∧
    (State.reset.writeWord 0x24800 1).2 = true :=
  ⟨⟨rfl, rfl, rfl⟩, by decide, by decide +kernel, by decide +kernel, by decide +kernel⟩

/-- RamWordReadsBack: the first and the last word of the writable RAM, in Z and out of it. -/
theorem test_witness_ram : State.reset.status.busy = false ∧
    ∀ p ∈ ([(0x10000, 0x247FC), (0x247FC, 0x10000), (0x20000, 0x1FFFC), (0x23FFC, 0x24000)] : List (Nat × Nat)),
      p.1 % 4 = 0 ∧ p.2 % 4 = 0 ∧ 0x10000 ≤ p.1 ∧ p.1 < 0x24800 ∧ p.2 ≠ p.1 := by decide

/-- EntriesLieWhereTheMapSays and RomWindowsShowTheRoms: an idle machine, the last entry, the last addresses. -/
theorem test_witness_entries : State.reset.status.busy = false ∧ 1023 < 1024 ∧ 511 < 512 ∧ 3 < 4 ∧ 2 ≤ 2047 ∧
    2047 ≤ 2047 ∧ 12288 ≤ 12288 := by decide

/-- CmdWriteIsAcceptedOrRefused: an idle machine and a busy one; a word that decodes. -/
theorem test_witness_cmd : State.reset.status.busy = false ∧ State.reset.inReset = false ∧ State.reset.inputs = [] ∧
    decode 0 = .ok .nop ∧ (running 0).status.busy = true := ⟨rfl, rfl, rfl, by decide, rfl⟩

/-- OverrunStaysUntilCleared: a command runs, OVR is 1, and a write to STATUS clears it. -/
theorem test_witness_overrun :
    let s : State := { running 0 with
      status := { busy := true, done := false, err := false, rngw := false, ovr := true, errCode := .none }
      inputs := [.host (.write 0x0000C 0x10)] }
    s.status.busy = true ∧ s.status.ovr = true ∧ (0x10 : Word).getLsbD 4 = true ∧
    ∃ t, step s = .next t ∧ t.status.ovr = false := ⟨rfl, rfl, by decide, ⟨_, rfl, by decide +kernel⟩⟩

/-- CompletionWinsOverClear: a NOP completes while the host clears DONE. -/
theorem test_witness_completion :
    let s : State := { running 0 with inputs := [.hostAndEngine (.write 0x0000C 0x16)] }
    s.inReset = false ∧ s.status.busy = true ∧ s.status.Coherent ∧ decode s.cmd = .ok .nop ∧
    s.inputs = .hostAndEngine (.write 0x0000C 0x16) :: [] ∧
    (∃ u, exec .nop { s with inputs := [] } = .next u) ∧ ∃ t, step s = .next t ∧ t.status.busy = false :=
  ⟨rfl, rfl, ⟨fun _ => ⟨rfl, rfl⟩, ⟨nofun, (absurd rfl ·)⟩, nofun⟩, by decide, rfl,
    ⟨_, rfl⟩, ⟨_, rfl, rfl⟩⟩

/-- IrqIsEnableAndDone: a completion, an acceptance, a write that clears DONE. -/
theorem test_witness_irq :
    (running 0).status.busy = true ∧ (∃ t, exec .nop (running 0) = .next t ∧ t.status.busy = false) ∧
    State.reset.status.busy = false ∧ (0x2 : Word).getLsbD 1 = true := ⟨rfl, ⟨_, rfl, rfl⟩, rfl, by decide⟩

/-- ResetFromAnyState: reset inside a command that waits for a byte. -/
theorem test_witness_reset :
    let s : State := { after 0x28 State.reset with inputs := [.rstAssert, .rstRelease] }
    s.inputs = .rstAssert :: .rstRelease :: [] ∧ s.status.rngw = true := by decide +kernel
/-- And with no command running. -/
theorem test_witness_reset_idle :
    let s : State := { State.reset with inputs := [.rstAssert, .rstRelease] }
    s.inputs = .rstAssert :: .rstRelease :: [] ∧ s.status.busy = false := ⟨rfl, rfl⟩

/-- OnlyResetEndsARunningCommand: each of the three events. -/
theorem test_witness_noAbort : ∀ e ∈ ([.host (.write 0x00010 0), .rngByte 0, .rstRelease] : List Input),
    (running 0).status.busy = true ∧ (∃ t, step { running 0 with inputs := [e] } = .next t) ∧
    ((∃ a, e = .host a) ∨ (∃ b, e = .rngByte b) ∨ e = .rstRelease) := by
  intro e h
  simp only [List.mem_cons, List.not_mem_nil, or_false] at h
  rcases h with rfl | rfl | rfl
  exacts [⟨rfl, ⟨_, rfl⟩, .inl ⟨_, rfl⟩⟩, ⟨rfl, ⟨_, rfl⟩, .inr (.inl ⟨_, rfl⟩)⟩, ⟨rfl, ⟨_, rfl⟩, .inr (.inr rfl)⟩]

/-- The clauses of the command rules: each length class at its ends and just outside, and the operand checks. -/
theorem test_witness_lengths :
    (2 ∈ transformLens ∧ 1024 ∈ transformLens ∧ 1 ∉ transformLens ∧ 1026 ∉ transformLens ∧ 2048 ∉ transformLens) ∧
    ((2 % 2 = 0 ∧ 2 ≤ 2 ∧ 2 ≤ 1024) ∧ (1024 % 2 = 0 ∧ 2 ≤ 1024 ∧ 1024 ≤ 1024) ∧
      ¬(0 % 2 = 0 ∧ 2 ≤ 0 ∧ 0 ≤ 1024) ∧ ¬(1026 % 2 = 0 ∧ 2 ≤ 1026 ∧ 1026 ≤ 1024)) ∧
    ((1 ≤ 1 ∧ 1 ≤ 1024) ∧ (1 ≤ 1024 ∧ 1024 ≤ 1024) ∧ ¬(1 ≤ 0 ∧ 0 ≤ 1024) ∧ ¬(1 ≤ 1025 ∧ 1025 ≤ 1024)) ∧
    (0 : Bank) ≠ 1 ∧ ¬(3 : Bank) ≠ 3 := by decide
/-- Their words: one that decodes to a command of each rule with an effect on two banks. -/
theorem test_witness_words : decode 0x00022041 = .ok (.fsplit 1 2 0 2) ∧ decode 0x00022043 = .ok (.zsplit 1 2 0 2) := by
  decide

/-- SplitAndMergeAreInverse: each pair of commands runs. -/
theorem test_witness_splitMerge :
    (2 % 2 = 0 ∧ 2 ≤ 2 ∧ 2 ≤ 1024 ∧ (1 : Bank) ≠ 2) ∧
    (∃ t u, exec (.fsplit 1 2 0 2) State.reset = .next t ∧ exec (.fmerge 3 1 2 2) t = .next u) ∧
    (∃ t u, exec (.zsplit 1 2 0 2) State.reset = .next t ∧ exec (.zmerge 3 1 2 2) t = .next u) ∧
    (∃ t u, exec (.fmerge 3 0 1 2) State.reset = .next t ∧ exec (.fsplit 1 2 3 2) t = .next u) ∧
    (∃ t u, exec (.zmerge 3 0 1 2) State.reset = .next t ∧ exec (.zsplit 1 2 3 2) t = .next u) :=
  ⟨by decide, ⟨_, _, rfl, rfl⟩, ⟨_, _, rfl, rfl⟩, ⟨_, _, rfl, rfl⟩, ⟨_, _, rfl, rfl⟩⟩

/-- BinaryOperationsRoundToNearestEven: finite operands, the largest and the smallest, sums and differences that are not
zero, a divisor that is not zero; and both sides of the overflow bound. -/
theorem test_witness_finite :
    b64IsFinite 0x7FEFFFFFFFFFFFFF = true ∧ b64IsFinite 0x0000000000000001 = true ∧
    b64Val 0x7FEFFFFFFFFFFFFF + b64Val 1 ≠ 0 ∧ b64Val 0x7FEFFFFFFFFFFFFF - b64Val 1 ≠ 0 ∧ b64Val 1 ≠ 0 ∧
    (b64Val 0x7FEFFFFFFFFFFFFF + b64Val 1).natAbs < (2 ^ 54 - 1) * 2 ^ 2044 * 1 ∧
    ¬(b64Val 0x7FEFFFFFFFFFFFFF + b64Val 0x7FEFFFFFFFFFFFFF).natAbs < (2 ^ 54 - 1) * 2 ^ 2044 * 1 := by decide +kernel
/-- SpecialOperandsFollowIeee: a NaN operand, a NaN result, infinities, a zero sum, zero divisors. -/
theorem test_witness_special :
    b64IsNaN 0x7FF0000000000001 = true ∧ b64IsNaN (b64Div 0 0) = true ∧ b64IsInf 0x7FF0000000000000 = true ∧
    b64IsInf 0xFFF0000000000000 = true ∧ b64IsFinite one = true ∧ b64Val one + b64Val 0xBFF0000000000000 = 0 ∧
    b64Val minusZero = 0 ∧ b64Val one ≠ 0 ∧ b64Val minusZero - b64Val 0 = 0 ∧ b64Sign minusZero = true := by decide +kernel

/-- ConversionsAndComparisonsAreExact: the largest integers, the smallest positive number, infinities, a NaN. -/
theorem test_witness_conversions :
    (2 ^ 53 - 1 : Int).natAbs < 2 ^ 53 ∧ (-(2 ^ 53 - 1) : Int).natAbs < 2 ^ 53 ∧ b64IsFinite 1 = true ∧ 0 ≤ b64Val 1 ∧
    b64IsFinite minusZero = true ∧ b64IsNaN 0x7FF8000000000000 = true := by decide +kernel

/-- TwiddleRomFollowsTheAngles, RootRomHoldsTheSmallerRoots and InverseRomInverts: the ends of their ranges. -/
theorem test_witness_romRanges : (2 ≤ 2 ∧ 2 ≤ 1023) ∧ (2 ≤ 1023 ∧ 1023 ≤ 1023) ∧ (4 ≤ 4 ∧ 4 ≤ 2047) ∧ 2047 ≤ 2047 ∧
    (1 ≤ 12288 ∧ 12288 ≤ 12288) ∧ (1 ≤ 1479 ∧ 1479 < 12289 ∧ 1479 ^ 2 % 12289 = 12288) ∧
    (1 ≤ 6145 ∧ 6145 < 12289 ∧ 2 * 6145 % 12289 = 1) ∧ (1479 ^ 2 % 12289 = 12288 ∧ zrom 2 = 1479) := by decide +kernel

/-- FftRecursion and NttRecursion: lists of a transform length. -/
theorem test_witness_recursion :
    4 ∈ transformLens ∧ 4 ≠ 2 ∧ [real one, real two, real three, real four].length = 4 ∧
    [real one, real two].length = 4 / 2 ∧ [1, 2, 3, 4].length = 4 ∧ [1, 2].length = 4 / 2 := by decide

/-- CoefficientCommandsCompose: every command of its four chains runs. -/
theorem test_witness_compose :
    (2 ∈ transformLens ∧ (0 : Bank) ≠ 2 ∧ (0 : Bank) ≠ 1) ∧
    (∃ s1 s2 s3 s4 t, exec (.fft 0 1 2) State.reset = .next s1 ∧ exec (.fft 1 2 2) s1 = .next s2 ∧
      exec (.fmulf 0 0 1 2) s2 = .next s3 ∧ exec (.ifft 3 0 2) s3 = .next s4 ∧
      exec (.fmul 3 1 2 2) State.reset = .next t) ∧
    (∃ s1 s2 s3 s4 t, exec (.fft 0 1 2) State.reset = .next s1 ∧ exec (.fft 1 2 2) s1 = .next s2 ∧
      exec (.fdivf 0 0 1 2) s2 = .next s3 ∧ exec (.ifft 3 0 2) s3 = .next s4 ∧
      exec (.fdiv 3 1 2 2) State.reset = .next t) ∧
    (∃ s1 s2 s3 t, exec (.fft 0 1 2) State.reset = .next s1 ∧ exec (.fadjf 0 0 2) s1 = .next s2 ∧
      exec (.ifft 3 0 2) s2 = .next s3 ∧ exec (.fadj 3 1 2) State.reset = .next t) ∧
    (∃ s1 s2 s3 s4 t, exec (.ntt 0 1 2) State.reset = .next s1 ∧ exec (.ntt 1 2 2) s1 = .next s2 ∧
      exec (.zmuln 0 0 1 2) s2 = .next s3 ∧ exec (.intt 3 0 2) s3 = .next s4 ∧
      exec (.zmul 3 1 2 2) State.reset = .next t) :=
  ⟨by decide, ⟨_, _, _, _, _, rfl, rfl, rfl, rfl, rfl⟩, ⟨_, _, _, _, _, rfl, rfl, rfl, rfl, rfl⟩,
    ⟨_, _, _, _, rfl, rfl, rfl, rfl⟩, ⟨_, _, _, _, _, rfl, rfl, rfl, rfl, rfl⟩⟩

/-- ZdivnDividesOrFindsNoInverse: a divisor with a zero residue (12289 is one) and one without. -/
theorem test_witness_zdivn :
    (¬(1 ≤ 0 ∧ 0 ≤ 1024) ∧ 1 ≤ 2 ∧ 2 ≤ 1024) ∧
    (∃ i < 2, (onZ 1 [1, 12289] State.reset).residue 1 i = 0) ∧
    (∀ i < 2, (onZ 1 [1, 12288] State.reset).residue 1 i ≠ 0) :=
  ⟨by decide, ⟨1, by decide, by decide +kernel⟩, by decide +kernel⟩

/-- InttUndoesNtt: both pairs of commands run. -/
theorem test_witness_intt :
    (2 ∈ transformLens ∧ (1 : Bank) ≠ 2) ∧
    (∃ t u, exec (.ntt 1 0 2) State.reset = .next t ∧ exec (.intt 2 1 2) t = .next u) ∧
    (∃ t u, exec (.zsplitt 1 2 0 2) State.reset = .next t ∧ exec (.zmerget 3 1 2 2) t = .next u) ∧
    (4 ∈ transformLens ∧ 4 ≠ 2 ∧
      ∃ t u, exec (.ntt 1 0 4) State.reset = .next t ∧ exec (.zsplitt 2 3 1 4) t = .next u) :=
  ⟨by decide, ⟨_, _, rfl, rfl⟩, ⟨_, _, rfl, rfl⟩, by decide, by decide, ⟨_, _, rfl, rfl⟩⟩

/-- ZdivInvertsZmulOrFindsNoInverse: the divisor 0 has a zero at a root, the divisor 1 has none. -/
theorem test_witness_zdiv :
    (2 ∈ transformLens ∧ 3 ∉ transformLens) ∧
    (∃ j < 2, evaluateAtRoot 2 ((onZ 1 [0, 0] State.reset).residue 1) j = 0) ∧
    (∀ j < 2, evaluateAtRoot 2 ((onZ 1 [1, 0] State.reset).residue 1) j ≠ 0) :=
  ⟨by decide, ⟨0, by decide, by decide +kernel⟩, by decide +kernel⟩

/-- The domains of the sampler commands as the model tests them: operands inside and outside each, at their ends. -/
theorem test_witness_domains :
    gexpDomain { Snapshot.reset with x := 0x3FEFFFFFFFFFFFFF, ccs := one } = true ∧
    gexpDomain { Snapshot.reset with x := one, ccs := one } = false ∧
    gberDomain { Snapshot.reset with x := 0xFFF0000000000000, ccs := one } = true ∧
    gberDomain { Snapshot.reset with x := 0x7FF8000000000000 } = false ∧
    gsampDomain { Snapshot.reset with mu := 0x40D0000000000000, sigma := 0x3FFD20C49BA5E354, sigmin := 0x3FE0000000000000 }
      = true ∧
    gsampDomain Snapshot.reset = false ∧ InUnitInterval minusZero ∧ InUnitInterval one := by decide +kernel

/-- And as the statements say them. -/
theorem test_witness_operands :
    GexpOperands { Snapshot.reset with x := 0x3FEFFFFFFFFFFFFF, ccs := one } ∧
    ¬GexpOperands { Snapshot.reset with x := one, ccs := one } ∧
    GberOperands { Snapshot.reset with x := 0xFFF0000000000000, ccs := one } ∧
    ¬GberOperands { Snapshot.reset with x := 0x7FF8000000000000 } ∧
    GsampOperands { Snapshot.reset with mu := 0x40D0000000000000, sigma := 0x3FFD20C49BA5E354, sigmin := 0x3FE0000000000000 } ∧
    ¬GsampOperands Snapshot.reset := by decide +kernel

/-- GbaseCountsTheTable and GberComparesWithTheProbability: exactly enough bytes, and one too few. -/
theorem test_witness_supply :
    9 ≤ ({ State.reset with rngIn := List.replicate 9 0 } : State).supply.length ∧
    ({ State.reset with rngIn := List.replicate 8 0 } : State).supply.length < 9 ∧
    7 ≤ ({ State.reset with rngIn := List.replicate 7 0 } : State).supply.length ∧
    ({ State.reset with rngIn := List.replicate 6 0 } : State).supply.length < 7 := by decide

/-- The operands and bytes of GS-4 as a running command sees them. -/
def gsampState (bs : List Byte) : State :=
  { State.reset with
    snap := { Snapshot.reset with mu := 0x4025800000000000, sigma := 0x3FFB333333333333, sigmin := 0x3FF46E978D4FDF3B }
    rngIn := bs }

/-- The bytes of an iteration that rejects. -/
def rejecting : List Byte := [0xFF, 0xFF, 0xFF, 0xFF, 0xFF, 0xFF, 0xFF, 0xFF, 0xFF, 0, 0xFF, 0xFF, 0xFF, 0xFF, 0xFF, 0xFF, 0xFF]

/-- The bytes of an iteration that accepts. -/
def accepting : List Byte := [0xFF, 0xFF, 0xFF, 0xFF, 0xFF, 0xFF, 0xFF, 0xFF, 0xFF, 1, 0, 0, 0, 0, 0, 0, 0]

/-- GsampRunsTrialsOfSeventeenBytes, the clause that accepts, with m = 1. -/
theorem test_witness_gsamp_accepts :
    let s := gsampState (rejecting ++ accepting)
    GsampOperands s.snap ∧ 17 * (1 + 1) ≤ s.supply.length ∧
    (∀ j < 1, ¬acceptsAt s.cdtRom s.expRom s.snap s.supply (17 * j)) ∧
    acceptsAt s.cdtRom s.expRom s.snap s.supply (17 * 1) := by
  simp only [acceptsAt]
  decide +kernel
/-- The clause that waits: one iteration rejects and the next one lacks a byte. -/
theorem test_witness_gsamp_waits :
    let s := gsampState (rejecting ++ rejecting.dropLast)
    GsampOperands s.snap ∧
    ∀ j, 17 * (j + 1) ≤ s.supply.length → ¬acceptsAt s.cdtRom s.expRom s.snap s.supply (17 * j) := by
  have h : GsampOperands (gsampState (rejecting ++ rejecting.dropLast)).snap ∧
      (gsampState (rejecting ++ rejecting.dropLast)).supply.length = 33 ∧
      ¬acceptsAt (gsampState []).cdtRom (gsampState []).expRom (gsampState []).snap
        (gsampState (rejecting ++ rejecting.dropLast)).supply 0 := by
    simp only [acceptsAt]
    decide +kernel
  refine ⟨h.1, fun j hj => ?_⟩
  obtain rfl : j = 0 := by rw [h.2.1] at hj; omega
  exact h.2.2

/-- DeliveryTimesDoNotMatter: 4 bytes of 9, then the rest. -/
theorem test_witness_delivery :
    let s : State := { State.reset with rngIn := List.replicate 4 1 ++ List.replicate 5 2 }
    commandDraw s .gbase ≠ none ∧ s.rngIn = List.replicate 4 1 ++ List.replicate 5 2 ∧
    ∃ u, exec .gbase { s with rngIn := List.replicate 4 1 } = .next u ∧ u.status.rngw = true :=
  ⟨nofun, rfl, ⟨_, rfl, rfl⟩⟩

/-- CmprPacksTheCoefficients: each of its clauses, the budget exactly met in the last. -/
theorem test_witness_cmpr :
    let v := (List.range 2).map fun i => ((onZ 0 [0xFFFF, 896] State.reset).zEntry 0 i).toInt
    1024 < 1025 ∧ 2048 < (2049 : BitVec 12).toNat ∧ 2 ≤ 1024 ∧ (2 : BitVec 12).toNat ≤ 2048 ∧
    8 * (2 : BitVec 12).toNat < (v.flatMap coeffBits).length ∧ (v.flatMap coeffBits).length ≤ 8 * (4 : BitVec 12).toNat := by
  decide +kernel

/-- DcmpReadsTheCoefficients: a stream of one coefficient, and what follows it, for each outcome. -/
theorem test_witness_dcmp :
    1024 < 1025 ∧ 2048 < (2049 : BitVec 12).toNat ∧ (1 : BitVec 12).toNat < (2 : BitVec 12).toNat ∧
    (let v : List Int := [-1]
     (∀ c ∈ v, IsCoeff c) ∧
     ((onBuf [0x81, 0x00] 2 2).streamBits 2 = v.flatMap coeffBits ++ List.replicate 7 false ∧ v.length = 1) ∧
     ((onBuf [0x81, 0x7F] 2 2).streamBits 2 = v.flatMap coeffBits ++ List.replicate 7 true ∧ v.length < 2 ∧
      ∀ b ∈ (List.replicate 7 true).drop 8, b = true) ∧
     ((onBuf [0x81, 0x40, 0x00] 3 3).streamBits 3 =
        v.flatMap coeffBits ++ (true :: List.replicate 7 false ++ List.replicate 0 true ++ false :: List.replicate 6 false) ∧
      (List.replicate 7 false).length = 7)) := by
  refine ⟨by decide, by decide, by decide, ?_⟩
  simp only [IsCoeff]
  decide +kernel
/-- Its MALFORMED clause at a magnitude just too large: +32768 is refused, -32768 is a coefficient. -/
theorem test_witness_dcmp_range : ¬IsCoeff ((256 * 2 ^ 7 + 0 : Nat) : Int) ∧ IsCoeff (-((256 * 2 ^ 7 + 0 : Nat) : Int)) := by
  simp only [IsCoeff]
  decide

/-- CodecRoundTrip: one coefficient, a budget of two bytes; and one reading of a stream. -/
theorem test_witness_codec :
    let s : State := { onZ 0 [5] State.reset with snap := { Snapshot.reset with budget := 2 } }
    1 ≤ 1024 ∧ s.snap.budget.toNat ≤ 2048 ∧
    (((List.range 1).map fun i => (s.zEntry 0 i).toInt).map fun c => 9 + c.natAbs / 2 ^ 7).sum ≤ 8 * s.snap.budget.toNat ∧
    (∃ t, exec (.cmpr 0 1) s = .next t) ∧
    [(-1 : Int)].flatMap coeffBits ++ [true] = [(-1 : Int)].flatMap coeffBits ++ [true] :=
  ⟨by decide, by decide, by decide +kernel, ⟨_, rfl⟩, rfl⟩
/-- Its clause above the budget: four coefficients of 9 bits against 8 bits (rule R246's example). -/
theorem test_witness_codec_budget :
    let s : State := { onZ 0 [1, 1, 1, 1] State.reset with snap := { Snapshot.reset with budget := 1 } }
    8 * s.snap.budget.toNat < (((List.range 4).map fun i => (s.zEntry 0 i).toInt).map fun c => 9 + c.natAbs / 2 ^ 7).sum ∧
    ∃ t, exec (.cmpr 0 4) s = .next t := ⟨by decide +kernel, ⟨_, rfl⟩⟩

end Sys2Proof.Tests
end

section
/-! SUPPORT. Which host accesses the bus answers with OKAY and which with SLVERR, and acceptance of a command word. -/

namespace Sys2Proof.Machine

/-! ## Addresses -/

/-- Where the address map has a region (rules R61, R63). -/
theorem regionOf_isSome_iff {a : Nat} : (regionOf a).isSome ↔
    a < 0x50 ∨ (0x10000 ≤ a ∧ a < 0x24800) ∨ (0x30020 ≤ a ∧ a < 0x38000) ∨ (0x38008 ≤ a ∧ a < 0x3A000) ∨
      (0x40000 ≤ a ∧ a < 0x4C004) ∨ (0x4D000 ≤ a ∧ a < 0x4D120) ∨ (0x4D200 ≤ a ∧ a < 0x4D268) := by
  rw [regionOf_eq]
  split_ifs <;> simp only [Option.isSome_some, Option.isSome_none, Bool.false_eq_true, true_iff, false_iff] <;> omega

theorem lt_of_regionOf_eq_csr {a : Nat} (h : regionOf a = some .csr) : a < 0x50 := by
  by_contra hn
  rw [regionOf_eq, if_neg (by omega)] at h
  split_ifs at h <;> cases h

theorem Csr.offset_aligned (c : Csr) : c.offset % 4 = 0 := by cases c <;> rfl

theorem Csr.offset_lt (c : Csr) : c.offset < 0x50 := by cases c <;> decide

/-- Every aligned address below 0x50 is the offset of a register (rule R23). -/
theorem exists_csr_offset {a : Nat} (h4 : a % 4 = 0) (h : a < 0x50) : ∃ c : Csr, a = c.offset := by
  rcases hc : csrAt a with _ | c
  · exact absurd ⟨h4, by omega⟩ (csrAt_eq_none.1 hc)
  · exact ⟨c, csrAt_eq_some.1 hc⟩

theorem State.busRefuses_eq_false_iff {s : State} {a : Nat} :
    s.busRefuses a = false ↔ a % 4 = 0 ∧ (a < 0x10000 ∨ s.status.busy = false) := by
  rcases hb : s.status.busy <;> simp [State.busRefuses, hb]

/-! ## Reads -/

/-- A read of nothing, or one the bus refuses, answers 0 with SLVERR (rules R62, R63, R69). -/
theorem State.readWord_of_unanswered {s : State} {a : Nat}
    (h : ¬(s.busRefuses a = false ∧ (regionOf a).isSome)) : s.readWord a = (0, true) := by
  rcases hb : s.busRefuses a
  · have hr : regionOf a = none := by simpa [hb] using h
    simp [State.readWord, hr]
  · simp [State.readWord, hb]

/-- A read of any region is answered OKAY (rules R61, R69). -/
theorem State.readWord_of_answered {s : State} {a : Nat} (hb : s.busRefuses a = false) (hr : (regionOf a).isSome) :
    (s.readWord a).2 = false := by
  obtain ⟨r, hr⟩ := Option.isSome_iff_exists.1 hr
  cases r
  case csr =>
    obtain ⟨c, rfl⟩ := exists_csr_offset (State.busRefuses_eq_false_iff.1 hb).1 (lt_of_regionOf_eq_csr hr)
    rw [State.readWord_csr]
  all_goals simp [State.readWord, hb, hr]

theorem State.readWord_okay_iff {s : State} {a : Nat} :
    (s.readWord a).2 = false ↔ s.busRefuses a = false ∧ (regionOf a).isSome := by
  refine ⟨fun h => ?_, fun ⟨hb, hr⟩ => State.readWord_of_answered hb hr⟩
  by_contra hn
  simp [State.readWord_of_unanswered hn] at h

theorem State.readWord_slverr {s : State} {a : Nat} (h : (s.readWord a).2 = true) : (s.readWord a).1 = 0 := by
  rw [State.readWord_of_unanswered fun hn => by simp [State.readWord_okay_iff.2 hn] at h]

/-! ## Writes -/

/-- A write to a register is answered OKAY unless the register is read-only, or is CMD while a command runs
(rules R28, R68). -/
theorem State.writeCsr_okay_iff {s : State} {v : Word} {c : Csr} :
    (s.writeCsr v c).2 = false ↔ c.offset = 0x08 ∨ c.offset = 0x0C ∨ (c.offset = 0x10 ∧ s.status.busy = false) ∨
      0x20 ≤ c.offset := by
  cases c
  case cmd => cases hb : s.status.busy <;> simp [State.writeCsr, State.writeCmd, Csr.offset, hb]
  all_goals simp [State.writeCsr, Csr.offset]

/-- A register write that gets SLVERR changes nothing, and sets OVR when it is one to CMD (rules R28, R68, R265). -/
theorem State.writeCsr_slverr {s : State} {v : Word} {c : Csr} (h : (s.writeCsr v c).2 = true) :
    (s.writeCsr v c).1 = if c = .cmd then { s with status := { s.status with ovr := true } } else s := by
  cases c
  case cmd => cases hb : s.status.busy <;> simp_all [State.writeCsr, State.writeCmd]
  all_goals simp_all [State.writeCsr]

theorem Csr.offset_eq_cmd_iff {c : Csr} : c.offset = 0x10 ↔ c = .cmd := by cases c <;> decide

/-- A write away from the registers and from RAM the host can reach does nothing and gets SLVERR (rules R62, R63, R68,
R69). -/
theorem State.writeWord_unanswered {s : State} {a : Nat} (v : Word)
    (h : ¬(a % 4 = 0 ∧ (a < 0x50 ∨ s.status.busy = false ∧ 0x10000 ≤ a ∧ a < 0x24800))) :
    s.writeWord a v = (s, true) := by
  rcases s.writeWord_cases a v with hw | ⟨c, rfl, -⟩ | ⟨n, hb, h4, -, hn, -⟩
  · exact hw
  · exact absurd ⟨c.offset_aligned, .inl c.offset_lt⟩ h
  · exact absurd ⟨h4, .inr ⟨hb, by omega, by omega⟩⟩ h

/-- A write to RAM while no command runs is answered OKAY (rules R61, R68). -/
theorem State.writeWord_ram_okay {s : State} {a : Nat} (v : Word) (hb : s.status.busy = false) (h4 : a % 4 = 0)
    (h1 : 0x10000 ≤ a) (h2 : a < 0x24800) : (s.writeWord a v).2 = false := by
  by_cases hz : 0x20000 ≤ a ∧ a ≤ 0x23FFF
  · rw [State.writeWord_z v hb h4 hz.1 hz.2]
  · rw [State.writeWord_ram v hb h4 (by omega)]

/-- Which writes are answered OKAY (rules R61, R62, R63, R68, R69, R262). -/
theorem State.writeWord_okay_iff {s : State} {a : Nat} {v : Word} :
    (s.writeWord a v).2 = false ↔
      a % 4 = 0 ∧ (a = 0x08 ∨ a = 0x0C ∨ (a = 0x10 ∧ s.status.busy = false) ∨ (0x20 ≤ a ∧ a < 0x50) ∨
        (s.status.busy = false ∧ 0x10000 ≤ a ∧ a < 0x24800)) := by
  by_cases h : a % 4 = 0 ∧ (a < 0x50 ∨ s.status.busy = false ∧ 0x10000 ≤ a ∧ a < 0x24800)
  · obtain ⟨h4, hc | ⟨hb, h1, h2⟩⟩ := h
    · obtain ⟨c, rfl⟩ := exists_csr_offset h4 hc
      rw [State.writeWord_csr, State.writeCsr_okay_iff]
      simp [h4, hc, show ¬0x10000 ≤ c.offset by omega]
    · simp only [State.writeWord_ram_okay v hb h4 h1 h2, hb, h4, h1, h2, and_true, or_true]
  · rw [State.writeWord_unanswered v h]
    simp only [Bool.true_eq_false, false_iff]
    rintro ⟨h4, hr⟩
    refine h ⟨h4, ?_⟩
    rcases hr with ha | ha | ⟨ha, -⟩ | ⟨-, ha⟩ | ha
    case inr.inr.inr.inr => exact .inr ha
    all_goals exact .inl (by omega)

/-- A write that gets SLVERR does nothing but set OVR, and that only at CMD (rules R62, R63, R68, R69, R265). -/
theorem State.writeWord_slverr {s : State} {a : Nat} {v : Word} (h : (s.writeWord a v).2 = true) :
    (s.writeWord a v).1 = if a = 0x10 then { s with status := { s.status with ovr := true } } else s := by
  by_cases hc : a % 4 = 0 ∧ a < 0x50
  · obtain ⟨c, rfl⟩ := exists_csr_offset hc.1 hc.2
    rw [State.writeWord_csr] at h ⊢
    rw [State.writeCsr_slverr h]
    simp only [Csr.offset_eq_cmd_iff]
  · have hw : s.writeWord a v = (s, true) := State.writeWord_unanswered v fun ⟨h4, hr⟩ => by
      rcases hr with hl | ⟨hb, h1, h2⟩
      · exact hc ⟨h4, hl⟩
      · simp [State.writeWord_ram_okay v hb h4 h1 h2] at h
    rw [hw, if_neg (by omega)]

/-! ## CMD -/

theorem State.writeWord_cmd_idle {s : State} (w : Word) (hb : s.status.busy = false) :
    s.writeWord 0x10 w = (s.accept w, false) := by
  rw [show 0x10 = Csr.cmd.offset from rfl, State.writeWord_csr]
  simp [State.writeCsr, State.writeCmd, hb]

theorem State.writeWord_cmd_busy {s : State} (w : Word) (hb : s.status.busy = true) :
    s.writeWord 0x10 w = ({ s with status := { s.status with ovr := true } }, true) := by
  rw [show 0x10 = Csr.cmd.offset from rfl, State.writeWord_csr]
  simp [State.writeCsr, State.writeCmd, hb]

/-- With a command running and out of reset, the engine's turn is the meaning of the decoded command (rules R46, R100). -/
theorem State.engineTurn_of_decode {s : State} {i : Instr} (hr : s.inReset = false) (hb : s.status.busy = true)
    (hi : decode s.cmd = .ok i) : s.engineTurn = exec i s := by
  simp [State.engineTurn, hr, hb, hi]

/-- With no event listed, a step is the engine's turn (log entry 1). -/
theorem step_of_no_inputs {s : State} (h : s.inputs = []) : step s = s.engineTurn := by
  simp [step, h]

/-- Settles O13, from the two answers of the bus, each said once for reads and for writes. -/
theorem busErrorsAreAnswers : Obligations.BusErrorsAreAnswers := by
  unfold Obligations.BusErrorsAreAnswers
  intro s a v _
  refine ⟨?_, State.readWord_slverr, State.writeWord_okay_iff, State.writeWord_slverr⟩
  rw [State.readWord_okay_iff, State.busRefuses_eq_false_iff, regionOf_isSome_iff]
  rcases s.status.busy
  · simp only [true_and, or_true, and_true]
  · simp only [Bool.true_eq_false, false_and, or_false]
    omega

/-- Settles O20, from what a write to CMD does to an idle and to a busy machine. -/
theorem cmdWriteIsAcceptedOrRefused : Obligations.CmdWriteIsAcceptedOrRefused := by
  unfold Obligations.CmdWriteIsAcceptedOrRefused
  refine ⟨rfl, fun s w => ⟨State.readWord_csr s .cmd, fun hb hr hi i hd => ?_, fun hb => ?_,
    State.writeWord_cmd_busy w⟩⟩
  · rw [State.writeWord_cmd_idle w hb, step_of_no_inputs (s := s.accept w) hi]
    exact State.engineTurn_of_decode hr rfl hd
  · exact State.writeWord_cmd_idle w hb

end Sys2Proof.Machine
end

section
/-! SUPPORT. Writing the same bytes, or the same word to a register, twice is writing them once; what a host write leaves,
below RAM and above; and a host write does not look at the events still to come. -/

namespace Sys2Proof.Machine

/-! ## Memory -/

theorem Memory.write_write_same (m : Memory) (a : Nat) (v : Byte) : (m.write a v).write a v = m.write a v := by
  induction m with
  | nil => simp [Memory.write]
  | cons c m ih =>
    rw [Memory.write]
    split
    · simp [Memory.write]
    · split
      · simp [Memory.write]
      · rename_i hlt hne
        simp [Memory.write, hlt, hne, ih]

/-- A cell that stands in its place stands there still after a write above it. -/
theorem Memory.write_eq_self_write {m : Memory} {a b : Nat} {v w : Byte} (h : m.write a v = m) (hab : a < b) :
    (m.write b w).write a v = m.write b w := by
  induction m with
  | nil => simp [Memory.write] at h
  | cons c m ih =>
    rcases Nat.lt_trichotomy a c.1 with hc | hc | hc
    · simpa [Memory.write, hc] using congrArg List.length h
    · have hcell : (a, v) = c := by simpa [Memory.write, hc] using h
      simp [Memory.write, ← hcell, show ¬b < a by omega, show b ≠ a by omega]
    · have hm : Memory.write m a v = m := by
        simpa [Memory.write, show ¬a < c.1 by omega, show a ≠ c.1 by omega] using h
      simp [Memory.write, show ¬b < c.1 by omega, show b ≠ c.1 by omega, show ¬a < c.1 by omega,
        show a ≠ c.1 by omega, ih hm]

theorem Memory.write_eq_self_writeBytes {m : Memory} {a b : Nat} {v : Byte} {ws : List Byte} (h : m.write a v = m)
    (hab : a < b) : (m.writeBytes b ws).write a v = m.writeBytes b ws := by
  induction ws generalizing m b with
  | nil => exact h
  | cons w ws ih => exact ih (Memory.write_eq_self_write h hab) (by omega)

theorem Memory.writeBytes_writeBytes_same (m : Memory) (a : Nat) (vs : List Byte) :
    (m.writeBytes a vs).writeBytes a vs = m.writeBytes a vs := by
  induction vs generalizing m a with
  | nil => rfl
  | cons v vs ih =>
    have hv : ((m.write a v).writeBytes (a + 1) vs).write a v = (m.write a v).writeBytes (a + 1) vs :=
      Memory.write_eq_self_writeBytes (Memory.write_write_same m a v) (Nat.lt_succ_self a)
    rw [Memory.writeBytes, Memory.writeBytes, hv, ih]

/-! ## Registers -/

@[simp] theorem hiWord_setLo (r : B64) (v : Word) : hiWord (setLo r v) = hiWord r :=
  BitVec.extractLsb'_append_eq_left

@[simp] theorem loWord_setHi (r : B64) (v : Word) : loWord (setHi r v) = loWord r :=
  BitVec.extractLsb'_append_eq_right

theorem setLo_setLo (r : B64) (v : Word) : setLo (setLo r v) v = setLo r v := by
  rw [setLo, hiWord_setLo, setLo]

theorem setHi_setHi (r : B64) (v : Word) : setHi (setHi r v) v = setHi r v := by
  rw [setHi, loWord_setHi, setHi]

theorem Status.writeOneToClear_writeOneToClear (t : Status) (v : Word) :
    (t.writeOneToClear v).writeOneToClear v = t.writeOneToClear v := by
  simp +contextual [Status.writeOneToClear]

/-- A write to any register but CMD, made twice, is the write made once (rule R70). -/
theorem State.writeCsr_writeCsr {c : Csr} (s : State) (v : Word) (hc : c ≠ .cmd) :
    (s.writeCsr v c).1.writeCsr v c = s.writeCsr v c := by
  cases c
  case cmd => exact absurd rfl hc
  case status => simp [State.writeCsr, State.clearStatus, Status.writeOneToClear_writeOneToClear]
  case muLo | sigmaLo | sigminLo | xLo | ccsLo => simp [State.writeCsr, setLo_setLo]
  case muHi | sigmaHi | sigminHi | xHi | ccsHi => simp [State.writeCsr, setHi_setHi]
  all_goals rfl

/-! ## A host write -/

/-- A write to any location but CMD, made twice, is the write made once (rule R70). -/
theorem State.writeWord_writeWord {a : Nat} (s : State) (v : Word) (ha : a ≠ 0x10) :
    (s.writeWord a v).1.writeWord a v = s.writeWord a v := by
  rcases s.writeWord_cases a v with h | ⟨c, rfl, h⟩ | ⟨n, hb, h4, -, ⟨rfl, hr⟩ | ⟨rfl, h1, h2⟩, h⟩
  · rw [h, h]
  · rw [h, State.writeWord_csr, State.writeCsr_writeCsr s v (mt Csr.offset_eq_cmd_iff.2 ha)]
  · rw [h, State.writeWord_ram v (by exact hb) h4 hr, Memory.writeBytes_writeBytes_same]
  · rw [h, State.writeWord_z v (by exact hb) h4 h1 h2, Memory.writeBytes_writeBytes_same]

/-- What a write to a register other than CMD and STATUS leaves, register by register (rules R24 to R40). -/
theorem State.writeWord_below_ram {a : Nat} (s : State) (v : Word) (hs : a ≠ 0x0C) (hc : a ≠ 0x10)
    (h : a < 0x10000) :
    (s.writeWord a v).1 =
      { s with
        ctrlIe := if a = 0x08 then v.getLsbD 0 else s.ctrlIe
        mu := if a = 0x20 then setLo s.mu v else if a = 0x24 then setHi s.mu v else s.mu
        sigma := if a = 0x28 then setLo s.sigma v else if a = 0x2C then setHi s.sigma v else s.sigma
        sigmin := if a = 0x30 then setLo s.sigmin v else if a = 0x34 then setHi s.sigmin v else s.sigmin
        x := if a = 0x38 then setLo s.x v else if a = 0x3C then setHi s.x v else s.x
        ccs := if a = 0x40 then setLo s.ccs v else if a = 0x44 then setHi s.ccs v else s.ccs
        budget := if a = 0x48 then v.extractLsb' 0 12 else s.budget
        inlen := if a = 0x4C then v.extractLsb' 0 12 else s.inlen } := by
  by_cases hr : a % 4 = 0 ∧ a < 0x50
  · obtain ⟨c, rfl⟩ := exists_csr_offset hr.1 hr.2
    rw [State.writeWord_csr]
    cases c
    case status => exact absurd rfl hs
    case cmd => exact absurd rfl hc
    case budget | inlen => simp [State.writeCsr, Csr.offset, BitVec.setWidth_eq_extractLsb']
    all_goals rfl
  · have hne : ∀ k, k % 4 = 0 → k < 0x50 → a ≠ k := fun k hk hl e => hr ⟨e ▸ hk, e ▸ hl⟩
    rw [State.writeWord_unanswered v (by omega)]
    simp [hne]

/-- What a write at or above the first byte of RAM leaves: nothing new with SLVERR, and else the bytes of its word
(rules R64 to R66, R68). -/
theorem State.writeWord_okay_above {s : State} {a : Nat} {v : Word} (ha : 0x10000 ≤ a)
    (h : (s.writeWord a v).2 = false) :
    (s.writeWord a v).1 =
      { s with mem := s.mem.writeBytes a (bytesOf (if 0x20000 ≤ a ∧ a < 0x24000 then 2 else 4) v.toNat) } := by
  rcases s.writeWord_cases a v with hw | ⟨c, rfl, -⟩ | ⟨n, -, -, -, ⟨rfl, hr⟩ | ⟨rfl, h1, h2⟩, hw⟩
  · rw [hw] at h; cases h
  · exact absurd c.offset_lt (by omega)
  · rw [hw, if_neg (by omega)]
  · rw [hw, if_pos ⟨h1, by omega⟩]

/-- A write to a register does not look at the events still to come, and keeps them. -/
theorem State.writeCsr_inputs (s : State) (l : List Input) (v : Word) (c : Csr) :
    ({ s with inputs := l } : State).writeCsr v c = ({ (s.writeCsr v c).1 with inputs := l }, (s.writeCsr v c).2) := by
  cases c
  case cmd => cases hb : s.status.busy <;> simp [State.writeCsr, State.writeCmd, hb, State.accept, State.latch]
  all_goals rfl

/-- A host write does not look at the events still to come, and keeps them. -/
theorem State.writeWord_inputs (s : State) (l : List Input) (a : Nat) (v : Word) :
    ({ s with inputs := l } : State).writeWord a v =
      ({ (s.writeWord a v).1 with inputs := l }, (s.writeWord a v).2) := by
  by_cases h : a % 4 = 0 ∧ (a < 0x50 ∨ s.status.busy = false ∧ 0x10000 ≤ a ∧ a < 0x24800)
  · obtain ⟨h4, hc | ⟨hb, h1, h2⟩⟩ := h
    · obtain ⟨c, rfl⟩ := exists_csr_offset h4 hc
      rw [State.writeWord_csr, State.writeWord_csr, State.writeCsr_inputs]
    · by_cases hz : 0x20000 ≤ a ∧ a ≤ 0x23FFF
      · rw [State.writeWord_z v hb h4 hz.1 hz.2]
        exact State.writeWord_z v hb h4 hz.1 hz.2
      · have hr : 0x10000 ≤ a ∧ a ≤ 0x1FFFF ∨ 0x24000 ≤ a ∧ a ≤ 0x247FF := by omega
        rw [State.writeWord_ram v hb h4 hr]
        exact State.writeWord_ram v hb h4 hr
  · rw [State.writeWord_unanswered v h]
    exact State.writeWord_unanswered v h

/-- Out of reset, a host access that is the next event is made in the state that no longer lists it (log entry 1). -/
theorem step_host {s : State} {x : Access} {rest : List Input} (hr : s.inReset = false)
    (hi : s.inputs = .host x :: rest) : step s = .next (({ s with inputs := rest } : State).access x) := by
  simp [step, hi, State.applyInput, State.hostAccess, hr]

/-- Settles O14, from what a host write does below RAM and above, and that a second write finds what the first left. -/
theorem onlyCmdAndStatusWritesHaveSideEffects : Obligations.OnlyCmdAndStatusWritesHaveSideEffects := by
  unfold Obligations.OnlyCmdAndStatusWritesHaveSideEffects
  refine ⟨fun s a rest hr hi => ?_, fun s a v rest hr hi => ?_, fun s a v ha => State.writeWord_writeWord s v ha,
    fun s a v => State.writeWord_below_ram s v, fun s a v ha => ⟨fun h => ?_, fun h => ?_⟩⟩
  · exact step_host hr hi
  · rw [step_host hr hi, State.access, State.writeWord_inputs]
  · rw [State.writeWord_slverr h, if_neg (by omega)]
  · have hw := State.writeWord_okay_above ha h
    refine ⟨hw, fun b hb => State.byteAt_congr ?_ (by rw [hw])⟩
    rw [hw]
    exact Memory.read_writeBytes_outside _ _ _ _ (by simpa using hb)

end Sys2Proof.Machine
end

section
/-! SUPPORT. The entries of the banks and the bytes of BYTEBUF as words of the host bus, for reading and for writing. -/

namespace Sys2Proof.Machine

/-! ## Little-endian numbers as bit vectors -/

theorem numberOf_append (xs ys : List Byte) :
    numberOf (xs ++ ys) = numberOf xs + 256 ^ xs.length * numberOf ys := by
  induction xs with
  | nil => simp [numberOf]
  | cons x xs ih =>
    rw [List.cons_append, numberOf, ih, numberOf, List.length_cons, pow_succ']
    ring

/-- The number of two runs of bytes is the second above the first. -/
theorem ofNat_numberOf_append {m n : Nat} (xs ys : List Byte) (hn : 8 * xs.length = n) :
    BitVec.ofNat (m + n) (numberOf (xs ++ ys)) = BitVec.ofNat m (numberOf ys) ++ BitVec.ofNat n (numberOf xs) := by
  have hp : 256 ^ xs.length = 2 ^ n := by rw [← hn, pow_mul]; rfl
  have hx : numberOf xs < 2 ^ n := hp ▸ numberOf_lt xs
  apply BitVec.eq_of_toNat_eq
  calc (BitVec.ofNat (m + n) (numberOf (xs ++ ys))).toNat
    _ = (numberOf xs + 2 ^ n * numberOf ys) % (2 ^ n * 2 ^ m) := by
        rw [BitVec.toNat_ofNat, numberOf_append, hp, pow_add, Nat.mul_comm (2 ^ m)]
    _ = (numberOf ys % 2 ^ m) <<< n + numberOf xs := by
        rw [Nat.mod_mul, Nat.add_mul_mod_self_left, Nat.mod_eq_of_lt hx, Nat.add_mul_div_left _ _ (by positivity),
          Nat.div_eq_of_lt hx, Nat.zero_add, Nat.shiftLeft_eq, Nat.add_comm, Nat.mul_comm]
    _ = (BitVec.ofNat m (numberOf ys) ++ BitVec.ofNat n (numberOf xs)).toNat := by
        rw [BitVec.toNat_append, BitVec.toNat_ofNat, BitVec.toNat_ofNat, Nat.mod_eq_of_lt hx,
          Nat.shiftLeft_add_eq_or_of_lt hx]

theorem ofNat_numberOf_cons {m : Nat} (b : Byte) (bs : List Byte) :
    BitVec.ofNat (m + 8) (numberOf (b :: bs)) = BitVec.ofNat m (numberOf bs) ++ b := by
  have h := ofNat_numberOf_append (m := m) [b] bs rfl
  simpa [numberOf] using h

/-- A byte of a number is eight of its bits (rule R64). -/
theorem bytesOf_getElem (n v k : Nat) (h : k < (bytesOf n v).length) :
    (bytesOf n v)[k] = BitVec.ofNat 8 (v / 256 ^ k) := by
  induction n generalizing v k with
  | zero => simp at h
  | succ n ih =>
    cases k with
    | zero => simp [bytesOf]
    | succ k => simp [bytesOf, ih, pow_succ', Nat.div_div_eq_div_mul]

theorem bytesOf_four_getElem (v : Word) (k : Nat) (h : k < (bytesOf 4 v.toNat).length) :
    (bytesOf 4 v.toNat)[k] = v.extractLsb' (8 * k) 8 := by
  rw [bytesOf_getElem, BitVec.extractLsb', Nat.shiftRight_eq_div_pow, pow_mul]
  rfl

/-! ## Words of RAM -/

theorem State.bytesAt_add (s : State) (a m n : Nat) : s.bytesAt a (m + n) = s.bytesAt a m ++ s.bytesAt (a + m) n := by
  simp [State.bytesAt, List.range_add, Nat.add_assoc, Function.comp_def]

theorem State.bytesAt_succ (s : State) (a n : Nat) : s.bytesAt a (n + 1) = s.byteAt a :: s.bytesAt (a + 1) n := by
  rw [Nat.add_comm, State.bytesAt_add]
  rfl

/-- A word of RAM is its four bytes, the lowest address lowest (rule R64). -/
theorem State.ramWord_eq_bytes (s : State) (a : Nat) :
    s.ramWord a = s.byteAt (a + 3) ++ s.byteAt (a + 2) ++ s.byteAt (a + 1) ++ s.byteAt a := by
  have h3 : BitVec.ofNat 8 (numberOf (s.bytesAt (a + 3) 1)) = s.byteAt (a + 3) := by
    simp [State.bytesAt, numberOf]
  have h2 : BitVec.ofNat 16 (numberOf (s.bytesAt (a + 2) 2)) = s.byteAt (a + 3) ++ s.byteAt (a + 2) := by
    rw [State.bytesAt_succ, ← h3]
    exact ofNat_numberOf_cons _ _
  have h1 : BitVec.ofNat 24 (numberOf (s.bytesAt (a + 1) 3)) =
      s.byteAt (a + 3) ++ s.byteAt (a + 2) ++ s.byteAt (a + 1) := by
    rw [State.bytesAt_succ, ← h2]
    exact ofNat_numberOf_cons _ _
  rw [State.ramWord, State.bytesAt_succ, ← h1]
  exact ofNat_numberOf_cons _ _

/-- Eight bytes of RAM are two words, the lower address lower (rule R65). -/
theorem State.ofNat_bytesAt_eight (s : State) (a : Nat) :
    BitVec.ofNat 64 (numberOf (s.bytesAt a 8)) = s.ramWord (a + 4) ++ s.ramWord a := by
  have h := ofNat_numberOf_append (m := 32) (n := 32) (s.bytesAt a 4) (s.bytesAt (a + 4) 4)
    (by rw [State.bytesAt_length])
  rw [← State.bytesAt_add] at h
  exact h

/-- An entry of an F bank is four words: re low and high, im low and high (rule R65). -/
theorem State.fEntry_eq_words (s : State) (b : Bank) (i : Nat) :
    s.fEntry b i =
      ⟨s.ramWord (fAddr b i + 4) ++ s.ramWord (fAddr b i),
       s.ramWord (fAddr b i + 12) ++ s.ramWord (fAddr b i + 8)⟩ := by
  rw [State.fEntry, State.ofNat_bytesAt_eight, State.ofNat_bytesAt_eight]

/-- The word of an entry of a Z bank is the entry with sixteen 0 bits above it (rule R66). -/
theorem State.zWord_eq (s : State) (b : Bank) (i : Nat) : s.zWord (zAddr b i) = (s.zEntry b i).setWidth 32 := by
  have h : numberOf (s.bytesAt (zAddr b i) 2) < 2 ^ 16 := by simpa using numberOf_lt (s.bytesAt (zAddr b i) 2)
  rw [State.zWord, State.zEntry, BitVec.setWidth_ofNat_of_le_of_lt (by decide) h]

/-! ## Words after a store -/

theorem State.byteAt_writeBytes {s t : State} {a k : Nat} {vs : List Byte} (hm : t.mem = s.mem.writeBytes a vs)
    (hk : k < vs.length) : t.byteAt (a + k) = vs[k] :=
  State.byteAt_of_read (by rw [hm]; exact Memory.read_writeBytes_inside _ _ _ _ hk)

theorem State.bytesAt_writeBytes {s t : State} {a : Nat} {vs : List Byte} (hm : t.mem = s.mem.writeBytes a vs) :
    t.bytesAt a vs.length = vs :=
  State.bytesAt_eq_of_forall fun _ hj => State.byteAt_writeBytes hm hj

/-- A word of RAM after a word has been stored, at the same place or clear of it. -/
theorem State.ramWord_store {s t : State} {a c : Nat} {v : Word}
    (hm : t.mem = s.mem.writeBytes a (bytesOf 4 v.toNat)) (hr : t.resets = s.resets)
    (h : c = a ∨ c + 4 ≤ a ∨ a + 4 ≤ c) : t.ramWord c = if c = a then v else s.ramWord c := by
  rcases h with rfl | h
  · have hb : t.bytesAt c 4 = bytesOf 4 v.toNat := by simpa using State.bytesAt_writeBytes hm
    have hv : v.toNat % 256 ^ 4 = v.toNat := Nat.mod_eq_of_lt v.isLt
    rw [if_pos rfl, State.ramWord, hb, numberOf_bytesOf, hv, BitVec.ofNat_toNat, BitVec.setWidth_eq]
  · rw [if_neg (by omega), State.ramWord, State.ramWord,
      State.bytesAt_congr fun j hj => State.byteAt_congr (s := s) ?_ hr]
    rw [hm]
    exact Memory.read_writeBytes_outside _ _ _ _ (by rw [bytesOf_length]; omega)

theorem State.zEntry_store {s t : State} {b : Bank} {i : Nat} {v : Word}
    (hm : t.mem = s.mem.writeBytes (zAddr b i) (bytesOf 2 v.toNat)) : t.zEntry b i = v.setWidth 16 := by
  have h : t.bytesAt (zAddr b i) 2 = bytesOf 2 v.toNat := by simpa using State.bytesAt_writeBytes hm
  apply BitVec.eq_of_toNat_eq
  simp [State.zEntry, h, numberOf_bytesOf]

/-! ## The map's places -/

/-- While no command runs, the word at an aligned place of an F entry is the host's to read (rule R65). -/
theorem State.readWord_f {s : State} {b : Bank} {i k : Nat} (hb : s.status.busy = false) (hi : i < 1024)
    (hk : k < 16) (h4 : k % 4 = 0) : s.readWord (fAddr b i + k) = (s.ramWord (fAddr b i + k), false) := by
  have hbank := b.isLt
  apply State.readWord_ram hb
  · rw [fAddr]; omega
  · left; rw [fAddr]; omega

theorem State.writeWord_f {s : State} {b : Bank} {i k : Nat} (v : Word) (hb : s.status.busy = false) (hi : i < 1024)
    (hk : k < 16) (h4 : k % 4 = 0) :
    (s.writeWord (fAddr b i + k) v).1 = { s with mem := s.mem.writeBytes (fAddr b i + k) (bytesOf 4 v.toNat) } := by
  have hbank := b.isLt
  rw [State.writeWord_ram v hb]
  · rw [fAddr]; omega
  · left; rw [fAddr]; omega

theorem zAddr_mapped (b : Bank) {i : Nat} (hi : i < 1024) :
    zAddr b i % 4 = 0 ∧ 0x20000 ≤ zAddr b i ∧ zAddr b i ≤ 0x23FFF := by
  have hbank := b.isLt
  rw [zAddr]
  omega

theorem bufAddr_mapped {w : Nat} (hw : w < 512) :
    bufAddr (4 * w) % 4 = 0 ∧ 0x24000 ≤ bufAddr (4 * w) ∧ bufAddr (4 * w) ≤ 0x247FF := by
  rw [bufAddr]
  omega

section
variable {s : State} {b : Bank} {i : Nat} (hb : s.status.busy = false) (hi : i < 1024)
include hb hi

/-- The four words of an F entry as the host reads them (rule R65). -/
theorem State.readWord_fEntry :
    s.readWord (fAddr b i) = ((s.fEntry b i).re.extractLsb' 0 32, false) ∧
    s.readWord (fAddr b i + 4) = ((s.fEntry b i).re.extractLsb' 32 32, false) ∧
    s.readWord (fAddr b i + 8) = ((s.fEntry b i).im.extractLsb' 0 32, false) ∧
    s.readWord (fAddr b i + 12) = ((s.fEntry b i).im.extractLsb' 32 32, false) := by
  rw [State.fEntry_eq_words, BitVec.extractLsb'_append_eq_right, BitVec.extractLsb'_append_eq_left,
    BitVec.extractLsb'_append_eq_right, BitVec.extractLsb'_append_eq_left]
  exact ⟨State.readWord_f (k := 0) hb hi (by decide) rfl, State.readWord_f (k := 4) hb hi (by decide) rfl,
    State.readWord_f (k := 8) hb hi (by decide) rfl, State.readWord_f (k := 12) hb hi (by decide) rfl⟩

/-- An F entry after a word has been written at place `k` of it: that word is the new one, the other three are the old
ones (rule R65). -/
theorem State.fEntry_writeWord {k : Nat} (v : Word) (hk : k < 16) (h4 : k % 4 = 0) :
    (s.writeWord (fAddr b i + k) v).1.fEntry b i =
      ⟨if k = 0 then setLo (s.fEntry b i).re v else if k = 4 then setHi (s.fEntry b i).re v else (s.fEntry b i).re,
       if k = 8 then setLo (s.fEntry b i).im v else if k = 12 then setHi (s.fEntry b i).im v
         else (s.fEntry b i).im⟩ := by
  have hw := State.writeWord_f (b := b) v hb hi hk h4
  have hr : (s.writeWord (fAddr b i + k) v).1.resets = s.resets := by rw [hw]
  have hword : ∀ j, j % 4 = 0 → (s.writeWord (fAddr b i + k) v).1.ramWord (fAddr b i + j) =
      if j = k then v else s.ramWord (fAddr b i + j) := fun j hj => by
    rw [State.ramWord_store (congrArg State.mem hw) hr (by omega)]
    simp only [Nat.add_left_cancel_iff]
  have h0 := hword 0 rfl
  rw [Nat.add_zero] at h0
  simp only [State.fEntry_eq_words, setLo, setHi, hiWord, loWord, BitVec.extractLsb'_append_eq_left,
    BitVec.extractLsb'_append_eq_right, h0, hword 4 rfl, hword 8 rfl, hword 12 rfl]
  obtain rfl | rfl | rfl | rfl : k = 0 ∨ k = 4 ∨ k = 8 ∨ k = 12 := by omega
  all_goals rfl

/-- The host reads an entry of a Z bank in the low half of its word (rule R66). -/
theorem State.readWord_zEntry : s.readWord (zAddr b i) = ((s.zEntry b i).setWidth 32, false) := by
  obtain ⟨h4, h1, h2⟩ := zAddr_mapped b hi
  rw [State.readWord_z hb h4 h1 h2, State.zWord_eq]

/-- A write to an entry of a Z bank stores the low half of the word (rule R66). -/
theorem State.zEntry_writeWord (v : Word) : (s.writeWord (zAddr b i) v).1.zEntry b i = v.setWidth 16 := by
  obtain ⟨h4, h1, h2⟩ := zAddr_mapped b hi
  rw [State.writeWord_z v hb h4 h1 h2]
  exact State.zEntry_store (s := s) rfl

end

/-- The host reads four bytes of BYTEBUF in a word, the first lowest (rule R64). -/
theorem State.readWord_buf {s : State} {w : Nat} (hb : s.status.busy = false) (hw : w < 512) :
    s.readWord (bufAddr (4 * w)) =
      (s.bufByte (4 * w + 3) ++ s.bufByte (4 * w + 2) ++ s.bufByte (4 * w + 1) ++ s.bufByte (4 * w), false) := by
  obtain ⟨h4, h⟩ := bufAddr_mapped hw
  rw [State.readWord_ram hb h4 (.inr h), State.ramWord_eq_bytes]
  rfl

/-- A write to BYTEBUF stores the four bytes of its word, the lowest first (rule R64). -/
theorem State.bufByte_writeWord {s : State} {w k : Nat} (v : Word) (hb : s.status.busy = false) (hw : w < 512)
    (hk : k < 4) : (s.writeWord (bufAddr (4 * w)) v).1.bufByte (4 * w + k) = v.extractLsb' (8 * k) 8 := by
  obtain ⟨h4, h⟩ := bufAddr_mapped hw
  have hm := congrArg (fun p => p.1.mem) (State.writeWord_ram v hb h4 (.inr h))
  have hk' : k < (bytesOf 4 v.toNat).length := by rwa [bytesOf_length]
  rw [State.bufByte, show bufAddr (4 * w + k) = bufAddr (4 * w) + k from (Nat.add_assoc ..).symm,
    State.byteAt_writeBytes hm hk', bytesOf_four_getElem]

/-- Settles O16, region by region: an entry is its words, and a write to one of them changes that word of it alone. -/
theorem entriesLieWhereTheMapSays : Obligations.EntriesLieWhereTheMapSays := by
  unfold Obligations.EntriesLieWhereTheMapSays
  intro s b i v hb hi f z
  -- The statement writes the addresses out; the lemmas name them.
  have hf : f = fAddr b i := rfl
  have hz : z = zAddr b i := rfl
  clear_value f z
  subst hf hz
  refine ⟨State.readWord_fEntry hb hi, State.readWord_zEntry hb hi, fun w hw => State.readWord_buf hb hw,
    ⟨?_, ?_, ?_, ?_⟩, State.zEntry_writeWord hb hi v, fun w hw k hk => State.bufByte_writeWord v hb hw hk⟩
  · exact State.fEntry_writeWord (k := 0) hb hi v (by decide) rfl
  · exact State.fEntry_writeWord (k := 4) hb hi v (by decide) rfl
  · exact State.fEntry_writeWord (k := 8) hb hi v (by decide) rfl
  · exact State.fEntry_writeWord (k := 12) hb hi v (by decide) rfl

end Sys2Proof.Machine
end

section
/-! SUPPORT. The five ROM windows: where the address map has them, and which word of which entry each address shows
(rules R61, R67). -/

namespace Sys2Proof.Machine

/-! ## Where the windows lie -/

/-- From the first ROM window's page on, the address map has the five ROM windows alone (rule R61). -/
theorem regionOf_rom {a : Nat} (h : 0x30000 ≤ a) : regionOf a =
    if 0x30020 ≤ a ∧ a ≤ 0x37FFF then some .twrom
    else if 0x38008 ≤ a ∧ a ≤ 0x39FFF then some .zrom
    else if 0x40000 ≤ a ∧ a ≤ 0x4C003 then some .invrom
    else if 0x4D000 ≤ a ∧ a ≤ 0x4D11F then some .cdtRom
    else if 0x4D200 ≤ a ∧ a ≤ 0x4D267 then some .expRom
    else none := by
  rw [regionOf_eq, if_neg (by omega), if_neg (by omega), if_neg (by omega), if_neg (by omega)]

theorem regionOf_twrom {a : Nat} (h1 : 0x30020 ≤ a) (h2 : a < 0x38000) : regionOf a = some .twrom := by
  rw [regionOf_rom (by omega), if_pos (by omega)]

theorem regionOf_zrom {a : Nat} (h1 : 0x38008 ≤ a) (h2 : a < 0x3A000) : regionOf a = some .zrom := by
  rw [regionOf_rom (by omega), if_neg (by omega), if_pos (by omega)]

theorem regionOf_invrom {a : Nat} (h1 : 0x40000 ≤ a) (h2 : a < 0x4C004) : regionOf a = some .invrom := by
  rw [regionOf_rom (by omega), if_neg (by omega), if_neg (by omega), if_pos (by omega)]

theorem regionOf_cdtRom {a : Nat} (h1 : 0x4D000 ≤ a) (h2 : a < 0x4D120) : regionOf a = some .cdtRom := by
  rw [regionOf_rom (by omega), if_neg (by omega), if_neg (by omega), if_neg (by omega), if_pos (by omega)]

theorem regionOf_expRom {a : Nat} (h1 : 0x4D200 ≤ a) (h2 : a < 0x4D268) : regionOf a = some .expRom := by
  rw [regionOf_rom (by omega), if_neg (by omega), if_neg (by omega), if_neg (by omega), if_neg (by omega),
    if_pos (by omega)]

/-- While no command runs, a read of an aligned address of a ROM window answers the word there (rule R67). -/
theorem State.readWord_rom {s : State} {a : Nat} {r : Region} (hb : s.status.busy = false) (h4 : a % 4 = 0)
    (ha : regionOf a = some r) (hr : r ∈ [Region.twrom, .zrom, .invrom, .cdtRom, .expRom]) :
    s.readWord a = (s.romWord r a, false) := by
  have hok : s.busRefuses a = false := State.busRefuses_eq_false_iff.2 ⟨h4, .inr hb⟩
  cases r
  case csr | fBank | zBank | byteBuf => simp at hr
  all_goals simp [State.readWord, hok, ha]

/-! ## What the windows show -/

section
variable {s : State} (hb : s.status.busy = false)
include hb

/-- Word `k` of entry `a` of TWROM (rule R67). -/
theorem State.readWord_twrom_entry {a k : Nat} (h1 : 2 ≤ a) (h2 : a ≤ 2047) (hk : k < 4) :
    s.readWord (0x30000 + 16 * a + 4 * k) = (cplxWord (twrom a) k, false) := by
  rw [State.readWord_rom hb (by omega) (regionOf_twrom (by omega) (by omega)) (by decide), State.romWord,
    show (0x30000 + 16 * a + 4 * k - 0x30000) / 16 = a by omega,
    show (0x30000 + 16 * a + 4 * k) / 4 % 4 = k by omega]

theorem State.readWord_zrom_entry {a : Nat} (h1 : 2 ≤ a) (h2 : a ≤ 2047) :
    s.readWord (0x38000 + 4 * a) = (BitVec.ofNat 32 (zrom a), false) := by
  rw [State.readWord_rom hb (by omega) (regionOf_zrom (by omega) (by omega)) (by decide), State.romWord,
    show (0x38000 + 4 * a - 0x38000) / 4 = a by omega]

theorem State.readWord_invrom_entry {a : Nat} (h : a ≤ 12288) :
    s.readWord (0x40000 + 4 * a) = (BitVec.ofNat 32 (invrom a), false) := by
  rw [State.readWord_rom hb (by omega) (regionOf_invrom (by omega) (by omega)) (by decide), State.romWord,
    show (0x40000 + 4 * a - 0x40000) / 4 = a by omega]

/-- Word `j` of entry `k` of CDT_ROM (rule R67). -/
theorem State.readWord_cdtRom_entry (k : Fin 18) {j : Nat} (hj : j < 4) :
    s.readWord (0x4D000 + 16 * k.val + 4 * j) = (cdtWord s.cdtRom[k] j, false) := by
  have hk := k.isLt
  rw [State.readWord_rom hb (by omega) (regionOf_cdtRom (by omega) (by omega)) (by decide), State.romWord,
    show (0x4D000 + 16 * k.val + 4 * j - 0x4D000) / 16 = k.val by omega,
    show (0x4D000 + 16 * k.val + 4 * j) / 4 % 4 = j by omega]
  simp [hk]

/-- Word `j` of entry `k` of EXP_ROM (rule R67). -/
theorem State.readWord_expRom_entry (k : Fin 13) {j : Nat} (hj : j < 2) :
    s.readWord (0x4D200 + 8 * k.val + 4 * j) = (expWord s.expRom[k] j, false) := by
  have hk := k.isLt
  rw [State.readWord_rom hb (by omega) (regionOf_expRom (by omega) (by omega)) (by decide), State.romWord,
    show (0x4D200 + 8 * k.val + 4 * j - 0x4D200) / 8 = k.val by omega,
    show (0x4D200 + 8 * k.val + 4 * j) / 4 % 2 = j by omega]
  simp [hk]

end

/-- Above bit 71 a CDT entry has no bits, so its third word is its top byte (rule R67). -/
theorem cdtWord_two (v : BitVec 72) : cdtWord v 2 = (v.extractLsb' 64 8).setWidth 32 := by
  apply BitVec.eq_of_toNat_eq
  have hv : v.toNat < 2 ^ 72 := v.isLt
  simp only [cdtWord, BitVec.extractLsb'_toNat, Nat.shiftRight_eq_div_pow, Nat.reducePow, BitVec.toNat_setWidth]
  omega

/-- Settles O17, window by window: an address of a window shows a word of an entry of its ROM, and no write is answered
there. -/
theorem romWindowsShowTheRoms : Obligations.RomWindowsShowTheRoms := by
  unfold Obligations.RomWindowsShowTheRoms
  intro s hb
  have hq : Config.q < 65536 := by decide
  refine ⟨fun a v ha => State.writeWord_unanswered v (by omega), fun a h1 h2 => ?_, fun a h1 h2 => ?_,
    fun a h => ?_, fun k => ?_, fun k => ?_⟩
  · have hread : ∀ k < 4, s.readWord (0x30000 + 16 * a + 4 * k) = (cplxWord (twrom a) k, false) := fun k =>
      State.readWord_twrom_entry hb h1 h2
    exact ⟨hread 0 (by decide), hread 1 (by decide), hread 2 (by decide), hread 3 (by decide)⟩
  · exact ⟨(zrom_pos_lt h1 (by omega)).2.trans hq, State.readWord_zrom_entry hb h1 h2⟩
  · exact ⟨(invrom_lt a).trans hq, State.readWord_invrom_entry hb h⟩
  · have hread : ∀ j < 4, s.readWord (0x4D000 + 16 * k.val + 4 * j) = (cdtWord s.cdtRom[k] j, false) := fun j =>
      State.readWord_cdtRom_entry hb k
    rw [← cdtWord_two]
    exact ⟨hread 0 (by decide), hread 1 (by decide), hread 2 (by decide), hread 3 (by decide)⟩
  · have hread : ∀ j < 2, s.readWord (0x4D200 + 8 * k.val + 4 * j) = (expWord s.expRom[k] j, false) := fun j =>
      State.readWord_expRom_entry hb k
    exact ⟨hread 0 (by decide), hread 1 (by decide)⟩

end Sys2Proof.Machine
end

section
/-! SUPPORT. Which words name a command, and the engine's turn on a word that names none. -/

namespace Sys2Proof.Machine

/-! ## Words that name a command -/

theorem fieldOp_lt (w : Word) : fieldOp w < 64 := Nat.mod_lt _ (by decide)

/-- The opcode map leaves out the reserved values of OP and no other (rules R87, R88). -/
theorem decodeOp_eq_none_iff (w : Word) : decodeOp w = none ↔ fieldOp w ∈ reservedOps := by
  have hlt := fieldOp_lt w
  unfold decodeOp
  split
  case h_34 =>
    -- The arm for the rest: of the 64 values of OP, those no other arm names are the reserved ones.
    refine iff_of_true rfl ?_
    simp only [imp_false, reservedOps, List.mem_cons, List.not_mem_nil, or_false] at *
    omega
  all_goals
    rename_i ho
    rw [ho]
    exact iff_of_false (Option.some_ne_none _) (by decide)

/-- A word is a command exactly when its reserved bits are clear and its OP is not reserved (rules R85, R88). -/
theorem exists_decode_eq_ok_iff (w : Word) : (∃ i, decode w = .ok i) ↔
    w.extractLsb' 14 2 = 0 ∧ w.extractLsb' 27 5 = 0 ∧ (w.extractLsb' 0 6).toNat ∉ reservedOps := by
  simp only [decode_eq_ok, exists_and_left]
  rw [reservedClear_iff, and_assoc, ← fieldOp_eq, ← decodeOp_eq_none_iff, ← ne_eq, Option.ne_none_iff_exists']

/-! ## The engine's turn -/

/-- With a command word running that names no command, the engine's turn is the completion with ILLEGAL_OP (rules R85,
R88, R263). -/
theorem State.engineTurn_of_no_command {s : State} (hr : s.inReset = false) (hb : s.status.busy = true)
    (hn : ¬∃ i, decode s.cmd = .ok i) : s.engineTurn = .next (s.raiseError .illegalOp) := by
  unfold State.engineTurn
  rw [if_neg (by simp [hr, hb])]
  cases hd : decode s.cmd with
  | error _ => rfl
  | ok i => exact absurd ⟨i, hd⟩ hn

/-- Where the next event is the engine's turn, a step is that turn in the state that no longer lists it (log entry 1). -/
theorem step_engine {s : State} {rest : List Input} (hi : s.inputs = .engine :: rest) :
    step s = ({ s with inputs := rest } : State).engineTurn := by
  simp [step, hi, State.applyInput]

/-- Settles O4, from which words are commands and from the engine's turn on a word that is none. -/
theorem reservedWordsEndInIllegalOp : Obligations.ReservedWordsEndInIllegalOp := by
  unfold Obligations.ReservedWordsEndInIllegalOp
  refine ⟨fun s rest hr hb hi hw => ?_, fun w h1 h2 h3 => (exists_decode_eq_ok_iff w).2 ⟨h1, h2, h3⟩, rfl⟩
  have hn : ¬∃ i, decode s.cmd = .ok i := by
    rw [exists_decode_eq_ok_iff]
    rintro ⟨h1, h2, h3⟩
    exact hw.elim (· h1) (·.elim (· h2) h3)
  refine ⟨_, ?_, State.failsWith_raiseError _ _⟩
  rw [step_engine hi]
  exact State.engineTurn_of_no_command hr hb hn

end Sys2Proof.Machine
end

section
/-! SUPPORT. The rule of a command that no check refuses; NOP and the ring split/merge mux, U1 (rules R101 to R105). -/

namespace Sys2Proof.Machine

/-- A command with no check always completes. -/
theorem commandRule_of_unchecked {op : BitVec 6} {i : Instr} {s : State} {effect : State → Prop} {m : Memory}
    (he : exec i s = runCommand none (.ok { mem := m, results := none }) s)
    (ho : BitVec.ofNat 6 (fieldOp (encode i)) = op) (hf : ∀ t : State, t.mem = m → t.resets = s.resets → effect t) :
    CommandRule op i s True True effect := by
  subst ho
  exact ⟨encodedAs i, fun h => absurd trivial h, fun _ h => absurd trivial h, fun _ _ =>
    ⟨_, he.trans (runCommand_ok _ rfl rfl), s.succeeds_finish m, hf _ rfl rfl⟩⟩

/-- The OP field of a packed word, as a bit field (rule R81). -/
theorem ofNat_fieldOp_packFields (op : Nat) (rd ra rb re : Bank) (n : Nat) (ho : op < 64) :
    BitVec.ofNat 6 (fieldOp (packFields op rd ra rb re n)) = BitVec.ofNat 6 op := by
  rw [fieldOp_packFields _ _ _ _ _ _ ho]

/-- With an even length the even half is as long as the odd half (rule R102). -/
theorem evens_map_range_of_even {α : Type} (f : Nat → α) {n : Nat} (h : n % 2 = 0) :
    evens ((List.range n).map f) = (List.range (n / 2)).map fun i => f (2 * i) := by
  rw [evens_map_range, show (n + 1) / 2 = n / 2 by omega]

/-- Settles O29: the two outputs are the evens and the odds of the source's entries as they were before the command. -/
theorem splitDeinterleaves : Obligations.SplitDeinterleaves := by
  unfold Obligations.SplitDeinterleaves
  intro rd re ra n s
  constructor
  · refine commandRule_of_split rfl (ofNat_fieldOp_packFields _ _ _ _ _ _ (by decide)) (LenClass.legal_S_iff n) rfl
      fun ⟨heven, _, hmax⟩ hne t hm hr => State.wroteFF_of hne (by omega) ?_ hr (by simp) (by simp)
    rw [hm, State.outFF_mem, State.fEntries, evens_map_range_of_even _ heven, odds_map_range]
  · refine commandRule_of_split rfl (ofNat_fieldOp_packFields _ _ _ _ _ _ (by decide)) (LenClass.legal_S_iff n) rfl
      fun ⟨heven, _, hmax⟩ hne t hm hr => State.wroteZZ_of hne (by omega) ?_ hr (by simp) (by simp)
    rw [hm, State.outZZ_mem, State.zEntries, evens_map_range_of_even _ heven, odds_map_range]

/-- Settles O30: the output interleaves the first ceil(n/2) entries of one source with the first floor(n/2) of the
other. -/
theorem mergeInterleaves : Obligations.MergeInterleaves := by
  unfold Obligations.MergeInterleaves
  intro rd ra rb n s
  constructor
  · refine commandRule_of_len rfl (ofNat_fieldOp_packFields _ _ _ _ _ _ (by decide)) (LenClass.legal_M_iff n) rfl
      fun _ t hm hr => State.wroteF_of ?_ hr (by simp)
    rw [hm, State.outF_mem, State.fEntries, State.fEntries, interleave_map_range]
  · refine commandRule_of_len rfl (ofNat_fieldOp_packFields _ _ _ _ _ _ (by decide)) (LenClass.legal_M_iff n) rfl
      fun _ t hm hr => State.wroteZ_of ?_ hr (by simp)
    rw [hm, State.outZ_mem, State.zEntries, State.zEntries, interleave_map_range]

/-- Settles O28: no check stands before the completion, and the memory that NOP leaves is the one it found. -/
theorem nopOnlyCompletes : Obligations.NopOnlyCompletes := by
  unfold Obligations.NopOnlyCompletes
  exact fun s => commandRule_of_unchecked rfl (ofNat_fieldOp_packFields _ _ _ _ _ _ (by decide))
    fun _ hm hr => State.wroteNothing_of hm hr

end Sys2Proof.Machine
end

section
/-! SUPPORT. The rule of a command with outputs in F banks; the recursion U2 and U3 share as an equation between a
transform of length n and those of length n / 2; and the FFT engine, U2 (rules R122, R126 to R142). -/

namespace Sys2Proof.Machine

variable {α : Type}

/-! ## Entries by index -/

theorem getElem?_eq_some_getD {l : List α} {i : Nat} (d : α) (h : i < l.length) : l[i]? = some (l.getD i d) := by
  simp [h]

/-- A list of known length is the list of its entries. -/
theorem eq_map_range_getD {l : List α} {n : Nat} (d : α) (hl : l.length = n) :
    l = (List.range n).map fun i => l.getD i d :=
  eq_map_range hl fun _ hi => getElem?_eq_some_getD d (hl ▸ hi)

/-- The even half of an even number of entries (rule R102). -/
theorem evens_eq_map_range_getD {l : List α} {n : Nat} (d : α) (hl : l.length = n) (h : n % 2 = 0) :
    evens l = (List.range (n / 2)).map fun i => l.getD (2 * i) d :=
  eq_map_range (by rw [evens_length]; omega) fun i hi => by
    rw [evens_getElem?, getElem?_eq_some_getD d (by omega)]

/-- The odd half (rule R102). -/
theorem odds_eq_map_range_getD {l : List α} {n : Nat} (d : α) (hl : l.length = n) :
    odds l = (List.range (n / 2)).map fun i => l.getD (2 * i + 1) d :=
  eq_map_range (by rw [odds_length, hl]) fun i hi => by
    rw [odds_getElem?, getElem?_eq_some_getD d (by omega)]

/-- The merge of two halves of an even number of entries (rule R103). -/
theorem interleave_eq_map_range_getD {a b : List α} {n : Nat} (d : α) (ha : a.length = n / 2) (hb : b.length = n / 2)
    (h : n % 2 = 0) :
    interleave a b = (List.range n).map fun k => (if k % 2 = 0 then a else b).getD (k / 2) d :=
  eq_map_range (by rw [interleave_length]; omega) fun k hk => by
    rw [interleave_getElem? _ _ (by omega) (by omega)]
    split
    · exact getElem?_eq_some_getD d (by omega)
    · exact getElem?_eq_some_getD d (by omega)

theorem zipWith_map_range {β γ : Type} (op : α → β → γ) (f : Nat → α) (g : Nat → β) (n : Nat) :
    List.zipWith op ((List.range n).map f) ((List.range n).map g) = (List.range n).map fun i => op (f i) (g i) := by
  rw [List.zipWith_map, List.zipWith_self]

/-! ## The recursion U2 and U3 share, at the transform lengths -/

/-- A transform length above 2 is twice a transform length, one level up. -/
theorem transformLens_half {n : Nat} (hn : n ∈ transformLens) (h2 : n ≠ 2) :
    n / 2 ∈ transformLens ∧ levelOf n = levelOf (n / 2) + 1 ∧ 2 ^ (levelOf (n / 2) + 2) = n := by
  revert n; decide

/-- The step of the forward recursion (rules R126, R166). -/
theorem transform_levelOf (u : Radix2 α) {n : Nat} (hn : n ∈ transformLens) (h2 : n ≠ 2) (f : List α) :
    transform u (levelOf n) f =
      mergePass u.fly n (transform u (levelOf (n / 2)) (evens f)) (transform u (levelOf (n / 2)) (odds f)) := by
  obtain ⟨-, hl, hp⟩ := transformLens_half hn h2
  rw [hl, transform, hp]

/-- The step of the inverse recursion, entry by entry (rules R127, R167). -/
theorem inverseTransform_levelOf (u : Radix2 α) (d : α) {n : Nat} {f : List α} (hn : n ∈ transformLens) (hne : n ≠ 2)
    (hf : f.length = n) :
    inverseTransform u (levelOf n) f = (List.range n).map fun k =>
      (inverseTransform u (levelOf (n / 2))
        (if k % 2 = 0 then (splitPass u.flyInv n f).1 else (splitPass u.flyInv n f).2)).getD (k / 2) d := by
  obtain ⟨hm, hl, hp⟩ := transformLens_half hn hne
  obtain ⟨h1, h2⟩ := splitPass_half u.flyInv n hf
  rw [hl, inverseTransform, hp, interleave_eq_map_range_getD d (inverseTransform_lens u hm h1)
    (inverseTransform_lens u hm h2) (transformLens_bounds hn).1]
  simp only [apply_ite]

/-- The split pass, entry by entry (rules R128, R168). -/
theorem splitPass_eq_map_range_getD (flyInv : Nat → α → α → α × α) (a : Nat) (d : α) {n : Nat} {f : List α}
    (hf : f.length = n) :
    splitPass flyInv a f =
      ((List.range (n / 2)).map fun i => (flyInv (a + 2 * i) (f.getD (2 * i) d) (f.getD (2 * i + 1) d)).1,
       (List.range (n / 2)).map fun i => (flyInv (a + 2 * i) (f.getD (2 * i) d) (f.getD (2 * i + 1) d)).2) := by
  conv_lhs => rw [eq_map_range_getD d hf, splitPass_map_range]

/-- The merge pass, entry by entry (rules R129, R169). -/
theorem mergePass_eq_map_range_getD (fly : Nat → α → α → α × α) (d : α) {n : Nat} {f g : List α}
    (h : n % 2 = 0) (hf : f.length = n / 2) (hg : g.length = n / 2) :
    mergePass fly n f g = (List.range n).map fun k =>
      if k % 2 = 0 then (fly (n + k) (f.getD (k / 2) d) (g.getD (k / 2) d)).1
      else (fly (n + k - 1) (f.getD (k / 2) d) (g.getD (k / 2) d)).2 := by
  conv_lhs => rw [eq_map_range_getD d hf, eq_map_range_getD d hg, mergePass_map_range,
    show 2 * (n / 2) = n by omega]
  refine List.map_congr_left fun k _ => ?_
  split
  · rfl
  · rw [Nat.add_sub_assoc (by omega)]

/-! ## The FFT engine's functions -/

/-- Settles O35: each primitive is defined in the order of rule R122. -/
theorem complexPrimitives : Obligations.ComplexPrimitives := by
  unfold Obligations.ComplexPrimitives
  exact fun _ _ => ⟨rfl, rfl, rfl, rfl, rfl, rfl, rfl, rfl⟩

/-- Settles O38, from the recursion U2 and U3 share at U2's butterflies. -/
theorem fftRecursion : Obligations.FftRecursion := by
  unfold Obligations.FftRecursion
  refine ⟨fun _ _ => ⟨rfl, rfl⟩, fun n f hn h2 hf => ⟨?_, inverseTransform_levelOf fftUnit _ hn h2 hf⟩,
    fun n f _ hf => ?_, fun n f g hn hf hg => mergePass_eq_map_range_getD fftFly _ (transformLens_bounds hn).1 hf hg⟩
  · rw [← evens_eq_map_range_getD _ hf (transformLens_bounds hn).1, ← odds_eq_map_range_getD _ hf]
    exact transform_levelOf fftUnit hn h2 f
  · rw [splitFft, splitPass_eq_map_range_getD fftFlyInv n ⟨0, 0⟩ hf]
    exact ⟨rfl, rfl⟩

/-! ## Commands with outputs in F banks -/

/-- A command of one length class whose output is `vs` in F bank rd. -/
theorem commandRule_of_outF {op : BitVec 6} {i : Instr} {s : State} {lenOk : Prop} {c : LenClass} {n : Nat}
    {rd : Bank} {vs : List Cplx} (he : exec i s = runCommand (lenCheck c n) (.ok (s.outF rd vs)) s)
    (ho : BitVec.ofNat 6 (fieldOp (encode i)) = op) (hl : c.legal n = true ↔ lenOk) (hv : lenOk → vs.length = n) :
    CommandRule op i s lenOk True (s.WroteF rd n vs) :=
  commandRule_of_len he ho hl rfl fun h _ hm hr => State.wroteF_of hm hr (hv h)

/-- A pointwise two-input command of U2 writes, in every entry, the operation of the sources' entries (rules R134 to
R137). -/
theorem commandRule_of_runPointwiseF {op : BitVec 6} {i : Instr} {s : State} {f : Cplx → Cplx → Cplx} {rd ra rb : Bank}
    {n : Nat} (he : exec i s = runPointwiseF f rd ra rb n s) (ho : BitVec.ofNat 6 (fieldOp (encode i)) = op) :
    CommandRule op i s (1 ≤ n ∧ n ≤ 1024) True
      (s.WroteF rd n ((List.range n).map fun k => f (s.fEntry ra k) (s.fEntry rb k))) := by
  rw [← zipWith_map_range]
  exact commandRule_of_outF he ho (LenClass.legal_P_iff n) fun _ => by simp

/-- Settles O37: the four two-input commands are one command at four operations, and FADJF has one input. -/
theorem pointwiseComplexCommands : Obligations.PointwiseComplexCommands := by
  unfold Obligations.PointwiseComplexCommands
  intro rd ra rb n s
  have ho (op : Nat) (h : op < 64) (rb : Bank) := ofNat_fieldOp_packFields op rd ra rb 0 n h
  have hadj : exec (.fadjf rd ra n) s = runCommand (lenCheck .P n)
      (.ok (s.outF rd ((List.range n).map fun i => cconj (s.fEntry ra i)))) s := by
    rw [exec, execFadjf, State.fEntries, List.map_map]
    rfl
  exact ⟨commandRule_of_runPointwiseF rfl (ho 0x0C (by decide) rb),
    commandRule_of_runPointwiseF rfl (ho 0x0D (by decide) rb),
    commandRule_of_runPointwiseF rfl (ho 0x0E (by decide) rb),
    commandRule_of_runPointwiseF rfl (ho 0x0F (by decide) rb),
    commandRule_of_outF hadj (ho 0x10 (by decide) 0) (LenClass.legal_P_iff n) fun _ => by simp⟩

/-! ## The commands of a transform length -/

theorem fft_length {n : Nat} {f : List Cplx} (hn : n ∈ transformLens) (hf : f.length = n) : (fft n f).length = n :=
  transform_lens fftUnit hn hf

theorem ifft_length {n : Nat} {f : List Cplx} (hn : n ∈ transformLens) (hf : f.length = n) : (ifft n f).length = n :=
  inverseTransform_lens fftUnit hn hf

/-- Settles O39: every output has the length its command says, and FSPLITT's two lie in two banks. -/
theorem complexTransformCommands : Obligations.ComplexTransformCommands := by
  unfold Obligations.ComplexTransformCommands
  intro rd re ra rb n s
  have ho (op : Nat) (h : op < 64) (rb re : Bank) := ofNat_fieldOp_packFields op rd ra rb re n h
  have hT := LenClass.legal_T_iff n
  have hfft (b : Bank) (hn : n ∈ transformLens) : (fft n (s.fEntries b n)).length = n := fft_length hn (by simp)
  have hzip (op : Cplx → Cplx → Cplx) (hn : n ∈ transformLens) :
      (List.zipWith op (fft n (s.fEntries ra n)) (fft n (s.fEntries rb n))).length = n := by
    simp [hfft _ hn]
  refine ⟨?fft, ?ifft, ?fsplitt, ?fmerget, ?fmul, ?fdiv, ?fadj⟩
  case fft => exact commandRule_of_outF rfl (ho 0x08 (by decide) 0 0) hT (hfft ra)
  case ifft => exact commandRule_of_outF rfl (ho 0x09 (by decide) 0 0) hT fun hn => ifft_length hn (by simp)
  case fsplitt =>
    have hl := splitPass_half fftFlyInv n (s.fEntries_length ra n)
    refine commandRule_of_split rfl (ho 0x0A (by decide) 0 re) hT rfl
      fun hn hne t hm hr => State.wroteFF_of hne ?_ hm hr hl.1 hl.2
    have := transformLens_bounds hn
    omega
  case fmerget =>
    exact commandRule_of_outF rfl (ho 0x0B (by decide) rb 0) hT fun hn => mergePass_half _ _ hn (by simp) (by simp)
  case fmul => exact commandRule_of_outF rfl (ho 0x11 (by decide) rb 0) hT fun hn => ifft_length hn (hzip cmul hn)
  case fdiv => exact commandRule_of_outF rfl (ho 0x12 (by decide) rb 0) hT fun hn => ifft_length hn (hzip cdiv hn)
  case fadj =>
    exact commandRule_of_outF rfl (ho 0x13 (by decide) 0 0) hT fun hn => ifft_length hn (by simp [hfft _ hn])

end Sys2Proof.Machine
end

section
/-! SUPPORT. INVROM and ZROM as the spec states them: inverses modulo q, square roots, and the roots of x^n + 1
(rules R163, R165). -/

namespace Sys2Proof.Machine

/-! ## Numbers modulo q -/

/-- A number with a given residue is that residue in ZMod q, and the other way round. -/
theorem mod_q_eq_iff {a b : Nat} (hb : b < Config.q) : a % Config.q = b ↔ (a : Zq) = b := by
  rw [ZMod.natCast_eq_natCast_iff', Nat.mod_eq_of_lt hb]

/-! ## INVROM -/

/-- A nonzero residue times its entry of INVROM is 1 (rule R165). -/
theorem mulq_invrom {a : Nat} (h0 : a ≠ 0) (h : a < Config.q) : mulq a (invrom a) = 1 := by
  have := q_fact
  have hz := cast_ne_zero h0 h
  refine eq_of_cast_eq (mulq_lt _ _) (by decide) ?_
  rw [cast_mulq, cast_invrom hz, mul_inv_cancel₀ hz, Nat.cast_one]

/-- Settles O42: the entry inverts, and in a field there is no other inverse. -/
theorem inverseRomInverts : Obligations.InverseRomInverts := by
  unfold Obligations.InverseRomInverts
  refine ⟨rfl, fun a h1 h2 => ?_⟩
  have := q_fact
  have h0 : a ≠ 0 := Nat.ne_of_gt h1
  have ha : a < Config.q := Nat.lt_succ_of_le h2
  have hinv : mulq a (invrom a) = 1 := mulq_invrom h0 ha
  refine ⟨Nat.pos_of_ne_zero fun h => ?_, invrom_lt a, hinv, fun b _ hb hab => eq_of_cast_eq hb (invrom_lt a) ?_⟩
  · simp [h, mulq] at hinv
  · have hone : ((a * b : Nat) : Zq) = (1 : Nat) := (mod_q_eq_iff (by decide)).1 hab
    rw [cast_invrom (cast_ne_zero h0 ha)]
    exact eq_inv_of_mul_eq_one_right (by simpa using hone)

/-! ## The transform lengths -/

theorem transformLens_double {m : Nat} (hm : m ∈ transformLens) (hle : m ≤ 512) : 2 * m ∈ transformLens := by
  revert m; decide

/-- Every transform length is 2 or twice a transform length (rule R84). -/
theorem transformLens_induction {motive : (n : Nat) → n ∈ transformLens → Prop} (two : motive 2 (by decide))
    (double : ∀ m (hm : m ∈ transformLens) (hle : m ≤ 512), motive m hm → motive (2 * m) (transformLens_double hm hle))
    (n : Nat) (hn : n ∈ transformLens) : motive n hn := by
  induction n using Nat.strong_induction_on with
  | _ n ih =>
    by_cases h2 : n = 2
    · subst h2; exact two
    · obtain ⟨heven, hpos, hmax⟩ := transformLens_bounds hn
      obtain ⟨m, rfl⟩ : ∃ m, n = 2 * m := ⟨n / 2, by omega⟩
      have hm : m ∈ transformLens := by simpa using (transformLens_half hn h2).1
      exact double m hm (by omega) (ih m (by omega) hm)

/-! ## ZROM -/

theorem zrom_sq_iff {a r : Nat} (h2 : 2 ≤ a) (h : a < 1024) (hr : r < Config.q) :
    r ^ 2 % Config.q = zrom a ↔ r = zrom (2 * a) ∨ r = zrom (2 * a + 1) := by
  have := q_fact
  have heven := (zrom_pos_lt (a := 2 * a) (by omega) (by omega)).2
  have hodd := (zrom_pos_lt (a := 2 * a + 1) (by omega) (by omega)).2
  rw [mod_q_eq_iff (zrom_pos_lt h2 (by omega)).2, Nat.cast_pow, ← cast_zrom_even h2 h, sq_eq_sq_iff_eq_or_eq_neg,
    ← cast_zrom_odd h2 h, ← mod_q_eq_iff heven, ← mod_q_eq_iff hodd, Nat.mod_eq_of_lt hr]

/-- The square of an entry of ZROM is its parent (rule R163). -/
theorem cast_zrom_sq {a : Nat} (h4 : 4 ≤ a) (h : a < 2048) : ((zrom a : Nat) : Zq) ^ 2 = (zrom (a / 2) : Nat) := by
  have hself : zrom a = zrom (2 * (a / 2)) ∨ zrom a = zrom (2 * (a / 2) + 1) := by
    rcases Nat.mod_two_eq_zero_or_one a with he | ho
    · exact .inl (by rw [show 2 * (a / 2) = a by omega])
    · exact .inr (by rw [show 2 * (a / 2) + 1 = a by omega])
  have hroot := (zrom_sq_iff (by omega) (by omega) (zrom_pos_lt (by omega) h).2).2 hself
  simpa using (mod_q_eq_iff (zrom_pos_lt (by omega) (by omega)).2).1 hroot

/-- Every entry of row Z_n is a root of x^n + 1 (rule R163). -/
theorem cast_zrom_pow {n j : Nat} (hn : n ∈ transformLens) (hj : j < n) : ((zrom (n + j) : Nat) : Zq) ^ n = -1 := by
  induction n, hn using transformLens_induction generalizing j with
  | two =>
    obtain rfl | rfl : j = 0 ∨ j = 1 := by omega
    · rw [zrom_two]; decide
    · rw [zrom_three]; decide
  | double m hm hle ih =>
    have hpos := (transformLens_bounds hm).2.1
    rw [pow_mul, cast_zrom_sq (by omega) (by omega), show (2 * m + j) / 2 = m + j / 2 by omega]
    exact ih (by omega)

/-- Two entries of one row that are equal stand at one place (rule R163). -/
theorem zrom_row_injective {n i j : Nat} (hn : n ∈ transformLens) (hi : i < n) (hj : j < n)
    (h : zrom (n + i) = zrom (n + j)) : i = j := by
  induction n, hn using transformLens_induction generalizing i j with
  | two =>
    have hne : zrom 2 ≠ zrom 3 := by rw [zrom_two, zrom_three]; decide
    obtain rfl | rfl : i = 0 ∨ i = 1 := by omega
    all_goals obtain rfl | rfl : j = 0 ∨ j = 1 := by omega
    exacts [rfl, absurd h hne, absurd h.symm hne, rfl]
  | double m hm hle ih =>
    have hpos := (transformLens_bounds hm).2.1
    have hparent : zrom (m + i / 2) = zrom (m + j / 2) := by
      refine eq_of_cast_eq (zrom_pos_lt (by omega) (by omega)).2 (zrom_pos_lt (by omega) (by omega)).2 ?_
      rw [show m + i / 2 = (2 * m + i) / 2 by omega, show m + j / 2 = (2 * m + j) / 2 by omega,
        ← cast_zrom_sq (by omega) (by omega), ← cast_zrom_sq (by omega) (by omega), h]
    have hhalf : i / 2 = j / 2 := ih (by omega) (by omega) hparent
    -- The two children of one entry lie on different sides of q / 2.
    obtain ⟨-, hlow, -, hhigh⟩ := zrom_children (m + i / 2) (by omega) (by omega)
    have hne : zrom (2 * (m + i / 2)) ≠ zrom (2 * (m + i / 2) + 1) := by omega
    by_contra hij
    obtain ⟨hi', hj'⟩ | ⟨hi', hj'⟩ : (2 * m + i = 2 * (m + i / 2) ∧ 2 * m + j = 2 * (m + i / 2) + 1) ∨
        (2 * m + i = 2 * (m + i / 2) + 1 ∧ 2 * m + j = 2 * (m + i / 2)) := by omega
    · rw [hi', hj'] at h
      exact hne h
    · rw [hi', hj'] at h
      exact hne h.symm

/-- Settles O41, from the children of an entry, the powers of a row and its distinct entries. -/
theorem rootRomHoldsTheSmallerRoots : Obligations.RootRomHoldsTheSmallerRoots := by
  unfold Obligations.RootRomHoldsTheSmallerRoots
  refine ⟨zrom_two, zrom_three, fun a h2 h => ?_,
    fun n hn j hj => ⟨?_, fun k hk heq => zrom_row_injective hn hj hk heq⟩⟩
  · have hq : Config.q = 12289 := rfl
    obtain ⟨hpos, hlow, -, hhigh⟩ := zrom_children a (by omega) h2
    exact ⟨hpos, by omega, hhigh, fun r _ hr => zrom_sq_iff h2 (by omega) hr⟩
  · refine (mod_q_eq_iff (by decide)).2 ?_
    rw [Nat.cast_pow, cast_zrom_pow hn hj]
    decide

end Sys2Proof.Machine
end

section
/-! SUPPORT. The rule of a command with one output in a Z bank, and of one that divides; the recursion of U3 and the
commands it reads and writes residues with (rules R161 to R177). -/

namespace Sys2Proof.Machine

/-! ## The functions of U3 -/

theorem invrom_zrom_two : invrom (zrom 2) = 10810 := by
  rw [zrom_two]; decide

/-- Settles O45, from the recursion U2 and U3 share at U3's butterflies. -/
theorem nttRecursion : Obligations.NttRecursion := by
  unfold Obligations.NttRecursion
  refine ⟨fun x y => ⟨?_, ?_⟩, fun n f hn h2 hf => ⟨?_, inverseTransform_levelOf nttUnit _ hn h2 hf⟩,
    fun n f _ hf => ?_, fun n f g hn hf hg => mergePass_eq_map_range_getD nttFly _ (transformLens_bounds hn).1 hf hg⟩
  · rw [← zrom_two]; rfl
  · rw [← invrom_zrom_two]; rfl
  · rw [← evens_eq_map_range_getD _ hf (transformLens_bounds hn).1, ← odds_eq_map_range_getD _ hf]
    exact transform_levelOf nttUnit hn h2 f
  · rw [splitNtt, splitPass_eq_map_range_getD nttFlyInv n 0 hf]
    exact ⟨rfl, rfl⟩

theorem ntt_length {n : Nat} {f : List Nat} (hn : n ∈ transformLens) (hf : f.length = n) : (ntt n f).length = n :=
  transform_lens nttUnit hn hf

theorem intt_length {n : Nat} {f : List Nat} (hn : n ∈ transformLens) (hf : f.length = n) : (intt n f).length = n :=
  inverseTransform_lens nttUnit hn hf

/-! ## Residues in Z banks -/

theorem State.residues_eq_map (s : State) (b : Bank) (n : Nat) :
    s.residues b n = (List.range n).map (s.residue b) := by
  rw [State.residues, State.zEntries, List.map_map]
  rfl

theorem State.residue_lt (s : State) (b : Bank) (i : Nat) : s.residue b i < Config.q := Nat.mod_lt _ (by decide)

@[simp] theorem halves_length (v : List Nat) : (halves v).length = v.length := List.length_map _

theorem halves_map_range (f : Nat → Nat) (n : Nat) :
    halves ((List.range n).map f) = (List.range n).map fun i => BitVec.ofNat 16 (f i) := by
  rw [halves, List.map_map]
  rfl

/-- The difference of residues as a Z entry, through the integers (rules R10, R162). -/
theorem ofNat_subq (a b : Nat) : BitVec.ofNat 16 (subq a b) = BitVec.ofInt 16 (((a : Int) - b) % 12289) := by
  rw [← BitVec.ofInt_natCast, subq, Int.toNat_of_nonneg (Int.emod_nonneg _ (by decide))]
  rfl

/-- An entry a command wrote a residue to holds that residue (rule R161). -/
theorem State.WroteZ.toNat_zEntry {s t : State} {b : Bank} {n i : Nat} {f : Nat → Nat}
    (h : s.WroteZ b n ((List.range n).map fun k => BitVec.ofNat 16 (f k)) t) (hi : i < n) (hf : f i < Config.q) :
    (t.zEntry b i).toNat = f i := by
  have hentry : t.zEntry b i = BitVec.ofNat 16 (f i) := List.map_inj_left.1 h.1 i (List.mem_range.2 hi)
  have hq : Config.q < 2 ^ 16 := by decide
  rw [hentry, BitVec.toNat_ofNat, Nat.mod_eq_of_lt (hf.trans hq)]

/-! ## Commands with one output in a Z bank -/

/-- A command of one length class whose output is `v` in Z bank rd. -/
theorem commandRule_of_outZ {op : BitVec 6} {i : Instr} {s : State} {lenOk : Prop} {c : LenClass} {n : Nat}
    {rd : Bank} {v : List Nat} (he : exec i s = runCommand (lenCheck c n) (.ok (s.outZ rd (halves v))) s)
    (ho : BitVec.ofNat 6 (fieldOp (encode i)) = op) (hl : c.legal n = true ↔ lenOk) (hv : lenOk → v.length = n) :
    CommandRule op i s lenOk True (s.WroteZ rd n (halves v)) :=
  commandRule_of_len he ho hl rfl fun h _ hm hr => State.wroteZ_of hm hr (by rw [halves_length, hv h])

/-- A pointwise two-input command of U3 writes, in every entry, the operation of the sources' residues (rules R174 to
R176). -/
theorem commandRule_of_runPointwiseZ {op : BitVec 6} {i : Instr} {s : State} {f : Nat → Nat → Nat} {rd ra rb : Bank}
    {n : Nat} (he : exec i s = runPointwiseZ f rd ra rb n s) (ho : BitVec.ofNat 6 (fieldOp (encode i)) = op) :
    CommandRule op i s (1 ≤ n ∧ n ≤ 1024) True
      (s.WroteZ rd n ((List.range n).map fun k => BitVec.ofNat 16 (f (s.residue ra k) (s.residue rb k)))) := by
  rw [← halves_map_range, ← zipWith_map_range, ← State.residues_eq_map, ← State.residues_eq_map]
  exact commandRule_of_outZ he ho (LenClass.legal_P_iff n) fun _ => by simp

/-- Settles O43: the three commands are one command at three operations. -/
theorem pointwiseModularCommands : Obligations.PointwiseModularCommands := by
  unfold Obligations.PointwiseModularCommands
  intro rd ra rb n s
  have ho (op : Nat) (h : op < 64) := ofNat_fieldOp_packFields op rd ra rb 0 n h
  simp only [← ofNat_subq]
  exact ⟨commandRule_of_runPointwiseZ (i := .zadd rd ra rb n) (f := addq) rfl (ho 0x1C (by decide)),
    commandRule_of_runPointwiseZ (i := .zsub rd ra rb n) (f := subq) rfl (ho 0x1D (by decide)),
    commandRule_of_runPointwiseZ (i := .zmuln rd ra rb n) (f := mulq) rfl (ho 0x1E (by decide))⟩

/-- Settles O46: every output has the length its command says, and ZSPLITT's two lie in two banks. -/
theorem modularTransformCommands : Obligations.ModularTransformCommands := by
  unfold Obligations.ModularTransformCommands
  intro rd re ra rb n s
  simp only [← State.residues_eq_map]
  have ho (op : Nat) (h : op < 64) (rb re : Bank) := ofNat_fieldOp_packFields op rd ra rb re n h
  have hT := LenClass.legal_T_iff n
  have hres (b : Bank) (m : Nat) := s.residues_length b m
  refine ⟨?ntt, ?intt, ?zsplitt, ?zmerget⟩
  case ntt => exact commandRule_of_outZ rfl (ho 0x18 (by decide) 0 0) hT fun hn => ntt_length hn (hres ra n)
  case intt => exact commandRule_of_outZ rfl (ho 0x19 (by decide) 0 0) hT fun hn => intt_length hn (hres ra n)
  case zsplitt =>
    have hl := splitPass_half nttFlyInv n (hres ra n)
    refine commandRule_of_split rfl (ho 0x1A (by decide) 0 re) hT rfl fun hn hne t hm hr =>
      State.wroteZZ_of hne ?_ hm hr ((halves_length _).trans hl.1) ((halves_length _).trans hl.2)
    have := transformLens_bounds hn
    omega
  case zmerget =>
    exact commandRule_of_outZ rfl (ho 0x1B (by decide) rb 0) hT fun hn => mergePass_half _ _ hn (hres ra _) (hres rb _)

/-! ## Commands that divide -/

/-- The quotient of two residues as U3 forms it, through INVROM (rules R177, R179). -/
def divq (x y : Nat) : Nat := mulq x (invrom y)

theorem divq_lt (x y : Nat) : divq x y < Config.q := mulq_lt _ _

/-- The quotient by a nonzero residue times the divisor is the dividend (rules R165, R177). -/
theorem mulq_divq {x y : Nat} (hx : x < Config.q) (hy : y < Config.q) (h0 : y ≠ 0) : mulq (divq x y) y = x := by
  have := q_fact
  have hz := cast_ne_zero h0 hy
  refine eq_of_cast_eq (mulq_lt _ _) hx ?_
  rw [cast_mulq, divq, cast_mulq, cast_invrom hz, inv_mul_cancel_right₀ hz]

theorem divideq_of_mem {a b : List Nat} (h : 0 ∈ b) : divideq a b = .error .noInverse := by
  rw [divideq, if_pos (List.contains_iff_mem.2 h)]

theorem divideq_of_not_mem {a b : List Nat} (h : 0 ∉ b) : divideq a b = .ok (List.zipWith divq a b) := by
  rw [divideq, if_neg (mt List.contains_iff_mem.1 h)]
  rfl

section
variable {i : Instr} {s : State} {c : LenClass} {n : Nat} {rd : Bank} {a b : List Nat} {g : List Nat → List Nat}
  (he : exec i s = runCommand (lenCheck c n) ((divideq a b).map fun v => s.outZ rd (halves (g v))) s)
include he

theorem endsIn_badLen_of_divide (hl : ¬c.legal n = true) : EndsIn i s .badLen :=
  ⟨_, he.trans (runCommand_check _ _ (lenCheck_some hl)), s.failsWith_raiseError _⟩

theorem endsIn_noInverse_of_divide (hl : c.legal n = true) (h0 : 0 ∈ b) : EndsIn i s .noInverse :=
  ⟨_, he.trans (runCommand_error _ (lenCheck_none hl) (by rw [divideq_of_mem h0]; rfl)), s.failsWith_raiseError _⟩

/-- A command that divides by no zero writes what it makes of the quotients (rules R177, R179). -/
theorem exec_divide (hl : c.legal n = true) (h0 : 0 ∉ b) (hv : (g (List.zipWith divq a b)).length = n) :
    ∃ t, exec i s = .next t ∧ s.Succeeds t ∧ s.WroteZ rd n (halves (g (List.zipWith divq a b))) t :=
  ⟨_, he.trans (runCommand_ok _ (lenCheck_none hl) (by rw [divideq_of_not_mem h0]; rfl)), s.succeeds_finish _,
    State.wroteZ_of rfl rfl ((halves_length _).trans hv)⟩

end

theorem zero_mem_map_range_iff {f : Nat → Nat} {n : Nat} : 0 ∈ (List.range n).map f ↔ ∃ i < n, f i = 0 := by
  simp

theorem zero_notMem_map_range {f : Nat → Nat} {n : Nat} (h : ∀ i < n, f i ≠ 0) : 0 ∉ (List.range n).map f :=
  fun hm => by
    obtain ⟨i, hi, h0⟩ := zero_mem_map_range_iff.1 hm
    exact h i hi h0

theorem encodedAs_of_op {op : BitVec 6} {i : Instr} (ho : BitVec.ofNat 6 (fieldOp (encode i)) = op) :
    EncodedAs op i := by
  subst ho
  exact encodedAs i

/-- Settles O44, from the ends of a command that divides and from INVROM's inverses. -/
theorem zdivnDividesOrFindsNoInverse : Obligations.ZdivnDividesOrFindsNoInverse := by
  unfold Obligations.ZdivnDividesOrFindsNoInverse
  intro rd ra rb n s
  have hP := LenClass.legal_P_iff n
  have he : exec (.zdivn rd ra rb n) s = runCommand (lenCheck .P n)
      ((divideq ((List.range n).map (s.residue ra)) ((List.range n).map (s.residue rb))).map
        fun v => s.outZ rd (halves v)) s := by
    rw [← State.residues_eq_map, ← State.residues_eq_map]
    rfl
  refine ⟨encodedAs_of_op (ofNat_fieldOp_packFields 0x1F rd ra rb 0 n (by decide)), fun hn => ?badLen,
    fun h1 h2 h0 => ?noInverse, fun h1 h2 h0 => ?success⟩
  case badLen => exact endsIn_badLen_of_divide (g := id) he (mt hP.1 hn)
  case noInverse => exact endsIn_noInverse_of_divide (g := id) he (hP.2 ⟨h1, h2⟩) (zero_mem_map_range_iff.2 h0)
  case success =>
    obtain ⟨t, hexec, hsucc, hwrote⟩ :=
      exec_divide (g := id) he (hP.2 ⟨h1, h2⟩) (zero_notMem_map_range h0) (by simp)
    rw [id, zipWith_map_range, halves_map_range] at hwrote
    refine ⟨t, hexec, hsucc, hwrote, fun k hk => ?_⟩
    rw [hwrote.toNat_zEntry hk (divq_lt _ _)]
    exact ⟨divq_lt _ _, mulq_divq (s.residue_lt _ _) (s.residue_lt _ _) (h0 k hk)⟩

end Sys2Proof.Machine
end

section
/-! SUPPORT. The forward transform of U3 evaluates at the roots of x^n + 1, and the two transforms undo each other
(rules R166 to R169, R180). -/

namespace Sys2Proof.Machine

variable {α : Type}

/-! ## The value of a polynomial -/

/-- The value at `x` of the polynomial with coefficients f 0 to f (n - 1), in ZMod q. -/
def evalq (n : Nat) (f : Nat → Nat) (x : Zq) : Zq := ∑ k ∈ Finset.range n, (f k : Zq) * x ^ k

theorem cast_evaluateAtRoot (n : Nat) (f : Nat → Nat) (j : Nat) :
    ((evaluateAtRoot n f j : Nat) : Zq) = evalq n f (zrom (n + j) : Nat) := by
  rw [evaluateAtRoot, evalq, show 12289 = Config.q from rfl, ZMod.natCast_mod]
  push_cast
  rfl

theorem evaluateAtRoot_lt (n : Nat) (f : Nat → Nat) (j : Nat) : evaluateAtRoot n f j < Config.q :=
  Nat.mod_lt _ (by decide)

theorem evalq_two (f : Nat → Nat) (x : Zq) : evalq 2 f x = f 0 + f 1 * x := by
  simp [evalq, Finset.sum_range_succ]

/-- A polynomial is its even part and x times its odd part, both at x². -/
theorem evalq_double (m : Nat) (f : Nat → Nat) (x : Zq) :
    evalq (2 * m) f x = evalq m (fun i => f (2 * i)) (x ^ 2) + x * evalq m (fun i => f (2 * i + 1)) (x ^ 2) := by
  induction m with
  | zero => simp [evalq]
  | succ m ih =>
    simp only [evalq] at ih ⊢
    rw [Nat.mul_succ, Finset.sum_range_succ, Finset.sum_range_succ, ih, Finset.sum_range_succ, Finset.sum_range_succ]
    ring

/-! ## The transform evaluates -/

theorem ntt_two (x y : Nat) : ntt 2 [x, y] = [(nttBase x y).1, (nttBase x y).2] := rfl

theorem intt_two (x y : Nat) : intt 2 [x, y] = [(nttBaseInv x y).1, (nttBaseInv x y).2] := rfl

theorem ntt_double {m : Nat} (hm : m ∈ transformLens) (hle : m ≤ 512) (f : List Nat) :
    ntt (2 * m) f = mergeNtt (2 * m) (ntt m (evens f)) (ntt m (odds f)) := by
  have hpos := (transformLens_bounds hm).2.1
  have h := transform_levelOf nttUnit (transformLens_double hm hle) (by omega) f
  rwa [Nat.mul_div_cancel_left m (by decide)] at h

/-- The butterfly at an entry of row Z_m takes the values of the even and the odd part there to the values of the whole
polynomial at the two square roots of the entry (rule R169). -/
theorem nttFly_evaluateAtRoot {m j : Nat} (f : Nat → Nat) (h2 : 2 ≤ m) (hle : m ≤ 512) (hj : j < m) :
    nttFly (2 * m + 2 * j) (evaluateAtRoot m (fun i => f (2 * i)) j) (evaluateAtRoot m (fun i => f (2 * i + 1)) j) =
      (evaluateAtRoot (2 * m) f (2 * j), evaluateAtRoot (2 * m) f (2 * j + 1)) := by
  have hsq := cast_zrom_even (a := m + j) (by omega) (by omega)
  have hneg := cast_zrom_odd (a := m + j) (by omega) (by omega)
  rw [Nat.mul_add] at hsq hneg
  refine Prod.ext (eq_of_cast_eq (nttFly_lt _ _ _).1 (evaluateAtRoot_lt _ _ _) ?_)
    (eq_of_cast_eq (nttFly_lt _ _ _).2 (evaluateAtRoot_lt _ _ _) ?_)
  · simp only [nttFly, cast_addq, cast_mulq, cast_evaluateAtRoot, evalq_double, hsq]
  · simp only [nttFly, cast_subq, cast_mulq, cast_evaluateAtRoot, evalq_double, ← Nat.add_assoc, hneg, neg_sq, hsq]
    ring

/-- Entry j of a transform is the value of the polynomial at entry j of row Z_n (rule R180). -/
theorem ntt_map_range {n : Nat} (hn : n ∈ transformLens) (f : Nat → Nat) :
    ntt n ((List.range n).map f) = (List.range n).map (evaluateAtRoot n f) := by
  induction n, hn using transformLens_induction generalizing f with
  | two =>
    have hneg : ((zrom 3 : Nat) : Zq) = -(zrom 2 : Nat) := by rw [zrom_two, zrom_three]; decide
    refine (ntt_two (f 0) (f 1)).trans (congrArg₂ (fun u v => [u, v])
      (eq_of_cast_eq (nttBase_lt _ _).1 (evaluateAtRoot_lt 2 f 0) ?_)
      (eq_of_cast_eq (nttBase_lt _ _).2 (evaluateAtRoot_lt 2 f 1) ?_))
    · simp only [nttBase, cast_addq, cast_mulq, cast_evaluateAtRoot, evalq_two]
      ring
    · simp only [nttBase, cast_subq, cast_mulq, cast_evaluateAtRoot, evalq_two, hneg]
      ring
  | double m hm hle ih =>
    rw [ntt_double hm hle, evens_map_range_of_even f (Nat.mul_mod_right 2 m), odds_map_range,
      Nat.mul_div_cancel_left m (by decide), ih, ih, mergeNtt, mergePass_map_range]
    refine List.map_congr_left fun k hk => ?_
    have hk : k < 2 * m := List.mem_range.1 hk
    have hfly := nttFly_evaluateAtRoot f (transformLens_bounds hm).2.1 hle (j := k / 2) (by omega)
    split
    case isTrue heven =>
      rw [show 2 * (k / 2) = k by omega] at hfly
      rw [hfly]
    case isFalse hodd =>
      rw [show 2 * (k / 2) = k - 1 by omega, Nat.sub_add_cancel (by omega)] at hfly
      rw [hfly]

/-! ## The transforms undo each other -/

theorem mem_interleave {a b : List α} {v : α} (h : v ∈ interleave a b) : v ∈ a ∨ v ∈ b := by
  induction a, b using interleave.induct with
  | case1 x as y bs ih =>
    obtain rfl | rfl | h : v = x ∨ v = y ∨ v ∈ interleave as bs := by simpa [interleave] using h
    · exact .inl List.mem_cons_self
    · exact .inr List.mem_cons_self
    · exact (ih h).imp (List.mem_cons_of_mem _) (List.mem_cons_of_mem _)
  | case2 x as => exact .inl h
  | case3 bs => exact .inr h

theorem forall_mem_splitPass {flyInv : Nat → α → α → α × α} {P : α → Prop}
    (hf : ∀ a x y, P (flyInv a x y).1 ∧ P (flyInv a x y).2) (a : Nat) (l : List α) :
    (∀ v ∈ (splitPass flyInv a l).1, P v) ∧ ∀ v ∈ (splitPass flyInv a l).2, P v := by
  induction l using evens.induct generalizing a with
  | case1 x y t ih =>
    simp only [splitPass, List.forall_mem_cons]
    exact ⟨⟨(hf a x y).1, (ih _).1⟩, (hf a x y).2, (ih _).2⟩
  | case2 x => simp [splitPass]
  | case3 => simp [splitPass]

/-- A merge pass undoes a split pass whose butterfly it undoes, entry by entry. -/
theorem mergePass_splitPass {fly flyInv : Nat → α → α → α × α} {P : α → Prop} (a : Nat) (l : List α)
    (heven : l.length % 2 = 0) (hp : ∀ v ∈ l, P v)
    (hinv : ∀ b, a ≤ b → b < a + l.length → ∀ u v, P u → P v → fly b (flyInv b u v).1 (flyInv b u v).2 = (u, v)) :
    mergePass fly a (splitPass flyInv a l).1 (splitPass flyInv a l).2 = l := by
  induction l using evens.induct generalizing a with
  | case1 x y t ih =>
    simp only [List.length_cons] at heven hinv
    have hxy := hinv a le_rfl (by omega) x y (hp x (by simp)) (hp y (by simp))
    have ht := ih (a + 2) (by omega) (fun v hv => hp v (by simp [hv]))
      fun b h1 h2 => hinv b (by omega) (by omega)
    simp only [splitPass, mergePass, hxy, ht]
  | case2 x => simp at heven
  | case3 => rfl

theorem intt_double {m : Nat} (hm : m ∈ transformLens) (hle : m ≤ 512) (f : List Nat) :
    intt (2 * m) f = interleave (intt m (splitNtt (2 * m) f).1) (intt m (splitNtt (2 * m) f).2) := by
  have hpos := (transformLens_bounds hm).2.1
  obtain ⟨-, hl, hp⟩ := transformLens_half (transformLens_double hm hle) (by omega)
  rw [Nat.mul_div_cancel_left m (by decide)] at hl hp
  rw [intt, hl, inverseTransform, hp]
  rfl

theorem nttBaseInv_eq_nttFlyInv (x y : Nat) : nttBaseInv x y = nttFlyInv 2 x y := by
  refine Prod.ext rfl (eq_of_cast_eq (nttBaseInv_lt _ _).2 (nttFlyInv_lt _ _ _).2 ?_)
  simp only [nttBaseInv, nttFlyInv, cast_mulq]
  ring

/-- Every value of an inverse transform is a canonical residue (rule R161). -/
theorem intt_lt {n : Nat} {f : List Nat} (hn : n ∈ transformLens) (hf : f.length = n) :
    ∀ v ∈ intt n f, v < Config.q := by
  induction n, hn using transformLens_induction generalizing f with
  | two =>
    match f, hf with
    | [x, y], _ => simpa [intt_two] using nttBaseInv_lt x y
  | double m hm hle ih =>
    obtain ⟨h1, h2⟩ := splitPass_half nttFlyInv (2 * m) hf
    rw [Nat.mul_div_cancel_left m (by decide)] at h1 h2
    rw [intt_double hm hle]
    exact fun v hv => (mem_interleave hv).elim (ih h1 v) (ih h2 v)

/-- The inverse transform undoes the transform (rule R180). -/
theorem intt_ntt {n : Nat} {f : List Nat} (hn : n ∈ transformLens) (hf : f.length = n) (hlt : ∀ v ∈ f, v < Config.q) :
    intt n (ntt n f) = f := by
  obtain ⟨k, hk, rfl, hl⟩ := transformLens_level hn
  have hle : 2 ^ (k + 2) ≤ 2 ^ 11 := Nat.pow_le_pow_right (by decide) (by omega)
  rw [intt, ntt, hl]
  exact inverseTransform_transform (P := (· < Config.q)) (fun _ _ => nttBaseInv_nttBase) nttBase_lt nttFly_lt k
    (fun a h2 h x y => nttFlyInv_nttFly h2 (by omega)) f hf hlt

/-- The transform undoes the inverse transform (rule R180). -/
theorem ntt_intt {n : Nat} {f : List Nat} (hn : n ∈ transformLens) (hf : f.length = n) (hlt : ∀ v ∈ f, v < Config.q) :
    ntt n (intt n f) = f := by
  induction n, hn using transformLens_induction generalizing f with
  | two =>
    match f, hf with
    | [x, y], _ =>
      have h := nttFly_nttFlyInv (a := 2) le_rfl (by decide) (hlt x (by simp)) (hlt y (by simp))
      rw [intt_two, nttBaseInv_eq_nttFlyInv, ntt_two]
      exact congrArg (fun p => [p.1, p.2]) h
  | double m hm hle ih =>
    obtain ⟨h1, h2⟩ := splitPass_half nttFlyInv (2 * m) hf
    obtain ⟨hp1, hp2⟩ := forall_mem_splitPass (P := (· < Config.q)) nttFlyInv_lt (2 * m) f
    have hpos := (transformLens_bounds hm).2.1
    rw [Nat.mul_div_cancel_left m (by decide)] at h1 h2
    have hlen := (intt_length hm h1).trans (intt_length hm h2).symm
    rw [ntt_double hm hle, intt_double hm hle, splitNtt, evens_interleave hlen, odds_interleave hlen,
      ih h1 hp1, ih h2 hp2]
    exact mergePass_splitPass (P := (· < Config.q)) _ f (by omega) hlt
      fun b hb1 hb2 u v => nttFly_nttFlyInv (by omega) (by omega)

end Sys2Proof.Machine
end

section
/-! SUPPORT. Between transforms, multiplying and dividing entry by entry is multiplying and dividing modulo x^n + 1
(rules R178 to R180). -/

namespace Sys2Proof.Machine

/-! ## The product modulo x^n + 1 -/

theorem negacyclic_lt (n : Nat) (f g : Nat → Nat) (k : Nat) : negacyclic n f g k < Config.q :=
  (Int.toNat_lt (Int.emod_nonneg _ (by decide))).2 (Int.emod_lt_of_pos _ (by decide))

theorem cast_negacyclic (n : Nat) (f g : Nat → Nat) (k : Nat) :
    ((negacyclic n f g k : Nat) : Zq) =
      ∑ i ∈ Finset.range n, (f i : Zq) * if i ≤ k then (g (k - i) : Zq) else -(g (n + k - i) : Zq) := by
  have h0 : 0 ≤ (∑ i ∈ Finset.range n,
      if i ≤ k then (f i * g (k - i) : Int) else -(f i * g (n + k - i) : Int)) % (Config.q : Int) :=
    Int.emod_nonneg _ (by decide)
  rw [negacyclic, ← Int.cast_natCast, show (12289 : Int) = (Config.q : Int) from rfl, Int.toNat_of_nonneg h0,
    ZMod.intCast_mod, Int.cast_sum]
  refine Finset.sum_congr rfl fun i _ => ?_
  split <;> push_cast <;> ring

/-- Modulo x^n + 1, multiplying by x^i shifts the coefficients and negates those that wrap. -/
theorem sum_wrapped {n i : Nat} (g : Nat → Nat) (x : Zq) (hi : i ≤ n) (hx : x ^ n = -1) :
    (∑ k ∈ Finset.range n, (if i ≤ k then (g (k - i) : Zq) else -(g (n + k - i) : Zq)) * x ^ k) =
      x ^ i * evalq n g x := by
  obtain ⟨m, rfl⟩ := Nat.exists_eq_add_of_le hi
  have hwrap : ∀ k ∈ Finset.range i,
      (if i ≤ k then (g (k - i) : Zq) else -(g (i + m + k - i) : Zq)) * x ^ k = x ^ i * (g (m + k) * x ^ (m + k)) := by
    intro k hk
    have hk : k < i := Finset.mem_range.1 hk
    have hpow : x ^ i * x ^ m = -1 := by rw [← pow_add, hx]
    rw [if_neg (by omega), show i + m + k - i = m + k by omega]
    linear_combination -(g (m + k) : Zq) * x ^ k * hpow
  have hstay : ∀ k ∈ Finset.range m,
      (if i ≤ i + k then (g (i + k - i) : Zq) else -(g (i + m + (i + k) - i) : Zq)) * x ^ (i + k) =
        x ^ i * (g k * x ^ k) := by
    intro k _
    rw [if_pos (by omega), Nat.add_sub_cancel_left]
    ring
  calc
    _ = ∑ k ∈ Finset.range i, x ^ i * (g (m + k) * x ^ (m + k)) + ∑ k ∈ Finset.range m, x ^ i * (g k * x ^ k) := by
      rw [Finset.sum_range_add, Finset.sum_congr rfl hwrap, Finset.sum_congr rfl hstay]
    _ = x ^ i * evalq (m + i) g x := by
      rw [evalq, Finset.sum_range_add, ← Finset.mul_sum, ← Finset.mul_sum]
      ring
    _ = x ^ i * evalq (i + m) g x := by rw [Nat.add_comm]

theorem evalq_negacyclic {n : Nat} (f g : Nat → Nat) {x : Zq} (hx : x ^ n = -1) :
    evalq n (negacyclic n f g) x = evalq n f x * evalq n g x := by
  calc evalq n (negacyclic n f g) x
    _ = ∑ k ∈ Finset.range n, ∑ i ∈ Finset.range n,
          (f i : Zq) * ((if i ≤ k then (g (k - i) : Zq) else -(g (n + k - i) : Zq)) * x ^ k) := by
        simp only [evalq, cast_negacyclic, Finset.sum_mul, mul_assoc]
    _ = ∑ i ∈ Finset.range n, (f i : Zq) * (x ^ i * evalq n g x) := by
        rw [Finset.sum_comm]
        refine Finset.sum_congr rfl fun i hi => ?_
        rw [← Finset.mul_sum, sum_wrapped g x (Finset.mem_range.1 hi).le hx]
    _ = evalq n f x * evalq n g x := by
        simp only [evalq, Finset.sum_mul, mul_assoc]

theorem evaluateAtRoot_negacyclic {n j : Nat} (f g : Nat → Nat) (hn : n ∈ transformLens) (hj : j < n) :
    evaluateAtRoot n (negacyclic n f g) j = mulq (evaluateAtRoot n f j) (evaluateAtRoot n g j) := by
  refine eq_of_cast_eq (evaluateAtRoot_lt _ _ _) (mulq_lt _ _) ?_
  simp only [cast_mulq, cast_evaluateAtRoot, evalq_negacyclic f g (cast_zrom_pow hn hj)]

/-- The transform of the product is the pointwise product of the transforms (rule R180). -/
theorem ntt_negacyclic {n : Nat} (f g : Nat → Nat) (hn : n ∈ transformLens) :
    ntt n ((List.range n).map (negacyclic n f g)) =
      List.zipWith mulq (ntt n ((List.range n).map f)) (ntt n ((List.range n).map g)) := by
  rw [ntt_map_range hn, ntt_map_range hn, ntt_map_range hn, zipWith_map_range]
  exact List.map_congr_left fun j hj => evaluateAtRoot_negacyclic f g hn (List.mem_range.1 hj)

/-- Polynomials with one transform have the same coefficients (rule R180). -/
theorem eq_of_ntt_eq {n : Nat} {f g : Nat → Nat} (hn : n ∈ transformLens) (hf : ∀ k < n, f k < Config.q)
    (hg : ∀ k < n, g k < Config.q) (h : ntt n ((List.range n).map f) = ntt n ((List.range n).map g)) :
    ∀ k < n, f k = g k := by
  have hi := congrArg (intt n) h
  rw [intt_ntt hn (by simp) (by simpa using hf), intt_ntt hn (by simp) (by simpa using hg), List.map_inj_left] at hi
  exact fun k hk => hi k (List.mem_range.2 hk)

/-- Multiplying two transforms entry by entry and transforming back is multiplying modulo x^n + 1 (rule R178). -/
theorem intt_zipWith_mulq {n : Nat} (f g : Nat → Nat) (hn : n ∈ transformLens) :
    intt n (List.zipWith mulq (ntt n ((List.range n).map f)) (ntt n ((List.range n).map g))) =
      (List.range n).map (negacyclic n f g) := by
  rw [← ntt_negacyclic f g hn, intt_ntt hn (by simp) (by simp [negacyclic_lt])]

/-- Settles O49, from what ZMUL computes between its transforms. -/
theorem zmulIsTheNegacyclicProduct : Obligations.ZmulIsTheNegacyclicProduct := by
  unfold Obligations.ZmulIsTheNegacyclicProduct
  intro rd ra rb n s
  refine commandRule_of_len rfl (ofNat_fieldOp_packFields _ _ _ _ _ _ (by decide)) (LenClass.legal_T_iff n) rfl
    fun hn t hm hr => State.wroteZ_of ?_ hr (by simp)
  rw [hm, State.outZ_mem, State.residues_eq_map, State.residues_eq_map, intt_zipWith_mulq _ _ hn, halves_map_range]

/-! ## Division modulo x^n + 1 -/

/-- Entry by entry, the quotient of two transforms times the divisor's is the dividend's. -/
theorem zipWith_mulq_divq {n : Nat} (f g : Nat → Nat) (hn : n ∈ transformLens)
    (h0 : ∀ j < n, evaluateAtRoot n g j ≠ 0) :
    List.zipWith mulq (List.zipWith divq (ntt n ((List.range n).map f)) (ntt n ((List.range n).map g)))
      (ntt n ((List.range n).map g)) = ntt n ((List.range n).map f) := by
  simp only [ntt_map_range hn, zipWith_map_range]
  exact List.map_congr_left fun j hj =>
    mulq_divq (evaluateAtRoot_lt _ _ _) (evaluateAtRoot_lt _ _ _) (h0 j (List.mem_range.1 hj))

/-- Where a transform times the divisor's, entry by entry, is the dividend's, transforming it back gives a polynomial
whose product with the divisor is the dividend (rule R179). -/
theorem exists_quotient_of_zipWith_mulq {n : Nat} {v : List Nat} {f g : Nat → Nat} (hn : n ∈ transformLens)
    (hlen : v.length = n) (hlt : ∀ r ∈ v, r < Config.q) (hf : ∀ k < n, f k < Config.q)
    (hmul : List.zipWith mulq v (ntt n ((List.range n).map g)) = ntt n ((List.range n).map f)) :
    ∃ c : Nat → Nat, intt n v = (List.range n).map c ∧ ∀ k < n, c k < Config.q ∧ negacyclic n c g k = f k := by
  have hl : (intt n v).length = n := intt_length hn hlen
  have hc : intt n v = (List.range n).map fun k => (intt n v).getD k 0 := eq_map_range_getD 0 hl
  refine ⟨fun k => (intt n v).getD k 0, hc, fun k hk => ⟨?_, ?_⟩⟩
  · exact intt_lt hn hlen _ (List.mem_of_getElem? (getElem?_eq_some_getD 0 (by rwa [hl])))
  · refine eq_of_ntt_eq hn (fun k _ => negacyclic_lt _ _ _ k) hf ?_ k hk
    rw [ntt_negacyclic _ _ hn, ← hc, ntt_intt hn hlen hlt, hmul]

/-- Settles O50: NO_INVERSE is a zero in the divisor's transform, which is its value at a root. -/
theorem zdivInvertsZmulOrFindsNoInverse : Obligations.ZdivInvertsZmulOrFindsNoInverse := by
  unfold Obligations.ZdivInvertsZmulOrFindsNoInverse
  intro rd ra rb n s
  have hT := LenClass.legal_T_iff n
  have he : exec (.zdiv rd ra rb n) s = runCommand (lenCheck .T n)
      ((divideq (ntt n ((List.range n).map (s.residue ra))) (ntt n ((List.range n).map (s.residue rb)))).map
        fun v => s.outZ rd (halves (intt n v))) s := by
    rw [← State.residues_eq_map, ← State.residues_eq_map]
    rfl
  refine ⟨encodedAs_of_op (ofNat_fieldOp_packFields 0x21 rd ra rb 0 n (by decide)), fun hn => ?badLen,
    fun hn h0 => ?noInverse, fun hn h0 => ?success⟩
  case badLen => exact endsIn_badLen_of_divide he (mt hT.1 hn)
  case noInverse =>
    refine endsIn_noInverse_of_divide he (hT.2 hn) ?_
    rw [ntt_map_range hn]
    exact zero_mem_map_range_iff.2 h0
  case success =>
    obtain ⟨c, hc, hquot⟩ := exists_quotient_of_zipWith_mulq hn (by simp [ntt_length hn])
      (by simp [ntt_map_range hn, divq_lt]) (fun k _ => s.residue_lt ra k) (zipWith_mulq_divq _ (s.residue rb) hn h0)
    have hz : 0 ∉ ntt n ((List.range n).map (s.residue rb)) := by
      rw [ntt_map_range hn]
      exact zero_notMem_map_range h0
    obtain ⟨t, hexec, hsucc, hwrote⟩ := exec_divide he (hT.2 hn) hz (by rw [hc]; simp)
    rw [hc, halves_map_range] at hwrote
    exact ⟨t, c, hexec, hsucc, hwrote, hquot⟩

end Sys2Proof.Machine
end

section
/-! SUPPORT. Commands that draw bytes: how they end, the numbers their bytes make, and what each draw answers
(rules R200, R207 to R209). -/

namespace Sys2Proof.Machine

/-! ## How a drawing command ends -/

section
variable {i : Instr} {s : State} {check : Option ErrCode} {draw : Draw} (he : exec i s = runDrawing check draw s)
include he

theorem endsIn_of_drawing {c : ErrCode} (hc : check = some c) : EndsIn i s c :=
  ⟨_, he.trans (runDrawing_check _ _ hc), s.failsWith_raiseError _⟩

theorem waitsForByte_of_drawing (hc : check = none) (hd : draw s.supply = none) :
    ∃ t, exec i s = .next t ∧ s.WaitsForByte t :=
  ⟨_, he.trans (runDrawing_starve hc hd), s.waitsForByte_starve⟩

/-- A draw that leaves all but the first `n` bytes has drawn `n` bytes in all. -/
theorem drewAndSucceeds_of_drawing {n : Nat} {r0 r1 : Word} (hc : check = none) (hn : n ≤ s.supply.length)
    (hd : draw s.supply = some (r0, r1, s.supply.drop n)) :
    ∃ t, exec i s = .next t ∧ s.DrewAndSucceeds n r0 r1 t :=
  ⟨_, he.trans (runDrawing_ok hc hd), State.drewAndSucceeds_finish r0 r1 (by rw [List.length_drop]; omega)⟩

end

/-! ## Drawing bytes, and bytes as numbers -/

theorem drawBytes_of_le {n : Nat} {bs : List Byte} (h : n ≤ bs.length) : drawBytes n bs = some (bs.take n, bs.drop n) :=
  if_neg (Nat.not_lt.2 h)

theorem drawBytes_of_lt {n : Nat} {bs : List Byte} (h : bs.length < n) : drawBytes n bs = none := if_pos h

@[simp] theorem byteOf_cons_zero (b : Byte) (bs : List Byte) : byteOf (b :: bs) 0 = b.toNat := rfl

@[simp] theorem byteOf_cons_succ (b : Byte) (bs : List Byte) (k : Nat) : byteOf (b :: bs) (k + 1) = byteOf bs k := rfl

theorem byteOf_drop (bs : List Byte) (k j : Nat) : byteOf (bs.drop k) j = byteOf bs (k + j) := by
  simp [byteOf, List.getD_eq_getElem?_getD]

/-- The little-endian number of the first `n` bytes, as a sum (rules R9, R208). -/
theorem numberOf_take (n : Nat) (bs : List Byte) :
    numberOf (bs.take n) = ∑ j ∈ Finset.range n, byteOf bs j * 2 ^ (8 * j) := by
  induction n generalizing bs with
  | zero => rfl
  | succ n ih =>
    cases bs with
    | nil => simp [numberOf, byteOf]
    | cons b bs =>
      rw [Finset.sum_range_succ', List.take_succ_cons, numberOf, ih, Finset.mul_sum, Nat.add_comm]
      congr 1
      · refine Finset.sum_congr rfl fun j _ => ?_
        rw [byteOf_cons_succ, Nat.mul_succ, pow_add]
        ring
      · simp

theorem uniform72_eq_numberOf (bs : List Byte) (k : Nat) : uniform72 bs k = numberOf ((bs.drop k).take 9) := by
  rw [numberOf_take]
  simp only [uniform72, byteOf_drop]

/-! ## The base sampler -/

theorem cdtRom_toList (rom : CdtRom) : rom.toList = (List.finRange 18).map fun k => rom[k] :=
  List.ext_getElem (by simp) fun k _ _ => by simp

/-- Counting the table's entries is counting their places (rule R208). -/
theorem cdtCount_eq_countAbove (rom : CdtRom) (u : Nat) : cdtCount rom u = countAbove rom u := by
  rw [cdtCount, cdtRom_toList, List.countP_map, List.countP_eq_length_filter]
  rfl

theorem baseSampler_of_le {bs : List Byte} (rom : CdtRom) (k : Nat) (h : k + 9 ≤ bs.length) :
    baseSampler rom (bs.drop k) = some (countAbove rom (uniform72 bs k), bs.drop (k + 9)) := by
  rw [baseSampler, drawBytes_of_le (by rw [List.length_drop]; omega), Option.map_some, cdtCount_eq_countAbove,
    uniform72_eq_numberOf, List.drop_drop]

theorem baseSampler_of_lt {bs : List Byte} (rom : CdtRom) (h : bs.length < 9) : baseSampler rom bs = none := by
  rw [baseSampler, drawBytes_of_lt h, Option.map_none]

/-- Settles O52, from what the base sampler makes of enough bytes and of too few. -/
theorem gbaseCountsTheTable : Obligations.GbaseCountsTheTable := by
  unfold Obligations.GbaseCountsTheTable
  intro s
  refine ⟨encodedAs_of_op (ofNat_fieldOp_packFields 0x28 0 0 0 0 0 (by decide)), fun h => ?enough, fun h => ?tooFew⟩
  case enough =>
    refine drewAndSucceeds_of_drawing (check := none) rfl rfl h ?_
    have hb := baseSampler_of_le s.cdtRom 0 (bs := s.supply) (by omega)
    rw [List.drop_zero] at hb
    rw [gbaseDraw, hb]
    rfl
  case tooFew =>
    refine waitsForByte_of_drawing (check := none) rfl rfl ?_
    rw [gbaseDraw, baseSampler_of_lt _ h, Option.map_none]

end Sys2Proof.Machine
end

section
/-! SUPPORT. The domain tests of the sampler commands as statements about numbers, and approx_exp as one Horner sum
(rules R204, R205, R210 to R212). -/

namespace Sys2Proof.Machine

/-! ## Comparisons of binary64 patterns as comparisons of numbers -/

theorem b64Le_iff {a b : B64} : b64Le a b = true ↔ b64IsNaN a = false ∧ b64IsNaN b = false ∧ b64Val a ≤ b64Val b := by
  simp [b64Le, and_assoc]

theorem b64Lt_iff {a b : B64} : b64Lt a b = true ↔ b64IsNaN a = false ∧ b64IsNaN b = false ∧ b64Val a < b64Val b := by
  simp [b64Lt, and_assoc]

theorem natAbs_b64Val (v : B64) : (b64Val v).natAbs = b64Mag v := by
  unfold b64Val
  split <;> simp

theorem b64Val_of_nonneg {v : B64} (h : 0 ≤ b64Val v) : b64Val v = b64Mag v := by
  rw [← natAbs_b64Val, Int.natAbs_of_nonneg h]

theorem b64IsNaN_of_isFinite {v : B64} (h : b64IsFinite v = true) : b64IsNaN v = false := by
  simp_all [b64IsFinite, b64IsNaN]

theorem b64Mag_of_isInf {v : B64} (h : b64IsInf v = true) : b64Mag v = b64Mag b64Inf := by
  obtain ⟨he, hf⟩ : b64Exp v = 2047 ∧ b64Frac v = 0 := by simpa [b64IsInf] using h
  rw [b64Mag, b64Mag, he, hf, show b64Exp b64Inf = 2047 from rfl, show b64Frac b64Inf = 0 from rfl]

/-- A number below the infinities is finite. -/
theorem b64IsFinite_of_mag_lt {v : B64} (hn : b64IsNaN v = false) (h : b64Mag v < b64Mag b64Inf) :
    b64IsFinite v = true := by
  have hi : b64IsInf v = false := by
    by_contra hi
    exact h.ne (b64Mag_of_isInf (by simpa using hi))
  rw [b64IsFinite, bne_iff_ne]
  intro he
  simp_all [b64IsNaN, b64IsInf]

theorem b64IsFinite_of_nonneg_of_le {v b : B64} (hn : b64IsNaN v = false) (h0 : 0 ≤ b64Val v) (hb : b64Val v ≤ b64Val b)
    (hf : b64Mag b < b64Mag b64Inf) : b64IsFinite v = true := by
  refine b64IsFinite_of_mag_lt hn (lt_of_le_of_lt ?_ hf)
  rw [← natAbs_b64Val, ← natAbs_b64Val]
  omega

theorem b64Val_zero : b64Val 0 = 0 := by decide +kernel

theorem b64Val_one : b64Val b64One = 2 ^ 1074 := by decide +kernel

/-! ## The domains -/

theorem inUnit_iff {v : B64} : inUnit v = true ↔ InUnitInterval v := by
  rw [inUnit, Bool.and_eq_true, b64Le_iff, b64Le_iff, b64Val_zero, InUnitInterval, ← b64Val_one]
  constructor
  · rintro ⟨⟨-, hn, h0⟩, -, -, h1⟩
    exact ⟨b64IsFinite_of_nonneg_of_le hn h0 h1 (by decide +kernel), h0, h1⟩
  · rintro ⟨hf, h0, h1⟩
    have hn := b64IsNaN_of_isFinite hf
    exact ⟨⟨rfl, hn, h0⟩, hn, rfl, h1⟩

theorem gexpDomain_iff {p : Snapshot} : gexpDomain p = true ↔ GexpOperands p := by
  rw [gexpDomain, Bool.and_eq_true, Bool.and_eq_true, inUnit_iff, b64Le_iff, b64Lt_iff, b64Val_zero, GexpOperands,
    ← b64Val_one]
  refine and_congr_left fun _ => ⟨?_, ?_⟩
  · rintro ⟨⟨-, hn, h0⟩, -, -, h1⟩
    exact ⟨b64IsFinite_of_nonneg_of_le hn h0 h1.le (by decide +kernel), h0, h1⟩
  · rintro ⟨hf, h0, h1⟩
    have hn := b64IsNaN_of_isFinite hf
    exact ⟨⟨rfl, hn, h0⟩, hn, rfl, h1⟩

theorem gberDomain_iff {p : Snapshot} : gberDomain p = true ↔ GberOperands p := by
  rw [gberDomain, Bool.and_eq_true, inUnit_iff, Bool.not_eq_true', GberOperands]

theorem gsampDomain_iff {p : Snapshot} : gsampDomain p = true ↔ GsampOperands p := by
  have hhalf : b64Val b64Half = 2 ^ 1073 := by decide +kernel
  have hpos : 0 < b64Val b64Half := by decide +kernel
  rw [GsampOperands, ← hhalf]
  simp only [gsampDomain, Bool.and_eq_true, decide_eq_true_eq, b64Le_iff, ← natAbs_b64Val, b64Unit]
  constructor
  · rintro ⟨⟨⟨⟨hm, hmu⟩, -, hnm, h1⟩, -, hns, h2⟩, -, -, h3⟩
    have hs : b64IsFinite p.sigma = true :=
      b64IsFinite_of_nonneg_of_le hns (hpos.le.trans (h1.trans h2)) h3 (by decide +kernel)
    have hsm : b64IsFinite p.sigmin = true :=
      b64IsFinite_of_nonneg_of_le hnm (hpos.le.trans h1) (h2.trans h3) (by decide +kernel)
    exact ⟨hm, hs, hsm, hmu, h1, h2, h3⟩
  · rintro ⟨hm, hs, hsm, hmu, h1, h2, h3⟩
    have hns := b64IsNaN_of_isFinite hs
    have hnm := b64IsNaN_of_isFinite hsm
    exact ⟨⟨⟨⟨hm, hmu⟩, rfl, hnm, h1⟩, hnm, hns, h2⟩, hns, rfl, h3⟩

theorem domainCheck_none {ok : Bool} (h : ok = true) : domainCheck ok = none := if_pos h

theorem domainCheck_some {ok : Bool} (h : ¬ok = true) : domainCheck ok = some .domain := if_neg h

/-! ## approx_exp -/

/-- fx63 is the floor of v·2^63 (rule R204). -/
theorem fx63_bounds {v : B64} (h0 : 0 ≤ b64Val v) :
    (fx63 v : Int) * 2 ^ 1074 ≤ b64Val v * 2 ^ 63 ∧ b64Val v * 2 ^ 63 < ((fx63 v : Int) + 1) * 2 ^ 1074 := by
  rw [b64Val_of_nonneg h0, fx63, b64Unit]
  have hu : 0 < 2 ^ 1074 := by positivity
  exact_mod_cast And.intro (Nat.div_mul_le_self (b64Mag v * 2 ^ 63) (2 ^ 1074))
    (Nat.lt_mul_of_div_lt (Nat.lt_succ_self _) hu)

/-- One step of the Horner rule on numbers: the difference, wrapped into 64 bits (rule R205). -/
def hornerStep (zx y c : Nat) : Nat := (((c : Int) - (zx * y / 2 ^ 63 : Nat)) % 2 ^ 64).toNat

theorem toNat_sub_ofNat (c : BitVec 64) (n : Nat) :
    (c - BitVec.ofNat 64 n).toNat = (((c.toNat : Int) - n) % 2 ^ 64).toNat := by
  rw [BitVec.toNat_sub, BitVec.toNat_ofNat]
  omega

theorem toNat_hornerSteps (zx : Nat) (y : BitVec 64) (cs : List (BitVec 64)) :
    (hornerSteps zx y cs).toNat = cs.foldl (fun a c => hornerStep zx a c.toNat) y.toNat := by
  induction cs generalizing y with
  | nil => rfl
  | cons c cs ih => rw [hornerSteps, ih, toNat_sub_ofNat, List.foldl_cons, hornerStep]

theorem expRom_tail (rom : ExpRom) : rom.toList.tail = (List.range 12).map fun k => rom.toList.getD (k + 1) 0 := by
  rw [eq_map_range_getD (l := rom.toList.tail) (n := 12) 0 (by simp)]
  simp [List.getD_eq_getElem?_getD]

theorem approxExpFx_eq_foldl (rom : ExpRom) (zx cfx : Nat) :
    approxExpFx rom zx cfx =
      cfx * (List.range 12).foldl (fun y k => hornerStep zx y (rom.toList.getD (k + 1) 0).toNat)
        (rom.toList.getD 0 0).toNat / 2 ^ 63 := by
  rw [approxExpFx, toNat_hornerSteps, expRom_tail, List.foldl_map, List.headD_eq_head?_getD, List.getD_eq_getElem?_getD,
    List.head?_eq_getElem?]

/-- Settles O53: fx63 as a floor, the Horner recursion as a fold over the table, and the frame of a command that draws no
byte. -/
theorem gexpEvaluatesTheHornerForm : Obligations.GexpEvaluatesTheHornerForm := by
  unfold Obligations.GexpEvaluatesTheHornerForm
  refine ⟨fun v ⟨_, h0, _⟩ => fx63_bounds h0, approxExpFx_eq_foldl, fun s => ?_⟩
  have he : exec .gexp s = runCommand (domainCheck (gexpDomain s.snap)) (.ok _) s := rfl
  refine ⟨encodedAs_of_op (ofNat_fieldOp_packFields 0x29 0 0 0 0 0 (by decide)), fun h => ?domain, fun h => ?success⟩
  case domain =>
    exact ⟨_, he.trans (runCommand_check _ _ (domainCheck_some (mt gexpDomain_iff.1 h))), s.failsWith_raiseError _⟩
  case success =>
    exact ⟨_, he.trans (runCommand_ok _ (domainCheck_none (gexpDomain_iff.2 h)) rfl), State.wroteNothing_of rfl rfl,
      s.succeedsWith_finish _ _ _⟩

end Sys2Proof.Machine
end

section
/-! SUPPORT. The Bernoulli test compares two 56-bit numbers, and GBER is one such test (rules R206, R207, R211). -/

namespace Sys2Proof.Machine

/-! ## The comparison byte by byte -/

/-- The number of the first `n` bytes, the first byte highest (rule R207). -/
def bigEndian (n : Nat) (bs : List Byte) : Nat := ∑ j ∈ Finset.range n, byteOf bs j * 2 ^ (8 * (n - 1 - j))

theorem bigEndian_cons (n : Nat) (b : Byte) (bs : List Byte) :
    bigEndian (n + 1) (b :: bs) = b.toNat * 2 ^ (8 * n) + bigEndian n bs := by
  rw [bigEndian, Finset.sum_range_succ', Nat.add_comm]
  refine congrArg₂ _ rfl (Finset.sum_congr rfl fun j _ => ?_)
  rw [byteOf_cons_succ, show n + 1 - 1 - (j + 1) = n - 1 - j by omega]

theorem bigEndian_take (n : Nat) (bs : List Byte) : bigEndian n (bs.take n) = bigEndian n bs := by
  refine Finset.sum_congr rfl fun j hj => ?_
  rw [byteOf, byteOf, List.getD_eq_getElem?_getD, List.getD_eq_getElem?_getD,
    List.getElem?_take_of_lt (Finset.mem_range.1 hj)]

theorem bigEndian_lt {n : Nat} {bs : List Byte} (h : n ≤ bs.length) : bigEndian n bs < 2 ^ (8 * n) := by
  induction n generalizing bs with
  | zero => exact Nat.one_pos
  | succ n ih =>
    cases bs with
    | nil => cases h
    | cons b bs =>
      have hb := b.isLt
      have hlow := ih (Nat.le_of_succ_le_succ h)
      calc bigEndian (n + 1) (b :: bs)
        _ < (b.toNat + 1) * 2 ^ (8 * n) := by
          rw [bigEndian_cons, Nat.add_mul, Nat.one_mul]
          exact Nat.add_lt_add_left hlow _
        _ ≤ 2 ^ 8 * 2 ^ (8 * n) := Nat.mul_le_mul_right _ hb
        _ = 2 ^ (8 * (n + 1)) := by rw [← pow_add, Nat.mul_succ, Nat.add_comm]

theorem trial56_eq_bigEndian (bs : List Byte) (k : Nat) : trial56 bs k = bigEndian 7 (bs.drop k) := by
  simp only [trial56, bigEndian, byteOf_drop]

/-- Two numbers in base `B` compare by their high digits, and by the rest where those are equal. -/
theorem mul_add_lt_mul_add_iff {B r p x y : Nat} (hx : x < B) (hy : y < B) :
    r * B + x < p * B + y ↔ if r = p then x < y else r < p := by
  have below : ∀ {a b u v : Nat}, u < B → a < b → a * B + u < b * B + v := fun {a b u v} hu hab =>
    calc a * B + u
      _ < (a + 1) * B := by rw [Nat.succ_mul]; omega
      _ ≤ b * B := Nat.mul_le_mul_right B hab
      _ ≤ b * B + v := Nat.le_add_right _ _
  split
  · subst r
    exact Nat.add_lt_add_iff_left
  · rcases Nat.lt_or_gt_of_ne ‹r ≠ p› with h | h
    · exact iff_of_true (below hx h) h
    · exact iff_of_false (below hy h).not_gt h.not_gt

/-- The first `k` bytes accept exactly when their number is below the `k` bytes of P above its lowest (rule R207). -/
theorem berCompare_iff {p k : Nat} {bs : List Byte} (h : k ≤ bs.length) :
    berCompare p k bs = true ↔ bigEndian k bs < p / 2 ^ 8 % 2 ^ (8 * k) := by
  induction k generalizing bs with
  | zero => simp [berCompare, Nat.mod_one]
  | succ k ih =>
    cases bs with
    | nil => cases h
    | cons b bs =>
      have hk : k ≤ bs.length := Nat.le_of_succ_le_succ h
      have hdigits : p / 2 ^ 8 % 2 ^ (8 * (k + 1)) =
          p / 2 ^ (8 * (k + 1)) % 256 * 2 ^ (8 * k) + p / 2 ^ 8 % 2 ^ (8 * k) := by
        rw [show 256 = 2 ^ 8 from rfl, Nat.mul_succ, pow_add, Nat.mod_mul, Nat.div_div_eq_div_mul,
          Nat.mul_comm (2 ^ 8), Nat.add_comm, Nat.mul_comm]
      rw [bigEndian_cons, hdigits,
        mul_add_lt_mul_add_iff (bigEndian_lt hk) (Nat.mod_lt _ (by positivity)), berCompare, ← ih hk]
      split <;> simp

theorem berAccept_of_le {bs : List Byte} (p k : Nat) (h : k + 7 ≤ bs.length) :
    berAccept p (bs.drop k) = some (decide (trial56 bs k < p / 2 ^ 8 % 2 ^ 56), bs.drop (k + 7)) := by
  have hd : 7 ≤ (bs.drop k).length := by rw [List.length_drop]; omega
  have hc : berCompare p 7 ((bs.drop k).take 7) = decide (trial56 bs k < p / 2 ^ 8 % 2 ^ 56) := by
    rw [Bool.eq_iff_iff, decide_eq_true_eq, berCompare_iff (by rw [List.length_take]; omega), bigEndian_take,
      trial56_eq_bigEndian]
  rw [berAccept, drawBytes_of_le hd, Option.map_some, hc, List.drop_drop]

theorem berAccept_of_lt {bs : List Byte} (p : Nat) (h : bs.length < 7) : berAccept p bs = none := by
  rw [berAccept, drawBytes_of_lt h, Option.map_none]

/-! ## The probability is a 64-bit number -/

theorem fx63_le {v : B64} (h : InUnitInterval v) : fx63 v ≤ 2 ^ 63 := by
  obtain ⟨-, h0, h1⟩ := h
  have hu : (0 : Int) < 2 ^ 1074 := by positivity
  have hle : (fx63 v : Int) * 2 ^ 1074 ≤ 2 ^ 63 * 2 ^ 1074 :=
    calc (fx63 v : Int) * 2 ^ 1074
      _ ≤ b64Val v * 2 ^ 63 := (fx63_bounds h0).1
      _ ≤ 2 ^ 1074 * 2 ^ 63 := mul_le_mul_of_nonneg_right h1 (by positivity)
      _ = 2 ^ 63 * 2 ^ 1074 := mul_comm _ _
  exact_mod_cast le_of_mul_le_mul_right hle hu

theorem approxExpFx_lt (rom : ExpRom) (zx : Nat) {cfx : Nat} (h : cfx ≤ 2 ^ 63) : approxExpFx rom zx cfx < 2 ^ 64 := by
  refine Nat.div_lt_of_lt_mul ?_
  exact Nat.mul_lt_mul_of_le_of_lt h (BitVec.isLt _) (by positivity)

theorem berP_lt (rom : ExpRom) (x : B64) {ccs : B64} (h : InUnitInterval ccs) : berP rom x ccs < 2 ^ 64 := by
  unfold berP
  extract_lets t
  split
  · decide
  · exact lt_of_le_of_lt (Nat.div_le_self _ _) (approxExpFx_lt rom _ (fx63_le h))

/-! ## GBER -/

theorem ofNat_bitOf_decide (q : Prop) [Decidable q] : BitVec.ofNat 32 (bitOf (decide q)) = if q then 1 else 0 := by
  by_cases h : q <;> simp [bitOf, h]

/-- Settles O54: the byte by byte comparison is one of 56-bit numbers, and P has no bit above its 64. -/
theorem gberComparesWithTheProbability : Obligations.GberComparesWithTheProbability := by
  unfold Obligations.GberComparesWithTheProbability
  refine ⟨fun _ _ _ => rfl, fun s => ?_⟩
  have he : exec .gber s = runDrawing (domainCheck (gberDomain s.snap)) (gberDraw s.expRom s.snap) s := rfl
  refine ⟨encodedAs_of_op (ofNat_fieldOp_packFields 0x2A 0 0 0 0 0 (by decide)), fun h => ?domain, fun h hl => ?enough,
    fun h hl => ?tooFew⟩
  case domain => exact endsIn_of_drawing he (domainCheck_some (mt gberDomain_iff.1 h))
  case enough =>
    refine drewAndSucceeds_of_drawing he (domainCheck_none (gberDomain_iff.2 h)) hl ?_
    have hp := berP_lt s.expRom s.snap.x h.2
    have hacc := berAccept_of_le (berP s.expRom s.snap.x s.snap.ccs) 0 (bs := s.supply) (by omega)
    rw [List.drop_zero, Nat.mod_eq_of_lt (by omega)] at hacc
    rw [gberDraw, hacc, Option.map_some, ofNat_bitOf_decide]
  case tooFew =>
    refine waitsForByte_of_drawing he (domainCheck_none (gberDomain_iff.2 h)) ?_
    rw [gberDraw, berAccept_of_lt _ hl, Option.map_none]

end Sys2Proof.Machine
end

section
/-! SUPPORT. An iteration of GSAMP takes 17 bytes, and its loop runs iterations until one accepts (rules R212, R213). -/

namespace Sys2Proof.Machine

theorem gsampCandidate_eq (z0 : Nat) (b : Byte) :
    gsampCandidate z0 b = if b.toNat % 2 = 1 then 1 + (z0 : Int) else -(z0 : Int) := by
  unfold gsampCandidate
  rcases Nat.mod_two_eq_zero_or_one b.toNat with h | h
  · rw [h, if_neg (by decide)]
    ring
  · rw [h, if_pos rfl]
    ring

section
variable (cdt : CdtRom) (exp : ExpRom) (p : Snapshot) {bs : List Byte} {k : Nat}

theorem gsampCandidate_countAbove :
    gsampCandidate (countAbove cdt (uniform72 bs k)) (bs.getD (k + 9) 0) = candidateAt cdt bs k :=
  gsampCandidate_eq _ _

theorem gsampStatistic_candidateAt :
    gsampStatistic (gsampSetup p) (countAbove cdt (uniform72 bs k)) (candidateAt cdt bs k) = statisticAt cdt p bs k := by
  simp only [gsampStatistic, gsampSetup, statisticAt, b64One, b64Two, inv2Sigma2, Nat.cast_mul]

/-- The iteration at byte `k`, its 17 bytes there: the candidate, whether it accepts, and the bytes after it. -/
theorem gsampIteration_of_le (h : k + 17 ≤ bs.length) :
    ∃ accepted : Bool, (accepted = true ↔ acceptsAt cdt exp p bs k) ∧
      gsampIteration cdt exp (gsampSetup p) (bs.drop k) = some (candidateAt cdt bs k, accepted, bs.drop (k + 17)) := by
  refine ⟨decide (trial56 bs (k + 10) < berP exp (statisticAt cdt p bs k) (b64Div p.sigmin p.sigma) / 2 ^ 8 % 2 ^ 56),
    decide_eq_true_iff, ?_⟩
  have hsign : bs.drop (k + 9) = bs.getD (k + 9) 0 :: bs.drop (k + 10) := by
    rw [List.drop_eq_getElem_cons (by omega), List.getD_eq_getElem _ _ (by omega)]
  unfold gsampIteration
  rw [baseSampler_of_le cdt k (by omega), hsign]
  simp only [gsampCandidate_countAbove, gsampStatistic_candidateAt, berAccept_of_le _ (k + 10) h, Option.map_some]
  rfl

theorem gsampIteration_of_lt (g : GsampSetup) (h : bs.length < 17) : gsampIteration cdt exp g bs = none := by
  unfold gsampIteration
  rcases Nat.lt_or_ge bs.length 9 with h9 | h9
  · rw [baseSampler_of_lt cdt h9]
  · rw [← List.drop_zero (l := bs), baseSampler_of_le cdt 0 (by omega)]
    rcases hrest : bs.drop (0 + 9) with _ | ⟨sign, bs2⟩
    · rfl
    · have hl : bs2.length < 7 := by
        have := congrArg List.length hrest
        rw [List.length_drop, List.length_cons] at this
        omega
      simp only [berAccept_of_lt _ hl, Option.map_none]

/-! ## The loop -/

section
variable (hl : k + 17 ≤ bs.length)
include hl

theorem gsampLoop_succ_of_accepts (fuel it : Nat) (ha : acceptsAt cdt exp p bs k) :
    gsampLoop cdt exp (gsampSetup p) (fuel + 1) it (bs.drop k) =
      some (candidateAt cdt bs k + b64Floor p.mu, it + 1, bs.drop (k + 17)) := by
  obtain ⟨a, hacc, hi⟩ := gsampIteration_of_le cdt exp p hl
  simp only [gsampLoop, hi, if_pos (hacc.2 ha)]
  rfl

theorem gsampLoop_succ_of_rejects (fuel it : Nat) (hr : ¬acceptsAt cdt exp p bs k) :
    gsampLoop cdt exp (gsampSetup p) (fuel + 1) it (bs.drop k) =
      gsampLoop cdt exp (gsampSetup p) fuel (it + 1) (bs.drop (k + 17)) := by
  obtain ⟨a, hacc, hi⟩ := gsampIteration_of_le cdt exp p hl
  simp only [gsampLoop, hi, if_neg (mt hacc.1 hr)]

end

theorem gsampLoop_of_lt (g : GsampSetup) (fuel it : Nat) (h : bs.length < 17) : gsampLoop cdt exp g fuel it bs = none := by
  cases fuel with
  | zero => rfl
  | succ fuel => simp only [gsampLoop, gsampIteration_of_lt cdt exp g h]

/-- Iteration `j` after the one at byte `k` starts `17 * j` bytes behind the end of that one. -/
theorem iteration_start (k j : Nat) : k + 17 + 17 * j = k + 17 * (j + 1) := by omega

/-- From byte `k` on, the first iteration that accepts is the last (rule R212). -/
theorem gsampLoop_accepts {m fuel it : Nat} (hf : m < fuel) (hl : k + 17 * (m + 1) ≤ bs.length)
    (hr : ∀ j < m, ¬acceptsAt cdt exp p bs (k + 17 * j)) (ha : acceptsAt cdt exp p bs (k + 17 * m)) :
    gsampLoop cdt exp (gsampSetup p) fuel it (bs.drop k) =
      some (candidateAt cdt bs (k + 17 * m) + b64Floor p.mu, it + m + 1, bs.drop (k + 17 * (m + 1))) := by
  induction m generalizing fuel it k with
  | zero =>
    obtain ⟨fuel, rfl⟩ := Nat.exists_eq_add_one_of_ne_zero hf.ne'
    exact gsampLoop_succ_of_accepts cdt exp p hl fuel it ha
  | succ m ih =>
    obtain ⟨fuel, rfl⟩ := Nat.exists_eq_add_one_of_ne_zero (Nat.ne_zero_of_lt hf)
    have hfirst : ¬acceptsAt cdt exp p bs k := hr 0 m.succ_pos
    have hrest : ∀ j < m, ¬acceptsAt cdt exp p bs (k + 17 + 17 * j) := fun j hj => by
      rw [iteration_start]
      exact hr (j + 1) (Nat.succ_lt_succ hj)
    rw [gsampLoop_succ_of_rejects cdt exp p (by omega) fuel it hfirst,
      ih (Nat.lt_of_succ_lt_succ hf) (by omega) hrest (by rwa [iteration_start]), iteration_start, iteration_start,
      Nat.add_right_comm it 1, Nat.add_assoc it m]

/-- While no iteration whose bytes are there accepts, the loop needs more bytes (rule R213). -/
theorem gsampLoop_starves {fuel it : Nat}
    (hr : ∀ j, k + 17 * (j + 1) ≤ bs.length → ¬acceptsAt cdt exp p bs (k + 17 * j)) :
    gsampLoop cdt exp (gsampSetup p) fuel it (bs.drop k) = none := by
  induction fuel generalizing it k with
  | zero => rfl
  | succ fuel ih =>
    by_cases hl : k + 17 ≤ bs.length
    · rw [gsampLoop_succ_of_rejects cdt exp p hl fuel it (hr 0 hl)]
      refine ih fun j hj => ?_
      rw [iteration_start] at hj ⊢
      exact hr (j + 1) hj
    · exact gsampLoop_of_lt cdt exp _ _ it (by rw [List.length_drop]; omega)

theorem gsampDraw_accepts {m : Nat} (hl : 17 * (m + 1) ≤ bs.length) (hr : ∀ j < m, ¬acceptsAt cdt exp p bs (17 * j))
    (ha : acceptsAt cdt exp p bs (17 * m)) :
    gsampDraw cdt exp p bs = some (BitVec.ofInt 32 (candidateAt cdt bs (17 * m) + b64Floor p.mu),
      BitVec.ofNat 32 (min (m + 1) (2 ^ 32 - 1)), bs.drop (17 * (m + 1))) := by
  have h := gsampLoop_accepts cdt exp p (bs := bs) (k := 0) (it := 0) (fuel := bs.length) (m := m) (by omega) (by omega)
    (by simpa using hr) (by simpa using ha)
  simp only [List.drop_zero, Nat.zero_add] at h
  rw [gsampDraw, h, Option.map_some]

theorem gsampDraw_starves (hr : ∀ j, 17 * (j + 1) ≤ bs.length → ¬acceptsAt cdt exp p bs (17 * j)) :
    gsampDraw cdt exp p bs = none := by
  have h := gsampLoop_starves cdt exp p (bs := bs) (k := 0) (it := 0) (fuel := bs.length) (by simpa using hr)
  rw [List.drop_zero] at h
  rw [gsampDraw, h, Option.map_none]

end

/-- Settles O55, from the loop's two outcomes, each an induction over its iterations. -/
theorem gsampRunsTrialsOfSeventeenBytes : Obligations.GsampRunsTrialsOfSeventeenBytes := by
  unfold Obligations.GsampRunsTrialsOfSeventeenBytes
  intro s
  have he : exec .gsamp s = runDrawing (domainCheck (gsampDomain s.snap)) (gsampDraw s.cdtRom s.expRom s.snap) s := rfl
  refine ⟨encodedAs_of_op (ofNat_fieldOp_packFields 0x2B 0 0 0 0 0 (by decide)), fun h => ?domain,
    fun h m hl hr ha => ?accepts, fun h hr => ?starves⟩
  case domain => exact endsIn_of_drawing he (domainCheck_some (mt gsampDomain_iff.1 h))
  case accepts =>
    exact drewAndSucceeds_of_drawing he (domainCheck_none (gsampDomain_iff.2 h)) hl (gsampDraw_accepts _ _ _ hl hr ha)
  case starves =>
    exact waitsForByte_of_drawing he (domainCheck_none (gsampDomain_iff.2 h)) (gsampDraw_starves _ _ _ hr)

end Sys2Proof.Machine
end

section
/-! SUPPORT. Bits as numbers and back, BYTEBUF as a stream of bits, and what the decoder makes of a stream that starts
with the bits of coefficients (rules R241, R242, R244). -/

namespace Sys2Proof.Machine

/-! ## Bits and numbers, most significant bit first -/

@[simp] theorem bitsMsb_length (n m : Nat) : (bitsMsb n m).length = n := by
  induction n with
  | zero => rfl
  | succ n ih => rw [bitsMsb, List.length_cons, ih]

theorem bitsMsb_eq_testBits (n m : Nat) : bitsMsb n m = (List.range n).map fun j => m.testBit (n - 1 - j) := by
  induction n with
  | zero => rfl
  | succ n ih =>
    rw [bitsMsb, ih, List.range_succ_eq_map, List.map_cons, List.map_map, Nat.testBit_eq_decide_div_mod_eq]
    refine congrArg₂ _ rfl (List.map_congr_left fun j _ => ?_)
    rw [Function.comp_apply, show n + 1 - 1 - j.succ = n - 1 - j by omega]

theorem numberMsb_eq_foldl (acc : Nat) (l : List Bool) : numberMsb acc l = l.foldl (fun a b => 2 * a + b.toNat) acc := by
  induction l generalizing acc with
  | nil => rfl
  | cons b l ih =>
    rw [numberMsb, ih, List.foldl_cons]
    cases b <;> rfl

/-- Reading the low `n` bits of a number appends them to what was read before. -/
theorem numberMsb_bitsMsb (acc n m : Nat) : numberMsb acc (bitsMsb n m) = acc * 2 ^ n + m % 2 ^ n := by
  induction n generalizing acc with
  | zero => rw [bitsMsb, numberMsb, pow_zero, Nat.mod_one, Nat.mul_one, Nat.add_zero]
  | succ n ih =>
    have hbit : bitOf (m / 2 ^ n % 2 == 1) = m / 2 ^ n % 2 := by
      rcases Nat.mod_two_eq_zero_or_one (m / 2 ^ n) with h | h <;> rw [h] <;> rfl
    rw [bitsMsb, numberMsb, ih, hbit, Nat.mod_pow_succ]
    ring

/-- The bits read before stand above those of the list. -/
theorem numberMsb_div (acc : Nat) (l : List Bool) : numberMsb acc l / 2 ^ l.length = acc := by
  induction l generalizing acc with
  | nil => rw [numberMsb, List.length_nil, pow_zero, Nat.div_one]
  | cons b l ih =>
    have hbit : bitOf b < 2 := by cases b <;> decide
    rw [numberMsb, List.length_cons, pow_succ, ← Nat.div_div_eq_div_mul, ih]
    omega

theorem numberMsb_lt (l : List Bool) : numberMsb 0 l < 2 ^ l.length :=
  Nat.lt_of_div_eq_zero (Nat.two_pow_pos _) (numberMsb_div 0 l)

/-- The number of a list of bits has these bits, whatever was read before them. -/
theorem bitsMsb_numberMsb (acc : Nat) (l : List Bool) : bitsMsb l.length (numberMsb acc l) = l := by
  induction l generalizing acc with
  | nil => rfl
  | cons b l ih =>
    rw [numberMsb, List.length_cons, bitsMsb, ih, numberMsb_div]
    cases b <;> simp [bitOf]

/-! ## Bytes as a stream -/

theorem unpackBits_cons (b : Byte) (bs : List Byte) : unpackBits (b :: bs) = bitsMsb 8 b.toNat ++ unpackBits bs := rfl

theorem unpackBits_append (xs ys : List Byte) : unpackBits (xs ++ ys) = unpackBits xs ++ unpackBits ys := by
  rw [unpackBits, List.map_append, List.flatten_append, unpackBits, unpackBits]

/-- The byte that eight bits are packed into has these bits (rule R241). -/
theorem bitsMsb_packedByte {l : List Bool} (h : l.length = 8) : bitsMsb 8 (BitVec.ofNat 8 (numberMsb 0 l)).toNat = l := by
  have hlt := numberMsb_lt l
  rw [h] at hlt
  rw [BitVec.toNat_ofNat, Nat.mod_eq_of_lt hlt, ← h, bitsMsb_numberMsb]

/-- Packed bits read back, padded with zeros to the size of the bytes (rules R241, R243). -/
theorem unpackBits_packBits {n : Nat} {bits : List Bool} (h : bits.length ≤ 8 * n) :
    unpackBits (packBits n bits) = bits ++ List.replicate (8 * n - bits.length) false := by
  induction n generalizing bits with
  | zero =>
    obtain rfl := List.length_eq_zero_iff.1 (Nat.le_zero.1 h)
    rfl
  | succ n ih =>
    have hdrop : (bits.drop 8).length = bits.length - 8 := List.length_drop
    have hbyte : (bits.take 8 ++ List.replicate (8 - bits.length) false).length = 8 := by
      rw [List.length_append, List.length_take, List.length_replicate]
      omega
    rw [packBits, unpackBits_cons, bitsMsb_packedByte hbyte, ih (by omega), hdrop]
    rcases Nat.le_total bits.length 8 with hle | hle
    · rw [List.take_of_length_le hle, List.drop_of_length_le hle, List.nil_append, List.append_assoc,
        List.replicate_append_replicate]
      congr 2
      omega
    · rw [Nat.sub_eq_zero_of_le hle, List.replicate_zero, List.append_nil, ← List.append_assoc, List.take_append_drop]
      congr 2
      omega

theorem State.streamBits_succ (s : State) (n : Nat) :
    s.streamBits (n + 1) = s.streamBits n ++ bitsMsb 8 (s.bufByte n).toNat := by
  rw [State.streamBits, Nat.mul_succ, List.range_add, List.map_append, List.map_map, bitsMsb_eq_testBits]
  refine congrArg₂ _ rfl (List.map_congr_left fun j hj => ?_)
  have hj : j < 8 := List.mem_range.1 hj
  rw [Function.comp_apply, State.streamBit, BitVec.testBit_toNat, show (8 * n + j) / 8 = n by omega,
    show (8 * n + j) % 8 = j by omega]

/-- The stream in BYTEBUF is the bits of its bytes (rule R241). -/
theorem State.streamBits_eq_unpackBits (s : State) (n : Nat) : s.streamBits n = unpackBits (s.bufBytes n) := by
  induction n with
  | zero => rfl
  | succ n ih =>
    rw [State.streamBits_succ, ih, State.bufBytes, State.bufBytes, List.range_succ, List.map_append, unpackBits_append,
      List.map_singleton, unpackBits_cons]
    exact congrArg _ (List.append_nil _).symm

@[simp] theorem State.streamBits_length (s : State) (n : Nat) : (s.streamBits n).length = 8 * n := by
  rw [State.streamBits, List.length_map, List.length_range]

theorem State.streamBits_getD {s : State} {n p : Nat} (h : p < 8 * n) : (s.streamBits n).getD p false = s.streamBit p := by
  rw [List.getD_eq_getElem _ _ (by rwa [State.streamBits_length])]
  simp [State.streamBits]

/-- BYTEBUF holds, as a stream, the bits that were packed into it (rules R241, R243). -/
theorem State.streamBits_writeBuf_packBits {s t : State} {n : Nat} {bits : List Bool}
    (hm : t.mem = s.mem.writeBuf (packBits n bits)) (h : bits.length ≤ 8 * n) :
    t.streamBits n = bits ++ List.replicate (8 * n - bits.length) false := by
  have hbytes : t.bufBytes n = packBits n bits :=
    List.ext_getElem (by rw [State.bufBytes_length, packBits_length]) fun k _ hk => by
      rw [← State.bufByte_writeBuf_same hm k hk]
      simp [State.bufBytes]
  rw [State.streamBits_eq_unpackBits, hbytes, unpackBits_packBits h]

theorem getD_append_replicate {α : Type} (l : List α) (k p : Nat) (d : α) :
    (l ++ List.replicate k d).getD p d = l.getD p d := by
  rcases Nat.lt_or_ge p l.length with h | h
  · exact List.getD_append _ _ _ _ h
  · rw [List.getD_append_right _ _ _ _ h, List.getD_eq_default _ _ h, List.getD_eq_getElem?_getD,
      List.getElem?_getD_replicate_default_eq]

/-! ## The bits of coefficients -/

/-- The parts of a coefficient's bits, and the stream after them (rule R242). -/
theorem coeffBits_append (c : Int) (rest : List Bool) :
    coeffBits c ++ rest =
      decide (c < 0) :: (bitsMsb 7 c.natAbs ++ (List.replicate (c.natAbs / 2 ^ 7) true ++ false :: rest)) := by
  rw [bitsMsb_eq_testBits]
  simp [coeffBits]

theorem encodeCoeff_eq_coeffBits (c : Int) : encodeCoeff c = coeffBits c := by
  rw [← List.append_nil (coeffBits c), coeffBits_append, encodeCoeff, List.append_assoc]
  rfl

theorem encodeAll_eq_flatMap (v : List Int) : encodeAll v = v.flatMap coeffBits := by
  rw [encodeAll, List.flatMap_def, funext encodeCoeff_eq_coeffBits]

theorem coeffBits_length (c : Int) : (coeffBits c).length = 9 + c.natAbs / 2 ^ 7 := by
  simp only [coeffBits, List.length_append, List.length_map, List.length_range, List.length_replicate,
    List.length_singleton]
  omega

theorem flatMap_coeffBits_length (v : List Int) :
    (v.flatMap coeffBits).length = (v.map fun c => 9 + c.natAbs / 2 ^ 7).sum := by
  rw [List.length_flatMap, funext coeffBits_length]

/-! ## Reading one coefficient -/

theorem unaryRun_terminated (u k : Nat) (rest : List Bool) :
    unaryRun u (List.replicate k true ++ false :: rest) = some (u + k, rest) := by
  induction k generalizing u with
  | zero => rfl
  | succ k ih => rw [List.replicate_succ, List.cons_append, unaryRun, ih, Nat.add_right_comm, Nat.add_assoc]

theorem unaryRun_of_all_true {bs : List Bool} (u : Nat) (h : ∀ b ∈ bs, b = true) : unaryRun u bs = none := by
  induction bs generalizing u with
  | nil => rfl
  | cons b bs ih =>
    obtain ⟨rfl, hbs⟩ := List.forall_mem_cons.1 h
    exact ih (u + 1) hbs

/-- Coefficients whose bits start one stream are the same coefficient: no coefficient's bits are the start of another's
(rule R246). -/
theorem coeffBits_append_inj {c d : Int} {x y : List Bool} (h : coeffBits c ++ x = coeffBits d ++ y) : c = d ∧ x = y := by
  rw [coeffBits_append, coeffBits_append] at h
  obtain ⟨hsign, h⟩ := List.cons.inj h
  obtain ⟨hlow, hrun⟩ := List.append_inj h (by simp)
  have hlow := congrArg (numberMsb 0) hlow
  have hrun := congrArg (unaryRun 0) hrun
  rw [numberMsb_bitsMsb, numberMsb_bitsMsb] at hlow
  rw [unaryRun_terminated, unaryRun_terminated] at hrun
  obtain ⟨hhigh, rfl⟩ := Prod.mk.inj (Option.some.inj hrun)
  rw [decide_eq_decide] at hsign
  exact ⟨by omega, rfl⟩

/-- A negative zero and a value outside the 16-bit range are malformed (rule R244). -/
theorem signedMagnitude_of_malformed {neg : Bool} {low u : Nat}
    (h : (neg = true ∧ u * 128 + low = 0) ∨ ¬IsCoeff (if neg then -(u * 128 + low : Nat) else (u * 128 + low : Nat))) :
    signedMagnitude neg low u = .error .malformed := by
  rw [signedMagnitude]
  rcases h with ⟨rfl, hzero⟩ | hrange
  · rw [hzero]
    rfl
  · rw [IsCoeff, not_and_or, not_le, not_le] at hrange
    rw [if_pos hrange, ite_self]

/-- The sign and the parts of the magnitude of a coefficient give it back (rules R242, R244). -/
theorem signedMagnitude_of_isCoeff {c : Int} (h : IsCoeff c) :
    signedMagnitude (decide (c < 0)) (c.natAbs % 2 ^ 7) (c.natAbs / 2 ^ 7) = .ok c := by
  obtain ⟨hlow, hhigh⟩ := h
  have hm : c.natAbs / 2 ^ 7 * 128 + c.natAbs % 2 ^ 7 = c.natAbs := by omega
  have hvalue : (if decide (c < 0) then -(c.natAbs : Int) else c.natAbs) = c := by
    simp only [decide_eq_true_eq]
    split <;> omega
  have hzero : ¬(decide (c < 0) && c.natAbs == 0) = true := by
    rw [Bool.and_eq_true, decide_eq_true_eq, beq_iff_eq]
    omega
  rw [signedMagnitude, hm, if_neg hzero, hvalue, if_neg (by omega)]

/-- A sign, seven low bits and a terminated run are read as one coefficient (rule R244). -/
theorem decodeCoeff_terminated (sg : Bool) {low : List Bool} (u : Nat) (rest : List Bool) (h : low.length = 7) :
    decodeCoeff (sg :: (low ++ (List.replicate u true ++ false :: rest))) =
      (signedMagnitude sg (numberMsb 0 low) u).map fun c => (c, rest) := by
  match low, h with
  | [b6, b5, b4, b3, b2, b1, b0], _ =>
    simp only [List.cons_append, List.nil_append, decodeCoeff, unaryRun_terminated, Nat.zero_add]

/-- A stream that ends before a terminator is truncated (rule R244). -/
theorem decodeCoeff_truncated {bits : List Bool} (h : ∀ b ∈ bits.drop 8, b = true) :
    decodeCoeff bits = .error .truncated := by
  unfold decodeCoeff
  split
  · rename_i bs
    rw [show unaryRun 0 bs = none from unaryRun_of_all_true 0 h]
  · rfl

theorem decodeCoeff_coeffBits {c : Int} (rest : List Bool) (h : IsCoeff c) :
    decodeCoeff (coeffBits c ++ rest) = .ok (c, rest) := by
  rw [coeffBits_append, decodeCoeff_terminated _ _ _ (bitsMsb_length _ _), numberMsb_bitsMsb, Nat.zero_mul, Nat.zero_add,
    signedMagnitude_of_isCoeff h]
  rfl

/-! ## Reading several coefficients -/

/-- Reading past the bits of coefficients yields them and goes on with the stream after them (rule R244). -/
theorem decodeAll_flatMap_coeffBits {v : List Int} (k : Nat) (rest : List Bool) (hv : ∀ c ∈ v, IsCoeff c) :
    decodeAll (v.length + k) (v.flatMap coeffBits ++ rest) = (decodeAll k rest).map fun r => (v ++ r.1, r.2) := by
  induction v with
  | nil =>
    rw [List.length_nil, Nat.zero_add, List.flatMap_nil, List.nil_append]
    rcases decodeAll k rest with e | r <;> rfl
  | cons c v ih =>
    obtain ⟨hc, hv⟩ := List.forall_mem_cons.1 hv
    rw [List.flatMap_cons, List.append_assoc, List.length_cons, Nat.add_right_comm, decodeAll,
      decodeCoeff_coeffBits _ hc]
    simp only [ih hv]
    rcases decodeAll k rest with e | r <;> rfl

theorem decodeAll_ok {v : List Int} (rest : List Bool) (hv : ∀ c ∈ v, IsCoeff c) :
    decodeAll v.length (v.flatMap coeffBits ++ rest) = .ok (v, rest) := by
  have h := decodeAll_flatMap_coeffBits 0 rest hv
  rwa [Nat.add_zero, decodeAll, Except.map, List.append_nil] at h

/-- The first error in stream order is the one reported (rule R244). -/
theorem decodeAll_of_decodeCoeff_error {n : Nat} {v : List Int} {rest : List Bool} {e : ErrCode}
    (hv : ∀ c ∈ v, IsCoeff c) (hn : v.length < n) (h : decodeCoeff rest = .error e) :
    decodeAll n (v.flatMap coeffBits ++ rest) = .error e := by
  obtain ⟨k, rfl⟩ := Nat.exists_eq_add_of_lt hn
  rw [Nat.add_assoc, decodeAll_flatMap_coeffBits _ _ hv, decodeAll, h]
  rfl

/-- A stream has one reading as a given number of coefficients (rule R246). -/
theorem flatMap_coeffBits_append_inj {v w : List Int} {x y : List Bool} (hl : v.length = w.length)
    (h : v.flatMap coeffBits ++ x = w.flatMap coeffBits ++ y) : v = w ∧ x = y := by
  induction v generalizing w with
  | nil =>
    obtain rfl := List.length_eq_zero_iff.1 hl.symm
    exact ⟨rfl, h⟩
  | cons c v ih =>
    obtain ⟨d, w, rfl⟩ := List.exists_cons_of_length_eq_add_one hl.symm
    rw [List.flatMap_cons, List.flatMap_cons, List.append_assoc, List.append_assoc] at h
    obtain ⟨rfl, hrest⟩ := coeffBits_append_inj h
    obtain ⟨rfl, htail⟩ := ih (Nat.succ.inj hl) hrest
    exact ⟨rfl, htail⟩

end Sys2Proof.Machine
end

section
/-! SUPPORT. How CMPR and DCMP end: the checks they share, and what each makes of the stream in BYTEBUF (rules R240,
R243, R245, R246). -/

namespace Sys2Proof.Machine

/-! ## How a command that draws no byte ends in an error -/

section
variable {i : Instr} {s : State} {check : Option ErrCode} {body : Except ErrCode Effect} {c : ErrCode}
  (he : exec i s = runCommand check body s)
include he

theorem endsIn_of_check (hc : check = some c) : EndsIn i s c :=
  ⟨_, he.trans (runCommand_check _ _ hc), s.failsWith_raiseError _⟩

theorem endsIn_of_body (hc : check = none) (hb : body = .error c) : EndsIn i s c :=
  ⟨_, he.trans (runCommand_error _ hc hb), s.failsWith_raiseError _⟩

end

theorem EndsIn.failsWith {i : Instr} {s t : State} {c : ErrCode} (h : EndsIn i s c) (ht : exec i s = .next t) :
    s.FailsWith c t := by
  obtain ⟨u, hu, hfails⟩ := h
  obtain rfl := Host.Outcome.next.inj (hu.symm.trans ht)
  exact hfails

/-! ## The check phase of the codec -/

theorem codecCheck_badLen {n : Nat} (check : Option ErrCode) (h : 1024 < n) :
    (lenCheck .C n).or check = some .badLen := by
  rw [lenCheck_some (mt (LenClass.legal_C_iff n).1 (Nat.not_le.2 h)), Option.some_or]

theorem codecCheck_of_le {n : Nat} (check : Option ErrCode) (h : n ≤ 1024) : (lenCheck .C n).or check = check := by
  rw [lenCheck_none ((LenClass.legal_C_iff n).2 h), Option.none_or]

theorem byteCountChecks_some {a b : BitVec 12} (h : 2048 < a.toNat ∨ 2048 < b.toNat) :
    (byteCountCheck a).or (byteCountCheck b) = some .badOperand := by
  rcases Nat.lt_or_ge 2048 a.toNat with ha | ha
  · rw [byteCountCheck_some ha, Option.some_or]
  · rw [byteCountCheck_none ha, Option.none_or, byteCountCheck_some (h.resolve_left (Nat.not_lt.2 ha))]

theorem byteCountChecks_none {a b : BitVec 12} (ha : a.toNat ≤ 2048) (hb : b.toNat ≤ 2048) :
    (byteCountCheck a).or (byteCountCheck b) = none := by
  rw [byteCountCheck_none ha, byteCountCheck_none hb, Option.or_none]

/-! ## CMPR -/

theorem State.coefficients_eq_map (s : State) (b : Bank) (n : Nat) :
    s.coefficients b n = (List.range n).map fun i => (s.zEntry b i).toInt := by
  rw [State.coefficients, State.zEntries, List.map_map]
  rfl

/-- Every entry holds a coefficient of the codec (rule R240). -/
theorem State.isCoeff_of_mem_coefficients {s : State} {b : Bank} {n : Nat} : ∀ c ∈ s.coefficients b n, IsCoeff c :=
  List.forall_mem_map.2 fun v _ => ⟨v.le_toInt, Int.le_of_lt_add_one v.toInt_lt⟩

/-- The 16-bit patterns of a bank's coefficients are its entries (rule R240). -/
theorem State.map_ofInt_coefficients (s : State) (b : Bank) (n : Nat) :
    (s.coefficients b n).map (BitVec.ofInt 16) = s.zEntries b n := by
  rw [State.coefficients, List.map_map]
  exact List.map_id'' (fun _ => BitVec.ofInt_toInt) _

theorem compress_of_lt (s : State) {v : List Int} {budget : Nat} (h : 8 * budget < (v.flatMap coeffBits).length) :
    compress s v budget = .error .budgetExceeded := by
  rw [compress, encodeAll_eq_flatMap, if_pos h]

theorem compress_of_le (s : State) {v : List Int} {budget : Nat} (h : (v.flatMap coeffBits).length ≤ 8 * budget) :
    compress s v budget =
      .ok { mem := s.mem.writeBuf (packBits budget (v.flatMap coeffBits))
            results := some (BitVec.ofNat 32 (v.flatMap coeffBits).length, 0) } := by
  rw [compress, encodeAll_eq_flatMap, if_neg (Nat.not_lt.2 h)]

section
variable {ra : Bank} {n : Nat} {s : State} (hn : n ≤ 1024) (hb : s.snap.budget.toNat ≤ 2048)
include hn hb

theorem cmpr_endsIn_budgetExceeded
    (h : 8 * s.snap.budget.toNat < ((s.coefficients ra n).flatMap coeffBits).length) :
    EndsIn (.cmpr ra n) s .budgetExceeded :=
  endsIn_of_body rfl ((codecCheck_of_le _ hn).trans (byteCountCheck_none hb)) (compress_of_lt s h)

/-- CMPR leaves in BYTEBUF the stream of the coefficients' bits, padded with zeros to the budget, and no other byte is
written (rule R243). -/
theorem cmpr_succeeds (h : ((s.coefficients ra n).flatMap coeffBits).length ≤ 8 * s.snap.budget.toNat) :
    ∃ t, exec (.cmpr ra n) s = .next t ∧
      s.SucceedsWith (BitVec.ofNat 32 ((s.coefficients ra n).flatMap coeffBits).length) 0 t ∧
      t.streamBits s.snap.budget.toNat = (s.coefficients ra n).flatMap coeffBits ++
        List.replicate (8 * s.snap.budget.toNat - ((s.coefficients ra n).flatMap coeffBits).length) false ∧
      ∀ a, (a < bufAddr 0 ∨ bufAddr s.snap.budget.toNat ≤ a) → t.byteAt a = s.byteAt a := by
  refine ⟨_, runCommand_ok s ((codecCheck_of_le _ hn).trans (byteCountCheck_none hb)) (compress_of_le s h),
    s.succeedsWith_finish _ _ _, State.streamBits_writeBuf_packBits (s := s) rfl h, fun a ha => ?frame⟩
  case frame =>
    refine State.byteAt_writeBuf_outside (s := s) (bs := packBits _ _) rfl ?_ a ?_
    · rfl
    · rwa [packBits_length]

end

/-- Settles O57, from the two outcomes of CMPR's execution. -/
theorem cmprPacksTheCoefficients : Obligations.CmprPacksTheCoefficients := by
  unfold Obligations.CmprPacksTheCoefficients
  intro ra n s
  simp only [← State.coefficients_eq_map]
  refine ⟨flatMap_coeffBits_length _, encodedAs_of_op (ofNat_fieldOp_packFields 0x30 0 ra 0 0 n (by decide)),
    fun hn => ?badLen, fun hn hb => ?badOperand, fun hn hb h => cmpr_endsIn_budgetExceeded hn hb h,
    fun hn hb h => ?success⟩
  case badLen => exact endsIn_of_check rfl (codecCheck_badLen _ hn)
  case badOperand => exact endsIn_of_check rfl ((codecCheck_of_le _ hn).trans (byteCountCheck_some hb))
  case success =>
    obtain ⟨t, hexec, hsucc, hstream, hframe⟩ := cmpr_succeeds hn hb h
    refine ⟨t, hexec, hsucc, fun p hp => ?_, hframe⟩
    rw [← State.streamBits_getD hp, hstream, getD_append_replicate]

/-! ## DCMP -/

theorem decompress_of_lt (s : State) (rd : Bank) (n : Nat) {budget inlen : Nat} (h : budget < inlen) :
    decompress s rd n budget inlen = .error .budgetExceeded := if_pos h

theorem decompress_of_le (s : State) (rd : Bank) (n : Nat) {budget inlen : Nat} (h : inlen ≤ budget) :
    decompress s rd n budget inlen = (decodeAll n (s.streamBits inlen)).map fun r =>
      { mem := Memory.writeZ rd s.mem 0 (r.1.map fun c => BitVec.ofInt 16 c)
        results := some (BitVec.ofNat 32 (8 * inlen - r.2.length), 0) } := by
  rw [decompress, if_neg (Nat.not_lt.2 h), ← State.streamBits_eq_unpackBits]

section
variable {rd : Bank} {n : Nat} {s : State} (hn : n ≤ 1024) (hb : s.snap.budget.toNat ≤ 2048)
  (hle : s.snap.inlen.toNat ≤ s.snap.budget.toNat)
include hn hb hle

/-- Within the budget DCMP ends in the error that its stream earns (rule R245). -/
theorem dcmp_endsIn_of_decodeAll {c : ErrCode} (h : decodeAll n (s.streamBits s.snap.inlen.toNat) = .error c) :
    EndsIn (.dcmp rd n) s c := by
  refine endsIn_of_body rfl ((codecCheck_of_le _ hn).trans (byteCountChecks_none hb (hle.trans hb))) ?_
  rw [decompress_of_le _ _ _ hle, h]
  rfl

/-- DCMP restores the coefficients whose bits its stream starts with, and reports how many bits these are (rule R245). -/
theorem dcmp_succeeds {v : List Int} {rest : List Bool} (hv : ∀ c ∈ v, IsCoeff c) (hl : v.length = n)
    (h : s.streamBits s.snap.inlen.toNat = v.flatMap coeffBits ++ rest) :
    ∃ t, exec (.dcmp rd n) s = .next t ∧
      s.SucceedsWith (BitVec.ofNat 32 (v.flatMap coeffBits).length) 0 t ∧ s.WroteZ rd n (v.map (BitVec.ofInt 16)) t := by
  subst hl
  have hlen : 8 * s.snap.inlen.toNat - rest.length = (v.flatMap coeffBits).length := by
    rw [← State.streamBits_length, h, List.length_append, Nat.add_sub_cancel]
  have hbody : decompress s rd v.length s.snap.budget.toNat s.snap.inlen.toNat =
      .ok { mem := Memory.writeZ rd s.mem 0 (v.map (BitVec.ofInt 16))
            results := some (BitVec.ofNat 32 (v.flatMap coeffBits).length, 0) } := by
    rw [decompress_of_le _ _ _ hle, h, decodeAll_ok _ hv, ← hlen]
    rfl
  exact ⟨_, runCommand_ok s ((codecCheck_of_le _ hn).trans (byteCountChecks_none hb (hle.trans hb))) hbody,
    s.succeedsWith_finish _ _ _, State.wroteZ_of rfl rfl (List.length_map _)⟩

end

/-- Settles O58: the stream is read coefficient by coefficient, and what follows the last one that is there decides. -/
theorem dcmpReadsTheCoefficients : Obligations.DcmpReadsTheCoefficients := by
  unfold Obligations.DcmpReadsTheCoefficients
  intro rd n s
  refine ⟨encodedAs_of_op (ofNat_fieldOp_packFields 0x31 rd 0 0 0 n (by decide)), fun hn => ?badLen,
    fun hn h => ?badOperand, fun hn hb hi h => ?budgetExceeded, fun hn hb hle v rest hv hs =>
      ⟨fun hl => dcmp_succeeds hn hb hle hv hl hs, fun hl h => ?truncated, fun hl sg low u tail hlow hr h => ?malformed⟩⟩
  case badLen => exact endsIn_of_check rfl (codecCheck_badLen _ hn)
  case badOperand => exact endsIn_of_check rfl ((codecCheck_of_le _ hn).trans (byteCountChecks_some h))
  case budgetExceeded =>
    exact endsIn_of_body rfl ((codecCheck_of_le _ hn).trans (byteCountChecks_none hb hi)) (decompress_of_lt s rd n h)
  case truncated =>
    refine dcmp_endsIn_of_decodeAll hn hb hle ?_
    rw [hs, decodeAll_of_decodeCoeff_error hv hl (decodeCoeff_truncated h)]
  case malformed =>
    rw [← numberMsb_eq_foldl] at h
    have hbad := signedMagnitude_of_malformed (h.imp_left (And.imp_right Int.natCast_eq_zero.1))
    refine dcmp_endsIn_of_decodeAll hn hb hle ?_
    rw [hs, hr, List.cons_append, List.cons_append, List.append_assoc]
    exact decodeAll_of_decodeCoeff_error hv hl (by rw [decodeCoeff_terminated _ _ _ hlow, hbad]; rfl)

/-! ## The round trip -/

/-- Settles O59: the stream that CMPR leaves starts with the bits of the coefficients, and DCMP reads such a stream. -/
theorem codecRoundTrip : Obligations.CodecRoundTrip := by
  unfold Obligations.CodecRoundTrip
  refine ⟨fun ra rd n s t => ?_, fun _ _ _ _ => flatMap_coeffBits_append_inj⟩
  simp only [← State.coefficients_eq_map, ← flatMap_coeffBits_length]
  refine fun hn hb ht => ⟨fun h => ?restored, fun h => (cmpr_endsIn_budgetExceeded hn hb h).failsWith ht⟩
  case restored =>
    obtain ⟨t', hexec, hsucc, hstream, -⟩ := cmpr_succeeds hn hb h
    obtain rfl := Host.Outcome.next.inj (hexec.symm.trans ht)
    have hsnap : t'.snap = s.snap := by rw [hsucc]
    have hstatus : t'.status.err = s.status.err := by rw [hsucc]
    have hresult : t'.result0 = BitVec.ofNat 32 ((s.coefficients ra n).flatMap coeffBits).length := by rw [hsucc]
    rw [← hsnap] at hb hstream
    obtain ⟨u, hexec', hsucc', hwrote, -⟩ := dcmp_succeeds (rd := rd) (n := n)
      (s := { t' with snap := { t'.snap with inlen := t'.snap.budget } }) hn hb le_rfl
      State.isCoeff_of_mem_coefficients (s.coefficients_length ra n) hstream
    refine ⟨u, hexec', hwrote.trans (s.map_ofInt_coefficients ra n), ?_, hresult, ?_, ?_⟩
    · rw [hresult, hsucc']
    · rw [hsucc']
    · rw [← hstatus, hsucc']

end Sys2Proof.Machine
end

section
/-! SUPPORT. What a command's end makes of STATUS, and what becomes of OVR in each event (rules R100, R265, R270). -/

namespace Sys2Proof.Machine

/-! ## The end of a command -/

/-- A command leaves CTRL, and its end is one of the three things that can happen to STATUS: an error entry, a completion,
a wait for a byte (rules R27, R100, R264). -/
theorem exec_status_cases {i : Instr} {s t : State} (h : exec i s = .next t) :
    t.ctrlIe = s.ctrlIe ∧
    ((∃ c, t.status = s.status.raise c) ∨ t.status = s.status.finish ∨ t.status = s.status.wait) := by
  rcases exec_cases h with ⟨c, -, rfl⟩ | ⟨e, -, rfl⟩ | ⟨_, -, -, rfl⟩ | ⟨_, r0, r1, rest, -, -, rfl⟩
  · exact ⟨rfl, .inl ⟨c, rfl⟩⟩
  · exact ⟨rfl, .inr (.inl rfl)⟩
  · exact ⟨rfl, .inr (.inr rfl)⟩
  · exact ⟨rfl, .inr (.inl rfl)⟩

/-- No command changes OVR (rule R265). -/
theorem exec_ovr {i : Instr} {s t : State} (h : exec i s = .next t) : t.status.ovr = s.status.ovr := by
  obtain ⟨-, ⟨c, ht⟩ | ht | ht⟩ := exec_status_cases h <;> simp [ht]

/-- A command that ends has set DONE, with or without an error, so that irq is CTRL.IE (rule R270). -/
theorem exec_irq_of_ended {i : Instr} {s t : State} (hb : s.status.busy = true) (h : exec i s = .next t)
    (ht : t.status.busy = false) : t.irq = s.ctrlIe := by
  obtain ⟨hie, ⟨c, hs⟩ | hs | hs⟩ := exec_status_cases h
  · simp [State.irq, hie, hs]
  · simp [State.irq, hie, hs]
  · simp [hs, hb] at ht

/-! ## A write to STATUS -/

theorem State.writeWord_status (s : State) (v : Word) : s.writeWord 0x0C v = (s.clearStatus v, false) :=
  s.writeWord_csr .status v

/-! ## OVR in each event -/

/-- A host access that clears OVR: a write to STATUS with bit 4 set (rule R265). -/
def Access.ClearsOvr (a : Access) : Prop := ∃ v : Word, v.getLsbD 4 = true ∧ a = .write 0x0000C v

/-- The engine's turn leaves OVR. -/
theorem State.engineTurn_ovr {s t : State} (h : s.engineTurn = .next t) : t.status.ovr = s.status.ovr := by
  unfold State.engineTurn at h
  split at h
  · cases h; rfl
  · split at h
    · cases h; rfl
    · exact exec_ovr h

/-- Of the host writes, only one to STATUS with bit 4 set lowers OVR. -/
theorem State.writeWord_lowers_ovr {s : State} {a : Nat} {v : Word} (h1 : s.status.ovr = true)
    (h0 : (s.writeWord a v).1.status.ovr = false) : a = 0x0C ∧ v.getLsbD 4 = true := by
  rcases s.writeWord_cases a v with h | ⟨c, rfl, h⟩ | ⟨_, -, -, -, -, h⟩ <;> rw [h] at h0
  case inr.inl =>
    rcases s.writeCsr_cases v c with hc | ⟨-, -, hc⟩ | ⟨-, -, hc⟩ | ⟨rfl, hc⟩ | ⟨_, _, _, _, _, _, _, _, hc⟩ <;>
      simp [hc, h1] at h0
    exact ⟨rfl, h0⟩
  all_goals simp [h1] at h0

theorem State.hostAccess_lowers_ovr {s : State} {a : Access} (h1 : s.status.ovr = true)
    (h0 : (s.hostAccess a).status.ovr = false) : a.ClearsOvr := by
  unfold State.hostAccess at h0
  split at h0
  · cases a <;> simp [State.accessInReset, h1] at h0
  · cases a with
    | read a => simp [State.access, h1] at h0
    | write a v =>
      obtain ⟨ha, hv⟩ := State.writeWord_lowers_ovr h1 h0
      exact ⟨v, hv, by rw [BitVec.eq_of_toNat_eq (y := 0x0000C) ha]⟩

/-- A host access together with the engine's turn does to OVR what the access alone does. -/
theorem State.accessAndTurn_ovr {s t : State} {a : Access} (h : s.accessAndTurn a = .next t) :
    t.status.ovr = (s.hostAccess a).status.ovr := by
  unfold State.accessAndTurn at h
  split at h
  · exact State.engineTurn_ovr h
  · cases h; rfl

/-- Of all events, only reset and a host access that clears OVR lower it. -/
theorem State.applyInput_lowers_ovr {s t : State} {e : Input} (h : s.applyInput e = .next t)
    (h1 : s.status.ovr = true) (h0 : t.status.ovr = false) :
    t.inReset = true ∨ ∃ a : Access, a.ClearsOvr ∧ (e = .host a ∨ e = .hostAndEngine a) := by
  cases e with
  | host a =>
    cases h
    exact .inr ⟨a, State.hostAccess_lowers_ovr h1 h0, .inl rfl⟩
  | hostAndEngine a =>
    rw [State.accessAndTurn_ovr h] at h0
    exact .inr ⟨a, State.hostAccess_lowers_ovr h1 h0, .inr rfl⟩
  | engine =>
    rw [State.engineTurn_ovr h, h1] at h0
    cases h0
  | rngByte _ => cases h; simp [h1] at h0
  | rstRelease => cases h; simp [h1] at h0
  | rstAssert => cases h; exact .inl rfl

/-- Settles O21: OVR falls in no step but on reset and on a write to STATUS, by cases of the step's event. -/
theorem overrunStaysUntilCleared : Obligations.OverrunStaysUntilCleared := by
  unfold Obligations.OverrunStaysUntilCleared
  refine ⟨fun s w hb => ⟨State.writeWord_cmd_busy w hb, ?irq⟩, fun s t h1 h h0 => ?sticky, fun s v hv => ?cleared, rfl⟩
  case irq => rw [State.writeWord_cmd_busy w hb]; rfl
  case cleared => rw [State.writeWord_status]; simp [hv]
  case sticky =>
    unfold step at h
    split at h
    next =>
      rw [State.engineTurn_ovr h, h1] at h0
      cases h0
    next e rest hi =>
      refine (State.applyInput_lowers_ovr h h1 h0).imp_right ?_
      rintro ⟨_, ⟨v, hv, rfl⟩, he⟩
      exact ⟨v, rest, hv, by simpa [hi] using he⟩

/-- Settles O24, from the ends of a command and from the three registers whose write moves irq. -/
theorem irqIsEnableAndDone : Obligations.IrqIsEnableAndDone := by
  unfold Obligations.IrqIsEnableAndDone
  refine ⟨fun _ => rfl, fun i s t => exec_irq_of_ended, fun s w hb => ?accept, fun s v hv => ?clear, fun s v => ?ctrl, rfl⟩
  case accept => rw [State.writeWord_cmd_idle w hb]; simp [State.irq]
  case clear => rw [State.writeWord_status]; simp [State.irq, hv]
  case ctrl => rw [show 0x08 = Csr.ctrl.offset from rfl, State.writeWord_csr]; rfl

end Sys2Proof.Machine
end

section
/-! SUPPORT. What each event leaves of the ROMs and of a running command, and the registers after reset (rules R51, R293,
R295, R305). -/

namespace Sys2Proof.Machine

/-! ## The ROMs -/

/-- However a command ends, the ROMs are as they were (rule R45). -/
theorem exec_roms {i : Instr} {s t : State} (h : exec i s = .next t) : t.cdtRom = s.cdtRom ∧ t.expRom = s.expRom := by
  rcases exec_cases h with ⟨_, -, rfl⟩ | ⟨_, -, rfl⟩ | ⟨_, -, -, rfl⟩ | ⟨_, _, _, _, -, -, rfl⟩ <;> exact ⟨rfl, rfl⟩

theorem State.engineTurn_roms {s t : State} (h : s.engineTurn = .next t) :
    t.cdtRom = s.cdtRom ∧ t.expRom = s.expRom := by
  unfold State.engineTurn at h
  split at h
  · cases h; exact ⟨rfl, rfl⟩
  · split at h
    · cases h; exact ⟨rfl, rfl⟩
    · exact exec_roms h

theorem State.hostAccess_roms (s : State) (a : Access) :
    (s.hostAccess a).cdtRom = s.cdtRom ∧ (s.hostAccess a).expRom = s.expRom := by
  obtain ⟨-, -, -, hcdt, hexp, -⟩ := s.hostAccess_keeps a
  exact ⟨hcdt, hexp⟩

/-- No event changes a ROM, reset included (rule R295). -/
theorem State.applyInput_roms {s t : State} {e : Input} (h : s.applyInput e = .next t) :
    t.cdtRom = s.cdtRom ∧ t.expRom = s.expRom := by
  cases e with
  | host a => cases h; exact s.hostAccess_roms a
  | engine => exact State.engineTurn_roms h
  | hostAndEngine a =>
    simp only [State.applyInput, State.accessAndTurn] at h
    split at h
    · rw [← (s.hostAccess_roms a).1, ← (s.hostAccess_roms a).2]
      exact State.engineTurn_roms h
    · cases h; exact s.hostAccess_roms a
  | rngByte _ | rstAssert | rstRelease => cases h; exact ⟨rfl, rfl⟩

theorem step_roms {s t : State} (h : step s = .next t) : t.cdtRom = s.cdtRom ∧ t.expRom = s.expRom := by
  unfold step at h
  split at h
  next => exact State.engineTurn_roms h
  next e rest _ => exact State.applyInput_roms (s := { s with inputs := rest }) h

/-- What lies from the first ROM window's page on is a ROM window (rule R61). -/
theorem mem_romWindows_of_regionOf {a : Nat} {r : Region} (ha : 0x30000 ≤ a) (hr : regionOf a = some r) :
    r ∈ [Region.twrom, .zrom, .invrom, .cdtRom, .expRom] := by
  rw [regionOf_rom ha] at hr
  split_ifs at hr <;> cases hr <;> decide

/-- The words of the ROM windows are made of the ROMs alone: three are fixed, two show the OPEN ones (rule R67). -/
theorem State.romWord_congr {s t : State} (hcdt : s.cdtRom = t.cdtRom) (hexp : s.expRom = t.expRom) (r : Region)
    (a : Nat) : s.romWord r a = t.romWord r a := by
  cases r
  case cdtRom => simp only [State.romWord, hcdt]
  case expRom => simp only [State.romWord, hexp]
  all_goals rfl

/-- Settles O9: no event changes a ROM; and an address of the ROM windows' pages is answered alike in both states, with a
word of a ROM where it is aligned and mapped, with SLVERR elsewhere. -/
theorem romsNeverChange : Obligations.RomsNeverChange := by
  unfold Obligations.RomsNeverChange
  refine ⟨fun s t => step_roms, fun s t a hs ht hcdt hexp ha => ?_⟩
  by_cases h4 : a % 4 = 0
  case neg =>
    have hno (u : State) : u.readWord a = (0, true) :=
      State.readWord_of_unanswered fun h => h4 (State.busRefuses_eq_false_iff.1 h.1).1
    rw [hno, hno]
  case pos =>
    cases hr : regionOf a with
    | none => rw [State.readWord_of_unanswered (by simp [hr]), State.readWord_of_unanswered (by simp [hr])]
    | some r =>
      have hmem := mem_romWindows_of_regionOf ha hr
      rw [State.readWord_rom hs h4 hr hmem, State.readWord_rom ht h4 hr hmem, State.romWord_congr hcdt hexp]

/-! ## A running command -/

/-- Settles O27: a host access keeps what a running command is made of, and the other two events touch the source's stream
and rst_n alone. -/
theorem onlyResetEndsARunningCommand : Obligations.OnlyResetEndsARunningCommand := by
  unfold Obligations.OnlyResetEndsARunningCommand
  intro s t e rest hb hi h he
  simp only [step, hi] at h
  rcases he with ⟨a, rfl⟩ | ⟨b, rfl⟩ | rfl <;> cases h
  case inl =>
    obtain ⟨hbusy, hcmd, hsnap, hdrawn, hmem⟩ := State.hostAccess_keeps_running (s := { s with inputs := rest }) hb a
    obtain ⟨hr0, hr1, hcnt, -, -, -, -, -, -, hrngw⟩ := ({ s with inputs := rest } : State).hostAccess_keeps a
    exact ⟨hbusy, hrngw, hcmd, hsnap, hdrawn, hmem, hr0, hr1, hcnt⟩
  all_goals exact ⟨hb, rfl, rfl, rfl, rfl, rfl, rfl, rfl, rfl⟩

/-! ## The reset state -/

/-- After reset every register but ID and VERSION reads as 0 (rules R23, R51). -/
theorem State.readCsr_reset {c : Csr} (h : 0x04 < c.offset) : State.reset.readCsr c = 0 := by
  cases c
  case id | version => exact absurd h (by decide)
  all_goals rfl

/-- Settles O25: the addresses are the registers' but ID's and VERSION's, and an idle machine accepts a command word. -/
theorem resetValues : Obligations.ResetValues := by
  unfold Obligations.ResetValues
  refine ⟨fun a ha => ?_, State.readWord_csr _ .id, State.readWord_csr _ .version, rfl, rfl, rfl, fun w => ?_⟩
  · obtain ⟨h4, hlt, hgt⟩ : a % 4 = 0 ∧ a < 0x50 ∧ 0x04 < a := by revert a; decide
    obtain ⟨c, rfl⟩ := exists_csr_offset h4 hlt
    rw [State.readWord_csr, State.readCsr_reset hgt]
  · rw [State.writeWord_cmd_idle w rfl]
    exact ⟨rfl, rfl⟩

end Sys2Proof.Machine
end

section
/-! SUPPORT. A command word and its fields: what a mask leaves of each, and when a masked word is a packed one (rules R81,
R86). -/

namespace Sys2Proof.Machine

/-! ## The round trip -/

/-- A packed word decodes to what the opcode map names for its fields. -/
theorem decode_packFields {op : Nat} {rd ra rb re : Bank} {n : Nat} {i : Instr} (ho : op < 64) (hn : n < 2048)
    (h : ∀ w, fieldOp w = op → fieldRd w = rd → fieldRa w = ra → fieldRb w = rb → fieldRe w = re → fieldLen w = n →
      decodeOp w = some i) :
    decode (packFields op rd ra rb re n) = .ok i :=
  decode_eq_ok.2 ⟨reservedClear_packFields _ _ _ _ _ _ ho hn,
    h _ (fieldOp_packFields _ _ _ _ _ _ ho) (fieldRd_packFields _ _ _ _ _ _ ho hn)
      (fieldRa_packFields _ _ _ _ _ _ ho hn) (fieldRb_packFields _ _ _ _ _ _ ho hn)
      (fieldRe_packFields _ _ _ _ _ _ ho hn) (fieldLen_packFields _ _ _ _ _ _ ho hn)⟩

/-- Settles O2, from the fields of a packed word, command by command. -/
theorem decodeEncodeRoundTrip : Obligations.DecodeEncodeRoundTrip := by
  unfold Obligations.DecodeEncodeRoundTrip
  intro i hi
  have hn : i.lenField < 2048 := of_decide_eq_true hi
  cases i <;> exact decode_packFields (by decide) hn fun w ho hd ha hb he hl => by
    simp only [decodeOp, ho, hd, ha, hb, he, hl]

/-- Settles O1: each word that names a command is the command's own word. -/
theorem decodesListedWords : Obligations.DecodesListedWords := by
  unfold Obligations.DecodesListedWords
  have round (i : Instr) (h : i.wf = true) : decode (encode i) = .ok i := decodeEncodeRoundTrip i h
  exact ⟨round .nop rfl, round (.fsplit 1 2 0 4) rfl, round (.fmerge 3 1 2 4) rfl, round (.zsplit 1 2 0 6) rfl,
    round (.zmerge 3 1 2 6) rfl, round (.zmul 2 0 1 4) rfl, round .gsamp rfl, round (.cmpr 0 4) rfl,
    round (.dcmp 1 4) rfl, by decide, by decide, by decide⟩

/-! ## Masks -/

/-- The mask of OP, the reserved bits, and those of RD, RA, RB, RE and LEN that a command uses (rules R81, R86). -/
def fieldMask (d a b e l : Bool) : Word :=
  0xF800C03F ||| (if d then 0xC0 else 0) ||| (if a then 0x300 else 0) ||| (if b then 0xC00 else 0) |||
    (if e then 0x3000 else 0) ||| (if l then 0x7FF0000 else 0)

section
variable (d a b e l : Bool)

/-- Every field of a mask has all of its bits or none. -/
theorem extract_fieldMask :
    (fieldMask d a b e l).extractLsb' 0 6 = 63 ∧
    (fieldMask d a b e l).extractLsb' 6 2 = (if d then 3 else 0) ∧
    (fieldMask d a b e l).extractLsb' 8 2 = (if a then 3 else 0) ∧
    (fieldMask d a b e l).extractLsb' 10 2 = (if b then 3 else 0) ∧
    (fieldMask d a b e l).extractLsb' 12 2 = (if e then 3 else 0) ∧
    (fieldMask d a b e l).extractLsb' 14 2 = 3 ∧
    (fieldMask d a b e l).extractLsb' 16 11 = (if l then 2047 else 0) ∧
    (fieldMask d a b e l).extractLsb' 27 5 = 31 := by
  revert d a b e l
  decide +kernel

end

/-- Two words with the same fields are the same word (rule R81). -/
theorem word_ext_of_fields {v w : Word} (ho : fieldOp v = fieldOp w) (hd : fieldRd v = fieldRd w) (ha : fieldRa v = fieldRa w)
    (hb : fieldRb v = fieldRb w) (he : fieldRe v = fieldRe w) (hl : fieldLen v = fieldLen w)
    (hr : reservedClear v = true) (hr' : reservedClear w = true) : v = w := by
  simp only [fieldOp, fieldRd, fieldRa, fieldRb, fieldRe, fieldLen, fieldBank, Fin.mk.injEq, reservedClear,
    Bool.and_eq_true, beq_iff_eq] at *
  exact BitVec.eq_of_toNat_eq (by omega)

theorem fieldBank_val (w : Word) (lo : Nat) : (fieldBank lo w).val = (w.extractLsb' lo 2).toNat := by
  simp [fieldBank, Nat.shiftRight_eq_div_pow]

/-- A bank field under a mask that has both its bits or neither. -/
theorem fieldBank_and {w m : Word} {lo : Nat} {c : Bool} (h : m.extractLsb' lo 2 = if c then 3 else 0) :
    fieldBank lo (w &&& m) = if c then fieldBank lo w else 0 := by
  apply Fin.ext
  rw [fieldBank_val, BitVec.extractLsb'_and, h]
  cases c
  · simp
  · rw [if_pos rfl, if_pos rfl, show (3 : BitVec 2) = BitVec.allOnes 2 from rfl, BitVec.and_allOnes, fieldBank_val]

section
variable (w : Word) (d a b e l : Bool)

theorem fieldOp_and_fieldMask : fieldOp (w &&& fieldMask d a b e l) = fieldOp w := by
  obtain ⟨h, -⟩ := extract_fieldMask d a b e l
  rw [fieldOp_eq, fieldOp_eq, BitVec.extractLsb'_and, h, show (63 : BitVec 6) = BitVec.allOnes 6 from rfl,
    BitVec.and_allOnes]

theorem fieldLen_and_fieldMask : fieldLen (w &&& fieldMask d a b e l) = if l then fieldLen w else 0 := by
  obtain ⟨-, -, -, -, -, -, h, -⟩ := extract_fieldMask d a b e l
  rw [fieldLen_eq, fieldLen_eq, BitVec.extractLsb'_and, h]
  cases l
  · simp
  · rw [if_pos rfl, if_pos rfl, show (2047 : BitVec 11) = BitVec.allOnes 11 from rfl, BitVec.and_allOnes]

theorem reservedClear_and_fieldMask : reservedClear (w &&& fieldMask d a b e l) = reservedClear w := by
  obtain ⟨-, -, -, -, -, h14, -, h27⟩ := extract_fieldMask d a b e l
  rw [Bool.eq_iff_iff, reservedClear_iff, reservedClear_iff, BitVec.extractLsb'_and, BitVec.extractLsb'_and, h14, h27,
    show (3 : BitVec 2) = BitVec.allOnes 2 from rfl, show (31 : BitVec 5) = BitVec.allOnes 5 from rfl,
    BitVec.and_allOnes, BitVec.and_allOnes]

/-- A masked word is a packed word exactly when its reserved bits are clear and each field it uses is the packed one. -/
theorem and_fieldMask_eq_packFields_iff {op : Nat} {rd ra rb re : Bank} {n : Nat} (hop : op < 64) (hn : n < 2048) :
    w &&& fieldMask d a b e l = packFields op rd ra rb re n ↔
      reservedClear w = true ∧ fieldOp w = op ∧ (if d then fieldRd w else 0) = rd ∧ (if a then fieldRa w else 0) = ra ∧
        (if b then fieldRb w else 0) = rb ∧ (if e then fieldRe w else 0) = re ∧ (if l then fieldLen w else 0) = n := by
  obtain ⟨-, h6, h8, h10, h12, -⟩ := extract_fieldMask d a b e l
  have hRd : fieldRd (w &&& fieldMask d a b e l) = if d then fieldRd w else 0 := fieldBank_and h6
  have hRa : fieldRa (w &&& fieldMask d a b e l) = if a then fieldRa w else 0 := fieldBank_and h8
  have hRb : fieldRb (w &&& fieldMask d a b e l) = if b then fieldRb w else 0 := fieldBank_and h10
  have hRe : fieldRe (w &&& fieldMask d a b e l) = if e then fieldRe w else 0 := fieldBank_and h12
  have pRd := fieldRd_packFields op rd ra rb re n hop hn
  have pRa := fieldRa_packFields op rd ra rb re n hop hn
  have pRb := fieldRb_packFields op rd ra rb re n hop hn
  have pRe := fieldRe_packFields op rd ra rb re n hop hn
  have pLen := fieldLen_packFields op rd ra rb re n hop hn
  have pOp := fieldOp_packFields op rd ra rb re n hop
  have pRes := reservedClear_packFields op rd ra rb re n hop hn
  rw [← hRd, ← hRa, ← hRb, ← hRe, ← fieldLen_and_fieldMask w d a b e l, ← fieldOp_and_fieldMask w d a b e l,
    ← reservedClear_and_fieldMask w d a b e l]
  constructor
  · intro h
    rw [h]
    exact ⟨pRes, pOp, pRd, pRa, pRb, pRe, pLen⟩
  · rintro ⟨hr, ho, hd, ha, hb, he, hl⟩
    exact word_ext_of_fields (ho.trans pOp.symm) (hd.trans pRd.symm) (ha.trans pRa.symm) (hb.trans pRb.symm) (he.trans pRe.symm)
      (hl.trans pLen.symm) hr pRes

end

/-- The LEN of a decoded command is a field's value (rule R81). -/
theorem wf_of_decodeOp {w : Word} {i : Instr} (h : decodeOp w = some i) : i.wf = true := by
  unfold decodeOp at h
  split at h <;> cases h <;> simp [Instr.wf, Instr.lenField, fieldLen_lt]

/-- A word decodes to a command exactly when it agrees with the command's word under the command's mask, where the opcode
map names the command for exactly the fields that the mask keeps. -/
theorem decode_eq_ok_iff_of_mask (d a b e l : Bool) {op : Nat} {rd ra rb re : Bank} {i : Instr} {w : Word}
    (hs : significantBits i = fieldMask d a b e l) (he : encode i = packFields op rd ra rb re i.lenField) (hop : op < 64)
    (hd : fieldOp w = op → (decodeOp w = some i ↔
      (if d then fieldRd w else 0) = rd ∧ (if a then fieldRa w else 0) = ra ∧ (if b then fieldRb w else 0) = rb ∧
        (if e then fieldRe w else 0) = re ∧ (if l then fieldLen w else 0) = i.lenField)) :
    decode w = .ok i ↔ i.wf = true ∧ w &&& significantBits i = encode i := by
  rw [decode_eq_ok, hs]
  constructor
  · rintro ⟨hr, h⟩
    have hwf := wf_of_decodeOp h
    have ho : fieldOp w = op := by rw [fieldOp_of_decodeOp h, he, fieldOp_packFields _ _ _ _ _ _ hop]
    exact ⟨hwf, he ▸ (and_fieldMask_eq_packFields_iff w d a b e l hop (of_decide_eq_true hwf)).2 ⟨hr, ho, (hd ho).1 h⟩⟩
  · rintro ⟨hwf, h⟩
    obtain ⟨hr, ho, hf⟩ :=
      (and_fieldMask_eq_packFields_iff w d a b e l hop (of_decide_eq_true hwf)).1 (h.trans he)
    exact ⟨hr, (hd ho).2 hf⟩

/-- Settles O3, from the mask of each command. -/
theorem decodeDependsOnUsedFieldsOnly : Obligations.DecodeDependsOnUsedFieldsOnly := by
  unfold Obligations.DecodeDependsOnUsedFieldsOnly
  intro w i
  cases i with
  | nop | gbase | gexp | gber | gsamp =>
    exact decode_eq_ok_iff_of_mask false false false false false rfl rfl (by decide) fun ho => by
      simp [decodeOp, ho, Instr.lenField]
  | fsplit rd re ra n | zsplit rd re ra n | fsplitt rd re ra n | zsplitt rd re ra n =>
    exact decode_eq_ok_iff_of_mask true true false true true rfl rfl (by decide) fun ho => by
      simp [decodeOp, ho, Instr.lenField, and_left_comm]
  | fmerge rd ra rb n | zmerge rd ra rb n | fmerget rd ra rb n | zmerget rd ra rb n | fadd rd ra rb n | fsub rd ra rb n
  | fmulf rd ra rb n | fdivf rd ra rb n | fmul rd ra rb n | fdiv rd ra rb n | zadd rd ra rb n | zsub rd ra rb n
  | zmuln rd ra rb n | zdivn rd ra rb n | zmul rd ra rb n | zdiv rd ra rb n =>
    exact decode_eq_ok_iff_of_mask true true true false true rfl rfl (by decide) fun ho => by
      simp [decodeOp, ho, Instr.lenField]
  | fft rd ra n | ifft rd ra n | fadjf rd ra n | fadj rd ra n | ntt rd ra n | intt rd ra n =>
    exact decode_eq_ok_iff_of_mask true true false false true rfl rfl (by decide) fun ho => by
      simp [decodeOp, ho, Instr.lenField]
  | cmpr ra n =>
    exact decode_eq_ok_iff_of_mask false true false false true rfl rfl (by decide) fun ho => by
      simp [decodeOp, ho, Instr.lenField]
  | dcmp rd n =>
    exact decode_eq_ok_iff_of_mask true false false false true rfl rfl (by decide) fun ho => by
      simp [decodeOp, ho, Instr.lenField]

end Sys2Proof.Machine
end

section
/-! SUPPORT. What each event makes of a sound state: a host access, a turn of the engine, a byte of the source, reset
(rules R27, R46, R48, R66, R78, R290). -/

namespace Sys2Proof.Machine

/-! ## STATUS -/

section
variable {t : Status} (h : t.Coherent)
include h

theorem Status.Coherent.writeOneToClear (v : Word) : (t.writeOneToClear v).Coherent where
  busyClears hb := by
    obtain ⟨hd, he⟩ := h.busyClears hb
    simp [hd, he]
  errIffCode := by
    have := h.errIffCode
    cases hv : v.getLsbD 2 <;> simp_all
  waitIsBusy := h.waitIsBusy

theorem Status.Coherent.setOvr : ({ t with ovr := true } : Status).Coherent := ⟨h.busyClears, h.errIffCode, h.waitIsBusy⟩

theorem Status.Coherent.finish : t.finish.Coherent := ⟨nofun, h.errIffCode, nofun⟩

theorem Status.Coherent.wait (hb : t.busy = true) : t.wait.Coherent := ⟨h.busyClears, h.errIffCode, fun _ => hb⟩

end

theorem Status.coherent_reset : Status.reset.Coherent := ⟨nofun, ⟨nofun, (absurd rfl ·)⟩, nofun⟩

theorem Status.coherent_accept (t : Status) : t.accept.Coherent :=
  ⟨fun _ => ⟨rfl, rfl⟩, ⟨nofun, (absurd rfl ·)⟩, fun _ => rfl⟩

theorem Status.coherent_raise {c : ErrCode} (hc : c ≠ .none) (t : Status) : (t.raise c).Coherent :=
  ⟨nofun, ⟨fun _ => hc, fun _ => rfl⟩, nofun⟩

/-! ## Sound states -/

theorem State.Inv.memSound {s : State} (h : s.Inv) : s.mem.Sound := ⟨h.memCanonical, h.memMapped⟩

/-- The draw of a command depends on the ROMs and the snapshot alone. -/
theorem commandDraw_congr {s t : State} (hc : t.cdtRom = s.cdtRom) (he : t.expRom = s.expRom) (hs : t.snap = s.snap)
    (i : Instr) : commandDraw t i = commandDraw s i := by
  cases i <;> simp only [commandDraw, hc, he, hs]

/-- A state that is not in reset and whose engine does not wait is sound when its memory and STATUS are and the sequencer
holds no byte. -/
theorem State.Inv.of_notWaiting {t : State} (hm : t.mem.Sound) (hs : t.status.Coherent) (hd : t.drawn = [])
    (hw : t.status.rngw = false) (hr : t.inReset = false) : t.Inv where
  memCanonical := hm.canonical
  memMapped := hm.mapped
  status := hs
  drawnOnlyWaiting _ := hd
  waiting h := by simp [hw] at h
  inReset h := by simp [hr] at h

theorem Memory.sound_nil : Memory.Sound [] := ⟨rfl, nofun⟩

/-- An assertion of reset gives a sound state from every state. -/
theorem State.inv_assertReset (s : State) : s.assertReset.Inv where
  memCanonical := rfl
  memMapped := nofun
  status := Status.coherent_reset
  drawnOnlyWaiting _ := rfl
  waiting := nofun
  inReset _ := rfl

section
variable {s : State} (h : s.Inv)
include h

/-- What stands at the interfaces may be anything: the events to come, the source's stream, the answer of the bus and how
many answers were free ones. -/
theorem State.Inv.setInterfaces (l : List Input) (r : List Byte) (b : BusResponse) (n : Nat) :
    ({ s with inputs := l, rngIn := r, bus := b, resetReads := n } : State).Inv :=
  { h with
    inReset := fun hr =>
      congrArg (fun u : State => { u with inputs := l, rngIn := r, bus := b, resetReads := n }) (h.inReset hr) }

/-- A command that runs keeps the state sound, however it ends. -/
theorem State.Inv.exec {t : State} {i : Instr} (hr : s.inReset = false) (hb : s.status.busy = true)
    (hi : decode s.cmd = .ok i) (he : exec i s = .next t) : t.Inv := by
  have hm := exec_sound h.memSound he
  rcases exec_cases he with ⟨c, hc, rfl⟩ | ⟨e, -, rfl⟩ | ⟨draw, hd, hn, rfl⟩ | ⟨draw, r0, r1, rest, -, -, rfl⟩
  · exact .of_notWaiting hm (Status.coherent_raise hc _) rfl rfl hr
  · exact .of_notWaiting hm h.status.finish rfl rfl hr
  · exact
      { memCanonical := hm.canonical
        memMapped := hm.mapped
        status := h.status.wait hb
        drawnOnlyWaiting := nofun
        waiting := fun _ => ⟨i, draw, hi, (commandDraw_congr rfl rfl rfl i).trans hd, hn⟩
        inReset := fun h' => by simp [hr] at h' }
  · exact .of_notWaiting hm h.status.finish rfl rfl hr

theorem State.Inv.engineTurn {t : State} (ht : s.engineTurn = .next t) : t.Inv := by
  unfold State.engineTurn at ht
  split at ht
  next => cases ht; exact h
  next hidle =>
    simp only [Bool.or_eq_true, Bool.not_eq_true', not_or, Bool.not_eq_true, Bool.not_eq_false] at hidle
    obtain ⟨hr, hb⟩ := hidle
    split at ht
    next => cases ht; exact .of_notWaiting h.memSound (Status.coherent_raise (by decide) _) rfl rfl hr
    next i hi => exact h.exec hr hb hi ht

theorem State.Inv.rngw_of_idle (hb : s.status.busy = false) : s.status.rngw = false :=
  Bool.eq_false_iff.2 fun hw => by simp [h.status.waitIsBusy hw] at hb

/-- A state that differs in the registers the host writes alone is sound when its STATUS is, out of reset. -/
theorem State.Inv.setRegisters (hr : s.inReset = false) {st : Status} (hs : st.Coherent) (hw : st.rngw = s.status.rngw)
    (ie : Bool) (mu sigma sigmin x ccs : B64) (budget inlen : BitVec 12) :
    ({ s with
        status := st, ctrlIe := ie, mu := mu, sigma := sigma, sigmin := sigmin, x := x, ccs := ccs, budget := budget
        inlen := inlen } : State).Inv where
  memCanonical := h.memCanonical
  memMapped := h.memMapped
  status := hs
  drawnOnlyWaiting hn := h.drawnOnlyWaiting (hw ▸ hn)
  waiting hn := by
    obtain ⟨i, draw, hi, hd, hnone⟩ := h.waiting (hw ▸ hn)
    exact ⟨i, draw, hi, (commandDraw_congr rfl rfl rfl i).trans hd, hnone⟩
  inReset hn := by simp [hr] at hn

theorem State.Inv.writeCsr (hr : s.inReset = false) (v : Word) (c : Csr) : (s.writeCsr v c).1.Inv := by
  rcases s.writeCsr_cases v c with e | ⟨-, -, e⟩ | ⟨-, hb, e⟩ | ⟨-, e⟩ | ⟨ie, mu, sigma, sigmin, x, ccs, b, n, e⟩ <;> rw [e]
  · exact h
  · exact h.setRegisters hr h.status.setOvr rfl _ _ _ _ _ _ _ _
  · exact .of_notWaiting h.memSound (Status.coherent_accept _) rfl (h.rngw_of_idle hb) hr
  · exact h.setRegisters hr (h.status.writeOneToClear v) rfl _ _ _ _ _ _ _ _
  · exact h.setRegisters hr h.status rfl _ _ _ _ _ _ _ _

theorem State.Inv.access (hr : s.inReset = false) (a : Access) : (s.access a).Inv := by
  cases a with
  | read a => exact h.setInterfaces _ _ _ _
  | write a v =>
    have hm : (s.access (.write a v)).mem.Sound := by
      have := State.hostAccess_sound h.memSound (.write a v)
      rwa [State.hostAccess, if_neg (by simp [hr])] at this
    rw [State.access] at hm ⊢
    rcases s.writeWord_cases a.toNat v with e | ⟨c, -, e⟩ | ⟨n, hb, -, -, -, e⟩ <;> rw [e] at hm ⊢
    · exact h.setInterfaces _ _ _ _
    · exact (h.writeCsr hr v c).setInterfaces _ _ _ _
    · have hw := h.rngw_of_idle hb
      exact .of_notWaiting hm h.status (h.drawnOnlyWaiting hw) hw hr

theorem State.Inv.hostAccess (a : Access) : (s.hostAccess a).Inv := by
  unfold State.hostAccess
  split
  next => cases a <;> exact h.setInterfaces _ _ _ _
  next hr => exact h.access (by simpa using hr) a

theorem State.Inv.accessAndTurn {t : State} {a : Access} (ht : s.accessAndTurn a = .next t) : t.Inv := by
  unfold State.accessAndTurn at ht
  split at ht
  next => exact (h.hostAccess a).engineTurn ht
  next => cases ht; exact h.hostAccess a

/-- The release of reset leaves the registers. -/
theorem State.Inv.releaseReset : s.releaseReset.Inv :=
  { h with inReset := nofun }

/-- No event leads out of the sound states. -/
theorem State.Inv.applyInput {t : State} {e : Input} (ht : s.applyInput e = .next t) : t.Inv := by
  cases e with
  | host a => cases ht; exact h.hostAccess a
  | engine => exact h.engineTurn ht
  | hostAndEngine a => exact h.accessAndTurn ht
  | rngByte b => cases ht; exact h.setInterfaces _ _ _ _
  | rstAssert => cases ht; exact State.inv_assertReset s
  | rstRelease => cases ht; exact h.releaseReset

end

/-- Settles O7, by cases of the step's event. -/
theorem stepKeepsTheMachineSound : Obligations.StepKeepsTheMachineSound := by
  unfold Obligations.StepKeepsTheMachineSound
  intro s t h ht
  unfold step at ht
  split at ht
  next => exact h.engineTurn ht
  next e rest _ => exact (h.setInterfaces rest s.rngIn s.bus s.resetReads).applyInput ht

/-- Settles O6: in the reset state nothing is written, nothing runs and nothing waits. -/
theorem resetStateIsSound : Obligations.ResetStateIsSound := by
  unfold Obligations.ResetStateIsSound
  exact .of_notWaiting Memory.sound_nil Status.coherent_reset rfl rfl rfl

end Sys2Proof.Machine
end

section
/-! SUPPORT. What a command reads of the state, and that it ends alike in two states that agree there; the engine's turn
after a host access; reset (rules R46, R47, R100, R260, R290). -/

namespace Sys2Proof.Machine

/-! ## What a command reads -/

/-- The two states agree in all that a command reads: RAM, the ROMs, the snapshot, and the bytes it can draw. -/
structure State.ReadsLike (s s' : State) : Prop where
  mem : s'.mem = s.mem
  resets : s'.resets = s.resets
  cdtRom : s'.cdtRom = s.cdtRom
  expRom : s'.expRom = s.expRom
  snap : s'.snap = s.snap
  drawn : s'.drawn = s.drawn
  rngIn : s'.rngIn = s.rngIn

/-- In states that agree in what a command reads, its meaning is the same frame with the same check and body or draw. -/
theorem exec_frame_congr (i : Instr) {s s' : State} (h : s.ReadsLike s') :
    (∃ check body, exec i s = runCommand check body s ∧ exec i s' = runCommand check body s') ∨
    (∃ check draw, exec i s = runDrawing check draw s ∧ exec i s' = runDrawing check draw s') := by
  obtain ⟨_, _, _, _, _, _, _, _, _, _, _, _, _, mem, cdt, exp, snap, drawn, rngIn, _, _, _, resets, _⟩ := s
  obtain ⟨_, _, _, _, _, _, _, _, _, _, _, _, _, mem', cdt', exp', snap', drawn', rngIn', _, _, _, resets', _⟩ := s'
  obtain ⟨rfl, rfl, rfl, rfl, rfl, rfl, rfl⟩ := h
  cases i with
  | gbase => exact .inr ⟨none, _, rfl, rfl⟩
  | gber | gsamp => exact .inr ⟨domainCheck _, _, rfl, rfl⟩
  | nop => exact .inl ⟨none, .ok _, rfl, rfl⟩
  | gexp => exact .inl ⟨domainCheck _, .ok _, rfl, rfl⟩
  | fsplit rd re | zsplit rd re | fsplitt rd re | zsplitt rd re =>
    exact .inl ⟨(lenCheck _ _).or (splitCheck rd re), .ok _, rfl, rfl⟩
  | zdivn | zdiv => exact .inl ⟨lenCheck _ _, Except.map _ _, rfl, rfl⟩
  | cmpr => exact .inl ⟨(lenCheck _ _).or (byteCountCheck _), compress _ _ _, rfl, rfl⟩
  | dcmp =>
    exact .inl ⟨(lenCheck _ _).or ((byteCountCheck _).or (byteCountCheck _)), decompress _ _ _ _ _, rfl, rfl⟩
  | _ => exact .inl ⟨lenCheck _ _, .ok _, rfl, rfl⟩

/-- The ways a turn of the engine with a command running can end (rules R100, R200, R264). -/
inductive Ending where
  | failed (c : ErrCode)
  | succeeded (e : Effect)
  | starved
  | drew (n : Nat) (r0 r1 : Word)

/-- The state an ending leaves. -/
def Ending.apply (s : State) : Ending → State
  | .failed c => s.raiseError c
  | .succeeded e => s.finish e
  | .starved => s.starve
  | .drew n r0 r1 => (s.takeBytes n).finish { mem := s.mem, results := some (r0, r1) }

/-- A command ends alike in two states that agree in what it reads. -/
theorem exec_ending (i : Instr) {s s' : State} (h : s.ReadsLike s') :
    ∃ e : Ending, exec i s = .next (e.apply s) ∧ exec i s' = .next (e.apply s') := by
  rcases exec_frame_congr i h with ⟨check, body, he, he'⟩ | ⟨check, draw, he, he'⟩ <;> rw [he, he']
  · rcases check with _ | c
    · rcases body with c | e
      · exact ⟨.failed c, rfl, rfl⟩
      · exact ⟨.succeeded e, rfl, rfl⟩
    · exact ⟨.failed c, rfl, rfl⟩
  · rcases check with _ | c
    · have hs : s'.supply = s.supply := by rw [State.supply, State.supply, h.drawn, h.rngIn]
      rcases hd : draw s.supply with _ | ⟨r0, r1, rest⟩
      · exact ⟨.starved, runDrawing_starve rfl hd, runDrawing_starve rfl (hs ▸ hd)⟩
      · refine ⟨.drew (s.supply.length - rest.length - s.drawn.length) r0 r1, runDrawing_ok rfl hd, ?_⟩
        rw [← h.drawn, ← hs]
        exact runDrawing_ok rfl (hs ▸ hd)
    · exact ⟨.failed c, rfl, rfl⟩

/-- A command answers a next state (rule R260). -/
theorem exists_exec (i : Instr) (s : State) : ∃ t, exec i s = .next t := by
  obtain ⟨e, he, -⟩ := exec_ending i (s := s) (s' := s) ⟨rfl, rfl, rfl, rfl, rfl, rfl, rfl⟩
  exact ⟨_, he⟩

/-- Settles O12: a command does not read the operand registers, and no ending touches them. -/
theorem runningCommandIgnoresOperandRegisters : Obligations.RunningCommandIgnoresOperandRegisters := by
  unfold Obligations.RunningCommandIgnoresOperandRegisters
  intro i s t o h
  obtain ⟨e, he, he'⟩ := exec_ending i (s := s) (s' := s.withOperands o) ⟨rfl, rfl, rfl, rfl, rfl, rfl, rfl⟩
  rw [he] at h
  cases h
  rw [he']
  cases e <;> rfl

/-! ## Every event answers a next state -/

theorem State.exists_engineTurn (s : State) : ∃ t, s.engineTurn = .next t := by
  unfold State.engineTurn
  split
  · exact ⟨_, rfl⟩
  · split
    · exact ⟨_, rfl⟩
    · exact exists_exec _ _

theorem State.exists_applyInput (s : State) (e : Input) : ∃ t, s.applyInput e = .next t := by
  cases e with
  | engine => exact s.exists_engineTurn
  | hostAndEngine a =>
    simp only [State.applyInput, State.accessAndTurn]
    split
    · exact State.exists_engineTurn _
    · exact ⟨_, rfl⟩
  | _ => exact ⟨_, rfl⟩

/-- Settles O8: a step is an event or a turn of the engine. -/
theorem nothingStopsTheMachine : Obligations.NothingStopsTheMachine := by
  unfold Obligations.NothingStopsTheMachine
  refine ⟨fun s => ?_, exists_exec⟩
  unfold step
  split
  · exact s.exists_engineTurn
  · exact State.exists_applyInput _ _

/-! ## The engine's turn -/

theorem State.engineTurn_idle {s : State} (h : s.inReset = true ∨ s.status.busy = false) : s.engineTurn = .next s := by
  unfold State.engineTurn
  rw [if_pos]
  simpa using h

/-- A host access in the cycle of a turn leaves the accepted word, so that the turn runs its command. -/
theorem step_hostAndEngine {s : State} {i : Instr} {a : Access} {rest : List Input} (hr : s.inReset = false)
    (hb : s.status.busy = true) (hi : decode s.cmd = .ok i) (hin : s.inputs = .hostAndEngine a :: rest) :
    step s = exec i (({ s with inputs := rest } : State).hostAccess a) := by
  obtain ⟨hbusy, hcmd, -⟩ := State.hostAccess_keeps_running (s := { s with inputs := rest }) hb a
  obtain ⟨-, -, -, -, -, -, hreset, -⟩ := ({ s with inputs := rest } : State).hostAccess_keeps a
  simp only [step, hin, State.applyInput, State.accessAndTurn, hb, if_true]
  exact State.engineTurn_of_decode (hreset.trans hr) hbusy (hcmd.symm ▸ hi)

/-- Settles O5, by the place of the turn among the events. -/
theorem engineRunsTheDecodedCommand : Obligations.EngineRunsTheDecodedCommand := by
  unfold Obligations.EngineRunsTheDecodedCommand
  refine ⟨fun s i rest hr hb hi => ⟨fun h => ?_, fun h => ?_, fun a => step_hostAndEngine hr hb hi⟩,
    fun s rest hs => ⟨fun h => ?_, fun h => ?_⟩⟩
  · rw [step_of_no_inputs h, State.engineTurn_of_decode hr hb hi]
  · rw [step_engine h]
    exact State.engineTurn_of_decode (s := { s with inputs := rest }) hr hb hi
  · rw [step_of_no_inputs h, State.engineTurn_idle hs]
  · rw [step_engine h]
    exact State.engineTurn_idle (s := { s with inputs := rest }) hs

/-- While a command runs, a write to STATUS clears OVR at most: DONE and ERR are 0 then, and ERRCODE with ERR (rule R27). -/
theorem Status.Coherent.writeOneToClear_of_busy {t : Status} (h : t.Coherent) (hb : t.busy = true) (v : Word) :
    t.writeOneToClear v = { t with ovr := t.ovr && !v.getLsbD 4 } := by
  obtain ⟨hd, he⟩ := h.busyClears hb
  have hc : t.errCode = .none := by simpa [he] using h.errIffCode
  simp [Status.writeOneToClear, hd, he, hc]

theorem State.hostAccess_write_status {s : State} (v : Word) (hr : s.inReset = false) :
    s.hostAccess (.write 0x0000C v) = { s.clearStatus v with bus := .write false } := by
  rw [State.hostAccess, if_neg (by simp [hr]), State.access, show (0x0000C : Addr).toNat = 0x0C from rfl,
    State.writeWord_status]

/-- An ending that is no wait sets DONE, and leaves of ERR and ERRCODE what it found or sets them. -/
theorem Ending.apply_status (e : Ending) {s s' : State} (he : s'.status.err = s.status.err)
    (hc : s'.status.errCode = s.status.errCode) (hb : s'.status.busy = true) (hend : (e.apply s').status.busy = false) :
    (e.apply s').status.done = true ∧ (e.apply s').status.err = (e.apply s).status.err ∧
      (e.apply s').status.errCode = (e.apply s).status.errCode := by
  cases e with
  | starved => simp [Ending.apply, hb] at hend
  | failed c => exact ⟨rfl, rfl, rfl⟩
  | succeeded _ | drew _ _ _ => exact ⟨rfl, he, hc⟩

/-- Settles O23: the write clears OVR alone of the running command's STATUS, and the command ends as without it. -/
theorem completionWinsOverClear : Obligations.CompletionWinsOverClear := by
  unfold Obligations.CompletionWinsOverClear
  intro s t u v i rest hr hb hc hi hin hu ht hend
  let s₁ : State := { s with inputs := rest }
  let s₂ : State := { s₁.clearStatus v with bus := .write false }
  obtain ⟨e, he, he'⟩ := exec_ending i (s := s₁) (s' := s₂) ⟨rfl, rfl, rfl, rfl, rfl, rfl, rfl⟩
  rw [step_hostAndEngine hr hb hi hin, State.hostAccess_write_status (s := s₁) v hr, he'] at ht
  rw [he] at hu
  cases hu
  cases ht
  have hst : s₂.status = { s.status with ovr := s.status.ovr && !v.getLsbD 4 } := hc.writeOneToClear_of_busy hb v
  exact e.apply_status (by rw [hst]) (by rw [hst]) (by rw [hst]; exact hb) hend

/-! ## Reset -/

theorem State.wouldTake_idle {s : State} (h : s.status.busy = false) : s.wouldTake = 0 := by
  rw [State.wouldTake, State.engineTurn_idle (.inr h)]
  exact Nat.sub_self _

/-- Settles O26: the assertion and the release are the two steps, and the bytes lost are the free number cut to its
bound. -/
theorem resetFromAnyState : Obligations.ResetFromAnyState := by
  unfold Obligations.ResetFromAnyState
  intro s rest hi
  let s' : State := { s with inputs := .rstRelease :: rest }
  refine ⟨s'.assertReset, _, min (Config.rngLostAtReset s.resets) s'.wouldTake, ?_, rfl, rfl, rfl, rfl, rfl,
    Nat.min_le_right _ _, fun hb => ?_⟩
  · simp only [step, hi, State.applyInput, s']
  · rw [State.wouldTake_idle (s := s') hb, Nat.min_zero]

end Sys2Proof.Machine
end

section
/-! SUPPORT. The registers as words of the host bus, the word of STATUS, and what a read of one word makes of a store to
another (rules R23 to R40, R64 to R66). -/

namespace Sys2Proof.Machine

/-! ## The registers -/

theorem ctrlWord_eq (ie : Bool) : ctrlWord ie = if ie then 1 else 0 := by cases ie <;> rfl

/-- Settles O18: each offset is a register's. -/
theorem registerReads : Obligations.RegisterReads := by
  unfold Obligations.RegisterReads
  intro s
  have read (c : Csr) := s.readWord_csr c
  exact ⟨read .id, read .version, (read .ctrl).trans (by rw [State.readCsr, ctrlWord_eq]), read .cmd, read .result0,
    read .result1, read .rngcnt, read .muLo, read .muHi, read .sigmaLo, read .sigmaHi, read .sigminLo, read .sigminHi,
    read .xLo, read .xHi, read .ccsLo, read .ccsHi, read .budget, read .inlen⟩

/-- Settles O19: each offset is a register's. -/
theorem registerWrites : Obligations.RegisterWrites := by
  unfold Obligations.RegisterWrites
  intro s v
  have write (c : Csr) := s.writeWord_csr c v
  have low : v.setWidth 12 = v.extractLsb' 0 12 := BitVec.setWidth_eq_extractLsb' (by decide)
  refine ⟨write .id, write .version, write .ctrl, write .result0, write .result1, write .rngcnt, write .muLo, write .muHi,
    write .sigmaLo, write .sigmaHi, write .sigminLo, write .sigminHi, write .xLo, write .xHi, write .ccsLo, write .ccsHi,
    ?_, ?_⟩ <;> rw [← low]
  · exact write .budget
  · exact write .inlen

/-! ## STATUS -/

/-- The fields of STATUS do not overlap, so that their sum is their union (rule R27). -/
theorem statusWord_eq_or (busy done err rngw ovr : Bool) (code : Nat) (h : code < 16) :
    BitVec.ofNat 32 (bitOf busy + 2 * bitOf done + 4 * bitOf err + 8 * bitOf rngw + 16 * bitOf ovr + 256 * code) =
      ((if busy then 0x01 else 0 : Nat) : Word) ||| ((if done then 0x02 else 0 : Nat) : Word) |||
      ((if err then 0x04 else 0 : Nat) : Word) ||| ((if rngw then 0x08 else 0 : Nat) : Word) |||
      ((if ovr then 0x10 else 0 : Nat) : Word) ||| BitVec.ofNat 32 (256 * code) := by
  revert busy done err rngw ovr code
  decide +kernel

/-- Settles O22, from the word of STATUS as a union of its fields. -/
theorem statusReadsAndWrites : Obligations.StatusReadsAndWrites := by
  unfold Obligations.StatusReadsAndWrites
  intro s v
  have read := s.readWord_csr .status
  refine ⟨congrArg Prod.snd read, (congrArg Prod.fst read).trans ?_, s.writeWord_status v⟩
  have hc : s.status.errCode.code < 16 := by cases s.status.errCode <;> decide
  refine (statusWord_eq_or _ _ _ _ _ _ hc).trans (congrArg _ ?_)
  cases s.status.errCode <;> rfl

/-! ## RAM -/

/-- A read of an aligned word depends on its own four bytes of RAM alone. -/
theorem State.readWord_congr_mem {s : State} {m : Memory} {b : Nat}
    (h : ∀ j < 4, ({ s with mem := m } : State).byteAt (b + j) = s.byteAt (b + j)) :
    ({ s with mem := m } : State).readWord b = s.readWord b := by
  have hram : ({ s with mem := m } : State).ramWord b = s.ramWord b := by
    rw [State.ramWord, State.ramWord, State.bytesAt_congr h]
  have hz : ({ s with mem := m } : State).zWord b = s.zWord b := by
    rw [State.zWord, State.zWord, State.bytesAt_congr fun j hj => h j (by omega)]
  have hcsr (c : Csr) : ({ s with mem := m } : State).readCsr c = s.readCsr c := by cases c <;> rfl
  have hrom (r : Region) : ({ s with mem := m } : State).romWord r b = s.romWord r b := State.romWord_congr rfl rfl r b
  simp only [State.readWord, hram, hz, hcsr, hrom]
  rfl

/-- The low half of a word, as a Z bank keeps it. -/
theorem State.zWord_store {t : State} {m : Memory} {a : Nat} {v : Word}
    (hm : t.mem = m.writeBytes a (bytesOf 2 v.toNat)) : t.zWord a = v &&& 0xFFFF := by
  have h := State.bytesAt_writeBytes (s := { t with mem := m }) hm
  rw [bytesOf_length] at h
  apply BitVec.eq_of_toNat_eq
  rw [State.zWord, h, numberOf_bytesOf, BitVec.toNat_and, BitVec.toNat_ofNat, show (0xFFFF : Word).toNat = 2 ^ 16 - 1 from rfl,
    Nat.and_two_pow_sub_one_eq_mod]
  omega

/-- Settles O15: the store is one of the aligned word's own bytes, four in F and BYTEBUF and two in Z. -/
theorem ramWordReadsBack : Obligations.RamWordReadsBack := by
  unfold Obligations.RamWordReadsBack
  intro s a b v hb ha hb4 h1 h2 hne
  have hw := State.writeWord_okay_above h1 (State.writeWord_ram_okay v hb ha h1 h2)
  constructor
  · generalize (s.writeWord a v).1 = t at hw
    have hbt : t.status.busy = false := by rw [hw]; exact hb
    split_ifs at hw ⊢ with hz
    · rw [State.readWord_z hbt ha hz.1 (by omega), State.zWord_store (congrArg State.mem hw)]
    · rw [State.readWord_ram hbt ha (by omega),
        State.ramWord_store (s := s) (v := v) (by rw [hw]) (by rw [hw]) (.inl rfl), if_pos rfl]
  · rw [hw]
    refine State.readWord_congr_mem fun j hj => State.byteAt_congr (Memory.read_writeBytes_outside _ _ _ _ ?_) rfl
    rw [bytesOf_length]
    split <;> omega

end Sys2Proof.Machine
end

section
/-! SUPPORT. What a command that ends has written, as entries of its banks; commands one after the other: split and merge,
the coefficient commands as their steps, and the modular transforms (rules R106, R143, R180). -/

namespace Sys2Proof.Machine

/-! ## Effects of a command that answers a state -/

/-- A command with legal operands has its effect on the state it answers. -/
theorem CommandRule.effect {op : BitVec 6} {i : Instr} {s t : State} {lenOk operandOk : Prop} {effect : State → Prop}
    (h : CommandRule op i s lenOk operandOk effect) (hl : lenOk) (ho : operandOk) (ht : exec i s = .next t) : effect t := by
  obtain ⟨-, -, -, hok⟩ := h
  obtain ⟨u, hu, -, he⟩ := hok hl ho
  rw [hu] at ht
  cases ht
  exact he

theorem map_range_inj {α : Type} {f g : Nat → α} {n : Nat} :
    (List.range n).map f = (List.range n).map g ↔ ∀ i < n, f i = g i := by
  simp [List.map_inj_left]

/-! ## Split and merge -/

section
variable {α : Type} {f g h : Nat → α} {n : Nat}

/-- Merging the even and the odd entries gives the entries (rule R106). -/
theorem merge_of_split (heven : n % 2 = 0) (hg : (List.range (n / 2)).map g = (List.range (n / 2)).map fun i => f (2 * i))
    (hh : (List.range (n / 2)).map h = (List.range (n / 2)).map fun i => f (2 * i + 1)) :
    ((List.range n).map fun k => if k % 2 = 0 then g (k / 2) else h (k / 2)) = (List.range n).map f := by
  refine map_range_inj.2 fun k hk => ?_
  split
  · rw [map_range_inj.1 hg (k / 2) (by omega), show 2 * (k / 2) = k by omega]
  · rw [map_range_inj.1 hh (k / 2) (by omega), show 2 * (k / 2) + 1 = k by omega]

/-- The even and the odd entries of two merged halves are the halves (rule R106). -/
theorem split_of_merge
    (hf : (List.range n).map f = (List.range n).map fun k => if k % 2 = 0 then g (k / 2) else h (k / 2)) :
    ((List.range (n / 2)).map fun i => f (2 * i)) = (List.range (n / 2)).map g ∧
    ((List.range (n / 2)).map fun i => f (2 * i + 1)) = (List.range (n / 2)).map h := by
  refine ⟨map_range_inj.2 fun k hk => ?_, map_range_inj.2 fun k hk => ?_⟩
  · rw [map_range_inj.1 hf (2 * k) (by omega), if_pos (by omega), show 2 * k / 2 = k by omega]
  · rw [map_range_inj.1 hf (2 * k + 1) (by omega), if_neg (by omega), show (2 * k + 1) / 2 = k by omega]

end

/-- Settles O31, from what each of the four commands writes. -/
theorem splitAndMergeAreInverse : Obligations.SplitAndMergeAreInverse := by
  unfold Obligations.SplitAndMergeAreInverse
  intro s t u n a b c d e heven h2 hmax hde
  have hS : n % 2 = 0 ∧ 2 ≤ n ∧ n ≤ 1024 := ⟨heven, h2, hmax⟩
  have hM : 1 ≤ n ∧ n ≤ 1024 := ⟨by omega, hmax⟩
  refine ⟨fun ht hu => ?_, fun ht hu => ?_, fun ht hu => ?_, fun ht hu => ?_⟩
  · obtain ⟨hd, he, -⟩ := (splitDeinterleaves d e a n s).1.effect hS hde ht
    obtain ⟨hc, -⟩ := (mergeInterleaves c d e n t).1.effect hM trivial hu
    exact hc.trans (merge_of_split heven hd he)
  · obtain ⟨hd, he, -⟩ := (splitDeinterleaves d e a n s).2.effect hS hde ht
    obtain ⟨hc, -⟩ := (mergeInterleaves c d e n t).2.effect hM trivial hu
    exact hc.trans (merge_of_split heven hd he)
  · obtain ⟨hc, -⟩ := (mergeInterleaves c a b n s).1.effect hM trivial ht
    obtain ⟨hd, he, -⟩ := (splitDeinterleaves d e c n t).1.effect hS hde hu
    exact ⟨hd.trans (split_of_merge hc).1, he.trans (split_of_merge hc).2⟩
  · obtain ⟨hc, -⟩ := (mergeInterleaves c a b n s).2.effect hM trivial ht
    obtain ⟨hd, he, -⟩ := (splitDeinterleaves d e c n t).2.effect hS hde hu
    exact ⟨hd.trans (split_of_merge hc).1, he.trans (split_of_merge hc).2⟩

/-! ## Banks a command does not write -/

theorem State.WroteF.fEntries_other {s t : State} {b c : Bank} {n m : Nat} {vs : List Cplx} (h : s.WroteF b n vs t)
    (hc : c ≠ b) (hn : n ≤ 1024) (hm : m ≤ 1024) : t.fEntries c m = s.fEntries c m := by
  refine map_range_inj.2 fun i hi => State.fEntry_congr fun j hj => h.2 _ ?_
  have : c.val ≠ b.val := fun e => hc (Fin.ext e)
  simp only [fAddr]
  omega

theorem State.WroteZ.zEntries_other {s t : State} {b c : Bank} {n m : Nat} {vs : List Half} (h : s.WroteZ b n vs t)
    (hc : c ≠ b) (hn : n ≤ 1024) (hm : m ≤ 1024) : t.zEntries c m = s.zEntries c m := by
  refine map_range_inj.2 fun i hi => State.zEntry_congr fun j hj => h.2 _ fun k hk => ?_
  have : c.val ≠ b.val := fun e => hc (Fin.ext e)
  simp only [zAddr]
  omega

/-! ## Residues that are written -/

/-- Canonical residues read back from the entries they were written to (rule R161). -/
theorem State.residues_of_zEntries {t : State} {b : Bank} {n : Nat} {v : List Nat} (h : t.zEntries b n = halves v)
    (hlt : ∀ r ∈ v, r < Config.q) : t.residues b n = v := by
  rw [State.residues, h, halves, List.map_map]
  refine (List.map_congr_left fun r hr => ?_).trans v.map_id
  have hr' : r < 12289 := hlt r hr
  rw [Function.comp_apply, halfOf, BitVec.toNat_ofNat, Nat.mod_eq_of_lt (a := r) (by omega), Nat.mod_eq_of_lt (hlt r hr), id_eq]

theorem State.lt_of_mem_residues {s : State} {b : Bank} {n : Nat} : ∀ r ∈ s.residues b n, r < Config.q := by
  intro r hr
  rw [State.residues_eq_map, List.mem_map] at hr
  obtain ⟨i, -, rfl⟩ := hr
  exact s.residue_lt b i

theorem splitNtt_lt (n : Nat) (f : List Nat) :
    (∀ r ∈ (splitNtt n f).1, r < Config.q) ∧ ∀ r ∈ (splitNtt n f).2, r < Config.q :=
  forall_mem_splitPass nttFlyInv_lt n f

/-! ## What the modular transforms leave -/

section
variable {s t : State} {n : Nat} {rd re ra rb : Bank} (hn : n ∈ transformLens)
include hn

theorem residues_ntt (h : exec (.ntt rd ra n) s = .next t) :
    t.residues rd n = ntt n (s.residues ra n) ∧ ∀ c ≠ rd, t.zEntries c n = s.zEntries c n := by
  obtain ⟨hrule, -⟩ := modularTransformCommands rd 0 ra ra n s
  simp only [← State.residues_eq_map] at hrule
  have hw := hrule.effect hn trivial h
  obtain ⟨-, -, hmax⟩ := transformLens_bounds hn
  exact ⟨State.residues_of_zEntries hw.1 (ntt_lt _ _), fun c hc => hw.zEntries_other hc hmax hmax⟩

theorem zEntries_intt (h : exec (.intt rd ra n) s = .next t) : t.zEntries rd n = halves (intt n (s.residues ra n)) := by
  obtain ⟨-, hrule, -⟩ := modularTransformCommands rd 0 ra ra n s
  simp only [← State.residues_eq_map] at hrule
  exact (hrule.effect hn trivial h).1

theorem zEntries_zsplitt (hne : rd ≠ re) (h : exec (.zsplitt rd re ra n) s = .next t) :
    t.zEntries rd (n / 2) = halves (splitNtt n (s.residues ra n)).1 ∧
    t.zEntries re (n / 2) = halves (splitNtt n (s.residues ra n)).2 := by
  obtain ⟨-, -, hrule, -⟩ := modularTransformCommands rd re ra ra n s
  simp only [← State.residues_eq_map] at hrule
  obtain ⟨hd, he, -⟩ := hrule.effect hn hne h
  exact ⟨hd, he⟩

theorem zEntries_zmerget (h : exec (.zmerget rd ra rb n) s = .next t) :
    t.zEntries rd n = halves (mergeNtt n (s.residues ra (n / 2)) (s.residues rb (n / 2))) := by
  obtain ⟨-, -, -, hrule⟩ := modularTransformCommands rd 0 ra rb n s
  simp only [← State.residues_eq_map] at hrule
  exact (hrule.effect hn trivial h).1

end

/-- Settles O47: the transform of the residues is their value at each root. -/
theorem nttEvaluatesAtTheRoots : Obligations.NttEvaluatesAtTheRoots := by
  unfold Obligations.NttEvaluatesAtTheRoots
  intro rd ra n s hn
  obtain ⟨⟨-, -, -, hok⟩, -⟩ := modularTransformCommands rd 0 ra ra n s
  obtain ⟨t, ht, hs, hw⟩ := hok hn trivial
  rw [ntt_map_range hn, List.map_map] at hw
  exact ⟨t, ht, hs, hw⟩

/-! ## The transforms undo each other -/

/-- Merging what a transform was split into gives it back (rules R168, R169). -/
theorem mergeNtt_splitNtt {n : Nat} {f : List Nat} (hn : n ∈ transformLens) (hf : f.length = n)
    (hlt : ∀ r ∈ f, r < Config.q) : mergeNtt n (splitNtt n f).1 (splitNtt n f).2 = f := by
  obtain ⟨heven, h2, hmax⟩ := transformLens_bounds hn
  exact mergePass_splitPass (P := (· < Config.q)) n f (hf ▸ heven) hlt fun b h1 hb u v hu hv =>
    nttFly_nttFlyInv (by omega) (by omega) hu hv

/-- Splitting a merged transform gives the halves back. -/
theorem splitNtt_mergeNtt {n : Nat} {f g : List Nat} (hn : n ∈ transformLens) (hf : f.length = n / 2)
    (hg : g.length = n / 2) (hltf : ∀ r ∈ f, r < Config.q) (hltg : ∀ r ∈ g, r < Config.q) :
    splitNtt n (mergeNtt n f g) = (f, g) := by
  obtain ⟨heven, h2, hmax⟩ := transformLens_bounds hn
  exact splitPass_mergePass (P := (· < Config.q)) n f g (hf.trans hg.symm) hltf hltg fun i hi u v hu hv =>
    nttFlyInv_nttFly (by omega) (by omega) hu hv

/-- Splitting a transform gives the transforms of the even and the odd coefficients (rule R180). -/
theorem splitNtt_ntt {n : Nat} {f : List Nat} (hn : n ∈ transformLens) (h2 : n ≠ 2) (hf : f.length = n) :
    splitNtt n (ntt n f) = (ntt (n / 2) (evens f), ntt (n / 2) (odds f)) := by
  obtain ⟨heven, -, -⟩ := transformLens_bounds hn
  obtain ⟨hhalf, -⟩ := transformLens_half hn h2
  rw [show ntt n f = mergeNtt n (ntt (n / 2) (evens f)) (ntt (n / 2) (odds f)) from transform_levelOf nttUnit hn h2 f]
  exact splitNtt_mergeNtt hn (ntt_length hhalf (by rw [evens_length]; omega)) (ntt_length hhalf (by rw [odds_length, hf]))
    (ntt_lt _ _) (ntt_lt _ _)

/-- Settles O48, from the residues each command leaves to the next. -/
theorem inttUndoesNtt : Obligations.InttUndoesNtt := by
  unfold Obligations.InttUndoesNtt
  intro s t u n a b c d e hn hde
  have hlen := s.residues_length a n
  have entries (h : u.zEntries c n = halves (s.residues a n)) : ∀ i < n, u.zEntry c i = BitVec.ofNat 16 (s.residue a i) := by
    rw [State.residues_eq_map, halves_map_range] at h
    exact map_range_inj.1 h
  refine ⟨fun ht hu => entries ?_, fun ht hu => entries ?_, fun h2 ht hu => ?_⟩
  · rw [zEntries_intt hn hu, (residues_ntt hn ht).1, intt_ntt hn hlen State.lt_of_mem_residues]
  · obtain ⟨hd, he⟩ := zEntries_zsplitt hn hde ht
    obtain ⟨hltd, hlte⟩ := splitNtt_lt n (s.residues a n)
    rw [zEntries_zmerget hn hu, State.residues_of_zEntries hd hltd, State.residues_of_zEntries he hlte,
      mergeNtt_splitNtt hn hlen State.lt_of_mem_residues]
  · obtain ⟨heven, -, -⟩ := transformLens_bounds hn
    obtain ⟨hd, he⟩ := zEntries_zsplitt hn hde hu
    rw [(residues_ntt hn ht).1, splitNtt_ntt hn h2 hlen, State.residues_eq_map] at hd he
    rw [evens_map_range_of_even _ heven] at hd
    rw [odds_map_range] at he
    exact ⟨hd, he⟩

/-! ## The coefficient commands as their steps -/

section
variable {s s1 s2 t : State} {n : Nat} {rd ra rb c d : Bank} (hn : n ∈ transformLens)
include hn

theorem fEntries_fft (h : exec (.fft rd ra n) s = .next t) :
    t.fEntries rd n = fft n (s.fEntries ra n) ∧ ∀ c ≠ rd, t.fEntries c n = s.fEntries c n := by
  obtain ⟨hrule, -⟩ := complexTransformCommands rd 0 ra ra n s
  have hw := hrule.effect hn trivial h
  obtain ⟨-, -, hmax⟩ := transformLens_bounds hn
  exact ⟨hw.1, fun c hc => hw.fEntries_other hc hmax hmax⟩

theorem fEntries_ifft (h : exec (.ifft rd ra n) s = .next t) : t.fEntries rd n = ifft n (s.fEntries ra n) := by
  obtain ⟨-, hrule, -⟩ := complexTransformCommands rd 0 ra ra n s
  exact (hrule.effect hn trivial h).1

/-- A pointwise command of U2 combines the entries of its sources. -/
theorem fEntries_pointwise {op : BitVec 6} {i : Instr} {f : Cplx → Cplx → Cplx}
    (hrule : CommandRule op i s (1 ≤ n ∧ n ≤ 1024) True
      (s.WroteF rd n ((List.range n).map fun k => f (s.fEntry ra k) (s.fEntry rb k)))) (h : exec i s = .next t) :
    t.fEntries rd n = List.zipWith f (s.fEntries ra n) (s.fEntries rb n) := by
  obtain ⟨-, h2, hmax⟩ := transformLens_bounds hn
  exact (hrule.effect ⟨by omega, hmax⟩ trivial h).1.trans (zipWith_map_range f _ _ n).symm

/-- Two transforms, one after the other, leave both their lists, where the first spares the second's source and the second
the first's destination. -/
theorem fEntries_fft_fft (hcb : c ≠ rb) (hcd : c ≠ d) (h1 : exec (.fft c ra n) s = .next s1)
    (h2 : exec (.fft d rb n) s1 = .next s2) :
    s2.fEntries c n = fft n (s.fEntries ra n) ∧ s2.fEntries d n = fft n (s.fEntries rb n) := by
  obtain ⟨hc, hspare⟩ := fEntries_fft hn h1
  obtain ⟨hd, hspare'⟩ := fEntries_fft hn h2
  exact ⟨(hspare' c hcd).trans hc, by rw [hd, hspare rb hcb.symm]⟩

/-- The same for two modular transforms and the residues. -/
theorem residues_ntt_ntt (hcb : c ≠ rb) (hcd : c ≠ d) (h1 : exec (.ntt c ra n) s = .next s1)
    (h2 : exec (.ntt d rb n) s1 = .next s2) :
    s2.residues c n = ntt n (s.residues ra n) ∧ s2.residues d n = ntt n (s.residues rb n) := by
  obtain ⟨hc, hspare⟩ := residues_ntt hn h1
  obtain ⟨hd, hspare'⟩ := residues_ntt hn h2
  refine ⟨?_, by rw [hd, State.residues, hspare rb hcb.symm, State.residues]⟩
  rw [State.residues, hspare' c hcd]
  exact hc

theorem residues_zmuln (h : exec (.zmuln rd ra rb n) s = .next t) :
    t.residues rd n = List.zipWith mulq (s.residues ra n) (s.residues rb n) := by
  obtain ⟨-, h2, hmax⟩ := transformLens_bounds hn
  obtain ⟨-, -, hrule⟩ := pointwiseModularCommands rd ra rb n s
  have hz := (hrule.effect ⟨by omega, hmax⟩ trivial h).1
  rw [State.residues_eq_map s, State.residues_eq_map s, zipWith_map_range]
  refine State.residues_of_zEntries (hz.trans (halves_map_range _ n).symm) fun r hr => ?_
  obtain ⟨i, -, rfl⟩ := List.mem_map.1 hr
  exact mulq_lt _ _

theorem zEntries_zmul (h : exec (.zmul rd ra rb n) s = .next t) :
    t.zEntries rd n = halves (intt n (List.zipWith mulq (ntt n (s.residues ra n)) (ntt n (s.residues rb n)))) := by
  have hrule := zmulIsTheNegacyclicProduct rd ra rb n s
  rw [State.residues_eq_map, State.residues_eq_map, intt_zipWith_mulq _ _ hn, halves_map_range]
  exact (hrule.effect hn trivial h).1

end

/-- Settles O40: each step leaves its list in its bank, and spares the bank the next step needs beside it. -/
theorem coefficientCommandsCompose : Obligations.CoefficientCommandsCompose := by
  unfold Obligations.CoefficientCommandsCompose
  intro s s1 s2 s3 s4 t n rd ra rb c d hn hcb hcd
  obtain ⟨-, -, -, -, hfmul, hfdiv, hfadj⟩ := complexTransformCommands rd 0 ra rb n s
  refine ⟨fun h1 h2 h3 h4 h => ?_, fun h1 h2 h3 h4 h => ?_, fun h1 h2 h3 h => ?_, fun h1 h2 h3 h4 h => ?_⟩
  · obtain ⟨-, -, hrule, -⟩ := pointwiseComplexCommands c c d n s2
    obtain ⟨hc, hd⟩ := fEntries_fft_fft hn hcb hcd h1 h2
    rw [fEntries_ifft hn h4, fEntries_pointwise hn hrule h3, hc, hd, (hfmul.effect hn trivial h).1]
  · obtain ⟨-, -, -, hrule, -⟩ := pointwiseComplexCommands c c d n s2
    obtain ⟨hc, hd⟩ := fEntries_fft_fft hn hcb hcd h1 h2
    rw [fEntries_ifft hn h4, fEntries_pointwise hn hrule h3, hc, hd, (hfdiv.effect hn trivial h).1]
  · obtain ⟨-, -, -, -, hrule⟩ := pointwiseComplexCommands c c c n s1
    obtain ⟨-, hmin, hmax⟩ := transformLens_bounds hn
    have hconj : s2.fEntries c n = (s1.fEntries c n).map cconj := by
      rw [(hrule.effect ⟨by omega, hmax⟩ trivial h2).1, State.fEntries, List.map_map]
      rfl
    rw [fEntries_ifft hn h3, hconj, (fEntries_fft hn h1).1, (hfadj.effect hn trivial h).1]
  · obtain ⟨hc, hd⟩ := residues_ntt_ntt hn hcb hcd h1 h2
    rw [zEntries_intt hn h4, residues_zmuln hn h3, hc, hd, zEntries_zmul hn h]

end Sys2Proof.Machine
end

section
/-! SUPPORT. How many bytes a draw takes, and that it needs no byte behind them; what a command that draws is given first
and what later (rules R46, R200, R302). -/

namespace Sys2Proof.Machine

/-! ## The bytes a draw takes -/

/-- The draw takes exactly the first `n` of the bytes, and no shorter run of them is enough. -/
structure TakesBytes (draw : Draw) (bs : List Byte) (rest : List Byte) (n : Nat) : Prop where
  le : n ≤ bs.length
  rest_eq : rest = bs.drop n
  enough : ∀ m, n ≤ m → draw (bs.take m) ≠ none

theorem byteOf_take {bs : List Byte} {m j : Nat} (h : j < m) : byteOf (bs.take m) j = byteOf bs j := by
  simp [byteOf, List.getD_eq_getElem?_getD, List.getElem?_take_of_lt h]

theorem uniform72_take {bs : List Byte} {m k : Nat} (h : k + 9 ≤ m) : uniform72 (bs.take m) k = uniform72 bs k :=
  Finset.sum_congr rfl fun j hj => by
    have := Finset.mem_range.1 hj
    rw [byteOf_take (by omega)]

theorem trial56_take {bs : List Byte} {m k : Nat} (h : k + 7 ≤ m) : trial56 (bs.take m) k = trial56 bs k :=
  Finset.sum_congr rfl fun j hj => by
    have := Finset.mem_range.1 hj
    rw [byteOf_take (by omega)]

section
variable (cdt : CdtRom) (exp : ExpRom) (p : Snapshot) {bs : List Byte}

/-- Whether an iteration accepts depends on its own 17 bytes. -/
theorem acceptsAt_take {m k : Nat} (h : k + 17 ≤ m) : acceptsAt cdt exp p (bs.take m) k ↔ acceptsAt cdt exp p bs k := by
  have hz : candidateAt cdt (bs.take m) k = candidateAt cdt bs k := by
    simp only [candidateAt, uniform72_take (show k + 9 ≤ m by omega), byteOf_take (show k + 9 < m by omega)]
  simp only [acceptsAt, statisticAt, hz, uniform72_take (show k + 9 ≤ m by omega),
    trial56_take (show k + 10 + 7 ≤ m by omega)]

/-- GSAMP's draw answers exactly when an iteration whose bytes are there accepts, and it takes the bytes of the
iterations up to the first of them (rules R212, R213). -/
theorem exists_accepts_of_gsampDraw {a : Word × Word × List Byte} (h : gsampDraw cdt exp p bs = some a) :
    ∃ m, 17 * (m + 1) ≤ bs.length ∧ acceptsAt cdt exp p bs (17 * m) ∧ a.2.2 = bs.drop (17 * (m + 1)) := by
  classical
  by_cases hex : ∃ m, 17 * (m + 1) ≤ bs.length ∧ acceptsAt cdt exp p bs (17 * m)
  · obtain ⟨hl, ha⟩ := Nat.find_spec hex
    refine ⟨Nat.find hex, hl, ha, ?_⟩
    rw [gsampDraw_accepts cdt exp p hl (fun j hj hj' => Nat.find_min hex hj ⟨by omega, hj'⟩) ha] at h
    cases h
    rfl
  · rw [gsampDraw_starves cdt exp p fun j hj ha => hex ⟨j, hj, ha⟩] at h
    cases h

theorem gsampDraw_ne_none {m : Nat} (hl : 17 * (m + 1) ≤ bs.length) (ha : acceptsAt cdt exp p bs (17 * m)) :
    gsampDraw cdt exp p bs ≠ none := by
  classical
  have hex : ∃ m, 17 * (m + 1) ≤ bs.length ∧ acceptsAt cdt exp p bs (17 * m) := ⟨m, hl, ha⟩
  obtain ⟨hl', ha'⟩ := Nat.find_spec hex
  rw [gsampDraw_accepts cdt exp p hl' (fun j hj hj' => Nat.find_min hex hj ⟨by omega, hj'⟩) ha']
  exact nofun

end

/-- What a command's draw takes: 9 bytes, 7, or 17 an iteration (rules R200, R209, R211, R212). -/
theorem commandDraw_takes {i : Instr} {s : State} {draw : Draw} {bs rest : List Byte} {r0 r1 : Word}
    (hd : commandDraw s i = some draw) (h : draw bs = some (r0, r1, rest)) :
    ∃ n, DrawsBytes n i ∧ TakesBytes draw bs rest n := by
  cases i with
  | gbase =>
    cases hd
    have base {bs' : List Byte} (hl : 9 ≤ bs'.length) : gbaseDraw s.cdtRom bs' = some (_, 0, bs'.drop 9) :=
      congrArg (Option.map _) (baseSampler_of_le s.cdtRom 0 (by omega))
    have hl : 9 ≤ bs.length := not_lt.1 fun hlt => by
      rw [gbaseDraw, baseSampler_of_lt _ hlt] at h
      cases h
    refine ⟨9, rfl, hl, ?_, fun m hm => ?_⟩
    · rw [base hl] at h
      cases h
      rfl
    · rw [base (by rw [List.length_take]; omega)]
      exact nofun
  | gber =>
    cases hd
    have trial {bs' : List Byte} (hl : 7 ≤ bs'.length) :
        gberDraw s.expRom s.snap bs' = some (_, _, bs'.drop 7) :=
      congrArg (Option.map _) (berAccept_of_le _ 0 (by omega))
    have hl : 7 ≤ bs.length := not_lt.1 fun hlt => by
      rw [gberDraw, berAccept_of_lt _ hlt] at h
      cases h
    refine ⟨7, rfl, hl, ?_, fun m hm => ?_⟩
    · rw [trial hl] at h
      cases h
      rfl
    · rw [trial (by rw [List.length_take]; omega)]
      exact nofun
  | gsamp =>
    cases hd
    obtain ⟨m, hl, ha, hrest⟩ := exists_accepts_of_gsampDraw _ _ _ h
    refine ⟨17 * (m + 1), ⟨m, rfl⟩, hl, hrest, fun k hk => ?_⟩
    exact gsampDraw_ne_none _ _ _ (by rw [List.length_take]; omega)
      ((acceptsAt_take _ _ _ (by omega)).2 ha)
  | _ => cases hd

/-- A command that draws is one frame in every state with the same ROMs and snapshot. -/
theorem exec_drawing {i : Instr} {s : State} {draw : Draw} (hd : commandDraw s i = some draw) :
    ∃ check, ∀ t : State, t.cdtRom = s.cdtRom → t.expRom = s.expRom → t.snap = s.snap →
      exec i t = runDrawing check draw t := by
  cases i with
  | gbase => cases hd; exact ⟨none, fun t hc he hs => by rw [← hc]; rfl⟩
  | gber => cases hd; exact ⟨domainCheck (gberDomain s.snap), fun t hc he hs => by rw [← he, ← hs]; rfl⟩
  | gsamp => cases hd; exact ⟨domainCheck (gsampDomain s.snap), fun t hc he hs => by rw [← hc, ← he, ← hs]; rfl⟩
  | _ => cases hd

/-- A draw for which the first bytes were too few takes all of them. -/
theorem TakesBytes.lt_of_take_eq_none {draw : Draw} {bs rest : List Byte} {n m : Nat} (h : TakesBytes draw bs rest n)
    (hm : draw (bs.take m) = none) : m < n :=
  not_le.1 fun hle => h.enough m hle hm

/-- `s` after it was given the bytes `xs` alone, has waited, and can now have `ys`. -/
def State.resumed (s : State) (xs ys : List Byte) : State := { ({ s with rngIn := xs } : State).starve with rngIn := ys }

theorem State.rngCnt_resumed (s : State) (xs ys : List Byte) (n : Nat) :
    (s.resumed xs ys).rngCnt + BitVec.ofNat 32 n = s.rngCnt + BitVec.ofNat 32 (xs.length + n) := by
  rw [BitVec.ofNat_add, ← BitVec.add_assoc]
  rfl

section
variable {s : State} {xs ys : List Byte} (hin : s.rngIn = xs ++ ys)
include hin

theorem State.supply_resumed : (s.resumed xs ys).supply = s.supply := by
  rw [State.supply, State.supply, hin, ← List.append_assoc]
  rfl

/-- Having waited makes no difference to a further wait. -/
theorem State.starve_resumed : (s.resumed xs ys).starve = s.starve := by
  have hl : s.rngIn.length = xs.length + ys.length := by rw [hin, List.length_append]
  calc (s.resumed xs ys).starve
    _ = { s with
          drawn := (s.resumed xs ys).supply, rngIn := []
          rngCnt := (s.resumed xs ys).rngCnt + BitVec.ofNat 32 ys.length, status := s.status.wait } := rfl
    _ = s.starve := by rw [s.supply_resumed hin, s.rngCnt_resumed, ← hl]; rfl

/-- Nor to a completion that takes more than the first bytes. -/
theorem State.finish_takeBytes_resumed (n : Nat) (r : Word × Word) :
    ((s.resumed xs ys).takeBytes n).finish { mem := s.mem, results := some r } =
      (s.takeBytes (xs.length + n)).finish { mem := s.mem, results := some r } := by
  have hd : s.rngIn.drop (xs.length + n) = ys.drop n := by rw [hin, List.drop_length_add_append]
  calc ((s.resumed xs ys).takeBytes n).finish { mem := s.mem, results := some r }
    _ = { s with
          rngIn := ys.drop n, rngCnt := (s.resumed xs ys).rngCnt + BitVec.ofNat 32 n
          result0 := r.1, result1 := r.2, drawn := [], status := s.status.finish } := rfl
    _ = (s.takeBytes (xs.length + n)).finish { mem := s.mem, results := some r } := by
      rw [s.rngCnt_resumed, ← hd]; rfl

/-- A draw for which the bytes `xs` were too few ends alike with and without the wait. -/
theorem runDrawing_resumed {draw : Draw} (hnone : draw (s.drawn ++ xs) = none)
    (htake : ∀ r0 r1 rest, draw s.supply = some (r0, r1, rest) → ∃ n, TakesBytes draw s.supply rest n) :
    runDrawing none draw (s.resumed xs ys) = runDrawing none draw s := by
  have hsup := s.supply_resumed hin
  rcases hd : draw s.supply with _ | ⟨r0, r1, rest⟩
  · rw [runDrawing_starve rfl hd, runDrawing_starve rfl (hsup ▸ hd), s.starve_resumed hin]
  · obtain ⟨n, hn⟩ := htake r0 r1 rest hd
    have hs : s.supply = (s.drawn ++ xs) ++ ys := by rw [State.supply, hin, List.append_assoc]
    have hlt : (s.drawn ++ xs).length < n := hn.lt_of_take_eq_none (by rw [hs, List.take_left]; exact hnone)
    have hrest := congrArg List.length hn.rest_eq
    have hle := hn.le
    rw [List.length_drop] at hrest
    have hdrawn : (s.resumed xs ys).drawn = s.drawn ++ xs := rfl
    rw [runDrawing_ok rfl hd, runDrawing_ok rfl (hsup ▸ hd), hsup, hdrawn]
    rw [List.length_append] at hlt ⊢
    rw [show s.supply.length - rest.length - s.drawn.length =
      xs.length + (s.supply.length - rest.length - (s.drawn.length + xs.length)) by omega]
    exact congrArg Host.Outcome.next (s.finish_takeBytes_resumed hin _ (r0, r1))

end

/-- Settles O51, from the domain test of each command. -/
theorem samplerDomains : Obligations.SamplerDomains := by
  unfold Obligations.SamplerDomains
  exact fun p => ⟨gexpDomain_iff, gberDomain_iff, gsampDomain_iff⟩

/-- Settles O56: the wait took the first bytes, and the rest of the draw counts them. -/
theorem deliveryTimesDoNotMatter : Obligations.DeliveryTimesDoNotMatter := by
  unfold Obligations.DeliveryTimesDoNotMatter
  intro i s u xs ys hne hin hu hw
  obtain ⟨draw, hd⟩ := Option.ne_none_iff_exists'.1 hne
  obtain ⟨check, he⟩ := exec_drawing hd
  rw [he _ (by rfl) (by rfl) (by rfl)] at hu
  rcases runDrawing_cases hu with ⟨c, -, rfl⟩ | ⟨rfl, hnone, rfl⟩ | ⟨r0, r1, rest, -, -, rfl⟩
  · cases hw
  · rw [he s rfl rfl rfl, he _ (by rfl) (by rfl) (by rfl)]
    exact runDrawing_resumed hin hnone fun r0 r1 rest h => by
      obtain ⟨n, -, hn⟩ := commandDraw_takes hd h
      exact ⟨n, hn⟩
  · cases hw

end Sys2Proof.Machine
end

section
/-! SUPPORT. A stream that decodes is the bits of what it decodes to; and how a command ends, with the results it gives
(rules R29, R30, R100, R242, R244). -/

namespace Sys2Proof.Machine

/-! ## Reading a stream, backwards -/

theorem eq_of_unaryRun {k u : Nat} {bs rest : List Bool} (h : unaryRun k bs = some (u, rest)) :
    ∃ j, u = k + j ∧ bs = List.replicate j true ++ false :: rest := by
  induction bs generalizing k with
  | nil => cases h
  | cons b bs ih =>
    cases b with
    | false => cases h; exact ⟨0, rfl, rfl⟩
    | true =>
      obtain ⟨j, hu, hb⟩ := ih h
      exact ⟨j + 1, by omega, by rw [hb, List.replicate_succ, List.cons_append]⟩

/-- What a sign and a magnitude that are accepted make (rule R244). -/
theorem eq_of_signedMagnitude {neg : Bool} {low u : Nat} {c : Int} (h : signedMagnitude neg low u = .ok c) :
    IsCoeff c ∧ neg = decide (c < 0) ∧ c.natAbs = u * 128 + low := by
  unfold signedMagnitude at h
  cases neg with
  | false =>
    simp only [Bool.false_and, Bool.false_eq_true, if_false] at h
    split_ifs at h with hr
    injection h with h
    subst h
    exact ⟨by unfold IsCoeff; omega, (decide_eq_false (by omega)).symm, by omega⟩
  | true =>
    simp only [Bool.true_and, if_true, beq_iff_eq] at h
    split_ifs at h with hz hr
    injection h with h
    subst h
    exact ⟨by unfold IsCoeff; omega, (decide_eq_true (by omega)).symm, by omega⟩

theorem numberMsb_eq_mul_add (u : Nat) (l : List Bool) : numberMsb u l = u * 2 ^ l.length + numberMsb 0 l := by
  have h := numberMsb_bitsMsb u l.length (numberMsb 0 l)
  rwa [bitsMsb_numberMsb, Nat.mod_eq_of_lt (numberMsb_lt l)] at h

/-- The bits of a coefficient whose magnitude is a run and seven low bits (rule R242). -/
theorem coeffBits_append_of_natAbs {c : Int} {u : Nat} {low : List Bool} (rest : List Bool) (hlow : low.length = 7)
    (h : c.natAbs = u * 128 + numberMsb 0 low) :
    coeffBits c ++ rest = decide (c < 0) :: (low ++ (List.replicate u true ++ false :: rest)) := by
  have hlt := numberMsb_lt low
  have hbits := bitsMsb_numberMsb u low
  rw [numberMsb_eq_mul_add, hlow, show (2 : Nat) ^ 7 = 128 from rfl] at hbits
  rw [hlow] at hlt
  rw [coeffBits_append, h, hbits, show (u * 128 + numberMsb 0 low) / 2 ^ 7 = u by omega]

/-- The bits read are those of the coefficient read (rules R242, R244). -/
theorem eq_of_decodeCoeff {bits rest : List Bool} {c : Int} (h : decodeCoeff bits = .ok (c, rest)) :
    IsCoeff c ∧ bits = coeffBits c ++ rest := by
  unfold decodeCoeff at h
  split at h
  next sg b6 b5 b4 b3 b2 b1 b0 bs =>
    split at h
    next => cases h
    next u rest' hu =>
      obtain ⟨j, rfl, rfl⟩ := eq_of_unaryRun hu
      rw [Nat.zero_add] at h
      rcases hm : signedMagnitude sg (numberMsb 0 [b6, b5, b4, b3, b2, b1, b0]) j with e | c' <;> rw [hm] at h
      · cases h
      · cases h
        obtain ⟨hc, rfl, habs⟩ := eq_of_signedMagnitude hm
        exact ⟨hc, (coeffBits_append_of_natAbs rest rfl habs).symm⟩
  next => cases h

theorem eq_of_decodeAll {n : Nat} {bits rest : List Bool} {v : List Int} (h : decodeAll n bits = .ok (v, rest)) :
    (∀ c ∈ v, IsCoeff c) ∧ bits = v.flatMap coeffBits ++ rest := by
  induction n generalizing bits v with
  | zero => cases h; exact ⟨nofun, rfl⟩
  | succ n ih =>
    rw [decodeAll] at h
    split at h
    next => cases h
    next c bits' hc =>
      split at h
      next => cases h
      next cs rest' hcs =>
        cases h
        obtain ⟨hcoeff, rfl⟩ := eq_of_decodeCoeff hc
        obtain ⟨hall, rfl⟩ := ih hcs
        exact ⟨List.forall_mem_cons.2 ⟨hcoeff, hall⟩, by rw [List.flatMap_cons, List.append_assoc]⟩

/-- A coefficient reads back from the entry it was written to. -/
theorem map_toInt_map_ofInt {v : List Int} (h : ∀ c ∈ v, IsCoeff c) : (v.map (BitVec.ofInt 16)).map BitVec.toInt = v := by
  rw [List.map_map]
  refine (List.map_congr_left fun c hc => ?_).trans v.map_id
  obtain ⟨h1, h2⟩ := h c hc
  exact BitVec.toInt_ofInt_eq_self (by decide) (by omega) (by omega)

/-! ## The ends of a command that draws no byte -/

/-- The command failed, or gave the results its rule names. -/
def State.EndsAs (s : State) (i : Instr) (t : State) : Prop :=
  (∃ c, c ≠ .none ∧ s.FailsWith c t) ∨ s.SucceedsWith (resultsAfter s t i).1 (resultsAfter s t i).2 t

section
variable {i : Instr} {s t : State} (h : exec i s = .next t)
include h

/-- A command whose effects carry no results leaves RESULT0 and RESULT1. -/
theorem endsAs_of_no_results (hd : commandDraw s i = none)
    (hf : ∃ check body, exec i s = runCommand check body s ∧ ∀ e, body = .ok e → e.results = none)
    (hr : resultsAfter s t i = (s.result0, s.result1)) : s.EndsAs i t := by
  obtain ⟨check, body, he, hnone⟩ := hf
  have hkeep : t.result0 = s.result0 ∧ t.result1 = s.result1 := by
    rcases runCommand_cases (he ▸ h) with ⟨c, -, rfl⟩ | ⟨e, -, hb, rfl⟩
    · exact ⟨rfl, rfl⟩
    · exact ⟨by simp [State.finish, Effect.result0, hnone e hb], by simp [State.finish, Effect.result1, hnone e hb]⟩
  rcases exec_cases h with ⟨c, hc, rfl⟩ | ⟨e, -, rfl⟩ | ⟨_, hd', -⟩ | ⟨_, _, _, _, hd', -⟩
  · exact .inl ⟨c, hc, rfl⟩
  · refine .inr ?_
    rw [hr, ← hkeep.1, ← hkeep.2]
    rfl
  all_goals rw [hd] at hd'; cases hd'

end

theorem gexp_endsAs {s t : State} (h : exec .gexp s = .next t) : s.EndsAs .gexp t := by
  rcases runCommand_cases (check := domainCheck _) (body := .ok _) h with ⟨c, hc | ⟨-, hb⟩, rfl⟩ | ⟨e, -, hb, rfl⟩
  · exact .inl ⟨c, fun hn => domainCheck_ne _ (hn ▸ hc), rfl⟩
  · cases hb
  · cases hb
    exact .inr rfl

theorem cmpr_endsAs {s t : State} {ra : Bank} {n : Nat} (h : exec (.cmpr ra n) s = .next t) : s.EndsAs (.cmpr ra n) t := by
  rcases runCommand_cases (check := (lenCheck .C n).or (byteCountCheck _)) (body := compress _ _ _) h with
    ⟨c, hc | ⟨-, hb⟩, rfl⟩ | ⟨e, hc, hb, rfl⟩
  · exact .inl ⟨c, fun hn => or_check_ne (lenCheck_ne _ _) (byteCountCheck_ne _) (hn ▸ hc), rfl⟩
  · exact .inl ⟨c, by rw [compress_error hb]; decide, rfl⟩
  · obtain ⟨hlen, hbudget⟩ := or_eq_none hc
    have hfit := not_lt.1 fun hlt => by
      rw [compress_of_lt s hlt] at hb
      cases hb
    obtain ⟨t, ht, hs, -⟩ := cmpr_succeeds (ra := ra) ((LenClass.legal_C_iff n).1 (lenCheck_eq_none hlen))
      (byteCountCheck_eq_none hbudget) hfit
    rw [ht] at h
    cases h
    exact .inr hs

theorem dcmp_endsAs {s t : State} {rd : Bank} {n : Nat} (h : exec (.dcmp rd n) s = .next t) : s.EndsAs (.dcmp rd n) t := by
  rcases runCommand_cases (check := (lenCheck .C n).or ((byteCountCheck _).or (byteCountCheck _)))
    (body := decompress _ _ _ _ _) h with ⟨c, hc | ⟨-, hb⟩, rfl⟩ | ⟨e, hc, hb, rfl⟩
  · exact .inl ⟨c, fun hn => or_check_ne (lenCheck_ne _ _) (or_check_ne (byteCountCheck_ne _) (byteCountCheck_ne _))
      (hn ▸ hc), rfl⟩
  · exact .inl ⟨c, by rcases decompress_error hb with rfl | rfl | rfl <;> decide, rfl⟩
  · obtain ⟨hlen, hbytes⟩ := or_eq_none hc
    obtain ⟨hbudget, -⟩ := or_eq_none hbytes
    have hle := not_lt.1 fun hlt => by
      rw [decompress_of_lt s rd n hlt] at hb
      cases hb
    rcases hd : decodeAll n (s.streamBits s.snap.inlen.toNat) with c | ⟨v, rest⟩
    · rw [decompress_of_le s rd n hle, hd] at hb
      cases hb
    · obtain ⟨hv, hbits⟩ := eq_of_decodeAll hd
      obtain ⟨t, ht, hs, hw⟩ := dcmp_succeeds (rd := rd) ((LenClass.legal_C_iff n).1 (lenCheck_eq_none hlen))
        (byteCountCheck_eq_none hbudget) hle hv (decodeAll_length hd) hbits
      rw [ht] at h
      cases h
      refine .inr ?_
      rw [resultsAfter, hw.1, map_toInt_map_ofInt hv]
      exact hs

/-- However a command that draws no byte ends, its results are those its rule names. -/
theorem exec_endsAs {i : Instr} {s t : State} (hd : commandDraw s i = none) (h : exec i s = .next t) : s.EndsAs i t := by
  have divide {a b : List Nat} {g : List Nat → Effect} (hg : ∀ v, (g v).results = none) (e : Effect)
      (he : (divideq a b).map g = .ok e) : e.results = none := by
    cases hq : divideq a b with
    | error c => rw [hq] at he; cases he
    | ok v => rw [hq] at he; cases he; exact hg v
  cases i with
  | gbase | gber | gsamp => cases hd
  | gexp => exact gexp_endsAs h
  | cmpr => exact cmpr_endsAs h
  | dcmp => exact dcmp_endsAs h
  | zdivn => exact endsAs_of_no_results h hd ⟨lenCheck _ _, _, rfl, divide fun _ => rfl⟩ rfl
  | zdiv => exact endsAs_of_no_results h hd ⟨lenCheck _ _, _, rfl, divide fun _ => rfl⟩ rfl
  | nop => exact endsAs_of_no_results h hd ⟨none, .ok _, rfl, fun e he => by cases he; rfl⟩ rfl
  | fsplit rd re | zsplit rd re | fsplitt rd re | zsplitt rd re =>
    exact endsAs_of_no_results h hd ⟨(lenCheck _ _).or (splitCheck rd re), .ok _, rfl, fun e he => by cases he; rfl⟩ rfl
  | _ => exact endsAs_of_no_results h hd ⟨lenCheck _ _, .ok _, rfl, fun e he => by cases he; rfl⟩ rfl

/-- No command moves the counter of resets, on which the free contents of RAM depend. -/
theorem exec_resets {i : Instr} {s t : State} (h : exec i s = .next t) : t.resets = s.resets := by
  rcases exec_cases h with ⟨_, -, rfl⟩ | ⟨_, -, rfl⟩ | ⟨_, -, -, rfl⟩ | ⟨_, _, _, _, -, -, rfl⟩ <;> rfl

/-- Settles O10, from what memory a command leaves, and from the ends of the two frames. -/
theorem commandFailsSucceedsOrWaits : Obligations.CommandFailsSucceedsOrWaits := by
  unfold Obligations.CommandFailsSucceedsOrWaits
  intro i s t h
  refine ⟨fun a ha => (exec_leaves h).byteAt (exec_resets h) ha, ?_⟩
  rcases exec_cases h with ⟨c, hc, rfl⟩ | ⟨e, hd, rfl⟩ | ⟨draw, hd, hnone, rfl⟩ | ⟨draw, r0, r1, rest, hd, hsome, rfl⟩
  · exact .inl ⟨c, hc, rfl⟩
  · exact (exec_endsAs hd h).imp_right fun hs => .inl ⟨hd, hs⟩
  · exact .inr (.inr ⟨draw, hd, .inr ⟨hnone, rfl⟩⟩)
  · obtain ⟨n, hn, htake⟩ := commandDraw_takes hd hsome
    have hle := htake.le
    have hrest : rest.length = s.supply.length - n := by rw [htake.rest_eq, List.length_drop]
    have hdrawn : s.supply.length - rest.length = n := by omega
    exact .inr (.inr ⟨draw, hd, .inl ⟨r0, r1, rest, hsome, by omega, hdrawn ▸ hn, rfl⟩⟩)

end Sys2Proof.Machine
end

section
/-! SUPPORT. The check phase of each command, as the model's checks and as rule R263's list; and what a command can fail with
behind it (rules R86, R263). -/

namespace Sys2Proof.Machine

/-! ## The check phase of a command -/

/-- The checks that a command's frame makes before it executes (rules R84, R86, R210 to R212). -/
def checkOf (p : Snapshot) : Instr → Option ErrCode
  | .nop | .gbase => none
  | .gexp => domainCheck (gexpDomain p)
  | .gber => domainCheck (gberDomain p)
  | .gsamp => domainCheck (gsampDomain p)
  | .fsplit rd re _ n | .zsplit rd re _ n => (lenCheck .S n).or (splitCheck rd re)
  | .fsplitt rd re _ n | .zsplitt rd re _ n => (lenCheck .T n).or (splitCheck rd re)
  | .fmerge _ _ _ n | .zmerge _ _ _ n => lenCheck .M n
  | .fft _ _ n | .ifft _ _ n | .fadj _ _ n | .ntt _ _ n | .intt _ _ n => lenCheck .T n
  | .fmerget _ _ _ n | .zmerget _ _ _ n | .fmul _ _ _ n | .fdiv _ _ _ n | .zmul _ _ _ n | .zdiv _ _ _ n => lenCheck .T n
  | .fadd _ _ _ n | .fsub _ _ _ n | .fmulf _ _ _ n | .fdivf _ _ _ n | .fadjf _ _ n => lenCheck .P n
  | .zadd _ _ _ n | .zsub _ _ _ n | .zmuln _ _ _ n | .zdivn _ _ _ n => lenCheck .P n
  | .cmpr _ n => (lenCheck .C n).or (byteCountCheck p.budget)
  | .dcmp _ n => (lenCheck .C n).or ((byteCountCheck p.budget).or (byteCountCheck p.inlen))

/-- A check that refuses decides how the command ends. -/
theorem exec_of_check {i : Instr} {s : State} {c : ErrCode} (h : checkOf s.snap i = some c) :
    exec i s = .next (s.raiseError c) := by
  cases i with
  | nop | gbase => cases h
  | gber | gsamp => exact runDrawing_check _ s h
  | zdivn | zdiv | cmpr | dcmp => exact runCommand_check _ s h
  | _ => exact runCommand_check (.ok _) s h

/-- The four errors of the execution (rule R263). -/
def ErrCode.OfExecution (c : ErrCode) : Prop := c = .noInverse ∨ c = .budgetExceeded ∨ c = .truncated ∨ c = .malformed

/-- A command that no check refuses raises only errors of its execution. -/
theorem ofExecution_of_runCommand {check : Option ErrCode} {body : Except ErrCode Effect} {s t : State} {c : ErrCode}
    (hc : check = none) (hb : ∀ c, body = .error c → c.OfExecution) (hs : s.status.err = false)
    (h : runCommand check body s = .next t) (hf : s.FailsWith c t) : c.OfExecution := by
  have herr : t.status.err = true := by rw [hf]
  have hcode : t.status.errCode = c := by rw [hf]
  rcases runCommand_cases h with ⟨c', hc' | ⟨-, hb'⟩, rfl⟩ | ⟨e, -, -, rfl⟩
  · rw [hc] at hc'; cases hc'
  · exact hcode ▸ hb c' hb'
  · exact absurd (herr.symm.trans hs) nofun

theorem ofExecution_of_exec {i : Instr} {s t : State} {c : ErrCode} (hc : checkOf s.snap i = none)
    (hs : s.status.err = false) (h : exec i s = .next t) (hf : s.FailsWith c t) : c.OfExecution := by
  have drawing {draw : Draw} (h : runDrawing (checkOf s.snap i) draw s = .next t) : c.OfExecution := by
    have herr : t.status.err = true := by rw [hf]
    rcases runDrawing_cases h with ⟨_, hc', rfl⟩ | ⟨-, -, rfl⟩ | ⟨_, _, _, -, -, rfl⟩
    · rw [hc] at hc'; cases hc'
    all_goals exact absurd (herr.symm.trans hs) nofun
  have divides {a b : List Nat} {g : List Nat → Effect} (c : ErrCode) (he : (divideq a b).map g = .error c) :
      c.OfExecution := .inl (divideq_error (map_error he))
  cases i with
  | gbase | gber | gsamp => exact drawing h
  | zdivn | zdiv => exact ofExecution_of_runCommand hc divides hs h hf
  | cmpr => exact ofExecution_of_runCommand hc (fun c he => .inr (.inl (compress_error he))) hs h hf
  | dcmp => exact ofExecution_of_runCommand hc (fun c he => .inr (decompress_error he)) hs h hf
  | nop => exact ofExecution_of_runCommand (check := none) (body := .ok _) hc nofun hs h hf
  | _ => exact ofExecution_of_runCommand (body := .ok _) hc nofun hs h hf

/-! ## Rule R263's list -/

theorem ite_some_or {q : Prop} [Decidable q] (c : ErrCode) (check : Option ErrCode) :
    (if q then some c else none).or check = if q then some c else check := by
  split <;> rfl

theorem ite_none_or {q : Prop} [Decidable q] (c : ErrCode) (check : Option ErrCode) :
    (if q then none else some c).or check = if q then check else some c := by
  split <;> rfl

theorem lenCheck_eq_ite {c : LenClass} {n : Nat} {q : Prop} [Decidable q] (h : c.legal n = true ↔ q) :
    lenCheck c n = if ¬q then some .badLen else none := by
  simp only [lenCheck, h, ite_not]

theorem domainCheck_eq_ite (ok : Bool) : domainCheck ok = if ok = false then some .domain else none := by
  cases ok <;> rfl

theorem domainFails_iff (op : Nat) (p : Snapshot) : domainFails op p ↔
    (op = 0x29 ∧ gexpDomain p = false) ∨ (op = 0x2A ∧ gberDomain p = false) ∨ (op = 0x2B ∧ gsampDomain p = false) := by
  simp only [domainFails, ← gexpDomain_iff, ← gberDomain_iff, ← gsampDomain_iff, Bool.not_eq_true]

theorem byteCountCheck_eq_ite (n : BitVec 12) :
    byteCountCheck n = if 2048 < n.toNat then some .badOperand else none := by
  simp only [byteCountCheck, show Config.byteBufSize = 2048 from rfl, ← not_lt, ite_not]

theorem splitCheck_fields (w : Word) : splitCheck (fieldRd w) (fieldRe w) =
    if w.extractLsb' 6 2 = w.extractLsb' 12 2 then some .badOperand else none := by
  simp only [splitCheck, fieldRd, fieldRe, fieldBank_eq_iff]

/-- For a word that names a command, rule R263's list is the checks of the command. -/
theorem checkPhase_eq {w : Word} {i : Instr} (p : Snapshot) (h : decode w = .ok i) : checkPhase w p = checkOf p i := by
  obtain ⟨hr, hd⟩ := decode_eq_ok.1 h
  obtain ⟨h14, h27⟩ := (reservedClear_iff w).1 hr
  have hres : fieldOp w ∉ reservedOps := fun hmem => by
    rw [(decodeOp_eq_none_iff w).2 hmem] at hd
    cases hd
  unfold checkPhase
  simp only [← fieldOp_eq, ← fieldLen_eq, h14, h27, hres, ne_eq, not_true_eq_false, or_self, if_false]
  unfold decodeOp at hd
  split at hd
  case h_34 => cases hd
  all_goals
    rename_i ho
    cases hd
    simp [ho, lenLegal, domainFails_iff, checkOf, splitCheck_fields, byteCountCheck_eq_ite, ite_some_or, ite_none_or,
      domainCheck_eq_ite, lenCheck_eq_ite (LenClass.legal_T_iff _), lenCheck_eq_ite (LenClass.legal_P_iff _),
      lenCheck_eq_ite (LenClass.legal_S_iff _), lenCheck_eq_ite (LenClass.legal_M_iff _),
      lenCheck_eq_ite (LenClass.legal_C_iff _)]

/-- The list refuses a word that names no command first (rules R85, R88). -/
theorem checkPhase_of_no_command {w : Word} (p : Snapshot) (h : ¬∃ i, decode w = .ok i) :
    checkPhase w p = some .illegalOp := by
  rw [exists_decode_eq_ok_iff] at h
  unfold checkPhase
  simp only
  split_ifs with hbits hop
  · rfl
  · rfl
  · exact absurd ⟨by_contra fun hn => hbits (.inl hn), by_contra fun hn => hbits (.inr hn), hop⟩ h
  all_goals exact absurd ⟨by_contra fun hn => hbits (.inl hn), by_contra fun hn => hbits (.inr hn), hop⟩ h

/-- Settles O11: a word that names no command is ILLEGAL_OP, and for one that does rule R263's list is its command's
checks. -/
theorem checksComeInOrder : Obligations.ChecksComeInOrder := by
  unfold Obligations.ChecksComeInOrder
  intro s rest hr hb herr hin
  rw [step_engine hin]
  by_cases hcmd : ∃ i, decode s.cmd = .ok i
  case neg =>
    have hill : checkPhase s.cmd s.snap = some .illegalOp := checkPhase_of_no_command _ hcmd
    rw [State.engineTurn_of_no_command (s := { s with inputs := rest }) hr hb hcmd, hill]
    exact ⟨fun c hc => ⟨_, rfl, by cases hc; rfl⟩, nofun⟩
  case pos =>
    obtain ⟨i, hi⟩ := hcmd
    rw [State.engineTurn_of_decode (s := { s with inputs := rest }) hr hb hi, checkPhase_eq _ hi]
    refine ⟨fun c hc => ⟨_, exec_of_check (s := { s with inputs := rest }) hc, rfl⟩, fun hc => ?_⟩
    obtain ⟨t, ht⟩ := exists_exec i { s with inputs := rest }
    exact ⟨i, t, hi, ht, fun c => ofExecution_of_exec (s := { s with inputs := rest }) hc herr ht⟩

end Sys2Proof.Machine
end

section
/-! SUPPORT. A binary64 pattern and its fields, the magnitudes that patterns hold, and the one rounding as the nearest of them
(rules R11, R121). -/

namespace Sys2Proof.Machine

/-! ## Fields -/

/-- The pattern with a sign and 63 low bits (rule R11). -/
def b64Pack (neg : Bool) (p : Nat) : B64 := BitVec.ofNat 64 (p + b64SignBit neg)

theorem b64Exp_eq_extract (v : B64) : b64Exp v = (v.extractLsb' 52 11).toNat := by
  simp [b64Exp, BitVec.extractLsb'_toNat, Nat.shiftRight_eq_div_pow]

theorem b64Frac_eq_extract (v : B64) : b64Frac v = (v.extractLsb' 0 52).toNat := by
  simp [b64Frac, BitVec.extractLsb'_toNat]

theorem b64Exp_lt (v : B64) : b64Exp v < 2048 := Nat.mod_lt _ (by decide)

theorem b64Frac_lt (v : B64) : b64Frac v < 2 ^ 52 := Nat.mod_lt _ (by decide)

theorem b64Sign_eq_decide (v : B64) : b64Sign v = decide (2 ^ 63 ≤ v.toNat) := BitVec.msb_eq_decide v

/-- A pattern is its sign, its exponent field and its fraction. -/
theorem eq_b64Pack (v : B64) : v = b64Pack (b64Sign v) (b64Exp v * 2 ^ 52 + b64Frac v) := by
  apply BitVec.eq_of_toNat_eq
  have := v.isLt
  rw [b64Pack, BitVec.toNat_ofNat, b64Sign_eq_decide, b64Exp, b64Frac, b64SignBit]
  simp only [decide_eq_true_eq]
  split <;> omega

section
variable {neg : Bool} {p : Nat} (hp : p < 2 ^ 63)
include hp

theorem toNat_b64Pack : (b64Pack neg p).toNat = p + b64SignBit neg := by
  rw [b64Pack, BitVec.toNat_ofNat, b64SignBit]
  split <;> omega

theorem b64Sign_b64Pack : b64Sign (b64Pack neg p) = neg := by
  rw [b64Sign_eq_decide, toNat_b64Pack hp, b64SignBit]
  cases neg <;> simp only [Bool.false_eq_true, if_false, if_true, decide_eq_true_eq, decide_eq_false_iff_not] <;> omega

theorem b64Exp_b64Pack : b64Exp (b64Pack neg p) = p / 2 ^ 52 := by
  rw [b64Exp, toNat_b64Pack hp, b64SignBit]
  split <;> omega

theorem b64Frac_b64Pack : b64Frac (b64Pack neg p) = p % 2 ^ 52 := by
  rw [b64Frac, toNat_b64Pack hp, b64SignBit]
  split <;> omega

end

/-! ## Changing the sign -/

theorem b64Sign_b64Neg (v : B64) : b64Sign (b64Neg v) = !b64Sign v := by
  rw [b64Sign, b64Neg, BitVec.msb_xor, b64Sign, show (0x8000000000000000 : B64).msb = true by decide, Bool.xor_true]

theorem b64Exp_b64Neg (v : B64) : b64Exp (b64Neg v) = b64Exp v := by
  rw [b64Exp_eq_extract, b64Neg, BitVec.extractLsb'_xor,
    show (0x8000000000000000 : B64).extractLsb' 52 11 = 0#11 by decide, BitVec.xor_zero, b64Exp_eq_extract]

theorem b64Frac_b64Neg (v : B64) : b64Frac (b64Neg v) = b64Frac v := by
  rw [b64Frac_eq_extract, b64Neg, BitVec.extractLsb'_xor,
    show (0x8000000000000000 : B64).extractLsb' 0 52 = 0#52 by decide, BitVec.xor_zero, b64Frac_eq_extract]

theorem b64Mag_b64Neg (v : B64) : b64Mag (b64Neg v) = b64Mag v := by
  rw [b64Mag, b64Mag, b64Exp_b64Neg, b64Frac_b64Neg]

theorem b64Val_b64Neg (v : B64) : b64Val (b64Neg v) = -b64Val v := by
  rw [b64Val, b64Val, b64Sign_b64Neg, b64Mag_b64Neg]
  cases b64Sign v <;> simp

theorem b64IsNaN_b64Neg (v : B64) : b64IsNaN (b64Neg v) = b64IsNaN v := by
  rw [b64IsNaN, b64IsNaN, b64Exp_b64Neg, b64Frac_b64Neg]

theorem b64IsInf_b64Neg (v : B64) : b64IsInf (b64Neg v) = b64IsInf v := by
  rw [b64IsInf, b64IsInf, b64Exp_b64Neg, b64Frac_b64Neg]

theorem b64IsFinite_b64Neg (v : B64) : b64IsFinite (b64Neg v) = b64IsFinite v := by
  rw [b64IsFinite, b64IsFinite, b64Exp_b64Neg]

/-! ## Magnitudes -/

/-- A significand of at most 53 bits and how often it is doubled, as the pattern holds them: the exponent field takes the
leading bit of the significand, a carry out of it included. -/
theorem b64Mag_b64Pack {neg : Bool} {e r : Nat} (hp : e * 2 ^ 52 + r < 2 ^ 63) (hr : r ≤ 2 ^ 53)
    (he : e = 0 ∨ 2 ^ 52 ≤ r) : b64Mag (b64Pack neg (e * 2 ^ 52 + r)) = r * 2 ^ e := by
  rw [b64Mag, b64Exp_b64Pack hp, b64Frac_b64Pack hp]
  have hcarry : r < 2 ^ 52 ∨ (2 ^ 52 ≤ r ∧ r < 2 ^ 53) ∨ r = 2 ^ 53 := by omega
  rcases hcarry with h | ⟨h1, h2⟩ | rfl
  · obtain rfl : e = 0 := by omega
    rw [if_pos (by omega)]
    omega
  · have hd : (e * 2 ^ 52 + r) / 2 ^ 52 = e + 1 := by omega
    rw [hd, if_neg (by omega), Nat.add_sub_cancel, show 2 ^ 52 + (e * 2 ^ 52 + r) % 2 ^ 52 = r by omega]
  · have hd : (e * 2 ^ 52 + 2 ^ 53) / 2 ^ 52 = e + 2 := by omega
    have hm : (e * 2 ^ 52 + 2 ^ 53) % 2 ^ 52 = 0 := by omega
    rw [hd, hm, if_neg (by omega), show e + 2 - 1 = 1 + e by omega, Nat.pow_add]
    ring

/-- What a finite pattern holds is a multiple of every power of two whose 2^52-fold it reaches. -/
theorem dvd_b64Mag {v : B64} {e : Nat} (h : 2 ^ 52 * 2 ^ e ≤ b64Mag v) : 2 ^ e ∣ b64Mag v := by
  have hf := b64Frac_lt v
  unfold b64Mag at h ⊢
  split_ifs at h ⊢ with hx
  · have : 1 ≤ 2 ^ e := Nat.one_le_two_pow
    omega
  · refine Dvd.dvd.mul_left (pow_dvd_pow 2 ?_) _
    by_contra hlt
    have h1 : 2 ^ (b64Exp v - 1 + 1) ≤ 2 ^ e := Nat.pow_le_pow_right (by decide) (by omega)
    rw [Nat.pow_succ] at h1
    have h2 : (2 ^ 52 + b64Frac v) * 2 ^ (b64Exp v - 1) < 2 ^ 53 * 2 ^ (b64Exp v - 1) :=
      Nat.mul_lt_mul_of_pos_right (by omega) (by positivity)
    omega

/-! ## Rounding to an integer -/

/-- The rounded quotient is at most half a divisor away, and even where it is half a divisor away. -/
theorem roundNearestEven_spec (n : Nat) {d : Nat} (hd : 0 < d) :
    2 * ((roundNearestEven n d : Int) * d - n).natAbs ≤ d ∧
    (2 * ((roundNearestEven n d : Int) * d - n).natAbs = d → roundNearestEven n d % 2 = 0) := by
  have hn := Nat.div_add_mod' n d
  have hr := Nat.mod_lt n hd
  unfold roundNearestEven
  simp only
  generalize n / d = q at *
  generalize n % d = r at *
  subst hn
  split_ifs with h1 h2
  · push_cast
    omega
  · push_cast
    have : ((q : Int) + 1) * d = q * d + d := by ring
    omega
  · rcases Nat.mod_two_eq_zero_or_one q with hq | hq <;> rw [hq]
    · rw [Nat.add_zero]
      omega
    · push_cast
      have : ((q : Int) + 1) * d = q * d + d := by ring
      omega

/-! ## The one rounding -/

/-- How many binary places of a quotient the rounding drops. -/
def roundExp (n d : Nat) : Nat := Nat.log2 (n / d) - 52

/-- The significand that the rounding keeps. -/
def roundSig (n d : Nat) : Nat := roundNearestEven n (d * 2 ^ roundExp n d)

theorem b64Round_eq (neg : Bool) (n d : Nat) :
    b64Round neg n d = b64Pack neg (min (roundExp n d * 2 ^ 52 + roundSig n d) (2047 * 2 ^ 52)) := rfl

section
variable {n d : Nat} (hd : 0 < d)
include hd

/-- The places dropped leave 53 bits of the quotient, or fewer where none is dropped. -/
theorem roundExp_spec : n < 2 ^ 53 * (d * 2 ^ roundExp n d) ∧
    (roundExp n d = 0 ∨ 2 ^ 52 * (d * 2 ^ roundExp n d) ≤ n) := by
  have hlt : n / d < 2 ^ (Nat.log2 (n / d) + 1) := Nat.lt_log2_self
  constructor
  · have h : n / d < 2 ^ 53 * 2 ^ roundExp n d := by
      rw [← Nat.pow_add]
      exact hlt.trans_le (Nat.pow_le_pow_right (by decide) (by unfold roundExp; omega))
    calc n < 2 ^ 53 * 2 ^ roundExp n d * d := (Nat.div_lt_iff_lt_mul hd).1 h
      _ = 2 ^ 53 * (d * 2 ^ roundExp n d) := by ring
  · by_cases h0 : roundExp n d = 0
    · exact .inl h0
    · have hlog : Nat.log2 (n / d) = 52 + roundExp n d := by unfold roundExp at h0 ⊢; omega
      have hq : n / d ≠ 0 := fun hz => by rw [hz, Nat.log2_zero] at hlog; omega
      have hle : 2 ^ (52 + roundExp n d) ≤ n / d := hlog ▸ Nat.log2_self_le hq
      right
      calc 2 ^ 52 * (d * 2 ^ roundExp n d) = 2 ^ (52 + roundExp n d) * d := by rw [Nat.pow_add]; ring
        _ ≤ n := (Nat.le_div_iff_mul_le hd).1 hle

theorem roundSig_spec :
    2 * ((roundSig n d : Int) * (d * 2 ^ roundExp n d : Nat) - n).natAbs ≤ d * 2 ^ roundExp n d ∧
    (2 * ((roundSig n d : Int) * (d * 2 ^ roundExp n d : Nat) - n).natAbs = d * 2 ^ roundExp n d →
      roundSig n d % 2 = 0) :=
  roundNearestEven_spec n (Nat.mul_pos hd (Nat.two_pow_pos _))

/-- The significand has 53 bits, or one more after a carry, or fewer where no place is dropped. -/
theorem roundSig_bounds : roundSig n d ≤ 2 ^ 53 ∧ (roundExp n d = 0 ∨ 2 ^ 52 ≤ roundSig n d) := by
  obtain ⟨hlt, hge⟩ := roundExp_spec (n := n) hd
  obtain ⟨hnear, -⟩ := roundSig_spec (n := n) hd
  have hD : 0 < d * 2 ^ roundExp n d := Nat.mul_pos hd (Nat.two_pow_pos _)
  generalize d * 2 ^ roundExp n d = D at *
  generalize roundSig n d = r at *
  constructor
  · by_contra hr
    have : (2 ^ 53 + 1) * D ≤ r * D := Nat.mul_le_mul_right D (by omega)
    have hcast : ((r * D : Nat) : Int) = (r : Int) * D := Nat.cast_mul r D
    omega
  · refine hge.imp_right fun hge => ?_
    by_contra hr
    have : (r + 1) * D ≤ 2 ^ 52 * D := Nat.mul_le_mul_right D (by omega)
    have hcast : ((r * D : Nat) : Int) = (r : Int) * D := Nat.cast_mul r D
    rw [Nat.add_mul] at this
    omega

/-- A multiple of the last place kept is no nearer than the rounded quotient, and as near only if it is the same or the
rounded quotient is even. -/
theorem roundSig_nearest_multiple (k : Int) :
    ((roundSig n d : Int) * (d * 2 ^ roundExp n d : Nat) - n).natAbs ≤ (k * (d * 2 ^ roundExp n d : Nat) - n).natAbs ∧
    (((roundSig n d : Int) * (d * 2 ^ roundExp n d : Nat) - n).natAbs = (k * (d * 2 ^ roundExp n d : Nat) - n).natAbs →
      k = roundSig n d ∨ roundSig n d % 2 = 0) := by
  obtain ⟨hnear, heven⟩ := roundSig_spec (n := n) hd
  generalize d * 2 ^ roundExp n d = D at *
  generalize roundSig n d = R at *
  rcases eq_or_ne k R with rfl | hne
  · exact ⟨le_rfl, fun _ => .inl rfl⟩
  · have hgap : D ≤ (k * D - R * D).natAbs := by
      rw [← Int.sub_mul, Int.natAbs_mul, Int.natAbs_natCast]
      exact Nat.le_mul_of_pos_left D (by omega)
    exact ⟨by omega, fun heq => .inr (heven (by omega))⟩

/-- Of all multiples of the last place kept, and of all numbers below the leading place, the rounded quotient is the
nearest, and it is even where another is as near. -/
theorem roundSig_nearest {c : Int} (hc : (2 ^ roundExp n d : Int) ∣ c ∨ c < 2 ^ 52 * 2 ^ roundExp n d) :
    ((roundSig n d * 2 ^ roundExp n d : Nat) * (d : Int) - n).natAbs ≤ (c * d - n).natAbs ∧
    (((roundSig n d * 2 ^ roundExp n d : Nat) * (d : Int) - n).natAbs = (c * d - n).natAbs →
      c = (roundSig n d * 2 ^ roundExp n d : Nat) ∨ roundSig n d % 2 = 0) := by
  have hR : ((roundSig n d * 2 ^ roundExp n d : Nat) * (d : Int)) = (roundSig n d : Int) * (d * 2 ^ roundExp n d : Nat) := by
    push_cast
    ring
  rw [hR]
  by_cases hdvd : (2 ^ roundExp n d : Int) ∣ c
  · obtain ⟨k, rfl⟩ := hdvd
    obtain ⟨hle, htie⟩ := roundSig_nearest_multiple (n := n) hd k
    rw [show (2 ^ roundExp n d * k : Int) * d = k * (d * 2 ^ roundExp n d : Nat) by push_cast; ring]
    refine ⟨hle, fun heq => (htie heq).imp_left fun hk => ?_⟩
    rw [hk]
    push_cast
    ring
  · have hlt := hc.resolve_left hdvd
    obtain ⟨-, h0 | hge⟩ := roundExp_spec (n := n) hd
    · exact absurd (by rw [h0]; exact one_dvd c) hdvd
    · obtain ⟨hle, -⟩ := roundSig_nearest_multiple (n := n) hd (2 ^ 52)
      have hcd : c * d < 2 ^ 52 * (d * 2 ^ roundExp n d : Nat) := by
        calc c * d < 2 ^ 52 * 2 ^ roundExp n d * d := Int.mul_lt_mul_of_pos_right hlt (by omega)
          _ = 2 ^ 52 * (d * 2 ^ roundExp n d : Nat) := by push_cast; ring
      exact ⟨by omega, fun heq => by omega⟩

/-- The pattern overflows exactly from half a unit in the last place above the largest finite value on (rule R121). -/
theorem roundSig_overflow_iff (M : Nat) :
    roundExp n d * 2 ^ 52 + roundSig n d < (M + 3) * 2 ^ 52 ↔ n < (2 ^ 54 - 1) * 2 ^ M * d := by
  obtain ⟨hlt, hge⟩ := roundExp_spec (n := n) hd
  obtain ⟨hnear, heven⟩ := roundSig_spec (n := n) hd
  obtain ⟨hR, hR'⟩ := roundSig_bounds (n := n) hd
  rw [Nat.mul_assoc, Nat.mul_comm (2 ^ M) d]
  have hX : 0 < d * 2 ^ M := Nat.mul_pos hd (Nat.two_pow_pos M)
  rcases lt_trichotomy (roundExp n d) (M + 1) with h | h | h
  · have : d * 2 ^ roundExp n d ≤ d * 2 ^ M := Nat.mul_le_mul_left d (Nat.pow_le_pow_right (by decide) (by omega))
    omega
  · have hD : d * 2 ^ roundExp n d = d * 2 ^ M * 2 := by rw [h, Nat.pow_succ, Nat.mul_assoc]
    rw [hD] at hlt hge hnear heven
    rw [h] at hR' ⊢
    generalize d * 2 ^ M = X at *
    generalize roundSig n d = R at *
    constructor
    · intro hlt
      have hmul : R * (X * 2) ≤ (2 ^ 53 - 1) * (X * 2) := Nat.mul_le_mul_right _ (by omega)
      have hcast : ((R * (X * 2) : Nat) : Int) = (R : Int) * (X * 2 : Nat) := Nat.cast_mul _ _
      rcases Nat.eq_or_lt_of_le (show R ≤ 2 ^ 53 - 1 by omega) with rfl | hlt'
      · omega
      · have hmul : (R + 1) * (X * 2) ≤ (2 ^ 53 - 1) * (X * 2) := Nat.mul_le_mul_right _ (by omega)
        rw [Nat.add_mul] at hmul
        omega
    · intro hlt
      by_contra hge
      obtain rfl : R = 2 ^ 53 := by omega
      omega
  · have : d * 2 ^ (M + 2) ≤ d * 2 ^ roundExp n d := Nat.mul_le_mul_left d (Nat.pow_le_pow_right (by decide) (by omega))
    rw [Nat.pow_add, ← Nat.mul_assoc] at this
    omega

end

/-! ## The pattern the rounding gives -/

/-- A value by its sign and its magnitude. -/
def withSign (neg : Bool) (m : Nat) : Int := if neg then -(m : Int) else m

theorem b64Val_eq_withSign (v : B64) : b64Val v = withSign (b64Sign v) (b64Mag v) := rfl

theorem natAbs_withSign (neg : Bool) (m : Nat) : (withSign neg m).natAbs = m := by
  cases neg <;> simp [withSign]

theorem withSign_mul_withSign (s t : Bool) (m k : Nat) : withSign s m * withSign t k = withSign (s != t) (m * k) := by
  cases s <;> cases t <;> simp [withSign]

section
variable (neg : Bool) (n d : Nat)

theorem b64Sign_b64Round : b64Sign (b64Round neg n d) = neg := by
  rw [b64Round_eq]
  exact b64Sign_b64Pack (by omega)

/-- No rounding gives a NaN. -/
theorem b64IsNaN_b64Round : b64IsNaN (b64Round neg n d) = false := by
  rw [b64Round_eq, b64IsNaN, b64Exp_b64Pack (by omega), b64Frac_b64Pack (by omega)]
  simp only [Bool.and_eq_false_iff, beq_eq_false_iff_ne, bne_eq_false_iff_eq]
  omega

theorem b64Round_zero : b64Round neg 0 d = b64SignedZero neg := by
  rw [b64Round, b64SignedZero, Nat.zero_div, Nat.log2_zero]
  simp [roundNearestEven]

variable {neg n d} {M : Nat} (hM : M = 2044)
include hM

/-- Below the bound of rule R121 the rounding is finite. -/
theorem b64Round_of_lt (hd : 0 < d) (h : n < (2 ^ 54 - 1) * 2 ^ M * d) :
    b64IsFinite (b64Round neg n d) = true ∧
    b64Val (b64Round neg n d) = withSign neg (roundSig n d * 2 ^ roundExp n d) ∧
    b64Frac (b64Round neg n d) % 2 = roundSig n d % 2 := by
  have hp := (roundSig_overflow_iff hd M).2 h
  obtain ⟨hle, hge⟩ := roundSig_bounds (n := n) hd
  have hsign := b64Sign_b64Round neg n d
  rw [b64Round_eq, Nat.min_eq_left (by omega)] at hsign ⊢
  refine ⟨?_, ?_, ?_⟩
  · rw [b64IsFinite, b64Exp_b64Pack (by omega), bne_iff_ne]
    omega
  · rw [b64Val_eq_withSign, hsign, b64Mag_b64Pack (by omega) hle hge]
  · rw [b64Frac_b64Pack (by omega)]
    omega

/-- From the bound of rule R121 on the rounding is infinite. -/
theorem b64Round_of_not_lt (hd : 0 < d) (h : ¬ n < (2 ^ 54 - 1) * 2 ^ M * d) :
    b64Round neg n d = b64SignedInf neg := by
  have hp := mt (roundSig_overflow_iff hd M).1 h
  rw [b64Round_eq, Nat.min_eq_right (by omega)]
  rfl

end

theorem b64IsInf_b64SignedInf (neg : Bool) : b64IsInf (b64SignedInf neg) = true := by
  cases neg <;> decide

/-- The distance of two values under one sign. -/
theorem natAbs_withSign_mul_sub (neg : Bool) (v : Int) (n d : Nat) :
    (v * d - withSign neg n).natAbs = ((if neg then -v else v) * d - n).natAbs := by
  cases neg
  · rfl
  · rw [withSign, if_pos rfl, if_pos rfl, Int.neg_mul, ← Int.natAbs_neg]
    congr 1
    omega

/-- `NearestB64` with the exponent of the bound of rule R121 as a parameter: proofs then do not compute its two thousand
bits. -/
def NearestBelow (M : Nat) (num : Int) (den : Nat) (v : B64) : Prop :=
  if num.natAbs < (2 ^ 54 - 1) * 2 ^ M * den then
    b64IsFinite v = true ∧
    ∀ c, b64IsFinite c = true →
      (b64Val v * den - num).natAbs ≤ (b64Val c * den - num).natAbs ∧
      ((b64Val v * den - num).natAbs = (b64Val c * den - num).natAbs → b64Val c = b64Val v ∨ b64Frac v % 2 = 0)
  else b64IsInf v = true

theorem nearestB64_eq_nearestBelow : NearestB64 = NearestBelow 2044 := rfl

section
variable {M : Nat} (hM : M = 2044)
include hM

/-- The one rounding gives the nearest binary64 (rule R121). -/
theorem nearestBelow_b64Round (neg : Bool) (n : Nat) {d : Nat} (hd : 0 < d) :
    NearestBelow M (withSign neg n) d (b64Round neg n d) := by
  rw [NearestBelow, natAbs_withSign]
  by_cases h : n < (2 ^ 54 - 1) * 2 ^ M * d
  · rw [if_pos h]
    obtain ⟨hfin, hval, hfrac⟩ := b64Round_of_lt (neg := neg) hM hd h
    refine ⟨hfin, fun c _ => ?_⟩
    have hc : (2 ^ roundExp n d : Int) ∣ (if neg then -b64Val c else b64Val c) ∨
        (if neg then -b64Val c else b64Val c) < 2 ^ 52 * 2 ^ roundExp n d := by
      rcases lt_or_ge (b64Mag c) (2 ^ 52 * 2 ^ roundExp n d) with hlt | hge
      · right
        zify at hlt
        have := natAbs_b64Val c
        split <;> omega
      · left
        have := Int.natCast_dvd_natCast.2 (dvd_b64Mag hge)
        push_cast at this
        rw [← natAbs_b64Val, Int.dvd_natAbs] at this
        split
        · exact (dvd_neg).2 this
        · exact this
    obtain ⟨hle, htie⟩ := roundSig_nearest (n := n) hd hc
    rw [natAbs_withSign_mul_sub, natAbs_withSign_mul_sub, hval, hfrac]
    have hself : (if neg then -withSign neg (roundSig n d * 2 ^ roundExp n d) else
        withSign neg (roundSig n d * 2 ^ roundExp n d)) = (roundSig n d * 2 ^ roundExp n d : Nat) := by
      cases neg <;> simp [withSign]
    rw [hself]
    refine ⟨hle, fun heq => (htie heq).imp_left fun hceq => ?_⟩
    rw [withSign, ← hceq]
    cases neg <;> simp
  · rw [if_neg h, b64Round_of_not_lt hM hd h]
    exact b64IsInf_b64SignedInf neg

end

/-! ## The operations on finite operands -/

theorem natCast_b64Unit : (b64Unit : Int) = 2 ^ 1074 := by
  rw [b64Unit, Nat.cast_pow, Nat.cast_ofNat]

theorem b64Unit_pos : 0 < b64Unit := by
  rw [b64Unit]
  positivity

theorem b64IsInf_of_isFinite {v : B64} (h : b64IsFinite v = true) : b64IsInf v = false := by
  rw [b64IsFinite, bne_iff_ne] at h
  simp [b64IsInf, h]

section
variable {a b : B64} (ha : b64IsFinite a = true) (hb : b64IsFinite b = true)
include ha hb

theorem b64Add_of_isFinite : b64Add a b =
    if b64Val a + b64Val b = 0 then b64SignedZero (b64Sign a && b64Sign b)
    else b64Round (decide (b64Val a + b64Val b < 0)) (b64Val a + b64Val b).natAbs 1 := by
  simp [b64Add, b64IsNaN_of_isFinite, b64IsInf_of_isFinite, ha, hb]

theorem b64Mul_of_isFinite :
    b64Mul a b = b64Round (b64Sign a != b64Sign b) (b64Mag a * b64Mag b) b64Unit := by
  simp [b64Mul, b64IsNaN_of_isFinite, b64IsInf_of_isFinite, ha, hb]

theorem b64Div_of_isFinite : b64Div a b =
    if b64Mag b = 0 then if b64Mag a = 0 then b64NaN else b64SignedInf (b64Sign a != b64Sign b)
    else b64Round (b64Sign a != b64Sign b) (b64Mag a * b64Unit) (b64Mag b) := by
  simp [b64Div, b64IsNaN_of_isFinite, b64IsInf_of_isFinite, ha, hb]

section
variable {M : Nat} (hM : M = 2044)
include hM

/-- The sum is the exact sum rounded once. -/
theorem nearestBelow_b64Add : NearestBelow M (b64Val a + b64Val b) 1 (b64Add a b) := by
  have hsum : withSign (decide (b64Val a + b64Val b < 0)) (b64Val a + b64Val b).natAbs = b64Val a + b64Val b := by
    unfold withSign
    simp only [decide_eq_true_eq]
    split <;> omega
  rw [b64Add_of_isFinite ha hb]
  by_cases h : b64Val a + b64Val b = 0
  · rw [if_pos h, h, ← b64Round_zero _ 1]
    have := nearestBelow_b64Round hM (b64Sign a && b64Sign b) 0 Nat.one_pos
    rwa [show withSign (b64Sign a && b64Sign b) 0 = 0 by unfold withSign; split <;> rfl] at this
  · rw [if_neg h]
    have := nearestBelow_b64Round hM (decide (b64Val a + b64Val b < 0)) (b64Val a + b64Val b).natAbs Nat.one_pos
    rwa [hsum] at this

omit hM in
theorem b64Sign_b64Add (h : b64Val a + b64Val b ≠ 0) :
    b64Sign (b64Add a b) = decide (b64Val a + b64Val b < 0) := by
  rw [b64Add_of_isFinite ha hb, if_neg h, b64Sign_b64Round]

theorem nearestBelow_b64Mul {U : Nat} (hU : b64Unit = U) : NearestBelow M (b64Val a * b64Val b) U (b64Mul a b) := by
  have hpos := b64Unit_pos
  rw [b64Mul_of_isFinite ha hb, b64Val_eq_withSign, b64Val_eq_withSign, withSign_mul_withSign]
  rw [hU] at hpos ⊢
  exact nearestBelow_b64Round hM _ _ hpos

theorem nearestBelow_b64Div {U : Nat} (hU : b64Unit = U) (h : b64Val b ≠ 0) :
    NearestBelow M (b64Val a * (U : Int) * (b64Val b).sign) (b64Val b).natAbs (b64Div a b) := by
  have hpos : 0 < b64Mag b := by
    rw [← natAbs_b64Val]
    omega
  have hsign : (b64Val b).sign = withSign (b64Sign b) 1 := by
    rw [b64Val_eq_withSign]
    cases b64Sign b
    · exact Int.sign_eq_one_of_pos (by simpa [withSign] using hpos)
    · exact Int.sign_eq_neg_one_of_neg (by simpa [withSign] using hpos)
  have hunit : (U : Int) = withSign false U := rfl
  rw [natAbs_b64Val, b64Div_of_isFinite ha hb, if_neg hpos.ne', hU, hsign, hunit, b64Val_eq_withSign, withSign_mul_withSign,
    withSign_mul_withSign, Bool.bne_false, Nat.mul_one]
  exact nearestBelow_b64Round hM _ _ hpos

end

end

/-- Settles O32: on finite operands every operation is the one rounding of the exact result, and the one rounding gives the
nearest binary64, because its significand is the nearest of the multiples of the last place kept. -/
theorem binaryOperationsRoundToNearestEven : Obligations.BinaryOperationsRoundToNearestEven := by
  unfold Obligations.BinaryOperationsRoundToNearestEven
  rw [nearestB64_eq_nearestBelow, ← b64Unit, ← natCast_b64Unit]
  generalize hM : 2044 = M
  replace hM := hM.symm
  generalize hU : b64Unit = U
  intro a b ha hb
  have hb' : b64IsFinite (b64Neg b) = true := by rw [b64IsFinite_b64Neg, hb]
  have hsub : b64Val a - b64Val b = b64Val a + b64Val (b64Neg b) := by rw [b64Val_b64Neg, Int.sub_eq_add_neg]
  refine ⟨nearestBelow_b64Add ha hb hM, b64Sign_b64Add ha hb, rfl, ?_, ?_, nearestBelow_b64Mul ha hb hM hU, ?_, fun h =>
    ⟨nearestBelow_b64Div ha hb hM hU h, ?_⟩⟩
  · rw [hsub]
    exact nearestBelow_b64Add ha hb' hM
  · rw [hsub]
    exact b64Sign_b64Add ha hb'
  · rw [b64Mul_of_isFinite ha hb, b64Sign_b64Round]
  · rw [← Int.natAbs_ne_zero, natAbs_b64Val] at h
    rw [b64Div_of_isFinite ha hb, if_neg h, b64Sign_b64Round]

end Sys2Proof.Machine
end

section
/-! SUPPORT. Operands that no rounding answers, conversions and comparisons of binary64 patterns (rules R10, R11, R121). -/

namespace Sys2Proof.Machine

/-! ## Infinities -/

theorem b64Exp_of_isInf {v : B64} (h : b64IsInf v = true) : b64Exp v = 2047 ∧ b64Frac v = 0 := by
  simpa [b64IsInf] using h

theorem b64IsNaN_of_isInf {v : B64} (h : b64IsInf v = true) : b64IsNaN v = false := by
  obtain ⟨he, hf⟩ := b64Exp_of_isInf h
  simp [b64IsNaN, he, hf]

theorem eq_b64SignedInf {v : B64} (h : b64IsInf v = true) : v = b64SignedInf (b64Sign v) := by
  obtain ⟨he, hf⟩ := b64Exp_of_isInf h
  have := eq_b64Pack v
  rwa [he, hf] at this

theorem b64Neg_b64SignedInf (neg : Bool) : b64Neg (b64SignedInf neg) = b64SignedInf (!neg) := by
  cases neg <;> decide

theorem b64Mag_ne_zero_of_isInf {v : B64} (h : b64IsInf v = true) : b64Mag v ≠ 0 := by
  rw [b64Mag, if_neg (by rw [(b64Exp_of_isInf h).1]; decide)]
  exact Nat.mul_ne_zero (by omega) (Nat.two_pow_pos _).ne'

/-- The infinity of a product or a quotient, by the signs of its operands. -/
theorem b64SignedInf_bne (s t : Bool) :
    b64SignedInf (s != t) = if s = t then 0x7FF0000000000000 else 0xFFF0000000000000 := by
  cases s <;> cases t <;> rfl

/-- The zero of a quotient, by the signs of its operands. -/
theorem b64SignedZero_bne (s t : Bool) : b64SignedZero (s != t) = if s = t then 0 else 0x8000000000000000 := by
  cases s <;> cases t <;> rfl

theorem b64SignedZero_and (s t : Bool) :
    b64SignedZero (s && t) = if s = true ∧ t = true then 0x8000000000000000 else 0 := by
  cases s <;> cases t <;> rfl

theorem b64IsNaN_b64SignedInf (neg : Bool) : b64IsNaN (b64SignedInf neg) = false := by
  cases neg <;> decide

theorem b64IsNaN_b64SignedZero (neg : Bool) : b64IsNaN (b64SignedZero neg) = false := by
  cases neg <;> decide

theorem b64Mag_eq_zero_iff {v : B64} : b64Mag v = 0 ↔ b64Val v = 0 := by
  rw [← natAbs_b64Val, Int.natAbs_eq_zero]

/-! ## Every NaN result is the canonical NaN -/

section
variable {a b : B64}

theorem b64Add_of_isNaN (h : b64IsNaN a = true ∨ b64IsNaN b = true) : b64Add a b = b64NaN := by
  simp [b64Add, h]

theorem b64Sub_of_isNaN (h : b64IsNaN a = true ∨ b64IsNaN b = true) : b64Sub a b = b64NaN :=
  b64Add_of_isNaN (by rwa [b64IsNaN_b64Neg])

theorem b64Mul_of_isNaN (h : b64IsNaN a = true ∨ b64IsNaN b = true) : b64Mul a b = b64NaN := by
  simp [b64Mul, h]

theorem b64Div_of_isNaN (h : b64IsNaN a = true ∨ b64IsNaN b = true) : b64Div a b = b64NaN := by
  simp [b64Div, h]

theorem b64Add_canonical (h : b64IsNaN (b64Add a b) = true) : b64Add a b = b64NaN := by
  unfold b64Add at h ⊢
  simp only at h ⊢
  split_ifs at h ⊢ <;> simp_all [b64IsNaN_b64Round, b64IsNaN_b64SignedZero]

theorem b64Mul_canonical (h : b64IsNaN (b64Mul a b) = true) : b64Mul a b = b64NaN := by
  unfold b64Mul at h ⊢
  simp only at h ⊢
  split_ifs at h ⊢ <;> simp_all [b64IsNaN_b64Round, b64IsNaN_b64SignedInf]

theorem b64Div_canonical (h : b64IsNaN (b64Div a b) = true) : b64Div a b = b64NaN := by
  unfold b64Div at h ⊢
  simp only at h ⊢
  split_ifs at h ⊢ <;> simp_all [b64IsNaN_b64Round, b64IsNaN_b64SignedInf, b64IsNaN_b64SignedZero]

end

/-! ## Infinite operands -/

section
variable {a b : B64} (ha : b64IsInf a = true)
include ha

section
variable (hb : b64IsInf b = true)
include hb

theorem b64Add_of_isInf_of_isInf : b64Add a b = if b64Sign a = b64Sign b then a else b64NaN := by
  simp only [b64Add, b64IsNaN_of_isInf, ha, hb]
  cases b64Sign a <;> cases b64Sign b <;> rfl

theorem b64Mul_of_isInf_of_isInf : b64Mul a b = b64SignedInf (b64Sign a != b64Sign b) := by
  simp [b64Mul, b64IsNaN_of_isInf, b64Mag_ne_zero_of_isInf, ha, hb]

theorem b64Div_of_isInf_of_isInf : b64Div a b = b64NaN := by
  simp [b64Div, b64IsNaN_of_isInf, ha, hb]

end

section
variable (hb : b64IsFinite b = true)
include hb

theorem b64Add_of_isInf_left : b64Add a b = a := by
  simp [b64Add, b64IsNaN_of_isInf, b64IsNaN_of_isFinite, b64IsInf_of_isFinite, ha, hb]

theorem b64Add_of_isInf_right : b64Add b a = a := by
  simp [b64Add, b64IsNaN_of_isInf, b64IsNaN_of_isFinite, b64IsInf_of_isFinite, ha, hb]

theorem b64Mul_of_isInf_left :
    b64Mul a b = if b64Val b = 0 then b64NaN else b64SignedInf (b64Sign a != b64Sign b) := by
  simp [b64Mul, b64IsNaN_of_isInf, b64IsNaN_of_isFinite, b64Mag_ne_zero_of_isInf, b64Mag_eq_zero_iff, ha, hb]

theorem b64Div_of_isInf_left : b64Div a b = b64SignedInf (b64Sign a != b64Sign b) := by
  simp [b64Div, b64IsNaN_of_isInf, b64IsNaN_of_isFinite, b64IsInf_of_isFinite, ha, hb]

theorem b64Div_of_isInf_right : b64Div b a = b64SignedZero (b64Sign b != b64Sign a) := by
  simp [b64Div, b64IsNaN_of_isInf, b64IsNaN_of_isFinite, b64IsInf_of_isFinite, ha, hb]

end

end

theorem b64Mul_comm (a b : B64) : b64Mul a b = b64Mul b a := by
  rw [b64Mul, b64Mul, Bool.or_comm (b64IsNaN b), Bool.or_comm (b64IsInf b), Nat.mul_comm (b64Mag b),
    Bool.or_comm (decide (b64Mag b = 0)), bne_comm]

/-! ## Bits -/

theorem getLsbD_b64Neg (v : B64) {k : Nat} (hk : k < 64) :
    (b64Neg v).getLsbD k = if k = 63 then !v.getLsbD 63 else v.getLsbD k := by
  rw [b64Neg, BitVec.getLsbD_xor, show (0x8000000000000000 : B64) = BitVec.twoPow 64 63 by decide, BitVec.getLsbD_twoPow]
  rcases eq_or_ne k 63 with rfl | h
  · simp
  · simp [h, h.symm]

/-- Settles O33, an operation and a kind of operand at a time. -/
theorem specialOperandsFollowIeee : Obligations.SpecialOperandsFollowIeee := by
  refine ⟨fun a b h => ⟨b64Add_of_isNaN h, b64Sub_of_isNaN h, b64Mul_of_isNaN h, b64Div_of_isNaN h⟩, ?_, ?_, ?_, ?_,
    fun v k hk => getLsbD_b64Neg v hk⟩
  · intro a b r hr
    simp only [List.mem_cons, List.not_mem_nil, or_false] at hr
    rcases hr with rfl | rfl | rfl | rfl
    · exact b64Add_canonical
    · exact b64Add_canonical
    · exact b64Mul_canonical
    · exact b64Div_canonical
  · intro a b ha hb
    have hb' : b64IsInf (b64Neg b) = true := by rw [b64IsInf_b64Neg, hb]
    refine ⟨b64Add_of_isInf_of_isInf ha hb, ?_, ?_, b64Div_of_isInf_of_isInf ha hb⟩
    · rw [b64Sub, b64Add_of_isInf_of_isInf ha hb', b64Sign_b64Neg]
      cases b64Sign a <;> cases b64Sign b <;> rfl
    · rw [b64Mul_of_isInf_of_isInf ha hb, b64SignedInf_bne]
  · intro a b ha hb
    have ha' : b64IsInf (b64Neg a) = true := by rw [b64IsInf_b64Neg, ha]
    have hb' : b64IsFinite (b64Neg b) = true := by rw [b64IsFinite_b64Neg, hb]
    refine ⟨b64Add_of_isInf_left ha hb, b64Add_of_isInf_right ha hb, b64Add_of_isInf_left ha hb',
      b64Add_of_isInf_right ha' hb, ?_, b64Mul_comm b a, ?_, ?_⟩
    · rw [b64Mul_of_isInf_left ha hb, b64SignedInf_bne]
      rfl
    · rw [b64Div_of_isInf_left ha hb, b64SignedInf_bne]
    · rw [b64Div_of_isInf_right ha hb, bne_comm, b64SignedZero_bne]
  · intro a b ha hb
    have hb' : b64IsFinite (b64Neg b) = true := by rw [b64IsFinite_b64Neg, hb]
    refine ⟨fun h => ?_, fun h => ?_, fun h0 hne => ?_, fun h0 h0' => ?_⟩
    · rw [b64Add_of_isFinite ha hb, if_pos h, b64SignedZero_and]
    · rw [b64Sub, b64Add_of_isFinite ha hb', b64Val_b64Neg, if_pos (by omega), b64SignedZero_and, b64Sign_b64Neg]
      simp only [Bool.not_eq_true']
    · rw [b64Div_of_isFinite ha hb, if_pos (b64Mag_eq_zero_iff.2 h0), if_neg (mt b64Mag_eq_zero_iff.1 hne),
        b64SignedInf_bne]
    · rw [b64Div_of_isFinite ha hb, if_pos (b64Mag_eq_zero_iff.2 h0), if_pos (b64Mag_eq_zero_iff.2 h0')]
      rfl

/-! ## Conversions and comparisons -/

/-- A multiple of the last place kept is rounded to itself. -/
theorem roundSig_of_dvd {n d : Nat} (hd : 0 < d) (h : d * 2 ^ roundExp n d ∣ n) :
    roundSig n d * (d * 2 ^ roundExp n d) = n := by
  obtain ⟨k, hk⟩ := h
  have hle := (roundSig_nearest_multiple (n := n) hd k).1
  have hzero : (k : Int) * (d * 2 ^ roundExp n d : Nat) - n = 0 := by
    rw [Int.sub_eq_zero, Int.mul_comm]
    exact_mod_cast hk.symm
  rw [hzero] at hle
  zify
  push_cast at hle ⊢
  omega

/-- A number of at most 53 binary places is rounded to itself. -/
theorem b64Round_exact {neg : Bool} {m u : Nat} (hm : m < 2 ^ 53) (hu : u ≤ 2044) :
    b64IsFinite (b64Round neg (m * 2 ^ u) 1) = true ∧ b64Val (b64Round neg (m * 2 ^ u) 1) = withSign neg (m * 2 ^ u) := by
  obtain ⟨M, hM⟩ : ∃ M, M = 2044 := ⟨_, rfl⟩
  have hlt : m * 2 ^ u < (2 ^ 54 - 1) * 2 ^ M * 1 := by
    have hpow : 2 ^ u ≤ 2 ^ M := Nat.pow_le_pow_right (by decide) (by omega)
    have hmul := Nat.mul_le_mul_left m hpow
    have hlt := Nat.mul_lt_mul_of_pos_right hm (Nat.two_pow_pos M)
    omega
  have hdvd : 1 * 2 ^ roundExp (m * 2 ^ u) 1 ∣ m * 2 ^ u := by
    rw [Nat.one_mul]
    refine Dvd.dvd.mul_left (pow_dvd_pow 2 ?_) m
    by_contra hgt
    have hge := (roundExp_spec (n := m * 2 ^ u) Nat.one_pos).2.resolve_left (by omega)
    have hpow : 2 ^ (u + 1) ≤ 2 ^ roundExp (m * 2 ^ u) 1 := Nat.pow_le_pow_right (by decide) (by omega)
    have hlt := Nat.mul_lt_mul_of_pos_right hm (Nat.two_pow_pos u)
    omega
  obtain ⟨hfin, hval, -⟩ := b64Round_of_lt (neg := neg) hM Nat.one_pos hlt
  have hsig := roundSig_of_dvd Nat.one_pos hdvd
  rw [Nat.one_mul] at hsig
  rw [hval, hsig]
  exact ⟨hfin, rfl⟩

/-- double(i) is exact below 2^53 (rule R11). -/
theorem b64OfInt_exact {i : Int} (hi : i.natAbs < 2 ^ 53) :
    b64IsFinite (b64OfInt i) = true ∧ b64Val (b64OfInt i) = i * (b64Unit : Int) := by
  obtain ⟨u, hu, hunit⟩ : ∃ u ≤ 2044, b64Unit = 2 ^ u := ⟨1074, by decide, b64Unit.eq_1⟩
  obtain ⟨hfin, hval⟩ := b64Round_exact (neg := decide (i < 0)) hi hu
  rw [b64OfInt, hunit]
  refine ⟨hfin, hval.trans ?_⟩
  unfold withSign
  rcases lt_or_ge i 0 with h | h
  · rw [if_pos (decide_eq_true h), Nat.cast_mul, ← Int.neg_mul, Int.ofNat_natAbs_of_nonpos h.le, Int.neg_neg]
  · rw [if_neg (by simpa using h), Nat.cast_mul, Int.natAbs_of_nonneg h]

theorem b64OfInt_zero : b64OfInt 0 = 0 := by
  rw [b64OfInt, Int.natAbs_zero, Nat.zero_mul, b64Round_zero]
  rfl

theorem b64Floor_bounds (v : B64) :
    b64Floor v * (b64Unit : Int) ≤ b64Val v ∧ b64Val v < (b64Floor v + 1) * (b64Unit : Int) := by
  have hpos : 0 < (b64Unit : Int) := Int.natCast_pos.2 b64Unit_pos
  exact ⟨Int.ediv_mul_le _ hpos.ne', Int.lt_ediv_add_one_mul_self _ hpos⟩

theorem b64TruncNat_eq_b64Floor {v : B64} (h : 0 ≤ b64Val v) : (b64TruncNat v : Int) = b64Floor v := by
  rw [b64Floor, b64Val_of_nonneg h, b64TruncNat, Int.natCast_div]

theorem b64Mag_lt {v : B64} {M : Nat} (h : b64Exp v ≤ M) : b64Mag v < 2 ^ 52 * 2 ^ M := by
  have hf := b64Frac_lt v
  have hpow : 2 ^ b64Exp v ≤ 2 ^ M := Nat.pow_le_pow_right (by decide) h
  unfold b64Mag
  split_ifs with h0
  · have := Nat.one_le_two_pow (n := M)
    omega
  · obtain ⟨e, he⟩ : ∃ e, b64Exp v = e + 1 := Nat.exists_eq_succ_of_ne_zero h0
    rw [he, Nat.pow_succ] at hpow
    rw [he, Nat.add_sub_cancel]
    have := Nat.mul_lt_mul_of_pos_right (show 2 ^ 52 + b64Frac v < 2 ^ 53 by omega) (Nat.two_pow_pos e)
    omega

/-- Every finite magnitude is below that of the infinities. -/
theorem b64Mag_lt_of_isFinite {v w : B64} (hv : b64IsFinite v = true) (hw : b64IsInf w = true) : b64Mag v < b64Mag w := by
  rw [b64IsFinite, bne_iff_ne] at hv
  obtain ⟨he, hf⟩ := b64Exp_of_isInf hw
  have hlt := b64Exp_lt v
  rw [b64Mag, b64Mag.eq_1 w, he, hf, if_neg (show 2047 ≠ 0 by decide), Nat.add_zero, ← b64Mag]
  exact b64Mag_lt (by omega)

/-- A finite value lies between the infinities. -/
theorem b64Val_between_infinities {v : B64} (hv : b64IsFinite v = true) :
    b64Val 0xFFF0000000000000 < b64Val v ∧ b64Val v < b64Val 0x7FF0000000000000 := by
  have hpos := b64Mag_lt_of_isFinite hv (show b64IsInf 0x7FF0000000000000 = true by decide)
  have hneg := b64Mag_lt_of_isFinite hv (show b64IsInf 0xFFF0000000000000 = true by decide)
  rw [b64Val_eq_withSign 0xFFF0000000000000, b64Val_eq_withSign 0x7FF0000000000000,
    show b64Sign 0xFFF0000000000000 = true by decide, show b64Sign 0x7FF0000000000000 = false by decide, withSign, withSign,
    if_pos rfl, if_neg (by decide)]
  rw [← natAbs_b64Val] at hpos hneg
  omega

/-- Settles O34: a double of at most 53 bits is a multiple of the last place kept, floor is the division by the unit, and the
comparisons are those of the values. -/
theorem conversionsAndComparisonsAreExact : Obligations.ConversionsAndComparisonsAreExact := by
  unfold Obligations.ConversionsAndComparisonsAreExact
  rw [← natCast_b64Unit]
  refine ⟨fun i hi => ?_, fun v hv => ?_, fun a b ha hb => ?_, fun a ha => ?_, fun a b h => ?_⟩
  · obtain ⟨hfin, hval⟩ := b64OfInt_exact hi
    exact ⟨hfin, hval, fun h => h ▸ b64OfInt_zero⟩
  · obtain ⟨hle, hlt⟩ := b64Floor_bounds v
    exact ⟨hle, hlt, fun h => by rw [b64TruncNat_eq_b64Floor h]; exact ⟨hle, hlt⟩⟩
  · simp [b64Lt_iff, b64Le_iff, b64IsNaN_of_isFinite, ha, hb]
  · obtain ⟨hlow, hhigh⟩ := b64Val_between_infinities ha
    have hn := b64IsNaN_of_isFinite ha
    rw [← Bool.not_eq_true, ← Bool.not_eq_true, b64Lt_iff, b64Lt_iff, b64Le_iff, b64Le_iff]
    exact ⟨⟨hn, by decide, hhigh⟩, fun h => hhigh.not_ge h.2.2, ⟨by decide, hn, hlow⟩, fun h => hlow.not_ge h.2.2⟩
  · rcases h with h | h <;> simp [b64Lt, b64Le, h]

end Sys2Proof.Machine
end

section
/-! SUPPORT. The angles of TWROM halve and turn as rule R124 says, and the table of cosines meets the half-angle formulas within
2^-52 (rules R123, R124, R125). -/

namespace Sys2Proof.Machine

/-! ## The table of cosines -/

/-- What the table holds for the angle u·pi/1024. -/
def cosVal (u : Nat) : Int := b64Val (cosQuarter u)

/-- The cosine of twice the angle, 0 <= u <= 512. -/
def cosValDouble (u : Nat) : Int := if u ≤ 256 then cosVal (2 * u) else -cosVal (1024 - 2 * u)

/-- The sine of twice the angle, 0 <= u <= 512. -/
def sinValDouble (u : Nat) : Int := cosVal (512 - 2 * (u : Int)).natAbs

/-- x + iy has length 1 and squares to X + iY, within 2^-52, in units of 2^-1074. -/
def SquaresTo (x y X Y : Int) : Prop :=
  (x * x + y * y - 2 ^ 2148).natAbs ≤ 2 ^ 2096 ∧
  (x * x - y * y - X * 2 ^ 1074).natAbs ≤ 2 ^ 2096 ∧
  (2 * x * y - Y * 2 ^ 1074).natAbs ≤ 2 ^ 2096

/-- The table, entry by entry. -/
theorem squaresTo_cosVal :
    ∀ u < 512, SquaresTo (cosVal u) (cosVal (512 - u)) (cosValDouble u) (sinValDouble u) := by
  unfold SquaresTo
  decide +kernel

section
variable {x y X Y : Int}

/-- Half a turn more squares to the same. -/
theorem SquaresTo.neg (h : SquaresTo x y X Y) : SquaresTo (-x) (-y) X Y := by
  unfold SquaresTo at h ⊢
  rwa [Int.neg_mul_neg, Int.neg_mul_neg, Int.mul_assoc, Int.neg_mul_neg, ← Int.mul_assoc]

/-- The conjugate squares to the conjugate. -/
theorem SquaresTo.conj (h : SquaresTo x y X Y) : SquaresTo x (-y) X (-Y) := by
  unfold SquaresTo at h ⊢
  obtain ⟨hlen, hre, him⟩ := h
  rw [Int.neg_mul_neg]
  refine ⟨hlen, hre, ?_⟩
  rwa [Int.mul_neg, Int.neg_mul, ← Int.natAbs_neg, Int.neg_sub, Int.sub_eq_add_neg, Int.neg_neg, Int.add_comm,
    ← Int.sub_eq_add_neg]

end

/-! ## The angles -/

theorem log2_two_mul_add {a r : Nat} (ha : 2 ≤ a) (hr : r < 2) : Nat.log2 (2 * a + r) = Nat.log2 a + 1 := by
  rw [Nat.log2_def, if_pos (by omega), show (2 * a + r) / 2 = a by omega]

theorem one_le_log2 {a : Nat} (ha : 2 ≤ a) : 1 ≤ Nat.log2 a := (Nat.le_log2 (by omega)).2 ha

theorem romLevel_two_mul_add {a r : Nat} (ha : 2 ≤ a) (hr : r < 2) : romLevel (2 * a + r) = romLevel a + 1 := by
  have := one_le_log2 ha
  rw [romLevel, romLevel, log2_two_mul_add ha hr]
  omega

theorem pow_romLevel_le {a : Nat} (ha : 2 ≤ a) : 2 ^ (romLevel a + 1) ≤ a := by
  have := one_le_log2 ha
  rw [romLevel, show Nat.log2 a - 1 + 1 = Nat.log2 a by omega]
  exact Nat.log2_self_le (by omega)

theorem romLevel_le {a : Nat} (ha : a ≤ 1023) : romLevel a ≤ 8 := by
  have : Nat.log2 a < 10 := by
    by_cases h0 : a = 0
    · rw [h0]
      decide
    · exact (Nat.log2_lt h0).2 (by omega)
  unfold romLevel
  omega

/-- Where the children of an entry lie in the next row. -/
theorem child_offset {a r : Nat} (ha : 2 ≤ a) (hr : r < 2) :
    2 * a + r - 2 ^ (romLevel (2 * a + r) + 1) = 2 * (a - 2 ^ (romLevel a + 1)) + r := by
  have := pow_romLevel_le ha
  rw [romLevel_two_mul_add ha hr, Nat.pow_succ]
  omega

theorem thetaNum_two_mul (l j : Nat) : thetaNum (l + 1) (2 * j) = thetaNum l j := by
  rw [thetaNum, Nat.mul_div_cancel_left j (by decide), if_pos (by omega)]

theorem thetaNum_two_mul_add_one (l j : Nat) :
    thetaNum (l + 1) (2 * j + 1) =
      if thetaNum l j > 0 then thetaNum l j - 2 ^ (l + 2) else thetaNum l j + 2 ^ (l + 2) := by
  rw [thetaNum, show (2 * j + 1) / 2 = j by omega, if_neg (by omega)]

/-- The angle of a child, from its level and its place in the row. -/
theorem twiddleAngle_child {a r : Nat} (ha : 2 ≤ a) (hr : r < 2) :
    twiddleAngle (2 * a + r) =
      thetaNum (romLevel a + 1) (2 * (a - 2 ^ (romLevel a + 1)) + r) * 2 ^ (9 - (romLevel a + 1)) := by
  rw [twiddleAngle, child_offset ha hr, romLevel_two_mul_add ha hr]

theorem twiddleAngle_even_child {a : Nat} (ha : 2 ≤ a) :
    twiddleAngle (2 * a) = thetaNum (romLevel a) (a - 2 ^ (romLevel a + 1)) * 2 ^ (9 - (romLevel a + 1)) := by
  have h := twiddleAngle_child (r := 0) ha (by decide)
  simpa only [Nat.add_zero, thetaNum_two_mul] using h

section
variable {a : Nat} (ha : 2 ≤ a) (ha' : a ≤ 1023)
include ha ha'

/-- The even child has half the angle. -/
theorem twiddleAngle_two_mul : 2 * twiddleAngle (2 * a) = twiddleAngle a := by
  have hl := romLevel_le ha'
  rw [twiddleAngle_even_child ha, twiddleAngle, show 9 - romLevel a = 9 - (romLevel a + 1) + 1 by omega, pow_succ]
  ring

/-- The odd child is half a turn from the even one. -/
theorem twiddleAngle_two_mul_add_one :
    twiddleAngle (2 * a + 1) =
      if twiddleAngle (2 * a) > 0 then twiddleAngle (2 * a) - 1024 else twiddleAngle (2 * a) + 1024 := by
  have hl := romLevel_le ha'
  have hturn : (2 : Int) ^ (romLevel a + 2) * 2 ^ (9 - (romLevel a + 1)) = 1024 := by
    rw [← pow_add, show romLevel a + 2 + (9 - (romLevel a + 1)) = 10 by omega]
    rfl
  have hpos : (0 : Int) < 2 ^ (9 - (romLevel a + 1)) := by positivity
  rw [twiddleAngle_even_child ha, twiddleAngle_child ha (by decide), thetaNum_two_mul_add_one]
  rcases lt_or_ge 0 (thetaNum (romLevel a) (a - 2 ^ (romLevel a + 1))) with h | h
  · rw [if_pos h, if_pos (Int.mul_pos h hpos), Int.sub_mul, hturn]
  · rw [if_neg h.not_gt, if_neg (Int.mul_nonpos_of_nonpos_of_nonneg h hpos.le).not_gt, Int.add_mul, hturn]

end

/-- No angle of TWROM is 0 or half a turn. -/
theorem twiddleAngle_bounds {a : Nat} (ha : 2 ≤ a) (ha' : a ≤ 2047) :
    twiddleAngle a ≠ 0 ∧ (twiddleAngle a).natAbs < 1024 := by
  induction a using Nat.strong_induction_on with
  | _ a ih =>
    rcases lt_or_ge a 4 with h | h
    · have : a = 2 ∨ a = 3 := by omega
      rcases this with rfl | rfl <;> decide
    · have hp := ih (a / 2) (by omega) (by omega) (by omega)
      have heven := twiddleAngle_two_mul (a := a / 2) (by omega) (by omega)
      rcases Nat.mod_two_eq_zero_or_one a with hr | hr
      · rw [show 2 * (a / 2) = a by omega] at heven
        omega
      · have hodd := twiddleAngle_two_mul_add_one (a := a / 2) (by omega) (by omega)
        rw [show 2 * (a / 2) + 1 = a by omega] at hodd
        rw [hodd]
        split <;> omega

/-- An even entry has an angle of less than a quarter turn. -/
theorem twiddleAngle_two_mul_bounds {a : Nat} (ha : 2 ≤ a) (ha' : a ≤ 1023) :
    twiddleAngle (2 * a) ≠ 0 ∧ (twiddleAngle (2 * a)).natAbs < 512 := by
  have := twiddleAngle_bounds ha (by omega)
  have := twiddleAngle_two_mul ha ha'
  omega

/-! ## The entries -/

theorem b64Neg_b64Neg (v : B64) : b64Neg (b64Neg v) = v := by
  rw [b64Neg, b64Neg, BitVec.xor_assoc, BitVec.xor_self, BitVec.xor_zero]

section
variable {t : Int}

theorem cosRom_of_le (h : t.natAbs ≤ 512) : cosRom t = cosQuarter t.natAbs := if_pos h

theorem cosRom_of_gt (h : 512 < t.natAbs) : cosRom t = b64Neg (cosQuarter (1024 - t.natAbs)) := if_neg h.not_ge

theorem sinRom_of_nonneg (h : 0 ≤ t) : sinRom t = cosRom (512 - t.natAbs) := if_neg h.not_gt

theorem sinRom_of_neg (h : t < 0) : sinRom t = b64Neg (cosRom (512 - t.natAbs)) := if_pos h

/-- cos(v ± pi) = -cos(v), for less than a quarter turn. -/
theorem cosRom_half_turn (h : t.natAbs < 512) :
    cosRom (if t > 0 then t - 1024 else t + 1024) = b64Neg (cosRom t) := by
  have hu : (if t > 0 then t - 1024 else t + 1024).natAbs = 1024 - t.natAbs := by split <;> omega
  rw [cosRom_of_gt (by omega), hu, cosRom_of_le h.le, show 1024 - (1024 - t.natAbs) = t.natAbs by omega]

/-- sin(v ± pi) = -sin(v), for less than a quarter turn. -/
theorem sinRom_half_turn (h0 : t ≠ 0) (h : t.natAbs < 512) :
    sinRom (if t > 0 then t - 1024 else t + 1024) = b64Neg (sinRom t) := by
  have hcos : ∀ v : Int, v.natAbs = 512 - t.natAbs → cosRom v = cosQuarter (512 - t.natAbs) := fun v hv => by
    rw [cosRom_of_le (by omega), hv]
  split
  next hpos =>
    rw [sinRom_of_neg (by omega), sinRom_of_nonneg hpos.le, hcos _ (by omega), hcos _ (by omega)]
  next hneg =>
    rw [sinRom_of_nonneg (by omega), sinRom_of_neg (by omega), b64Neg_b64Neg, hcos _ (by omega), hcos _ (by omega)]

/-! ## The entries as numbers -/

theorem b64Val_cosRom (h : t.natAbs ≤ 512) : b64Val (cosRom t) = cosVal t.natAbs := by
  rw [cosRom_of_le h, cosVal]

theorem b64Val_cosRom_double (h : t.natAbs ≤ 512) : b64Val (cosRom (2 * t)) = cosValDouble t.natAbs := by
  have hu : (2 * t).natAbs = 2 * t.natAbs := by omega
  unfold cosValDouble
  split
  · rw [cosRom_of_le (by omega), hu, cosVal]
  · rw [cosRom_of_gt (by omega), hu, b64Val_b64Neg, cosVal]

theorem b64Val_sinRom (h : t.natAbs ≤ 512) :
    b64Val (sinRom t) = if t < 0 then -cosVal (512 - t.natAbs) else cosVal (512 - t.natAbs) := by
  have hu : ((512 : Int) - t.natAbs).natAbs = 512 - t.natAbs := by omega
  split
  next hneg => rw [sinRom_of_neg hneg, b64Val_b64Neg, b64Val_cosRom (by omega), hu]
  next hpos => rw [sinRom_of_nonneg (by omega), b64Val_cosRom (by omega), hu]

theorem b64Val_sinRom_double (h : t.natAbs ≤ 512) :
    b64Val (sinRom (2 * t)) = if t < 0 then -sinValDouble t.natAbs else sinValDouble t.natAbs := by
  have hu : (512 : Int) - (2 * t).natAbs = 512 - 2 * t.natAbs := by omega
  unfold sinValDouble
  split
  next hneg => rw [sinRom_of_neg (by omega), b64Val_b64Neg, b64Val_cosRom (by omega), hu]
  next hpos => rw [sinRom_of_nonneg (by omega), b64Val_cosRom (by omega), hu]

/-- Half the angle squares to the angle. -/
theorem squaresTo_half (h : t.natAbs < 512) :
    SquaresTo (b64Val (cosRom t)) (b64Val (sinRom t)) (b64Val (cosRom (2 * t))) (b64Val (sinRom (2 * t))) := by
  have htable := squaresTo_cosVal t.natAbs h
  rw [b64Val_cosRom h.le, b64Val_sinRom h.le, b64Val_cosRom_double h.le, b64Val_sinRom_double h.le]
  split
  · exact htable.conj
  · exact htable

end

section
variable {a : Nat} (ha : 2 ≤ a) (ha' : a ≤ 1023)
include ha ha'

theorem twrom_two_mul_add_one :
    twrom (2 * a + 1) = ⟨b64Neg (twrom (2 * a)).re, b64Neg (twrom (2 * a)).im⟩ := by
  obtain ⟨h0, hlt⟩ := twiddleAngle_two_mul_bounds ha ha'
  rw [twrom, twromRe, twromIm, twiddleAngle_two_mul_add_one ha ha', cosRom_half_turn hlt, sinRom_half_turn h0 hlt]
  rfl

theorem squaresTo_twrom_two_mul :
    SquaresTo (b64Val (twrom (2 * a)).re) (b64Val (twrom (2 * a)).im) (b64Val (twrom a).re) (b64Val (twrom a).im) := by
  have h := squaresTo_half (twiddleAngle_two_mul_bounds ha ha').2
  rwa [twiddleAngle_two_mul ha ha'] at h

theorem squaresTo_twrom_two_mul_add_one :
    SquaresTo (b64Val (twrom (2 * a + 1)).re) (b64Val (twrom (2 * a + 1)).im) (b64Val (twrom a).re)
      (b64Val (twrom a).im) := by
  rw [twrom_two_mul_add_one ha ha', b64Val_b64Neg, b64Val_b64Neg]
  exact (squaresTo_twrom_two_mul ha ha').neg

end

/-- The entries from level 4 on square to their parents. -/
theorem squaresTo_twrom {a : Nat} (ha : 4 ≤ a) (ha' : a ≤ 2047) :
    SquaresTo (b64Val (twrom a).re) (b64Val (twrom a).im) (b64Val (twrom (a / 2)).re) (b64Val (twrom (a / 2)).im) := by
  obtain ⟨b, rfl | rfl⟩ := Nat.even_or_odd' a
  · rw [Nat.mul_div_cancel_left _ (by decide)]
    exact squaresTo_twrom_two_mul (by omega) (by omega)
  · rw [show (2 * b + 1) / 2 = b by omega]
    exact squaresTo_twrom_two_mul_add_one (by omega) (by omega)

/-- The entries the spec lists. -/
theorem twrom_listed :
    twrom 2 = ⟨0, 0x3FF0000000000000⟩ ∧ twrom 3 = ⟨0, 0xBFF0000000000000⟩ ∧
    twrom 4 = ⟨0x3FE6A09E667F3BCD, 0x3FE6A09E667F3BCD⟩ ∧ twrom 5 = ⟨0xBFE6A09E667F3BCD, 0xBFE6A09E667F3BCD⟩ ∧
    twrom 6 = ⟨0x3FE6A09E667F3BCD, 0xBFE6A09E667F3BCD⟩ ∧ twrom 7 = ⟨0xBFE6A09E667F3BCD, 0x3FE6A09E667F3BCD⟩ ∧
    twrom 1024 = ⟨0x3FEFFFF621621D02, 0x3F6921F8BECCA4BA⟩ ∧
    twrom 1026 = ⟨0x3F6921F8BECCA4BA, 0xBFEFFFF621621D02⟩ ∧
    twrom 2047 = ⟨0xBFE00740C82B82E1, 0x3FEBB249A0B6C40D⟩ := by
  decide +kernel

/-- Settles O36: the even child halves the angle and the odd one turns it by half a turn, so that the entries are those of less
than a quarter turn up to signs, and these are checked against the table. -/
theorem twiddleRomFollowsTheAngles : Obligations.TwiddleRomFollowsTheAngles := by
  refine ⟨⟨by decide, by decide, fun a ha ha' => ⟨twiddleAngle_two_mul ha ha', ?_⟩⟩, twrom_listed,
    fun a ha ha' => twrom_two_mul_add_one ha ha', fun a ha ha' => squaresTo_twrom ha ha'⟩
  rw [twiddleAngle_two_mul_add_one ha ha']
  split <;> split <;> omega

end Sys2Proof.Machine
end
